-- ==== Sys2Proof/Word.lean ====
section
/-! DEFINITION. The word types of the GRD engine: a byte (the only addressable unit, R40), the 16-bit and 32-bit
fields of the container (R60), a node index (`idx9`, R8) and a channel offset (R26). -/

namespace Sys2Proof

/-- One byte, `u8` (R8). -/
abbrev Byte := BitVec 8

/-- A `u16` field of the container header (R100). -/
abbrev U16 := BitVec 16

/-- A 32-bit field: `u32`, or `i32` where a rule reads it through `BitVec.toInt` (R60). -/
abbrev U32 := BitVec 32

/-- A node index, `idx9` (R8, R38). -/
abbrev Idx9 := BitVec 9

/-- A channel offset PCH: 0 = B, 1 = G, 2 = R, 3 = A (R26, R241). -/
abbrev Chan := BitVec 2

end Sys2Proof
end

