-- ==== Sys2Proof/Config.lean ====
section
/-! DEFINITION. What the spec fixes as a literal (R6), what an implementation fixes (R7), and the free values of a host's read. R7 lets
the model fix FILL (D8), FREQ_SUM (D6) and LEAF_ORDER (D5), and the three capacities are plain data that the state
carries, so that every statement over all states holds for every capacity. -/

namespace Sys2Proof.Config

/-- FILL, the byte every buffer cell holds before the engine writes it (R7, decided 0x00 by D8). -/
def fill : Byte := 0x00#8

/-- NODE_SLOTS (R6). -/
abbrev nodeSlots : Nat := 512

/-- LEAVES, and also FIRST_INTERNAL (R6). -/
abbrev leaves : Nat := 256

/-- ROOT_INDEX (R6), the index of the root after a build (R136). -/
abbrev rootIndex : Nat := 510

/-- HDR_LEN, bytes of the container header (R6). -/
abbrev hdrLen : Nat := 0x20

/-- SUBHDR_LEN, bytes of a Huffman plane's sub-header (R6). -/
abbrev subHdrLen : Nat := 0x408

/-- LZ_SPECIAL_OFF, offset of the escape byte in the intermediate sequence (R6). -/
abbrev lzSpecialOff : Nat := 8

/-- LZ_PAYLOAD_OFF, offset of the LZ payload in the intermediate sequence (R6). -/
abbrev lzPayloadOff : Nat := 12

/-- VARIANT_RLE, VARIANT_HUF_RLE, VARIANT_HUF_LZ (R6). -/
def variantRle : Byte := 0x01#8
def variantHufRle : Byte := 0xA1#8
def variantHufLz : Byte := 0xA2#8

/-- The capacities SRC_CAP, MID_CAP, PLANE_CAP, which R7 and D2 leave OPEN. `none` is "no bound", the setting D2 calls
exact; `some c` is an implementation of capacity `c`. -/
structure Caps where
  srcCap : Option Nat
  midCap : Option Nat
  planeCap : Option Nat
deriving DecidableEq, Repr

/-- All three capacities infinite (D2). -/
def Caps.unbounded : Caps := { srcCap := none, midCap := none, planeCap := none }

/-- `n` exceeds the capacity `cap`. -/
def exceeds (n : Nat) (cap : Option Nat) : Bool :=
  match cap with
  | none => false
  | some c => decide (c < n)

/-- FREE VALUE (log 23): what the host's read number `k` returns from a register of `w` bits that R37, R46 or R252 calls
unspecified when it is read. -/
opaque unspecifiedRead (w k : Nat) : BitVec w

/-- FREE VALUE (log 23): what the host's read number `k` returns from SRCLEN, a natural number of no fixed width (R34),
while BUSY (R37). -/
opaque unspecifiedLength (k : Nat) : Nat

end Sys2Proof.Config
end

