-- ==== Sys2Proof/Syntax.lean ====
section
/-! DEFINITION. The syntax of what the engine executes: one constructor per row of spec/opcode_table.json, in the
table's order. The stream codes carry their operand fields (R104, R106, R110), the three records carry every field of
their layout (R100, R102, R105), the unit operations carry the operands their rule gives them that are no register
(R170 for RLE.EXPAND), and the host's LOAD carries the container's bytes (R230). -/

namespace Sys2Proof

/-- The container header, format CH (R100): 13 fields that tile 32 bytes. The state's header latches (R31) are one
value of this type. -/
structure Header where
  format : Byte
  variant : Byte
  screenW : U16
  screenH : U16
  bpp : U16
  left : U16
  right : U16
  top : U16
  bottom : U16
  aSize : U32
  rSize : U32
  gSize : U32
  bSize : U32
deriving DecidableEq, Repr

/-- The Huffman sub-header, format SH (R102): `decodedLength`, `packedLength` and the 256 leaf frequencies. -/
structure SubHeader where
  decodedLength : U32
  packedLength : U32
  freqs : Vector U32 256
deriving DecidableEq, Repr

/-- The head of the intermediate sequence under variant 0xA2, format LH (R105). -/
structure LzHeader where
  word0 : U32
  word1 : U32
  special : Byte
  pad : BitVec 24
deriving DecidableEq, Repr

/-- Which space a run stream is read from (RSRC, R24): SRC under variant 0x01, MID under 0xA1. -/
inductive RunSource where
  | src
  | mid
deriving DecidableEq, Repr

/-- Every row of spec/opcode_table.json. -/
inductive Instr where
  /-- NOP, RLE control byte 0x00 (R176). -/
  | nop
  /-- LIT, RLE control byte `0nnnnnnn`, n ≠ 0 (R175). -/
  | lit (n : BitVec 7)
  /-- REP, RLE control byte `1nnnnnnn` (R174). -/
  | rep (n : BitVec 7)
  /-- LZLIT, a byte other than SPECIAL (R192). -/
  | lzlit (b : Byte)
  /-- LZESC, SPECIAL twice (R194). -/
  | lzesc
  /-- LZCPY: SPECIAL, the offset byte, the count byte (R195 to R197). -/
  | lzcpy (o : Byte) (cnt : Byte)
  /-- HB0, payload bit 0 (R153). -/
  | hb0
  /-- HB1, payload bit 1 (R153). -/
  | hb1
  /-- EMIT, not encoded: the walk stands on a leaf (R103, R155). -/
  | emit
  /-- FORMAT.1 (R212). -/
  | format1
  /-- FORMAT.2 (R212). -/
  | format2
  /-- VARIANT.RLE, 0x01 (R218). -/
  | variantRle
  /-- VARIANT.HUFRLE, 0xA1 (R218). -/
  | variantHufRle
  /-- VARIANT.HUFLZ, 0xA2 (R218). -/
  | variantHufLz
  /-- BPP.24 (R215). -/
  | bpp24
  /-- BPP.32 (R215). -/
  | bpp32
  /-- HDR, the container header record (R211). -/
  | hdr (h : Header)
  /-- SUBHDR, a plane's sub-header record (R219). -/
  | subhdr (t : SubHeader)
  /-- LZHDR, the head of the intermediate sequence (R190). -/
  | lzhdr (h : LzHeader)
  /-- SEQ.DECODE, the whole command (R232). -/
  | seqDecode
  /-- HTB.BUILD (R133). -/
  | htbBuild
  /-- HUF.DECODE (R155). -/
  | hufDecode
  /-- RLE.EXPAND with R170's operands: the stream's space, its base offset, its source budget (R173). -/
  | rleExpand (sp : RunSource) (base : Nat) (budget : Nat)
  /-- LZ.EXPAND (R193). -/
  | lzExpand
  /-- PIL.PLACE (R242). -/
  | pilPlace
  /-- LOAD, host command (R230). -/
  | load (bytes : List Byte)
  /-- START, host command (R210). -/
  | start
  /-- RESET, host command (R280). -/
  | reset
deriving DecidableEq, Repr

end Sys2Proof
end

