-- ==== Sys2Proof/Machine/State.lean ====
section
/-! DEFINITION. The state of the GRD engine, plain data: every register, latch, flag, table, list and memory space that
10_state.md gives it, grouped as that file groups them (R21 to R44), and the few fields of the model's own (the
sequencer's position and 256 frequencies in hand, the grain of a step, the host's coming moves, the capacities, which
latches have been written). Also the named ways a step can stop, and the state after reset (R46, R280). -/

namespace Sys2Proof.Machine

/-! ## Memory spaces -/

/-- The four memory spaces (R40). -/
inductive SpaceId where
  | src
  | mid
  | plane
  | pix
deriving DecidableEq, Repr

/-- One memory space: `len` byte cells at offsets 0 to `len - 1` (R40). `cells` lists, with offsets strictly rising, the
cells that do not hold FILL; a cell below `len` that is not listed holds FILL (R154, R215, R217). An offset at or above
`len` does not exist. -/
structure Memory where
  len : Nat
  cells : List Host.Cell
deriving DecidableEq, Repr

/-- A space of `n` cells, every one FILL (R154, R215, R217). -/
def Memory.filled (n : Nat) : Memory := { len := n, cells := [] }

/-! ## Registers -/

/-- STATUS (R30). -/
inductive Status where
  | idle
  | busy
  | done
  | reject
  | error
deriving DecidableEq, Repr

/-- The number a host reads from STATUS (R30). -/
def Status.code (x : Status) : BitVec 3 :=
  match x with
  | .idle => 0#3
  | .busy => 1#3
  | .done => 2#3
  | .reject => 3#3
  | .error => 4#3

/-- ERRCAUSE (R35); `none` is the value 0 it holds outside an error (R210). -/
inductive ErrCause where
  | none
  | invalidBackReference
  | malformedHuffmanTable
  | badSubHeader
deriving DecidableEq, Repr

/-- The number a host reads from ERRCAUSE (R35). -/
def ErrCause.code (x : ErrCause) : BitVec 2 :=
  match x with
  | .none => 0#2
  | .invalidBackReference => 1#2
  | .malformedHuffmanTable => 2#2
  | .badSubHeader => 3#2

/-- ERRCAUSE, ERRPLANE, ERRPOS, ERROFF (R35). -/
structure ErrRegs where
  cause : ErrCause
  plane : Chan
  pos : Nat
  off : Byte
deriving DecidableEq, Repr

/-- The error registers as START and RESET leave them (R210, R280). -/
def ErrRegs.clear : ErrRegs := { cause := .none, plane := 0, pos := 0, off := 0 }

/-- The derived latches WIDTH, HEIGHT, N, ALPHA, BYPP, PIXFMT (R32). -/
structure Derived where
  width : Nat
  height : Nat
  n : Nat
  alpha : Bool
  bypp : Nat
  pixFmt : Bool
deriving DecidableEq, Repr

/-- The sub-header latches HLEN, PACKLEN (signed) and the LZ header words LZHDR0, LZHDR1 (R33). -/
structure SubLatches where
  hlen : U32
  packLen : U32
  lzhdr0 : U32
  lzhdr1 : U32
deriving DecidableEq, Repr

/-- BR, the bit reader: PAYBASE, PAYLEN, BYTEP, BITI (R21). -/
structure BrRegs where
  payBase : Nat
  payLen : Nat
  byteP : Nat
  bitI : BitVec 3
deriving DecidableEq, Repr

/-- HSW, the symbol walker: ROOT, CUR, HPROD (R22). -/
structure HswRegs where
  root : Idx9
  cur : Idx9
  hprod : Nat
deriving DecidableEq, Repr

/-- One slot of NODE: `freq`, `left`, `right` (R38). -/
structure Node where
  freq : U32
  left : Idx9
  right : Idx9
deriving DecidableEq, Repr

/-- What a tree build works on: the node table NODE (R38), the ordered list LIST (R39) and NEXT (R23). -/
structure Htb where
  node : Vector Node 512
  list : List Idx9
  next : Idx9
deriving DecidableEq, Repr

/-- The RLE expander: RSRC, RBASE, RSRCB, RSP, RDSTB, RDP, RC, RV, RLEN (R24). -/
structure RleRegs where
  rsrc : RunSource
  rbase : Nat
  rsrcb : Nat
  rsp : Nat
  rdstb : Nat
  rdp : Nat
  rc : Byte
  rv : Byte
  rlen : BitVec 7
deriving DecidableEq, Repr

/-- LZX, the LZ expander: SPECIAL, LLEN, LSP, LDSTB, LDP, LB, LOB, LCNT, LOFF (R25). -/
structure LzRegs where
  special : Byte
  llen : Nat
  lsp : Nat
  ldstb : Nat
  ldp : Nat
  lb : Byte
  lob : Byte
  lcnt : Byte
  loff : Byte
deriving DecidableEq, Repr

/-- SEQ and PIL: POFF, PSIZE, PCH, PY, PX (R26). -/
structure SeqRegs where
  poff : Nat
  psize : Nat
  pch : Chan
  py : Nat
  px : Nat
deriving DecidableEq, Repr

/-- The sequencer's position in its fixed plan, which R27 makes control state: the next thing the engine does. -/
inductive Stage where
  /-- No command is running. -/
  | idle
  /-- HDR.READ is next (R211). -/
  | hdrRead
  /-- The FORMAT selector is next (R212). -/
  | hdrFormat
  /-- The other selectors, the sizes and the geometry are next (R212 to R214). -/
  | hdrCheck
  /-- The BPP selector and PIX.INIT are next (R215). -/
  | pixFormat
  /-- The plan of R216 is about to start. -/
  | plan
  /-- The plan of R216 has come to the plane of this channel. -/
  | select (ch : Chan)
  /-- DECODE_PLANE is next (R218). -/
  | policy
  /-- SUBHDR.READ is next (R219). -/
  | subhdr
  /-- HTB.BUILD is next (R133). -/
  | build
  /-- HUF.DECODE is next (R155). -/
  | huff
  /-- Inside HUF.DECODE's loop (R155). -/
  | huffWalk
  /-- The plane's final expansion is next (R218). -/
  | expand
  /-- Inside RLE.EXPAND's loop (R173). -/
  | rle
  /-- Inside LZ.EXPAND's loop (R193). -/
  | lz
  /-- PIL.PLACE is next (R216). -/
  | place
  /-- POFF moves past the plane's range (R216). -/
  | advance
deriving DecidableEq, Repr

/-- How much one step of a running command does: a whole command, a whole plane's DECODE_PLANE, a whole unit operation,
or one stream code. R231 and D20 allow each; no rule tells them apart. The field is the model's own. -/
inductive Grain where
  | command
  | plane
  | unit
  | code
deriving DecidableEq, Repr

/-- One coming move of the host (R230): LOAD, START, RESET, or no move during one step. -/
inductive HostEvent where
  | load (bytes : List Byte)
  | start
  | reset
  | wait
deriving DecidableEq, Repr

/-- Which latches a command has written since its START: R46 leaves each group unspecified from START or reset until the
rule that writes it. No rule reads a flag; they say which of the host's reads return the latch (log 24). -/
structure LatchFlags where
  /-- FORMAT to BSIZE, by HDR.READ (R211). -/
  hdr : Bool
  /-- HLEN and PACKLEN, by SUBHDR.READ (R219). -/
  sub : Bool
  /-- LZHDR0 and LZHDR1, by LZ.INIT (R190). -/
  lzhdr : Bool
deriving DecidableEq, Repr

/-- No latch written, as START and RESET leave it (R46). -/
def LatchFlags.clear : LatchFlags := { hdr := false, sub := false, lzhdr := false }

/-- The whole state (R20). -/
structure State where
  /-- STATUS (R30). -/
  status : Status
  /-- TRUNC, bit 2 × ch + (s − 1) for channel ch and stage s (R36). -/
  trunc : BitVec 8
  /-- The error registers (R35). -/
  err : ErrRegs
  /-- The header latches FORMAT to BSIZE (R31). -/
  hdr : Header
  /-- The derived latches (R32). -/
  drv : Derived
  /-- The sub-header latches (R33). -/
  sub : SubLatches
  /-- BR (R21). -/
  br : BrRegs
  /-- HSW (R22). -/
  hsw : HswRegs
  /-- NODE, LIST and NEXT (R38, R39, R23). -/
  htb : Htb
  /-- The 256 frequencies f[0..255] that SUBHDR.READ hands to HTB.BUILD (R219, R133). -/
  freqs : Vector U32 256
  /-- The RLE expander (R24). -/
  rle : RleRegs
  /-- LZX (R25). -/
  lz : LzRegs
  /-- SEQ and PIL (R26). -/
  seq : SeqRegs
  /-- SRC (R41); its length is the register SRCLEN (R34). -/
  src : Memory
  /-- MID (R42). -/
  mid : Memory
  /-- PLANE (R43). -/
  plane : Memory
  /-- PIX (R44). -/
  pix : Memory
  /-- The sequencer's position (R27). -/
  stage : Stage
  /-- How much one step does (D20); the model's own. -/
  grain : Grain
  /-- The host's coming moves, first one first (R230); the model's own. -/
  host : List HostEvent
  /-- SRC_CAP, MID_CAP, PLANE_CAP (R7, D2); no rule writes them. -/
  caps : Config.Caps
  /-- Which latches the command has written (R46); the model's own (log 24). -/
  latched : LatchFlags
deriving DecidableEq, Repr

/-! ## How a step can stop -/

/-- A stop of the model, none of which a run from reset reaches: the spec has no access fault because every access is in
bounds by construction (R70, R250). -/
inductive Fault where
  /-- Raised by every memory operation: offset `a` of the space does not exist (R40). Safe: the spec gives such an access
  no meaning. -/
  | outOfRange (sp : SpaceId) (a : Nat)
  /-- Raised by HB0 and HB1 when CUR is no internal node: a leaf's children and slot 511 have no specified value (R38,
  R153, U14). Safe: the spec makes reading them a fault of the model (R46). -/
  | nodeUnspecified (i : Idx9)
  /-- Raised by EMIT when CUR is no leaf: EMIT happens only when CUR < 256 (R103). Safe: the spec gives it no byte to
  write. -/
  | emitInternal (i : Idx9)
deriving DecidableEq, Repr

/-- What the model has no step for. -/
inductive Refusal where
  /-- Raised by `exec` alone, for an instruction that has no meaning yet; no arm raises it. Safe. -/
  | notModelled (mnemonic : String)
  /-- Raised by LOAD and START while STATUS is BUSY: the host has no such move (R230, R273, U13). Safe. -/
  | hostMoveWhileBusy
  /-- Raised by LOAD of a container longer than SRC_CAP (R7, R273). Safe. -/
  | srcOverCap
  /-- Raised by the geometry of R214 when N exceeds PLANE_CAP (R273, D2). Safe. -/
  | planeOverCap
  /-- Raised by `hostRead` for a read outside the "allowed when" column of R230, which R273 and U13 make the model refuse.
  Safe. -/
  | hostReadNotAllowed
deriving DecidableEq, Repr

/-! ## Reset -/

/-- A header latch group of zeros. DESIGN CHOICE (log 1): R46 leaves the latches unspecified after reset. -/
def zeroHeader : Header where
  format := 0
  variant := 0
  screenW := 0
  screenH := 0
  bpp := 0
  left := 0
  right := 0
  top := 0
  bottom := 0
  aSize := 0
  rSize := 0
  gSize := 0
  bSize := 0

/-- The machine right after reset (R46, R280): STATUS IDLE, TRUNC and the error registers 0, SRC empty (SRCLEN 0), LIST
empty. Everything else R46 leaves unspecified: the registers and NODE are 0 (DESIGN CHOICE, log 1), and MID, PLANE and
PIX have no cell, so that no claim can read one (DESIGN CHOICE, log 2). The sequencer is idle, a step is one stream code
(log 4), the host has no move coming (log 5), the capacities are infinite (log 6), no latch has been written (log 24). -/
def State.reset : State where
  status := .idle
  trunc := 0
  err := ErrRegs.clear
  hdr := zeroHeader
  drv := { width := 0, height := 0, n := 0, alpha := false, bypp := 0, pixFmt := false }
  sub := { hlen := 0, packLen := 0, lzhdr0 := 0, lzhdr1 := 0 }
  br := { payBase := 0, payLen := 0, byteP := 0, bitI := 0 }
  hsw := { root := 0, cur := 0, hprod := 0 }
  htb := { node := Vector.replicate 512 { freq := 0, left := 0, right := 0 }, list := [], next := 0 }
  freqs := Vector.replicate 256 0
  rle := { rsrc := .src, rbase := 0, rsrcb := 0, rsp := 0, rdstb := 0, rdp := 0, rc := 0, rv := 0, rlen := 0 }
  lz := { special := 0, llen := 0, lsp := 0, ldstb := 0, ldp := 0, lb := 0, lob := 0, lcnt := 0, loff := 0 }
  seq := { poff := 0, psize := 0, pch := 0, py := 0, px := 0 }
  src := Memory.filled 0
  mid := Memory.filled 0
  plane := Memory.filled 0
  pix := Memory.filled 0
  stage := .idle
  grain := .code
  host := []
  caps := Config.Caps.unbounded
  latched := LatchFlags.clear

end Sys2Proof.Machine
end

