-- ==== Sys2Proof/Machine/Ops.lean ====
section
/-! DEFINITION. The named operations over the memory spaces and the registers that every meaning is built from: reading
and writing one byte of a space (R9, R40), sequencing (R71), and the three ways a command ends: `reject` (R252), the
fatal entry `raise` (R256) and DONE (R232). There is no return from a fatal entry: nothing is saved for resumption and
the only ways on are the host's LOAD, START and RESET (R261). -/

namespace Sys2Proof.Machine

/-! ## One memory space -/

/-- The value of the cell at offset `a`: a cell that is not listed holds FILL. -/
def Memory.lookup : List Host.Cell → Nat → Byte
  | [], _ => Config.fill
  | c :: rest, a => if c.1 = a then c.2 else Memory.lookup rest a

/-- The listed cells without the one at offset `a`. -/
def Memory.erase (cells : List Host.Cell) (a : Nat) : List Host.Cell :=
  cells.filter fun c => c.1 != a

/-- Lists a cell before the first listed offset that is not lower. -/
def Memory.insert : List Host.Cell → Nat → Byte → List Host.Cell
  | [], a, v => [(a, v)]
  | c :: rest, a, v => if c.1 < a then c :: Memory.insert rest a v else (a, v) :: c :: rest

/-- The listed cells after `v` is stored at `a`; storing FILL unlists the cell. -/
def Memory.put (cells : List Host.Cell) (a : Nat) (v : Byte) : List Host.Cell :=
  if v = Config.fill then Memory.erase cells a else Memory.insert (Memory.erase cells a) a v

/-- Reads the byte at offset `a`; nothing when the space has no such cell (R40). -/
def Memory.read (m : Memory) (a : Nat) : Option Byte :=
  if a < m.len then some (Memory.lookup m.cells a) else none

/-- The space with the byte `v` at offset `a`. -/
def Memory.set (m : Memory) (a : Nat) (v : Byte) : Memory := { m with cells := Memory.put m.cells a v }

/-- Writes the byte `v` at offset `a`; nothing when the space has no such cell (R40). -/
def Memory.write (m : Memory) (a : Nat) (v : Byte) : Option Memory :=
  if a < m.len then some (m.set a v) else none

/-- The listed cells of bytes that stand from offset `i` on. -/
def Memory.cellsFrom : Nat → List Byte → List Host.Cell
  | _, [] => []
  | i, b :: rest => if b = Config.fill then Memory.cellsFrom (i + 1) rest else (i, b) :: Memory.cellsFrom (i + 1) rest

/-- The space that holds exactly the bytes `bs` from offset 0 on (LOAD, R230). -/
def Memory.ofBytes (bs : List Byte) : Memory := { len := bs.length, cells := Memory.cellsFrom 0 bs }

/-- The canonical form: offsets strictly rising, every listed cell inside the space and different from what an unlisted
cell reads as. -/
abbrev Memory.wf (m : Memory) : Prop :=
  m.cells.Pairwise (fun c d => c.1 < d.1) ∧ ∀ c ∈ m.cells, c.1 < m.len ∧ c.2 ≠ Config.fill

/-! ## The four spaces of a state -/

/-- The space a name stands for (R40). -/
def State.space (s : State) (sp : SpaceId) : Memory :=
  match sp with
  | .src => s.src
  | .mid => s.mid
  | .plane => s.plane
  | .pix => s.pix

/-- The state with one space replaced. -/
def State.setSpace (s : State) (sp : SpaceId) (m : Memory) : State :=
  match sp with
  | .src => { s with src := m }
  | .mid => { s with mid := m }
  | .plane => { s with plane := m }
  | .pix => { s with pix := m }

/-- `SPACE[a]` (R9). -/
def State.byteAt (s : State) (sp : SpaceId) (a : Nat) : Option Byte := (s.space sp).read a

/-- SRCLEN, the length of SRC (R34). -/
def State.srcLen (s : State) : Nat := s.src.len

/-- All four spaces are in canonical form. -/
abbrev State.memWf (s : State) : Prop := s.src.wf ∧ s.mid.wf ∧ s.plane.wf ∧ s.pix.wf

/-- The `n` bytes of a space from offset `a` on, lowest first; nothing when one of them does not exist (R9). -/
def State.bytesAt (s : State) (sp : SpaceId) (a : Nat) : Nat → Option (List Byte)
  | 0 => some []
  | n + 1 =>
    match s.byteAt sp a with
    | none => none
    | some b =>
      match State.bytesAt s sp (a + 1) n with
      | none => none
      | some bs => some (b :: bs)

/-- The bytes of a space at offsets `a` to `a + n - 1`, with FILL in place of those that do not exist: for a record that
may stand half outside, of which the meaning uses only what exists (R190). -/
def State.paddedAt (s : State) (sp : SpaceId) (a : Nat) : Nat → List Byte
  | 0 => []
  | n + 1 => (s.byteAt sp a).getD Config.fill :: State.paddedAt s sp (a + 1) n

/-! ## Sequencing -/

/-- How a piece of a rule's pseudocode ends: it goes on, or the command has ended (`reject` and `raise` end the command,
R9), or the model stops. -/
inductive Flow where
  | go (s : State)
  | stop (s : State)
  | fault (f : Fault)
  | refuse (r : Refusal)
deriving DecidableEq, Repr

/-- `x`, then `f` unless `x` ended the command (program order, R71). -/
def Flow.andThen (x : Flow) (f : State → Flow) : Flow :=
  match x with
  | .go s => f s
  | .stop s => .stop s
  | .fault e => .fault e
  | .refuse r => .refuse r

/-- The outcome of an instruction: an ended command is a next state like any other (R252, R256). -/
def Flow.toOutcome (x : Flow) : Host.Outcome State Fault Refusal :=
  match x with
  | .go s => .next s
  | .stop s => .next s
  | .fault e => .fault e
  | .refuse r => .refused r

/-- Reads `SPACE[a]` and goes on with it. -/
def withByte (sp : SpaceId) (a : Nat) (s : State) (k : Byte → Flow) : Flow :=
  match s.byteAt sp a with
  | none => .fault (.outOfRange sp a)
  | some b => k b

/-- Reads `n` bytes of a space from offset `a` on and goes on with them. -/
def withBytes (sp : SpaceId) (a n : Nat) (s : State) (k : List Byte → Flow) : Flow :=
  match s.bytesAt sp a n with
  | none => .fault (.outOfRange sp a)
  | some bs => k bs

/-- `MemWrite(SPACE, a, 1, v)` (R9). -/
def putByte (sp : SpaceId) (a : Nat) (v : Byte) (s : State) : Flow :=
  match (s.space sp).write a v with
  | none => .fault (.outOfRange sp a)
  | some m => .go (s.setSpace sp m)

/-! ## The ends of a command -/

/-- `reject` (R252): STATUS becomes REJECT and the command ends; nothing else is written. -/
def reject (s : State) : Flow := .stop { s with status := .reject, stage := .idle }

/-- `raise DecodeError(cause, info)`, the fatal entry (R256): ERRCAUSE, ERRPLANE (PCH), ERRPOS and ERROFF are written,
STATUS becomes ERROR and the command ends. -/
def raise (cause : ErrCause) (pos : Nat) (off : Byte) (s : State) : Flow :=
  .stop { s with
    err := { cause := cause, plane := s.seq.pch, pos := pos, off := off }
    status := .error
    stage := .idle }

/-- The last line of SEQ.DECODE (R232): STATUS becomes DONE and the command ends. -/
def finish (s : State) : Flow := .stop { s with status := .done, stage := .idle }

end Sys2Proof.Machine
end

