-- ==== Sys2Proof/Machine/Operands.lean ====
section
/-! DEFINITION. The operand forms and address computations of the rules: the immediates of the stream codes (R110), the
clamped counts (R174, R175, R196), the signed lengths (R60, R219), the geometry (R214), the plan's plane sizes (R216) and
the pixel address (R44). -/

namespace Sys2Proof.Machine

/-! ## Streams -/

/-- The space a run stream is read from (R24). -/
def runSpace (x : RunSource) : SpaceId :=
  match x with
  | .src => .src
  | .mid => .mid

/-- The number of bytes a REP of length `n` emits: cut at the destination budget (R174). -/
def repCount (n : BitVec 7) (r : RleRegs) : Nat := min n.toNat (r.rdstb - r.rdp)

/-- The number of bytes a LIT of count `n` copies: cut at both budgets (R175). -/
def litCount (n : BitVec 7) (r : RleRegs) : Nat := min n.toNat (min (r.rsrcb - r.rsp) (r.rdstb - r.rdp))

/-- The logical distance of an LZCPY's offset byte (R197, R110 (d)); the comparison is unsigned. -/
def lzDistance (special o : Byte) : Byte := if special < o then o - 1 else o

/-- `wire`, the offset byte that stands for distance `d` (R122): the inverse of `lzDistance`. -/
def lzWire (special d : Byte) : Byte := if d < special then d else d + 1

/-- The number of bytes an LZCPY of count `cnt` copies: cut at the destination budget (R196). -/
def copyCount (cnt : Byte) (r : LzRegs) : Nat := min cnt.toNat (r.ldstb - r.ldp)

/-- The bytes of a token that MID still holds: at most three, none beyond LLEN (R191). -/
def tokenWindow (r : LzRegs) : Nat := min 3 (r.llen - r.lsp)

/-- BR has no bit left (R152). -/
def brExhausted (r : BrRegs) : Bool := decide (r.payLen ≤ r.byteP)

/-- The payload bits BR has not consumed (R21). -/
def bitsLeft (r : BrRegs) : Nat := 8 * (r.payLen - r.byteP) - r.bitI.toNat

/-- HLEN as a length: the signed field where it is not negative (R155, R219). -/
def hlenOf (x : SubLatches) : Nat := x.hlen.toInt.toNat

/-! ## The header -/

/-- WIDTH from LEFT and RIGHT, HEIGHT from TOP and BOTTOM: the absolute difference over the integers (R214). -/
def edgeSpan (a b : U16) : Nat := ((b.toNat : Int) - (a.toNat : Int)).natAbs

/-- The size sum of R213 over the unbounded integers. -/
def sizeSum (h : Header) : Int := 0x20 + h.aSize.toInt + h.rSize.toInt + h.gSize.toInt + h.bSize.toInt

/-- One of the four sizes is negative (R213). -/
def sizeNegative (h : Header) : Bool :=
  decide (h.aSize.toInt < 0) || decide (h.rSize.toInt < 0) || decide (h.gSize.toInt < 0) || decide (h.bSize.toInt < 0)

/-- The size field of the plane of channel `ch` (R216). -/
def sizeField (h : Header) (ch : Chan) : U32 :=
  if ch = 3#2 then h.aSize else if ch = 2#2 then h.rSize else if ch = 1#2 then h.gSize else h.bSize

/-- PSIZE of the plane of channel `ch` (R216); the size is not negative in an accepted header (R213). -/
def planeSize (s : State) (ch : Chan) : Nat := (sizeField s.hdr ch).toInt.toNat

/-- The plane of channel `ch` is present (R216): alpha when ALPHA is 1, a colour when its size is positive. -/
def planePresent (s : State) (ch : Chan) : Bool :=
  if ch = 3#2 then s.drv.alpha else decide (0 < (sizeField s.hdr ch).toInt)

/-! ## Pixels -/

/-- The offset in PIX of the byte of channel `ch` of the pixel at column `x` of output row `y` (R44). -/
def pixOffset (d : Derived) (ch : Chan) (y x : Nat) : Nat := (y * d.width + x) * d.bypp + ch.toNat

/-- The offset in PLANE that PIL reads for output row `y`, column `x`: the rows are reversed (R242). -/
def planeOffset (d : Derived) (y x : Nat) : Nat := (d.height - 1 - y) * d.width + x

end Sys2Proof.Machine
end

