-- ==== Sys2Proof/Machine/Flags.lean ====
section
/-! DEFINITION. The truncation flags, the only status flags of the hardware (R36), and the three conditions that set
one: a unit ends with fewer bytes produced than its destination budget (R156, R177, R198). -/

namespace Sys2Proof.Machine

/-- The bit of TRUNC for channel `ch` and stage `st`, 1 or 2 (R36). -/
def truncIndex (ch : Chan) (st : Nat) : Nat := 2 * ch.toNat + (st - 1)

/-- `set TRUNC(PCH, st)` for the plane in hand (R9, R36): one bit is set, none is cleared. -/
def setTrunc (st : Nat) (s : State) : State :=
  { s with trunc := s.trunc ||| (1#8 <<< truncIndex s.seq.pch st) }

/-- The end of HUF.DECODE: truncated iff HPROD < HLEN (R156). -/
def hufEnd (s : State) : State := if s.hsw.hprod < hlenOf s.sub then setTrunc 1 s else s

/-- The end of RLE.EXPAND: truncated iff RDP < RDSTB (R177). -/
def rleEnd (s : State) : State := if s.rle.rdp < s.rle.rdstb then setTrunc 2 s else s

/-- The end of LZ.EXPAND: truncated iff LDP < LDSTB (R198). -/
def lzEnd (s : State) : State := if s.lz.ldp < s.lz.ldstb then setTrunc 2 s else s

end Sys2Proof.Machine
end

