-- ==== Sys2Proof/Machine/HostPort.lean ====
section
/-! DEFINITION. The host interface (44_channel_scheme_sequencer.md rule R230, 10_state.md rule R37): the moves LOAD, START,
RESET, and what the host may read. The host has no other move. -/

namespace Sys2Proof.Machine

/-- LOAD (R230): SRC and SRCLEN take the container. The host has no such move while STATUS is BUSY (R285), nor for a
container longer than SRC_CAP (R273). -/
def hostLoad (bytes : List Byte) (s : State) : Flow :=
  if s.status = .busy then .refuse .hostMoveWhileBusy
  else if Config.exceeds bytes.length s.caps.srcCap then .refuse .srcOverCap
  else .go { s with src := Memory.ofBytes bytes }

/-- START (R210): STATUS becomes BUSY, TRUNC and the error registers are cleared, no latch counts as written any more (R46),
and the engine stands before the first line of SEQ.DECODE. -/
def hostStart (s : State) : Flow :=
  if s.status = .busy then .refuse .hostMoveWhileBusy
  else .go { s with status := .busy, trunc := 0, err := ErrRegs.clear, stage := .hdrRead, latched := LatchFlags.clear }

/-- RESET (R280), allowed always; a running command is abandoned. The grain, the host's coming moves and the capacities
are no part of the hardware's state and stay. -/
def hostReset (s : State) : Flow :=
  .go { State.reset with grain := s.grain, host := s.host, caps := s.caps }

/-- LOAD (R230). -/
def execLoad (bytes : List Byte) (s : State) : Host.Outcome State Fault Refusal := (hostLoad bytes s).toOutcome

/-- START (R210). -/
def execStart (s : State) : Host.Outcome State Fault Refusal := (hostStart s).toOutcome

/-- RESET (R280). -/
def execReset (s : State) : Host.Outcome State Fault Refusal := (hostReset s).toOutcome

/-! ## What the host reads (R37, R230) -/

/-- What the host can name in a read: the registers of 10_state.md section 4, and one byte of PIX. -/
inductive HostReg where
  | status
  | format
  | variant
  | screenW
  | screenH
  | bpp
  | left
  | right
  | top
  | bottom
  | aSize
  | rSize
  | gSize
  | bSize
  | width
  | height
  | n
  | alpha
  | bypp
  | pixFmt
  | hlen
  | packLen
  | lzhdr0
  | lzhdr1
  | srcLen
  | errCause
  | errPlane
  | errPos
  | errOff
  | trunc
  | pix (a : Nat)
deriving DecidableEq, Repr

/-- When the host has the read (log 10): the "allowed when" column of R230, and always for the registers that R230's table
does not name, which R37 lets the host read. -/
def readAllowed (r : HostReg) (s : State) : Bool :=
  match r with
  | .status => true
  | .width | .height | .bypp | .pixFmt | .trunc => s.status == .done
  | .pix a => s.status == .done && decide (a < s.drv.n * s.drv.bypp)
  | .errCause | .errPlane | .errPos | .errOff => s.status == .error
  | .format | .variant | .screenW | .screenH | .bpp | .left | .right | .top | .bottom => true
  | .aSize | .rSize | .gSize | .bSize => true
  | .n | .alpha | .hlen | .packLen | .lzhdr0 | .lzhdr1 | .srcLen => true

/-- The last command has ended with an accepted header (R37, R252). -/
def headerAccepted (s : State) : Bool := s.status == .done || s.status == .error

/-- The header latches hold what the last command read: it accepted a header, or rejected one after R211 had latched it
(R31, R252). What SRC holds by the time of the read does not matter: LOAD writes SRC and SRCLEN alone (R230). -/
def headerLatched (s : State) : Bool := headerAccepted s || (s.status == .reject && s.latched.hdr)

/-- When a read returns a specified value: while BUSY that of STATUS alone (R37); else the header latches once a header has
been latched (R252), the derived latches once it has been accepted (R37), a sub-header latch there too if a plane of the
command wrote it (R33, R46); the error registers in ERROR (R35); PIX in DONE (R37); SRCLEN and TRUNC (R34, R36). -/
def readSpecified (r : HostReg) (s : State) : Bool :=
  match r with
  | .status => true
  | .srcLen | .trunc => s.status != .busy
  | .format | .variant | .screenW | .screenH | .bpp | .left | .right | .top | .bottom => headerLatched s
  | .aSize | .rSize | .gSize | .bSize => headerLatched s
  | .width | .height | .n | .alpha | .bypp | .pixFmt => headerAccepted s
  | .hlen | .packLen => headerAccepted s && s.latched.sub
  | .lzhdr0 | .lzhdr1 => headerAccepted s && s.latched.lzhdr
  | .errCause | .errPlane | .errPos | .errOff => s.status == .error
  | .pix _ => s.status == .done

/-- The bits of a register as the host sees it (R30 to R36; 32 hold N, a product of two 16-bit differences). SRCLEN and
ERRPOS are natural numbers of no fixed width (R34, R35); the first has a free value of its own, and a read of the second is
never unspecified. -/
def readWidth (r : HostReg) : Nat :=
  match r with
  | .format | .variant | .trunc | .errOff | .pix _ => 8
  | .screenW | .screenH | .bpp | .left | .right | .top | .bottom => 16
  | .aSize | .rSize | .gSize | .bSize | .hlen | .packLen | .lzhdr0 | .lzhdr1 | .n | .srcLen | .errPos => 32
  | .width | .height => 17
  | .status | .bypp => 3
  | .errCause | .errPlane => 2
  | .alpha | .pixFmt => 1

/-- The signed registers (R31, R33). -/
def readSigned (r : HostReg) : Bool :=
  match r with
  | .aSize | .rSize | .gSize | .bSize | .hlen | .packLen => true
  | _ => false

/-- What the host's read number `k` returns from a register whose value is unspecified: any value of the register's width
(R37, R46, R252, log 23). -/
def unspecifiedValue (k : Nat) (r : HostReg) : Int :=
  if r = .srcLen then Config.unspecifiedLength k
  else if readSigned r then (Config.unspecifiedRead (readWidth r) k).toInt
  else (Config.unspecifiedRead (readWidth r) k).toNat

/-- The number a register, or a byte of PIX, holds. -/
def regValue (r : HostReg) (s : State) : Host.Outcome Int Fault Refusal :=
  match r with
  | .status => .next s.status.code.toNat
  | .format => .next s.hdr.format.toNat
  | .variant => .next s.hdr.variant.toNat
  | .screenW => .next s.hdr.screenW.toNat
  | .screenH => .next s.hdr.screenH.toNat
  | .bpp => .next s.hdr.bpp.toNat
  | .left => .next s.hdr.left.toNat
  | .right => .next s.hdr.right.toNat
  | .top => .next s.hdr.top.toNat
  | .bottom => .next s.hdr.bottom.toNat
  | .aSize => .next s.hdr.aSize.toInt
  | .rSize => .next s.hdr.rSize.toInt
  | .gSize => .next s.hdr.gSize.toInt
  | .bSize => .next s.hdr.bSize.toInt
  | .width => .next s.drv.width
  | .height => .next s.drv.height
  | .n => .next s.drv.n
  | .alpha => .next s.drv.alpha.toNat
  | .bypp => .next s.drv.bypp
  | .pixFmt => .next s.drv.pixFmt.toNat
  | .hlen => .next s.sub.hlen.toInt
  | .packLen => .next s.sub.packLen.toInt
  | .lzhdr0 => .next s.sub.lzhdr0.toNat
  | .lzhdr1 => .next s.sub.lzhdr1.toNat
  | .srcLen => .next s.srcLen
  | .errCause => .next s.err.cause.code.toNat
  | .errPlane => .next s.err.plane.toNat
  | .errPos => .next s.err.pos
  | .errOff => .next s.err.off.toNat
  | .trunc => .next s.trunc.toNat
  | .pix a =>
    match s.byteAt .pix a with
    | none => .fault (.outOfRange .pix a)
    | some b => .next b.toNat

/-- The host's read number `k` (R230, R37): the register's value where that is specified, else a free value; refused where
the host has no such read (R273). -/
def hostRead (k : Nat) (r : HostReg) (s : State) : Host.Outcome Int Fault Refusal :=
  if readAllowed r s then
    if readSpecified r s then regValue r s else .next (unspecifiedValue k r)
  else .refused .hostReadNotAllowed

end Sys2Proof.Machine
end

