-- ==== Sys2Proof/WellFormed.lean ====
section
/-! DEFINITION. Which instructions an encoding can stand for. The match value of the LZ tokens is no constant but the
register SPECIAL (R106), so well-formedness is relative to it. -/

namespace Sys2Proof

/-- `i` is what some code stands for when the escape byte is `special`: LIT has n ≠ 0 (R104), LZLIT is not the escape
byte and LZCPY's offset byte is not (R106). Every other field value is legal as an encoding (R119). -/
def WellFormed (special : Byte) (i : Instr) : Bool :=
  match i with
  | .lit n => n != 0#7
  | .lzlit b => b != special
  | .lzcpy o _ => o != special
  | _ => true

end Sys2Proof
end

