-- ==== Sys2Proof/Decode.lean ====
section
/-! DEFINITION. The decoder of every code space of 30_encoding.md, total on any bytes, and after it the encoder written
from the same tables. Which format a byte belongs to is never marked in the byte (R90): the decoder is told the code
space, and the escape byte where the format needs it (R106). -/

namespace Sys2Proof

/-! ## Byte order (R60) -/

/-- The 16-bit number whose byte at the lower offset is `b0` (R60). -/
def le16 (b0 b1 : Byte) : U16 := b1 ++ b0

/-- The 32-bit number whose byte at the lowest offset is `b0` (R60). -/
def le32 (b0 b1 b2 b3 : Byte) : U32 := b3 ++ b2 ++ b1 ++ b0

/-- The two bytes of a 16-bit field, lowest offset first (R60). -/
def bytes16 (v : U16) : List Byte := [v.extractLsb' 0 8, v.extractLsb' 8 8]

/-- The four bytes of a 32-bit field, lowest offset first (R60). -/
def bytes32 (v : U32) : List Byte :=
  [v.extractLsb' 0 8, v.extractLsb' 8 8, v.extractLsb' 16 8, v.extractLsb' 24 8]

/-- The byte at offset `k` of a record. -/
def u8At (bs : List Byte) (k : Nat) : Byte := bs.getD k 0

/-- The `u16` at offset `k` of a record (R60). -/
def u16At (bs : List Byte) (k : Nat) : U16 := le16 (u8At bs k) (u8At bs (k + 1))

/-- The 32-bit field at offset `k` of a record (R60). -/
def u32At (bs : List Byte) (k : Nat) : U32 :=
  le32 (u8At bs k) (u8At bs (k + 1)) (u8At bs (k + 2)) (u8At bs (k + 3))

/-- `n` consecutive 32-bit fields from the head of `bs` (the frequency table of R102). -/
def wordsOf : Nat → List Byte → List U32
  | 0, _ => []
  | n + 1, bs => u32At bs 0 :: wordsOf n (bs.drop 4)

@[simp] theorem wordsOf_length (n : Nat) (bs : List Byte) : (wordsOf n bs).length = n := by
  induction n generalizing bs with
  | zero => rfl
  | succ n ih => simp [wordsOf, ih]

/-! ## The decoder -/

/-- The code spaces of 30_encoding.md: the run stream (RC, R104), the LZ tokens (LT, R106), the payload bits (HB, R103),
the three selector fields of the header as opcodes (R101), and the records CH (R100), SH (R102) and LH (R105). -/
inductive CodeSpace where
  | rc
  | lt
  | hb
  | format
  | variant
  | bpp
  | ch
  | sh
  | lh
deriving DecidableEq, Repr

/-- Why bytes stand for no instruction of their code space. -/
inductive DecodeReject where
  /-- There is no byte at all: the stream has ended (R118). -/
  | endOfStream
  /-- The code or record is cut off by the end of its stream (R118). -/
  | cutShort
  /-- FORMAT is neither 1 nor 2 (R101). -/
  | illegalFormat
  /-- VARIANT is none of 0x01, 0xA1, 0xA2 (R101). -/
  | illegalVariant
  /-- BPP is neither 24 nor 32 (R101). -/
  | illegalBpp
deriving DecidableEq, Repr

/-- What the decoder answers: an instruction and the length of its own code (in bits for the payload's codes, in bytes
for all others; the literal bytes of a LIT and the value byte of a REP are operands that the instruction reads itself,
R174, R175), or a named rejection. -/
inductive Decoded where
  | ok (i : Instr) (len : Nat)
  | reject (r : DecodeReject)
deriving DecidableEq, Repr

/-- A run's control byte (R171, R104): all 256 values are defined. -/
def decodeRun (c : Byte) : Instr :=
  if 127 < c.toNat then .rep (c.setWidth 7)
  else if 0 < c.toNat then .lit (c.setWidth 7)
  else .nop

/-- An LZ token (R191, R106) at the head of `bs`, the bytes of MID that are left. -/
def decodeToken (special : Byte) (bs : List Byte) : Decoded :=
  match bs with
  | [] => .reject .endOfStream
  | b :: rest =>
    if b ≠ special then .ok (.lzlit b) 1
    else
      match rest with
      | [] => .reject .cutShort
      | o :: rest =>
        if o = special then .ok .lzesc 2
        else
          match rest with
          | [] => .reject .cutShort
          | cnt :: _ => .ok (.lzcpy o cnt) 3

/-- One payload bit (R103). -/
def decodeBit (bit : Bool) : Instr := if bit then .hb1 else .hb0

/-- The FORMAT selector (R101). -/
def decodeFormat (v : Byte) : Decoded :=
  if v = 1#8 then .ok .format1 1 else if v = 2#8 then .ok .format2 1 else .reject .illegalFormat

/-- The VARIANT selector (R101). -/
def decodeVariant (v : Byte) : Decoded :=
  if v = Config.variantRle then .ok .variantRle 1
  else if v = Config.variantHufRle then .ok .variantHufRle 1
  else if v = Config.variantHufLz then .ok .variantHufLz 1
  else .reject .illegalVariant

/-- The BPP selector (R101). -/
def decodeBpp (v : U16) : Decoded :=
  if v = 24#16 then .ok .bpp24 2 else if v = 32#16 then .ok .bpp32 2 else .reject .illegalBpp

/-- Format CH: the header table of R100, offset by offset. -/
def headerOf (bs : List Byte) : Header where
  format := u8At bs 0x00
  variant := u8At bs 0x01
  screenW := u16At bs 0x02
  screenH := u16At bs 0x04
  bpp := u16At bs 0x06
  left := u16At bs 0x08
  right := u16At bs 0x0A
  top := u16At bs 0x0C
  bottom := u16At bs 0x0E
  aSize := u32At bs 0x10
  rSize := u32At bs 0x14
  gSize := u32At bs 0x18
  bSize := u32At bs 0x1C

/-- Format SH: the sub-header table of R102. -/
def subHeaderOf (bs : List Byte) : SubHeader where
  decodedLength := u32At bs 0x000
  packedLength := u32At bs 0x004
  freqs := ⟨⟨wordsOf 256 (bs.drop 8)⟩, by simp⟩

/-- Format LH: the table of R105. -/
def lzHeaderOf (bs : List Byte) : LzHeader where
  word0 := u32At bs 0
  word1 := u32At bs 4
  special := u8At bs 8
  pad := u8At bs 11 ++ u8At bs 10 ++ u8At bs 9

/-- The decoder: the instruction that the bytes `bs`, the next ones of code space `space`, stand for when the escape
byte is `special`. A payload code is bit 0 of the first byte (R61). -/
def decode (space : CodeSpace) (special : Byte) (bs : List Byte) : Decoded :=
  match space with
  | .lt => decodeToken special bs
  | .rc =>
    match bs with
    | [] => .reject .endOfStream
    | c :: _ => .ok (decodeRun c) 1
  | .hb =>
    match bs with
    | [] => .reject .endOfStream
    | b :: _ => .ok (decodeBit (b.getLsbD 0)) 1
  | .format =>
    match bs with
    | [] => .reject .endOfStream
    | b :: _ => decodeFormat b
  | .variant =>
    match bs with
    | [] => .reject .endOfStream
    | b :: _ => decodeVariant b
  | .bpp =>
    match bs with
    | b0 :: b1 :: _ => decodeBpp (le16 b0 b1)
    | _ => .reject .cutShort
  | .ch => if bs.length < Config.hdrLen then .reject .cutShort else .ok (.hdr (headerOf bs)) Config.hdrLen
  | .sh => if bs.length < Config.subHdrLen then .reject .cutShort else .ok (.subhdr (subHeaderOf bs)) Config.subHdrLen
  | .lh => if bs.length < Config.lzPayloadOff then .reject .cutShort else .ok (.lzhdr (lzHeaderOf bs)) Config.lzPayloadOff

/-! ## The encoder -/

/-- The code space an instruction is encoded in; none for EMIT, the unit operations and the host commands, which no
byte encodes (R103, R121, R230). -/
def codeSpace (i : Instr) : Option CodeSpace :=
  match i with
  | .nop => some .rc
  | .lit _ => some .rc
  | .rep _ => some .rc
  | .lzlit _ => some .lt
  | .lzesc => some .lt
  | .lzcpy _ _ => some .lt
  | .hb0 => some .hb
  | .hb1 => some .hb
  | .emit => none
  | .format1 => some .format
  | .format2 => some .format
  | .variantRle => some .variant
  | .variantHufRle => some .variant
  | .variantHufLz => some .variant
  | .bpp24 => some .bpp
  | .bpp32 => some .bpp
  | .hdr _ => some .ch
  | .subhdr _ => some .sh
  | .lzhdr _ => some .lh
  | .seqDecode => none
  | .htbBuild => none
  | .hufDecode => none
  | .rleExpand _ _ _ => none
  | .lzExpand => none
  | .pilPlace => none
  | .load _ => none
  | .start => none
  | .reset => none

/-- Format CH, written from R100. -/
def headerBytes (h : Header) : List Byte :=
  [h.format, h.variant] ++ bytes16 h.screenW ++ bytes16 h.screenH ++ bytes16 h.bpp ++ bytes16 h.left ++ bytes16 h.right
    ++ bytes16 h.top ++ bytes16 h.bottom ++ bytes32 h.aSize ++ bytes32 h.rSize ++ bytes32 h.gSize ++ bytes32 h.bSize

/-- Format SH, written from R102. -/
def subHeaderBytes (t : SubHeader) : List Byte :=
  bytes32 t.decodedLength ++ bytes32 t.packedLength ++ t.freqs.toArray.toList.flatMap bytes32

/-- Format LH, written from R105. -/
def lzHeaderBytes (h : LzHeader) : List Byte :=
  bytes32 h.word0 ++ bytes32 h.word1 ++ [h.special]
    ++ [h.pad.extractLsb' 0 8, h.pad.extractLsb' 8 8, h.pad.extractLsb' 16 8]

/-- The bytes of an instruction's own code when the escape byte is `special` (the tables of 30_encoding.md; the run
codes without the operand bytes that follow them). A payload bit is written into bit 0 of a byte (R61). Instructions
that nothing encodes have no bytes. -/
def encode (special : Byte) (i : Instr) : List Byte :=
  match i with
  | .nop => [0x00#8]
  | .lit n => [n.setWidth 8]
  | .rep n => [0x80#8 ||| n.setWidth 8]
  | .lzlit b => [b]
  | .lzesc => [special, special]
  | .lzcpy o cnt => [special, o, cnt]
  | .hb0 => [0x00#8]
  | .hb1 => [0x01#8]
  | .emit => []
  | .format1 => [0x01#8]
  | .format2 => [0x02#8]
  | .variantRle => [Config.variantRle]
  | .variantHufRle => [Config.variantHufRle]
  | .variantHufLz => [Config.variantHufLz]
  | .bpp24 => bytes16 24#16
  | .bpp32 => bytes16 32#16
  | .hdr h => headerBytes h
  | .subhdr t => subHeaderBytes t
  | .lzhdr h => lzHeaderBytes h
  | .seqDecode => []
  | .htbBuild => []
  | .hufDecode => []
  | .rleExpand _ _ _ => []
  | .lzExpand => []
  | .pilPlace => []
  | .load _ => []
  | .start => []
  | .reset => []

/-! ## The opcode table's words, without their context -/

/-- The `k` lowest bytes of a table word, the lowest first: the order they are stored in (R60). -/
def bytesOfWord (k w : Nat) : List Byte :=
  (List.range k).map fun i => BitVec.ofNat 8 (w >>> (8 * i))

/-- The code space a bare table word is read in. DESIGN CHOICE (log 3): the bits do not say it (R90), so the word's
width chooses: below 8 bits the payload bits, 16 bits BPP where the value is legal and else the LZ tokens, 24 bits the
LZ tokens, 96, 256 and 8256 bits the three records; a single byte is read as a FORMAT selector, else as a VARIANT
selector, else as a run control byte. -/
def tableSpace (nbits w : Nat) : Option CodeSpace :=
  let b := BitVec.ofNat 8 w
  if nbits < 8 then some .hb
  else if nbits = 8 then
    if b = 1#8 || b = 2#8 then some .format
    else if b = Config.variantHufRle || b = Config.variantHufLz then some .variant
    else some .rc
  else if nbits = 16 then
    if w % 65536 = 24 || w % 65536 = 32 then some .bpp else some .lt
  else if nbits = 24 then some .lt
  else if nbits = 96 then some .lh
  else if nbits = 256 then some .ch
  else if nbits = 8256 then some .sh
  else none

/-- The bytes of a table word of `nbits` bits followed by zero operand bytes, at least `k` of them. -/
def tableBytes (nbits w k : Nat) : List Byte :=
  bytesOfWord ((nbits + 7) / 8) (w % 2 ^ nbits) ++ List.replicate k 0

/-- The instruction the decoder reads from a table word (EMIT for the word of no bits, R103); the escape byte is the
word's own first byte (R106). -/
def decodeTableWord (nbits w : Nat) : Option Instr :=
  if nbits = 0 then some .emit
  else
    match tableSpace nbits w with
    | none => none
    | some space =>
      match decode space (BitVec.ofNat 8 w) (tableBytes nbits w 3) with
      | .ok i _ => some i
      | .reject _ => none

end Sys2Proof
end

