-- ==== Sys2Proof/Machine/Header.lean ====
section
/-! DEFINITION. The records and selectors of the container (44_channel_scheme_sequencer.md rules R211 to R215, R219): HDR,
FORMAT.1, FORMAT.2, BPP.24, BPP.32, SUBHDR, and the checks and geometry between them. -/

namespace Sys2Proof.Machine

/-- HDR.READ with the first 32 bytes of SRC read as `h` (R211); a container shorter than the header is rejected (D13). -/
def hdrRead (h : Header) (s : State) : Flow :=
  if s.srcLen < Config.hdrLen then reject s else .go { s with hdr := h, latched := { s.latched with hdr := true } }

/-- R212's test of FORMAT. -/
def checkFormat (s : State) : Flow :=
  match decodeFormat s.hdr.format with
  | .ok _ _ => .go s
  | .reject _ => reject s

/-- R212's tests of VARIANT and BPP. -/
def checkSelectors (s : State) : Flow :=
  match decodeVariant s.hdr.variant, decodeBpp s.hdr.bpp with
  | .ok _ _, .ok _ _ => .go s
  | _, _ => reject s

/-- R213: no negative size, and the size sum over the integers equals SRCLEN. -/
def checkSizes (s : State) : Flow :=
  if sizeNegative s.hdr then reject s
  else if sizeSum s.hdr ≠ (s.srcLen : Int) then reject s
  else .go s

/-- WIDTH, HEIGHT and N (R214); the model has no step for an N above PLANE_CAP (R273, D2). -/
def geometry (s : State) : Flow :=
  let w := edgeSpan s.hdr.left s.hdr.right
  let h := edgeSpan s.hdr.top s.hdr.bottom
  if Config.exceeds (w * h) s.caps.planeCap then .refuse .planeOverCap
  else .go { s with drv := { s.drv with width := w, height := h, n := w * h } }

/-- ALPHA, BYPP, PIXFMT and PIX.INIT (R215). -/
def pixInit (alpha : Bool) (s : State) : State :=
  let bypp := if alpha then 4 else 3
  { s with
    drv := { s.drv with alpha := alpha, bypp := bypp, pixFmt := alpha }
    pix := Memory.filled (s.drv.n * bypp) }

/-- The alpha range is not empty (R215). -/
def alphaSized (s : State) : Bool := decide (0 < s.hdr.aSize.toInt)

/-- R215, from the register BPP. -/
def pixFormat (s : State) : Flow :=
  .go (pixInit (decide (s.hdr.bpp = 32#16) && alphaSized s) s)

/-- SUBHDR.READ with the sub-header read as `t` (R219). HLEN and PACKLEN are latched before the declared length is
checked, as the pseudocode has it. -/
def subhdrRead (t : SubHeader) (s : State) : Flow :=
  if s.seq.psize < Config.subHdrLen then raise .badSubHeader 0 0 s
  else
    let s := { s with
      sub := { s.sub with hlen := t.decodedLength, packLen := t.packedLength }
      latched := { s.latched with sub := true } }
    if s.sub.hlen.toInt < 0 ∨ Config.exceeds (hlenOf s.sub) s.caps.midCap then raise .badSubHeader 0 0 s
    else .go { s with freqs := t.freqs }

/-- HDR (R211). -/
def execHdr (h : Header) (s : State) : Host.Outcome State Fault Refusal := (hdrRead h s).toOutcome

/-- FORMAT.1 (R212, R101): accepted; the field does not affect decoding (R233). -/
def execFormat1 (s : State) : Host.Outcome State Fault Refusal := (Flow.go s).toOutcome

/-- FORMAT.2 (R212, R101): accepted; the field does not affect decoding (R233). -/
def execFormat2 (s : State) : Host.Outcome State Fault Refusal := (Flow.go s).toOutcome

/-- BPP.24 (R215): no alpha plane is decoded, three bytes a pixel. -/
def execBpp24 (s : State) : Host.Outcome State Fault Refusal := (Flow.go (pixInit false s)).toOutcome

/-- BPP.32 (R215): an alpha plane is decoded iff its range is not empty. -/
def execBpp32 (s : State) : Host.Outcome State Fault Refusal := (Flow.go (pixInit (alphaSized s) s)).toOutcome

/-- SUBHDR (R219). -/
def execSubhdr (t : SubHeader) (s : State) : Host.Outcome State Fault Refusal := (subhdrRead t s).toOutcome

end Sys2Proof.Machine
end

