-- ==== Sys2Proof/Machine/Tree.lean ====
section
/-! DEFINITION. HTB, the Huffman tree builder (40_huffman_tree_builder.md): LOADLEAVES, INSERT, MERGE and the operation
HTB.BUILD. -/

namespace Sys2Proof.Machine

/-- NODE[i] (R9, R38). -/
def nodeAt (node : Vector Node 512) (i : Idx9) : Node := node[i.toNat]'i.isLt

/-- NODE[i].freq (R9, R38). -/
def freqAt (node : Vector Node 512) (i : Idx9) : U32 := (nodeAt node i).freq

/-- NODE with slot `i` written. -/
def setNode (node : Vector Node 512) (i : Idx9) (n : Node) : Vector Node 512 := node.set i.toNat n i.isLt

/-- INSERT(n) (R131): before the first entry whose frequency exceeds its own, unsigned, so after every entry of the same
frequency. -/
def insertNode (node : Vector Node 512) (n : Idx9) : List Idx9 → List Idx9
  | [] => [n]
  | j :: rest => if freqAt node n < freqAt node j then n :: j :: rest else j :: insertNode node n rest

/-- One leaf of LOADLEAVES (R130): its frequency is written, then it is inserted. -/
def loadLeaf (freqs : Vector U32 256) (i : Fin 256) (h : Htb) : Htb :=
  let n : Idx9 := BitVec.ofNat 9 i.val
  let node := setNode h.node n { nodeAt h.node n with freq := freqs[i] }
  { h with node := node, list := insertNode node n h.list }

/-- LOADLEAVES (R130): the leaves in ascending index order (D5). -/
def loadLeaves (freqs : Vector U32 256) (h : Htb) : Htb :=
  (List.finRange 256).foldl (fun h i => loadLeaf freqs i h) { h with list := [] }

/-- MERGE (R132): the two front entries become the children of slot NEXT; the sum is taken mod 2^32 (R137). On a list of
fewer than two entries, where MERGE is never issued, nothing happens. -/
def merge (h : Htb) : Htb :=
  match h.list with
  | a :: b :: rest =>
    let node := setNode h.node h.next { freq := freqAt h.node a + freqAt h.node b, left := a, right := b }
    { node := node, list := insertNode node h.next rest, next := h.next + 1 }
  | _ => h

/-- `while len(LIST) > 1: MERGE` (R133). Every MERGE shortens LIST by one, so its length bounds the merges (R136). -/
def mergeLoop : Nat → Htb → Htb
  | 0, h => h
  | k + 1, h => if 1 < h.list.length then mergeLoop k (merge h) else h

/-- The leaves loaded, NEXT at 256, and merged until one entry remains (R133). -/
def buildTree (freqs : Vector U32 256) (h : Htb) : Htb :=
  let h := { loadLeaves freqs h with next := 256#9 }
  mergeLoop h.list.length h

/-- Every frequency of a table is 0 (R134). -/
def allZero (freqs : Vector U32 256) : Bool := freqs.toArray.toList.all fun f => f == 0

/-- HTB.BUILD on the frequencies in hand (R133): an all-zero table is refused before any node is written (R134). -/
def htbBuild (s : State) : Flow :=
  if allZero s.freqs then raise .malformedHuffmanTable 0 0 s
  else
    let h := buildTree s.freqs s.htb
    .go { s with htb := { h with list := [] }, hsw := { s.hsw with root := h.list.headD 0 } }

/-- HTB.BUILD (R133). -/
def execHtbBuild (s : State) : Host.Outcome State Fault Refusal := (htbBuild s).toOutcome

end Sys2Proof.Machine
end

