-- ==== Sys2Proof/Machine/Huffman.lean ====
section
/-! DEFINITION. BR and HSW, the bit reader and the symbol walker (41_bit_reader_symbol_walker.md): the payload codes HB0,
HB1, the implied EMIT and the operation HUF.DECODE. -/

namespace Sys2Proof.Machine

/-- BR.INIT (R151). -/
def brInit (s : State) : State :=
  { s with br := {
      payBase := s.seq.poff + Config.subHdrLen, payLen := s.seq.psize - Config.subHdrLen, byteP := 0, bitI := 0 } }

/-- MID.INIT (R154). -/
def midInit (s : State) : State :=
  { s with mid := Memory.filled (hlenOf s.sub), hsw := { s.hsw with hprod := 0 } }

/-- The head of R155's outer loop: a symbol starts at the root. -/
def walkStart (s : State) : State :=
  if s.hsw.hprod < hlenOf s.sub then { s with hsw := { s.hsw with cur := s.hsw.root } } else s

/-- What HUF.DECODE does before its first bit (R155). -/
def hufInit (s : State) : State := walkStart (midInit (brInit s))

/-- BR.GETBIT's cursor move (R152). -/
def brAdvance (r : BrRegs) : BrRegs :=
  if r.bitI = 7#3 then { r with bitI := 0, byteP := r.byteP + 1 } else { r with bitI := r.bitI + 1 }

/-- The payload byte that holds the next bit, that bit moved to position 0 (R152). -/
def bitWindow (r : BrRegs) (b : Byte) : Byte := b >>> r.bitI.toNat

/-- The child a walk goes to from `i` (R153); a leaf and slot 511 have none (R38). -/
def childAt (node : Vector Node 512) (i : Idx9) (right : Bool) : Option Idx9 :=
  if 256#9 ≤ i ∧ i < 511#9 then some (if right then (nodeAt node i).right else (nodeAt node i).left) else none

/-- One bit consumed (R152) and one step of the walk (R153). -/
def walkBit (right : Bool) (s : State) : Flow :=
  match childAt s.htb.node s.hsw.cur right with
  | none => .fault (.nodeUnspecified s.hsw.cur)
  | some c => .go { s with br := brAdvance s.br, hsw := { s.hsw with cur := c } }

/-- The walk stands on a leaf (R103). -/
def onLeaf (s : State) : Bool := decide (s.hsw.cur < 256#9)

/-- EMIT (R103, R155): the leaf's byte goes to MID[HPROD] and the next symbol starts at the root. -/
def hufEmit (s : State) : Flow :=
  if onLeaf s then
    (putByte .mid s.hsw.hprod (s.hsw.cur.setWidth 8) s).andThen fun s =>
      .go { s with hsw := { s.hsw with hprod := s.hsw.hprod + 1, cur := s.hsw.root } }
  else .fault (.emitInternal s.hsw.cur)

/-- The loop of R155, one bit or one EMIT at a time. Each uses up one of the bits left or one of the bytes to produce,
so their sum is enough; it ends early when BR is exhausted (R156). -/
def hufLoop : Nat → State → Flow
  | 0, s => .go s
  | k + 1, s =>
    if s.hsw.hprod < hlenOf s.sub then
      if onLeaf s then (hufEmit s).andThen (hufLoop k)
      else if brExhausted s.br then .go s
      else
        withByte .src (s.br.payBase + s.br.byteP) s fun b =>
          (walkBit ((bitWindow s.br b).getLsbD 0) s).andThen (hufLoop k)
    else .go s

/-- HUF.DECODE's return (R155): with HLEN bytes produced CUR is the leaf of the last of them, from which EMIT has gone on
to ROOT (R103); with none produced, or the bits used up, it is where the loop left it (log 8). -/
def walkReturn (s : State) : State :=
  if 0 < s.hsw.hprod ∧ hlenOf s.sub ≤ s.hsw.hprod then
    match s.byteAt .mid (s.hsw.hprod - 1) with
    | none => s
    | some b => { s with hsw := { s.hsw with cur := b.setWidth 9 } }
  else s

/-- HUF.DECODE (R155). -/
def hufDecode (s : State) : Flow :=
  let s := hufInit s
  (hufLoop (bitsLeft s.br + (hlenOf s.sub - s.hsw.hprod)) s).andThen fun s => .go (hufEnd (walkReturn s))

/-- HB0 (R152, R153). -/
def execHb0 (s : State) : Host.Outcome State Fault Refusal := (walkBit false s).toOutcome

/-- HB1 (R152, R153). -/
def execHb1 (s : State) : Host.Outcome State Fault Refusal := (walkBit true s).toOutcome

/-- EMIT (R103, R155). -/
def execEmit (s : State) : Host.Outcome State Fault Refusal := (hufEmit s).toOutcome

/-- HUF.DECODE (R155). -/
def execHufDecode (s : State) : Host.Outcome State Fault Refusal := (hufDecode s).toOutcome

end Sys2Proof.Machine
end

