-- ==== Sys2Proof/Machine/Interleave.lean ====
section
/-! DEFINITION. PIL, the plane interleaver with vertical flip (45_plane_interleaver.md): the operation PIL.PLACE. -/

namespace Sys2Proof.Machine

/-- One byte move of R242: output row `y`, column `x`. -/
def placeByte (y x : Nat) (s : State) : Flow :=
  let s := { s with seq := { s.seq with py := y, px := x } }
  withByte .plane (planeOffset s.drv y x) s fun v => putByte .pix (pixOffset s.drv s.seq.pch y x) v s

/-- The inner loop of R242 from column `x`, `k` columns to go. -/
def placeRow (y : Nat) : Nat → Nat → State → Flow
  | _, 0, s => .go s
  | x, k + 1, s => (placeByte y x s).andThen (placeRow y (x + 1) k)

/-- The outer loop of R242 from output row `y`, `k` rows to go. -/
def placeRows : Nat → Nat → State → Flow
  | _, 0, s => .go s
  | y, k + 1, s => (placeRow y 0 s.drv.width s).andThen (placeRows (y + 1) k)

/-- PIL.PLACE (R242). -/
def pilPlace (s : State) : Flow := placeRows 0 s.drv.height s

/-- PIL.PLACE (R242). -/
def execPilPlace (s : State) : Host.Outcome State Fault Refusal := (pilPlace s).toOutcome

end Sys2Proof.Machine
end

