-- ==== Sys2Proof/Machine/Lz.lean ====
section
/-! DEFINITION. LZX, the LZ expander (43_lz_expander.md): the record LZHDR, the tokens LZLIT, LZESC, LZCPY and the
operation LZ.EXPAND. The meaning of a token is one iteration of R193's loop: the token fetch of R191, then the token's
own rule. -/

namespace Sys2Proof.Machine

/-- LZ.INIT with the head of the intermediate sequence read as `h` (R190): the words are latched when MID holds 8 bytes,
SPECIAL is taken when offset 8 exists and is 0x00 else (D15). -/
def lzInit (h : LzHeader) (s : State) : State :=
  let llen := hlenOf s.sub
  { s with
    sub := if 8 ≤ llen then { s.sub with lzhdr0 := h.word0, lzhdr1 := h.word1 } else s.sub
    latched := if 8 ≤ llen then { s.latched with lzhdr := true } else s.latched
    lz := { s.lz with
      llen := llen
      ldstb := s.drv.n
      ldp := 0
      lsp := Config.lzPayloadOff
      special := if Config.lzSpecialOff < llen then h.special else 0x00#8 } }

/-- The head of MID as a record; bytes beyond its end are read by no rule (R190). -/
def midHeader (s : State) : LzHeader := lzHeaderOf (s.paddedAt .mid 0 Config.lzPayloadOff)

/-- A loop condition of R193. -/
def lzMore (s : State) : Bool := decide (s.lz.ldp < s.lz.ldstb) && decide (s.lz.lsp < s.lz.llen)

/-- The fetch of a token's first byte (R191). -/
def lzFetch (b : Byte) (s : State) : State :=
  { s with lz := { s.lz with lb := b, lsp := s.lz.lsp + 1 } }

/-- The fetch of a token's offset byte (R191). -/
def lzFetchOffset (o : Byte) (s : State) : State :=
  { s with lz := { s.lz with lob := o, lsp := s.lz.lsp + 1 } }

/-- The fetch of a token's count byte (R191). -/
def lzFetchCount (cnt : Byte) (s : State) : State :=
  { s with lz := { s.lz with lcnt := cnt, lsp := s.lz.lsp + 1 } }

/-- Writes the byte `v` at LDP and moves LDP past it (R192, R194, R196). -/
def lzEmit (v : Byte) (s : State) : Flow :=
  (putByte .plane s.lz.ldp v s).andThen fun s => .go { s with lz := { s.lz with ldp := s.lz.ldp + 1 } }

/-- The copy of R196, `k` steps to go: each step reads PLANE after the step before it wrote (R72). -/
def lzCopy : Nat → State → Flow
  | 0, s => .go s
  | k + 1, s =>
    withByte .plane (s.lz.ldp - s.lz.loff.toNat) s fun v => (lzEmit v s).andThen (lzCopy k)

/-- LZCPY, its three bytes fetched (R195, R196): the distance check comes before any byte is copied, whatever the count
(D14). -/
def lzCpy (o cnt : Byte) (s : State) : Flow :=
  let s := { s with lz := { s.lz with loff := lzDistance s.lz.special o } }
  if s.lz.ldp < s.lz.loff.toNat then raise .invalidBackReference s.lz.ldp s.lz.loff s
  else lzCopy (copyCount cnt s.lz) s

/-- The bytes of a token that MID ends inside of are fetched and nothing is emitted (R191). -/
def lzCut (bs : List Byte) (s : State) : State :=
  match bs with
  | [] => s
  | [b] => lzFetch b s
  | b :: o :: _ => lzFetchOffset o (lzFetch b s)

/-- One token (R191): what the bytes `bs`, those MID still holds for it, select. -/
def lzToken (bs : List Byte) (s : State) : Flow :=
  match decodeToken s.lz.special bs with
  | .ok (.lzlit b) _ => lzEmit b (lzFetch b s)
  | .ok (.lzcpy o cnt) _ => lzCpy o cnt (lzFetchCount cnt (lzFetchOffset o (lzFetch s.lz.special s)))
  | .ok _ _ => lzEmit s.lz.special (lzFetchOffset s.lz.special (lzFetch s.lz.special s))
  | .reject _ => .go (lzCut bs s)

/-- The loop of R193. Every iteration raises LSP, so LLEN − LSP iterations are enough (R199). -/
def lzLoop : Nat → State → Flow
  | 0, s => .go s
  | k + 1, s =>
    if lzMore s then
      withBytes .mid s.lz.lsp (tokenWindow s.lz) s fun bs => (lzToken bs s).andThen (lzLoop k)
    else .go s

/-- LZ.EXPAND (R193). -/
def lzExpand (s : State) : Flow :=
  let s := lzInit (midHeader s) s
  (lzLoop (s.lz.llen - s.lz.lsp) s).andThen fun s => .go (lzEnd s)

/-- LZHDR: the head of the intermediate sequence (R190). -/
def execLzhdr (h : LzHeader) (s : State) : Host.Outcome State Fault Refusal := (Flow.go (lzInit h s)).toOutcome

/-- LZLIT (R191, R192). -/
def execLzlit (b : Byte) (s : State) : Host.Outcome State Fault Refusal := (lzEmit b (lzFetch b s)).toOutcome

/-- LZESC (R191, R194). -/
def execLzesc (s : State) : Host.Outcome State Fault Refusal :=
  (lzEmit s.lz.special (lzFetchOffset s.lz.special (lzFetch s.lz.special s))).toOutcome

/-- LZCPY (R191, R195, R196). -/
def execLzcpy (o cnt : Byte) (s : State) : Host.Outcome State Fault Refusal :=
  (lzCpy o cnt (lzFetchCount cnt (lzFetchOffset o (lzFetch s.lz.special s)))).toOutcome

/-- LZ.EXPAND (R193). -/
def execLzExpand (s : State) : Host.Outcome State Fault Refusal := (lzExpand s).toOutcome

end Sys2Proof.Machine
end

