-- ==== Sys2Proof/Machine/Rle.lean ====
section
/-! DEFINITION. The RLE expander (42_rle_expander.md): the stream codes NOP, LIT, REP and the operation RLE.EXPAND. The
meaning of a code is one iteration of R173's loop: the control fetch of R171, then the code's own rule. -/

namespace Sys2Proof.Machine

/-- RLE.INIT (R170); the destination budget is N. -/
def rleInit (sp : RunSource) (base budget : Nat) (s : State) : State :=
  { s with rle := { s.rle with
      rsrc := sp, rbase := base, rsrcb := budget, rsp := 0, rdstb := s.drv.n, rdp := 0 } }

/-- The control fetch (R171): RC holds the control byte and RSP is past it. -/
def rleFetch (c : Byte) (s : State) : State :=
  { s with rle := { s.rle with rc := c, rsp := s.rle.rsp + 1 } }

/-- A loop condition of R173: both budgets have bytes left. -/
def rleMore (s : State) : Bool := decide (s.rle.rsp < s.rle.rsrcb) && decide (s.rle.rdp < s.rle.rdstb)

/-- Writes the byte `v` at RDP and moves RDP past it, `k` times (R174). -/
def rleEmit : Nat → Byte → State → Flow
  | 0, _, s => .go s
  | k + 1, v, s =>
    (putByte .plane s.rle.rdp v s).andThen fun s =>
      rleEmit k v { s with rle := { s.rle with rdp := s.rle.rdp + 1 } }

/-- REP of length `n`, its control byte fetched (R174): a value byte that lies outside the source budget is not read and
nothing is emitted. -/
def rleRep (n : BitVec 7) (s : State) : Flow :=
  let s := { s with rle := { s.rle with rlen := n } }
  if s.rle.rsrcb ≤ s.rle.rsp then .go s
  else
    withByte (runSpace s.rle.rsrc) (s.rle.rbase + s.rle.rsp) s fun v =>
      let s := { s with rle := { s.rle with rv := v, rsp := s.rle.rsp + 1 } }
      rleEmit (repCount n s.rle) v s

/-- The copy loop of R175 from step `i`, `k` steps to go: PLANE[RDP + i] takes the stream byte at RSP + i. -/
def rleCopy : Nat → Nat → State → Flow
  | _, 0, s => .go s
  | i, k + 1, s =>
    withByte (runSpace s.rle.rsrc) (s.rle.rbase + s.rle.rsp + i) s fun b =>
      (putByte .plane (s.rle.rdp + i) b s).andThen (rleCopy (i + 1) k)

/-- LIT of count `n`, its control byte fetched (R175). -/
def rleLit (n : BitVec 7) (s : State) : Flow :=
  let k := litCount n s.rle
  (rleCopy 0 k s).andThen fun s =>
    .go { s with rle := { s.rle with rsp := s.rle.rsp + k, rdp := s.rle.rdp + k } }

/-- One run: the control fetch and the code the control byte selects (R171). -/
def rleRun (c : Byte) (s : State) : Flow :=
  match decodeRun c with
  | .rep n => rleRep n (rleFetch c s)
  | .lit n => rleLit n (rleFetch c s)
  | _ => .go (rleFetch c s)

/-- The loop of R173. Every iteration raises RSP, so RSRCB − RSP iterations are enough (R179). -/
def rleLoop : Nat → State → Flow
  | 0, s => .go s
  | k + 1, s =>
    if rleMore s then
      withByte (runSpace s.rle.rsrc) (s.rle.rbase + s.rle.rsp) s fun c => (rleRun c s).andThen (rleLoop k)
    else .go s

/-- RLE.EXPAND (R173). -/
def rleExpand (sp : RunSource) (base budget : Nat) (s : State) : Flow :=
  (rleLoop budget (rleInit sp base budget s)).andThen fun s => .go (rleEnd s)

/-- NOP (R176): only the control fetch. -/
def execNop (s : State) : Host.Outcome State Fault Refusal := (Flow.go (rleFetch 0x00#8 s)).toOutcome

/-- LIT (R171, R175). -/
def execLit (n : BitVec 7) (s : State) : Host.Outcome State Fault Refusal :=
  (rleLit n (rleFetch (n.setWidth 8) s)).toOutcome

/-- REP (R171, R174). -/
def execRep (n : BitVec 7) (s : State) : Host.Outcome State Fault Refusal :=
  (rleRep n (rleFetch (0x80#8 ||| n.setWidth 8) s)).toOutcome

/-- RLE.EXPAND (R173). -/
def execRleExpand (sp : RunSource) (base budget : Nat) (s : State) : Host.Outcome State Fault Refusal :=
  (rleExpand sp base budget s).toOutcome

end Sys2Proof.Machine
end

