-- ==== Sys2Proof/Machine/Sequencer.lean ====
section
/-! DEFINITION. SEQ, the channel-scheme policy and the whole command (44_channel_scheme_sequencer.md rules R216 to R220,
R232): VARIANT.RLE, VARIANT.HUFRLE, VARIANT.HUFLZ and SEQ.DECODE. The meaning of a VARIANT selector is the branch of
DECODE_PLANE that it selects (R218). -/

namespace Sys2Proof.Machine

/-- SUBHDR.READ from SRC at POFF (R219); no byte of a range too short for the record is read. -/
def subhdrFetch (s : State) : Flow :=
  if s.seq.psize < Config.subHdrLen then raise .badSubHeader 0 0 s
  else withBytes .src s.seq.poff Config.subHdrLen s fun bs => subhdrRead (subHeaderOf bs) s

/-- Stage one of a plane: sub-header, tree, payload into MID (R218, R73 (e)). -/
def stageOne (s : State) : Flow := ((subhdrFetch s).andThen htbBuild).andThen hufDecode

/-- DECODE_PLANE under VARIANT 0x01 (R218). -/
def planeRle (s : State) : Flow := rleExpand .src s.seq.poff s.seq.psize s

/-- DECODE_PLANE under VARIANT 0xA1 (R218): the second stage reads all of MID (D7, D23). -/
def planeHufRle (s : State) : Flow := (stageOne s).andThen fun s => rleExpand .mid 0 (hlenOf s.sub) s

/-- DECODE_PLANE under VARIANT 0xA2 (R218). -/
def planeHufLz (s : State) : Flow := (stageOne s).andThen lzExpand

/-- DECODE_PLANE, the channel-scheme policy (R218). -/
def decodePlane (s : State) : Flow :=
  if s.hdr.variant = Config.variantRle then planeRle s
  else if s.hdr.variant = Config.variantHufLz then planeHufLz s
  else planeHufRle s

/-- POFF at the first range (R216). -/
def planStart (s : State) : State := { s with seq := { s.seq with poff := Config.hdrLen } }

/-- PCH and PSIZE of the plane of channel `ch` (R216). -/
def choosePlane (ch : Chan) (s : State) : State := { s with seq := { s.seq with pch := ch, psize := planeSize s ch } }

/-- PLANE.INIT (R217). -/
def planeInit (s : State) : State := { s with plane := Memory.filled s.drv.n }

/-- POFF moves past the range in hand, present or not (R216). -/
def planAdvance (s : State) : State := { s with seq := { s.seq with poff := s.seq.poff + s.seq.psize } }

/-- One turn of the plan's loop (R216): a present plane is decoded and placed, an absent one leaves its lane at FILL
(R220). -/
def planTurn (ch : Chan) (s : State) : Flow :=
  let s := choosePlane ch s
  (if planePresent s ch then (decodePlane (planeInit s)).andThen pilPlace else .go s).andThen fun s => .go (planAdvance s)

/-- PLANES, the fixed plan: alpha, red, green, blue (R216). -/
def planes (s : State) : Flow :=
  (((planTurn 3#2 (planStart s)).andThen (planTurn 2#2)).andThen (planTurn 1#2)).andThen (planTurn 0#2)

/-- HDR.READ from SRC (R211); nothing is read of a container shorter than the header. -/
def hdrFetch (s : State) : Flow :=
  if s.srcLen < Config.hdrLen then reject s
  else withBytes .src 0 Config.hdrLen s fun bs => hdrRead (headerOf bs) s

/-- HDR.READ, HDR.CHECK, geometry, pixel format and PIX.INIT: all that comes before the first plane (R232). -/
def acceptHeader (s : State) : Flow :=
  (((((hdrFetch s).andThen checkFormat).andThen checkSelectors).andThen checkSizes).andThen geometry).andThen pixFormat

/-- SEQ.DECODE, the whole command (R232). -/
def seqDecode (s : State) : Flow := ((acceptHeader s).andThen planes).andThen finish

/-- VARIANT.RLE (R218): the plane in hand is expanded from SRC. -/
def execVariantRle (s : State) : Host.Outcome State Fault Refusal := (planeRle s).toOutcome

/-- VARIANT.HUFRLE (R218): the plane in hand is decoded into MID and expanded from MID by RLE. -/
def execVariantHufRle (s : State) : Host.Outcome State Fault Refusal := (planeHufRle s).toOutcome

/-- VARIANT.HUFLZ (R218): the plane in hand is decoded into MID and expanded from MID by LZX. -/
def execVariantHufLz (s : State) : Host.Outcome State Fault Refusal := (planeHufLz s).toOutcome

/-- SEQ.DECODE (R232). -/
def execSeqDecode (s : State) : Host.Outcome State Fault Refusal := (seqDecode s).toOutcome

end Sys2Proof.Machine
end

