-- ==== Sys2Proof/Machine/Dispatch.lean ====
section
/-! DEFINITION. One arm for each row of spec/opcode_table.json: the instruction's meaning. -/

namespace Sys2Proof.Machine

def exec (i : Instr) (s : State) : Host.Outcome State Fault Refusal :=
  match i with
  | .nop => Sys2Proof.Machine.execNop s
  | .lit n => Sys2Proof.Machine.execLit n s
  | .rep n => Sys2Proof.Machine.execRep n s
  | .lzlit b => Sys2Proof.Machine.execLzlit b s
  | .lzesc => Sys2Proof.Machine.execLzesc s
  | .lzcpy o cnt => Sys2Proof.Machine.execLzcpy o cnt s
  | .hb0 => Sys2Proof.Machine.execHb0 s
  | .hb1 => Sys2Proof.Machine.execHb1 s
  | .emit => Sys2Proof.Machine.execEmit s
  | .format1 => Sys2Proof.Machine.execFormat1 s
  | .format2 => Sys2Proof.Machine.execFormat2 s
  | .variantRle => Sys2Proof.Machine.execVariantRle s
  | .variantHufRle => Sys2Proof.Machine.execVariantHufRle s
  | .variantHufLz => Sys2Proof.Machine.execVariantHufLz s
  | .bpp24 => Sys2Proof.Machine.execBpp24 s
  | .bpp32 => Sys2Proof.Machine.execBpp32 s
  | .hdr h => Sys2Proof.Machine.execHdr h s
  | .subhdr t => Sys2Proof.Machine.execSubhdr t s
  | .lzhdr h => Sys2Proof.Machine.execLzhdr h s
  | .seqDecode => Sys2Proof.Machine.execSeqDecode s
  | .htbBuild => Sys2Proof.Machine.execHtbBuild s
  | .hufDecode => Sys2Proof.Machine.execHufDecode s
  | .rleExpand sp base budget => Sys2Proof.Machine.execRleExpand sp base budget s
  | .lzExpand => Sys2Proof.Machine.execLzExpand s
  | .pilPlace => Sys2Proof.Machine.execPilPlace s
  | .load bytes => Sys2Proof.Machine.execLoad bytes s
  | .start => Sys2Proof.Machine.execStart s
  | .reset => Sys2Proof.Machine.execReset s

end Sys2Proof.Machine
end

