-- ==== Sys2Proof/Machine/Fetch.lean ====
section
/-! DEFINITION. What the engine does next: the code its running unit fetches and decodes, or the operation the sequencer
issues, or a move of the sequencer that is no instruction (R27, R121, R216); and one turn of the machine, host and
engine together (R20, R230). -/

namespace Sys2Proof.Machine

/-- The sequencer's moves that no row of the opcode table stands for. -/
inductive SeqMove where
  /-- A header test failed (R252). -/
  | reject
  /-- The plane's range is too short for a sub-header (R219). -/
  | badSubHeader
  /-- VARIANT, BPP, the sizes, the geometry (R212 to R214). -/
  | check
  /-- POFF goes to the first range (R216). -/
  | plan
  /-- The plan's turn for this channel (R216, R217). -/
  | select (ch : Chan)
  /-- The pipeline's first unit (R218). -/
  | policy
  /-- BR.INIT and MID.INIT (R155). -/
  | hufInit
  /-- The return from HUF.DECODE (R155, R156). -/
  | hufEnd
  /-- RLE.INIT (R170). -/
  | rleInit
  /-- The end of RLE.EXPAND (R177). -/
  | rleEnd
  /-- A token cut off by the end of MID (R191). -/
  | lzCut
  /-- The end of LZ.EXPAND (R198). -/
  | lzEnd
  /-- POFF past the range in hand, then the next channel or DONE (R216, R232). -/
  | advance
deriving DecidableEq, Repr

/-- What the engine does next. An instruction comes with the position the sequencer takes after it. -/
inductive Fetched where
  | instr (i : Instr) (after : Stage)
  | move (m : SeqMove)
  | fault (f : Fault)
  | idle
deriving DecidableEq, Repr

/-- The operands of the plane's RLE.EXPAND (R170). -/
def runOperands (s : State) : RunSource × Nat × Nat :=
  if s.hdr.variant = Config.variantRle then (.src, s.seq.poff, s.seq.psize) else (.mid, 0, hlenOf s.sub)

/-- The instruction that the decoder reads from `bs` in the code space `space`, `m` where it refuses them. -/
def fetchDecoded (space : CodeSpace) (special : Byte) (bs : List Byte) (after : Stage) (m : SeqMove) : Fetched :=
  match decode space special bs with
  | .ok i _ => .instr i after
  | .reject _ => .move m

/-- The `n` bytes at offset `a` of a space, decoded. -/
def fetchBytes (space : CodeSpace) (special : Byte) (sp : SpaceId) (a n : Nat) (after : Stage) (m : SeqMove) (s : State) :
    Fetched :=
  match s.bytesAt sp a n with
  | none => .fault (.outOfRange sp a)
  | some bs => fetchDecoded space special bs after m

/-- The next payload code: EMIT on a leaf, else the next bit (R155). -/
def fetchWalk (s : State) : Fetched :=
  if s.hsw.hprod < hlenOf s.sub then
    if onLeaf s then .instr .emit .huffWalk
    else if brExhausted s.br then .move .hufEnd
    else
      match s.byteAt .src (s.br.payBase + s.br.byteP) with
      | none => .fault (.outOfRange .src (s.br.payBase + s.br.byteP))
      | some b => fetchDecoded .hb 0 [bitWindow s.br b] .huffWalk .hufEnd
  else .move .hufEnd

/-- What a running command does next (R27, R216, R218, R232). -/
def fetch (s : State) : Fetched :=
  match s.stage with
  | .idle => .idle
  | .hdrRead =>
    if s.grain = .command then .instr .seqDecode .idle
    else if s.srcLen < Config.hdrLen then .move .reject
    else fetchBytes .ch 0 .src 0 Config.hdrLen .hdrFormat .reject s
  | .hdrFormat => fetchDecoded .format 0 [s.hdr.format] .hdrCheck .reject
  | .hdrCheck => .move .check
  | .pixFormat => fetchDecoded .bpp 0 (bytes16 s.hdr.bpp) .plan .reject
  | .plan => .move .plan
  | .select ch => .move (.select ch)
  | .policy =>
    if s.grain = .plane then fetchDecoded .variant 0 [s.hdr.variant] .place .reject else .move .policy
  | .subhdr =>
    if s.seq.psize < Config.subHdrLen then .move .badSubHeader
    else fetchBytes .sh 0 .src s.seq.poff Config.subHdrLen .build .badSubHeader s
  | .build => .instr .htbBuild .huff
  | .huff => if s.grain = .code then .move .hufInit else .instr .hufDecode .expand
  | .huffWalk => fetchWalk s
  | .expand =>
    if s.hdr.variant = Config.variantHufLz then
      if s.grain = .code then fetchDecoded .lh 0 (s.paddedAt .mid 0 Config.lzPayloadOff) .lz .lzEnd
      else .instr .lzExpand .place
    else if s.grain = .code then .move .rleInit
    else
      match runOperands s with
      | (sp, base, budget) => .instr (.rleExpand sp base budget) .place
  | .rle =>
    if rleMore s then fetchBytes .rc 0 (runSpace s.rle.rsrc) (s.rle.rbase + s.rle.rsp) 1 .rle .rleEnd s else .move .rleEnd
  | .lz =>
    if lzMore s then fetchBytes .lt s.lz.special .mid s.lz.lsp (tokenWindow s.lz) .lz .lzCut s else .move .lzEnd
  | .place => .instr .pilPlace .advance
  | .advance => .move .advance

/-- The state with the sequencer at another position. -/
def atStage (x : Stage) (s : State) : State := { s with stage := x }

/-- What a move of the sequencer does. -/
def runMove (m : SeqMove) (s : State) : Flow :=
  match m with
  | .reject => reject s
  | .badSubHeader => raise .badSubHeader 0 0 s
  | .check => (((checkSelectors s).andThen checkSizes).andThen geometry).andThen fun s => .go (atStage .pixFormat s)
  | .plan => .go (atStage (.select 3#2) (planStart s))
  | .select ch =>
    let s := choosePlane ch s
    if planePresent s ch then .go (atStage .policy (planeInit s)) else .go (atStage .advance s)
  | .policy => .go (atStage (if s.hdr.variant = Config.variantRle then .expand else .subhdr) s)
  | .hufInit => .go (atStage .huffWalk (hufInit s))
  | .hufEnd => .go (atStage .expand (hufEnd (walkReturn s)))
  | .rleInit =>
    match runOperands s with
    | (sp, base, budget) => .go (atStage .rle (rleInit sp base budget s))
  | .rleEnd => .go (atStage .place (rleEnd s))
  | .lzCut => withBytes .mid s.lz.lsp (tokenWindow s.lz) s fun bs => .go (lzCut bs s)
  | .lzEnd => .go (atStage .place (lzEnd s))
  | .advance =>
    let s := planAdvance s
    if s.seq.pch = 0#2 then finish s else .go (atStage (.select (s.seq.pch - 1)) s)

/-- After an instruction the sequencer goes to its next position, unless the instruction ended the command. -/
def settle (after : Stage) (x : Host.Outcome State Fault Refusal) : Host.Outcome State Fault Refusal :=
  match x with
  | .next s => .next (if s.status = .busy then atStage after s else s)
  | .fault f => .fault f
  | .refused r => .refused r

/-- One turn of the engine: while no command is running it does nothing (R281, R280). -/
def engineStep (s : State) : Host.Outcome State Fault Refusal :=
  if s.status = .busy then
    match fetch s with
    | .instr i after => settle after (exec i s)
    | .move m => (runMove m s).toOutcome
    | .fault f => .fault f
    | .idle => .next s
  else .next s

/-- One turn of the machine. A coming RESET is made at once (R230); a coming LOAD or START is made when STATUS is not
BUSY and waits until then, as R281's host does; otherwise the engine takes its turn. -/
def machineStep (s : State) : Host.Outcome State Fault Refusal :=
  match s.host with
  | [] => engineStep s
  | .wait :: rest => engineStep { s with host := rest }
  | .reset :: rest => exec .reset { s with host := rest }
  | .load bytes :: rest => if s.status = .busy then engineStep s else exec (.load bytes) { s with host := rest }
  | .start :: rest => if s.status = .busy then engineStep s else exec .start { s with host := rest }

end Sys2Proof.Machine
end

