-- ==== Sys2Proof/Machine/Step.lean ====
section
/-! DEFINITION. One step of the machine, and the state in which the next step fetches a given word. -/

namespace Sys2Proof.Machine

/-- One step: the host's coming move, or the engine's next code, operation or sequencer move (R20, R27, R230). -/
def step (s : State) : Host.Outcome State Fault Refusal := machineStep s

/-- `s` with a command running at stream-code grain and the bits `w` where the unit that reads the word's code space
fetches next (the code space of a bare table word: `tableSpace`, log 3). Each case sets what that fetch needs: the
stream or record in its space, the cursors and budgets that select it, the sequencer's position, and room for the
output. A VARIANT selector is an instruction at plane grain. -/
def State.withFetchWord (s : State) (nbits w : Nat) : State :=
  let b := { s with status := .busy, host := [], grain := .code }
  let walk : State := { b with
    sub := { b.sub with hlen := 1 }
    br := { payBase := 0, payLen := 1, byteP := 0, bitI := 0 }
    hsw := { root := 510, cur := 510, hprod := 0 }
    src := Memory.ofBytes (tableBytes nbits w 1)
    mid := Memory.filled 1
    stage := .huffWalk }
  if nbits = 0 then { walk with hsw := { walk.hsw with cur := 0 } }
  else
    match tableSpace nbits w with
    | none => s
    | some .hb => walk
    | some .rc =>
      { b with
        src := Memory.ofBytes (tableBytes nbits w 127)
        rle := { b.rle with rsrc := .src, rbase := 0, rsrcb := 128, rsp := 0, rdstb := 127, rdp := 0 }
        plane := Memory.filled 127
        stage := .rle }
    | some .lt =>
      { b with
        mid := Memory.ofBytes (List.replicate 12 0 ++ tableBytes nbits w 3)
        lz := { b.lz with
          special := BitVec.ofNat 8 w, llen := 12 + (nbits + 7) / 8 + 3, lsp := 12, ldstb := 255, ldp := 0 }
        plane := Memory.filled 255
        stage := .lz }
    | some .format => { b with hdr := { b.hdr with format := BitVec.ofNat 8 w }, stage := .hdrFormat }
    | some .variant => { b with hdr := { b.hdr with variant := BitVec.ofNat 8 w }, grain := .plane, stage := .policy }
    | some .bpp => { b with hdr := { b.hdr with bpp := BitVec.ofNat 16 w }, stage := .pixFormat }
    | some .ch => { b with src := Memory.ofBytes (tableBytes nbits w 0), stage := .hdrRead }
    | some .sh =>
      { b with
        src := Memory.ofBytes (tableBytes nbits w 0)
        seq := { b.seq with poff := 0, psize := Config.subHdrLen }
        stage := .subhdr }
    | some .lh =>
      { b with
        mid := Memory.ofBytes (tableBytes nbits w 0)
        sub := { b.sub with hlen := 12 }
        hdr := { b.hdr with variant := Config.variantHufLz }
        stage := .expand }

end Sys2Proof.Machine
end

