-- ==== Sys2Proof/Safety.lean ====
section
/-! DEFINITION. What counts as a safe state and a safe run, and what the units' outputs are, in the terms the statements
use: the invariants of 10_state.md, the bounds discipline of R70 position by position, and for each stream a plain
function on lists, written from the rules, of what it decodes to. -/

namespace Sys2Proof.Machine

/-! ## What a stream decodes to -/

/-- The bytes a run stream produces into a plane with `room` cells (R171 to R178), by at most `fuel` runs: a list of the
output, with no state. -/
def expandRuns : Nat → List Byte → Nat → List Byte
  | 0, _, _ => []
  | _ + 1, [], _ => []
  | fuel + 1, c :: rest, room =>
    if room = 0 then []
    else if 128 ≤ c.toNat then
      match rest with
      | [] => []
      | v :: rest =>
        let k := min (c.toNat - 128) room
        List.replicate k v ++ expandRuns fuel rest (room - k)
    else if c.toNat = 0 then expandRuns fuel rest room
    else
      let k := min c.toNat (min rest.length room)
      rest.take k ++ expandRuns fuel (rest.drop k) (room - k)

/-- What an LZ token stream ends in: its output, or a back-reference of distance `off` met when `out` had been produced
(R195). -/
inductive LzOutcome where
  | done (out : List Byte)
  | bad (out : List Byte) (off : Byte)
deriving DecidableEq, Repr

/-- `k` bytes copied forward from `off` bytes behind the end of `out`, each visible to the next (R72, R196); distance 0
reads the cell about to be written, which holds FILL (R196 (c)). -/
def copyBack : Nat → Nat → List Byte → List Byte
  | 0, _, out => out
  | k + 1, off, out =>
    copyBack k off (out ++ [if off = 0 then Config.fill else out.getD (out.length - off) Config.fill])

/-- The bytes an LZ payload produces after `out` into a plane of `n` cells (R191 to R198), by at most `fuel` tokens. -/
def expandTokens : Nat → Byte → List Byte → Nat → List Byte → LzOutcome
  | 0, _, _, _, out => .done out
  | fuel + 1, special, payload, n, out =>
    if n ≤ out.length then .done out
    else
      match payload with
      | [] => .done out
      | b :: rest =>
        if b ≠ special then expandTokens fuel special rest n (out ++ [b])
        else
          match rest with
          | [] => .done out
          | o :: rest =>
            if o = special then expandTokens fuel special rest n (out ++ [special])
            else
              match rest with
              | [] => .done out
              | cnt :: rest =>
                let off := if special < o then o - 1 else o
                if out.length < off.toNat then .bad out off
                else expandTokens fuel special rest n (copyBack (min cnt.toNat (n - out.length)) off.toNat out)

/-- The payload's bits in the order they are consumed (R61). -/
def payloadBits (bs : List Byte) : List Bool :=
  bs.flatMap fun b => (List.range 8).map fun i => b.getLsbD i

/-- The bytes a bit string decodes to, at most `room` of them, when the walk stands on `cur` (R103, R155). -/
def walkBits (node : Vector Node 512) (root : Idx9) : Nat → Idx9 → List Bool → List Byte
  | _, _, [] => []
  | 0, _, _ :: _ => []
  | room + 1, cur, b :: bits =>
    let next := if b then (nodeAt node cur).right else (nodeAt node cur).left
    if next.toNat < 256 then next.setWidth 8 :: walkBits node root room root bits
    else walkBits node root (room + 1) next bits

/-- `bs` followed by FILL up to `n` bytes (R42, R43). -/
def padTo (n : Nat) (bs : List Byte) : List Byte := bs ++ List.replicate (n - bs.length) Config.fill

/-- A space holds exactly the bytes `bs` from offset 0 on. -/
def Holds (m : Memory) (bs : List Byte) : Prop := m.len = bs.length ∧ ∀ a, m.read a = bs[a]?

/-! ## What a tree build goes through -/

/-- HTB when R133's loop starts: the leaves loaded, NEXT at 256. -/
def beforeMerges (freqs : Vector U32 256) (h : Htb) : Htb := { loadLeaves freqs h with next := 256#9 }

/-- HTB after `k` merges (R133). -/
def mergeTimes : Nat → Htb → Htb
  | 0, h => h
  | k + 1, h => mergeTimes k (merge h)

/-- HTB with a node table of zeros. -/
def blankHtb : Htb := { node := Vector.replicate 512 { freq := 0, left := 0, right := 0 }, list := [], next := 0 }

/-- The finished node table of a frequency table, built over a table of zeros; a build reads nothing of what NODE held
before (R139). -/
def treeOf (freqs : Vector U32 256) : Vector Node 512 := (buildTree freqs blankHtb).node

/-! ## What a plane's range decodes to -/

/-- What DECODE_PLANE ends in (R218): the plane's bytes and whether stage one and stage two were truncated (R36), or a
fatal error with its position and distance (R250) and whether stage one had been truncated before it. -/
inductive PlaneOutcome where
  | done (out : List Byte) (cut1 cut2 : Bool)
  | failed (cause : ErrCause) (pos : Nat) (off : Byte) (cut1 : Bool)
deriving DecidableEq, Repr

/-- A finished plane: FILL after what was produced, truncated when that is less than the plane (R177, R198, R217). -/
def PlaneOutcome.ofBytes (n : Nat) (cut1 : Bool) (out : List Byte) : PlaneOutcome :=
  .done (padTo n out) cut1 (decide (out.length < n))

/-- What the final stage makes of the intermediate sequence `mid` (R218): tokens under VARIANT 0xA2, runs else. -/
def expandMid (variant : Byte) (n : Nat) (cut1 : Bool) (mid : List Byte) : PlaneOutcome :=
  if variant = 0xA2#8 then
    match expandTokens mid.length (mid.getD 8 0) (mid.drop 12) n [] with
    | .done out => .ofBytes n cut1 out
    | .bad out off => .failed .invalidBackReference out.length off cut1
  else .ofBytes n cut1 (expandRuns mid.length mid n)

/-- What a plane of `n` bytes makes of its range (R218, R219, R259 (c)): the range's length is looked at first, then the
declared length, the frequency table, and the tokens. -/
def planeOutcome (variant : Byte) (midCap : Option Nat) (n : Nat) (range : List Byte) : PlaneOutcome :=
  if variant = 0x01#8 then .ofBytes n false (expandRuns range.length range n)
  else if range.length < 0x408 then .failed .badSubHeader 0 0 false
  else
    let t := subHeaderOf range
    let hlen := t.decodedLength.toInt.toNat
    if t.decodedLength.toInt < 0 ∨ Config.exceeds hlen midCap then .failed .badSubHeader 0 0 false
    else if ∀ i : Fin 256, t.freqs[i] = 0#32 then .failed .malformedHuffmanTable 0 0 false
    else
      let out := walkBits (treeOf t.freqs) 510#9 hlen 510#9 (payloadBits (range.drop 0x408))
      expandMid variant n (decide (out.length < hlen)) (padTo hlen out)

/-! ## The container -/

/-- The header is one R212 and R213 accept for a container of `len` bytes. -/
def Accepted (h : Header) (len : Nat) : Prop :=
  (h.format = 1#8 ∨ h.format = 2#8) ∧
  (h.variant = 0x01#8 ∨ h.variant = 0xA1#8 ∨ h.variant = 0xA2#8) ∧
  (h.bpp = 24#16 ∨ h.bpp = 32#16) ∧
  0 ≤ h.aSize.toInt ∧ 0 ≤ h.rSize.toInt ∧ 0 ≤ h.gSize.toInt ∧ 0 ≤ h.bSize.toInt ∧
  0x20 + h.aSize.toInt + h.rSize.toInt + h.gSize.toInt + h.bSize.toInt = (len : Int)

/-- The header that stands in SRC (R100). -/
def srcHeader (s : State) : Header := headerOf (s.paddedAt .src 0 Config.hdrLen)

/-- The first offset of the range of channel `ch` (R66). -/
def rangeStart (h : Header) (ch : Chan) : Nat :=
  let a := h.aSize.toInt.toNat
  let r := h.rSize.toInt.toNat
  let g := h.gSize.toInt.toNat
  if ch = 3#2 then 0x20 else if ch = 2#2 then 0x20 + a else if ch = 1#2 then 0x20 + a + r else 0x20 + a + r + g

/-- The plane of channel `ch` is decoded (R215, R216). -/
def decodes (h : Header) (ch : Chan) : Prop :=
  0 < (sizeField h ch).toInt ∧ (ch = 3#2 → h.bpp = 32#16)

/-- WIDTH and HEIGHT of the image a header describes (R214). -/
def imageWidth (h : Header) : Nat := edgeSpan h.left h.right
def imageHeight (h : Header) : Nat := edgeSpan h.top h.bottom

/-- The derived latches of an accepted header (R214, R215). -/
def derivedOf (h : Header) : Derived :=
  let alpha := decide (h.bpp = 32#16 ∧ 0 < h.aSize.toInt)
  { width := imageWidth h, height := imageHeight h, n := imageWidth h * imageHeight h, alpha := alpha
    bypp := if alpha then 4 else 3, pixFmt := alpha }

/-- A container whose header R211 to R213 accept and whose image fits PLANE_CAP (D2). -/
structure Decodable (s : State) : Prop where
  long : 0x20 ≤ s.src.len
  accepted : Accepted (srcHeader s) s.src.len
  fits : ∀ c, s.caps.planeCap = some c → imageWidth (srcHeader s) * imageHeight (srcHeader s) ≤ c

/-- What the range of channel `ch` decodes to (R66, R218). -/
def planeOf (s : State) (ch : Chan) : PlaneOutcome :=
  planeOutcome (srcHeader s).variant s.caps.midCap (imageWidth (srcHeader s) * imageHeight (srcHeader s))
    (s.paddedAt .src (rangeStart (srcHeader s) ch) (sizeField (srcHeader s) ch).toInt.toNat)

/-- The flag of channel `ch` and stage `st` in a value of TRUNC (R36). -/
def truncFlag (x : BitVec 8) (ch : Chan) (st : Nat) : Bool := x.getLsbD (2 * ch.toNat + (st - 1))

/-- The two flags of channel `ch` as they were, and set where a stage was truncated (R36). -/
def FlagsSet (s t : State) (ch : Chan) (cut1 cut2 : Bool) : Prop :=
  truncFlag t.trunc ch 1 = (truncFlag s.trunc ch 1 || cut1) ∧ truncFlag t.trunc ch 2 = (truncFlag s.trunc ch 2 || cut2)

/-- The frequencies of a tree build: not all zero (R134). -/
def Buildable (freqs : Vector U32 256) : Prop := ∃ i : Fin 256, freqs[i] ≠ 0#32

/-- The internal nodes as every successful build leaves them (R136 (a)): children below their node, and distinct. -/
def TreeOk (node : Vector Node 512) : Prop :=
  ∀ j : Idx9, 256 ≤ j.toNat → j.toNat ≤ 510 →
    (nodeAt node j).left.toNat < j.toNat ∧ (nodeAt node j).right.toNat < j.toNat ∧
      (nodeAt node j).left ≠ (nodeAt node j).right

/-! ## The host's moves -/

/-- No move of the host is due: none is coming, or a LOAD or START waits while STATUS is BUSY (R230, log 5). -/
def NoMoveDue (s : State) : Prop :=
  s.host = [] ∨ (s.status = .busy ∧ ∃ rest, s.host = .start :: rest ∨ ∃ bytes, s.host = .load bytes :: rest)

/-! ## Invariants -/

/-- What holds of every state a run reaches and of many more: the spaces are in canonical form; a command is running
exactly while the sequencer has a position; ERRCAUSE is set exactly in ERROR, and outside ERROR the error registers are
clear (R35, R210); LIST is empty outside a build (R39); PIXFMT equals ALPHA (R32). -/
structure Inv (s : State) : Prop where
  mem : s.memWf
  running : s.status = .busy ↔ s.stage ≠ .idle
  errored : s.status = .error ↔ s.err.cause ≠ .none
  clear : s.status ≠ .error → s.err = ErrRegs.clear
  list : s.htb.list = []
  pixFmt : s.drv.pixFmt = s.drv.alpha

/-- The ranges that R21, R24 and R25 give the cursors and counts. -/
structure CursorInv (s : State) : Prop where
  byteP : s.br.byteP ≤ s.br.payLen
  rsp : s.rle.rsp ≤ s.rle.rsrcb
  rdp : s.rle.rdp ≤ s.rle.rdstb
  lsp : s.lz.lsp ≤ max 12 s.lz.llen
  ldp : s.lz.ldp ≤ s.lz.ldstb
  loff : s.lz.loff.toNat ≤ 254

/-- The header has been accepted (R211 to R215): sizes, geometry, PIX. -/
structure HeaderOk (s : State) : Prop where
  sizes : 0 ≤ s.hdr.aSize.toInt ∧ 0 ≤ s.hdr.rSize.toInt ∧ 0 ≤ s.hdr.gSize.toInt ∧ 0 ≤ s.hdr.bSize.toInt
  sum : sizeSum s.hdr = (s.srcLen : Int)
  area : s.drv.n = s.drv.width * s.drv.height

/-- The pixel buffer has its format and size (R215). -/
structure PixOk (s : State) : Prop where
  bypp : s.drv.bypp = if s.drv.alpha then 4 else 3
  pix : s.pix.len = s.drv.n * s.drv.bypp

/-- A plane is in hand (R216): its range lies inside SRC, its channel has a lane in a pixel. -/
structure PlaneOk (s : State) : Prop where
  poff : s.seq.poff = rangeStart s.hdr s.seq.pch
  psize : s.seq.psize = planeSize s s.seq.pch
  present : planePresent s s.seq.pch = true

/-- A finished tree (R136). -/
structure WalkOk (s : State) : Prop where
  root : s.hsw.root = 510#9
  tree : TreeOk s.htb.node

/-- What each position of the plan needs for the accesses that follow it to be in bounds (R70). -/
def PositionOk (s : State) : Prop :=
  match s.stage with
  | .idle => True
  | .hdrRead => True
  | .hdrFormat => True
  | .hdrCheck => True
  | .pixFormat => HeaderOk s
  | .plan => HeaderOk s ∧ PixOk s
  | .select ch => HeaderOk s ∧ PixOk s ∧ s.seq.poff = rangeStart s.hdr ch
  | .policy => HeaderOk s ∧ PixOk s ∧ PlaneOk s ∧ s.plane.len = s.drv.n
  | .subhdr => HeaderOk s ∧ PixOk s ∧ PlaneOk s ∧ s.plane.len = s.drv.n
  | .build => HeaderOk s ∧ PixOk s ∧ PlaneOk s ∧ s.plane.len = s.drv.n ∧ 0x408 ≤ s.seq.psize
  | .huff => HeaderOk s ∧ PixOk s ∧ PlaneOk s ∧ s.plane.len = s.drv.n ∧ 0x408 ≤ s.seq.psize ∧ WalkOk s
  | .huffWalk =>
    HeaderOk s ∧ PixOk s ∧ PlaneOk s ∧ s.plane.len = s.drv.n ∧ WalkOk s ∧ s.br.payBase + s.br.payLen ≤ s.srcLen ∧
      s.mid.len = hlenOf s.sub ∧ (s.hsw.hprod < hlenOf s.sub → s.hsw.cur.toNat ≤ 510)
  | .expand =>
    HeaderOk s ∧ PixOk s ∧ PlaneOk s ∧ s.plane.len = s.drv.n ∧
      (s.hdr.variant ≠ 0x01#8 → s.mid.len = hlenOf s.sub)
  | .rle =>
    HeaderOk s ∧ PixOk s ∧ PlaneOk s ∧ s.plane.len = s.drv.n ∧ s.rle.rdstb = s.drv.n ∧
      s.rle.rbase + s.rle.rsrcb ≤ (s.space (runSpace s.rle.rsrc)).len
  | .lz =>
    HeaderOk s ∧ PixOk s ∧ PlaneOk s ∧ s.plane.len = s.drv.n ∧ s.lz.ldstb = s.drv.n ∧ s.lz.llen = s.mid.len
  | .place => HeaderOk s ∧ PixOk s ∧ PlaneOk s ∧ s.plane.len = s.drv.n
  | .advance => HeaderOk s ∧ PixOk s ∧ s.seq.poff = rangeStart s.hdr s.seq.pch ∧ s.seq.psize = planeSize s s.seq.pch

/-- The states from which no access can leave its space (R70): the invariant, and the bounds of the position. -/
structure SafeState (s : State) : Prop where
  inv : Inv s
  pos : PositionOk s

end Sys2Proof.Machine
end

