-- ==== Sys2Proof/Certificates/Slice0/Obligations.lean ====
section
/-! DEFINITION. The statements for the provers. Each docstring names the rules it formalises; a clause that is the
model's own choice says so and names its log entry. -/

open Sys2Proof Sys2Proof.Machine

/-! ## RLE -/

/-- R176: NOP moves RSP past its control byte and does nothing else, in every state. -/
def Obligations.NopOnlyConsumesItsControlByte : Prop :=
  ∀ s : State, exec .nop s = .next { s with rle := { s.rle with rc := 0x00#8, rsp := s.rle.rsp + 1 } }

/-- R175 with R171's fetch: LIT copies as many of its bytes as both budgets allow, moves both cursors by that number, and
changes nothing else. -/
def Obligations.LitCopiesClampedRun : Prop :=
  ∀ (n : BitVec 7) (s : State),
    s.rle.rbase + s.rle.rsrcb ≤ (s.space (runSpace s.rle.rsrc)).len → s.rle.rdstb ≤ s.plane.len →
    ∃ (m : Memory) (k : Nat),
      k = min n.toNat (min (s.rle.rsrcb - (s.rle.rsp + 1)) (s.rle.rdstb - s.rle.rdp)) ∧
      exec (.lit n) s = .next { s with
        plane := m
        rle := { s.rle with rc := n.setWidth 8, rsp := s.rle.rsp + 1 + k, rdp := s.rle.rdp + k } } ∧
      m.len = s.plane.len ∧
      (∀ i, i < k → m.read (s.rle.rdp + i)
        = (s.space (runSpace s.rle.rsrc)).read (s.rle.rbase + (s.rle.rsp + 1) + i)) ∧
      (∀ a, a < s.rle.rdp ∨ s.rle.rdp + k ≤ a → m.read a = s.plane.read a)

/-- R174 with R171's fetch: REP whose value byte lies outside the source budget emits nothing; else it writes the value
byte as many times as its length and the destination budget allow, and changes nothing else. -/
def Obligations.RepEmitsClampedRun : Prop :=
  ∀ (n : BitVec 7) (s : State),
    (s.rle.rsrcb ≤ s.rle.rsp + 1 →
      exec (.rep n) s = .next { s with
        rle := { s.rle with rc := 0x80#8 ||| n.setWidth 8, rlen := n, rsp := s.rle.rsp + 1 } }) ∧
    (s.rle.rsp + 1 < s.rle.rsrcb →
      s.rle.rbase + s.rle.rsrcb ≤ (s.space (runSpace s.rle.rsrc)).len → s.rle.rdstb ≤ s.plane.len →
      ∃ (m : Memory) (v : Byte) (k : Nat),
        k = min n.toNat (s.rle.rdstb - s.rle.rdp) ∧
        (s.space (runSpace s.rle.rsrc)).read (s.rle.rbase + (s.rle.rsp + 1)) = some v ∧
        exec (.rep n) s = .next { s with
          plane := m
          rle := { s.rle with
            rc := 0x80#8 ||| n.setWidth 8, rlen := n, rv := v, rsp := s.rle.rsp + 2, rdp := s.rle.rdp + k } } ∧
        m.len = s.plane.len ∧
        (∀ a, m.read a = if s.rle.rdp ≤ a ∧ a < s.rle.rdp + k then some v else s.plane.read a))

/-- R173, R177, R178, R180: RLE.EXPAND over any stream inside its space completes, its output is the function
`expandRuns` of the stream and N alone, the rest of PLANE is as before, and the truncation flag is set iff fewer than N
bytes were produced. -/
def Obligations.RleExpandDecodesItsStream : Prop :=
  ∀ (sp : RunSource) (base budget : Nat) (s : State) (stream : List Byte),
    s.bytesAt (runSpace sp) base budget = some stream → s.drv.n ≤ s.plane.len →
    ∃ (m : Memory) (r : RleRegs) (out : List Byte),
      out = expandRuns budget stream s.drv.n ∧
      exec (.rleExpand sp base budget) s = .next { s with
        plane := m
        rle := r
        trunc := if out.length < s.drv.n then s.trunc ||| (1#8 <<< (2 * s.seq.pch.toNat + 1)) else s.trunc } ∧
      r.rdp = out.length ∧ r.rdstb = s.drv.n ∧ r.rsp ≤ budget ∧ out.length ≤ s.drv.n ∧
      m.len = s.plane.len ∧
      (∀ a, m.read a = if a < out.length then out[a]? else s.plane.read a)

/-! ## LZX -/

/-- R192 with R191's fetch: LZLIT writes its byte at LDP and changes nothing else. -/
def Obligations.LzlitEmitsItsByte : Prop :=
  ∀ (b : Byte) (s : State), s.lz.ldp < s.plane.len →
    ∃ m : Memory,
      exec (.lzlit b) s = .next { s with
        plane := m
        lz := { s.lz with lb := b, lsp := s.lz.lsp + 1, ldp := s.lz.ldp + 1 } } ∧
      m.len = s.plane.len ∧
      (∀ a, m.read a = if a = s.lz.ldp then some b else s.plane.read a)

/-- R194 with R191's fetch: LZESC writes SPECIAL at LDP, consumes two bytes, and changes nothing else. -/
def Obligations.LzescEmitsTheEscapeByte : Prop :=
  ∀ s : State, s.lz.ldp < s.plane.len →
    ∃ m : Memory,
      exec .lzesc s = .next { s with
        plane := m
        lz := { s.lz with
          lb := s.lz.special, lob := s.lz.special, lsp := s.lz.lsp + 2, ldp := s.lz.ldp + 1 } } ∧
      m.len = s.plane.len ∧
      (∀ a, m.read a = if a = s.lz.ldp then some s.lz.special else s.plane.read a)

/-- R195, R256, R257: an LZCPY whose distance exceeds the bytes produced takes the fatal entry, whatever its count, and
no byte of PLANE changes. That every other cell R256 and U8 call unspecified after ERROR (MID, PIX, NODE, the working
registers) is as the pseudocode left it is the model's choice, log 21. -/
def Obligations.LzcpyBadDistanceRaises : Prop :=
  ∀ (o cnt : Byte) (s : State) (off : Byte),
    off = (if s.lz.special.toNat < o.toNat then o - 1 else o) → s.lz.ldp < off.toNat →
    exec (.lzcpy o cnt) s = .next { s with
      lz := { s.lz with lb := s.lz.special, lob := o, lcnt := cnt, loff := off, lsp := s.lz.lsp + 3 }
      err := { cause := .invalidBackReference, plane := s.seq.pch, pos := s.lz.ldp, off := off }
      status := .error
      stage := .idle }

/-- R196 with R195's check passed, R72: LZCPY copies forward byte by byte, each byte visible to the next, cut at the
destination budget, and changes nothing else. -/
def Obligations.LzcpyCopiesForward : Prop :=
  ∀ (o cnt : Byte) (s : State) (off : Byte),
    off = (if s.lz.special.toNat < o.toNat then o - 1 else o) → off.toNat ≤ s.lz.ldp →
    s.lz.ldp ≤ s.lz.ldstb → s.lz.ldstb ≤ s.plane.len →
    ∃ (m : Memory) (k : Nat),
      k = min cnt.toNat (s.lz.ldstb - s.lz.ldp) ∧
      exec (.lzcpy o cnt) s = .next { s with
        plane := m
        lz := { s.lz with
          lb := s.lz.special, lob := o, lcnt := cnt, loff := off, lsp := s.lz.lsp + 3, ldp := s.lz.ldp + k } } ∧
      m.len = s.plane.len ∧
      (∀ i, i < k → m.read (s.lz.ldp + i) = m.read (s.lz.ldp + i - off.toNat)) ∧
      (∀ a, a < s.lz.ldp ∨ s.lz.ldp + k ≤ a → m.read a = s.plane.read a) ∧
      (off = 0#8 → ∀ a, m.read a = s.plane.read a)

/-- R196: with a distance shorter than the count the last `off` bytes repeat periodically. -/
def Obligations.LzcpyRepeatsPeriodically : Prop :=
  ∀ (o cnt : Byte) (s t : State) (off : Byte),
    off = (if s.lz.special.toNat < o.toNat then o - 1 else o) → 0 < off.toNat → off.toNat ≤ s.lz.ldp →
    s.lz.ldp ≤ s.lz.ldstb → s.lz.ldstb ≤ s.plane.len →
    exec (.lzcpy o cnt) s = .next t →
    ∀ i, i < min cnt.toNat (s.lz.ldstb - s.lz.ldp) →
      t.plane.read (s.lz.ldp + i) = s.plane.read (s.lz.ldp - off.toNat + i % off.toNat)

/-- R197: the distance is the offset byte, less one above the escape byte, unsigned; so for every escape byte the offset
bytes other than it map one to one onto the distances 0 to 254. -/
def Obligations.LzDistanceIsABijection : Prop :=
  ∀ special : Byte,
    (∀ o, (lzDistance special o).toNat = if special.toNat < o.toNat then o.toNat - 1 else o.toNat) ∧
    (∀ o, o ≠ special → (lzDistance special o).toNat ≤ 254) ∧
    (∀ o o', o ≠ special → o' ≠ special → lzDistance special o = lzDistance special o' → o = o') ∧
    (∀ d : Byte, d.toNat ≤ 254 → ∃ o, o ≠ special ∧ lzDistance special o = d)

/-- R190: LZHDR starts the expansion: budgets, cursors, SPECIAL and the two latched words, each only as far as MID
reaches; nothing else changes but the model's mark that the words are latched (log 24). -/
def Obligations.LzhdrStartsTheExpansion : Prop :=
  ∀ (h : LzHeader) (s : State), 0 ≤ s.sub.hlen.toInt →
    exec (.lzhdr h) s = .next { s with
      lz := { s.lz with
        llen := s.sub.hlen.toInt.toNat, ldstb := s.drv.n, ldp := 0, lsp := 12
        special := if 8 < s.sub.hlen.toInt then h.special else 0x00#8 }
      sub := if 8 ≤ s.sub.hlen.toInt then { s.sub with lzhdr0 := h.word0, lzhdr1 := h.word1 } else s.sub
      latched := if 8 ≤ s.sub.hlen.toInt then { s.latched with lzhdr := true } else s.latched }

/-- R193, R195, R198, R200: LZ.EXPAND over any intermediate sequence, into a plane of FILL (R217), completes: its output
is the function `expandTokens` of MID and N alone, the truncation flag is set iff it returns with fewer than N bytes,
and a bad back-reference takes the fatal entry with PLANE holding what was produced before it. In that case, that PLANE,
MID, PIX, NODE and the working registers, which R256 and U8 call unspecified after ERROR, are as the pseudocode left them
is the model's choice, log 21. The mark that LZHDR0 and LZHDR1 are latched is the model's own field, log 24. -/
def Obligations.LzExpandDecodesItsStream : Prop :=
  ∀ (s : State) (bytes : List Byte),
    s.bytesAt .mid 0 s.sub.hlen.toInt.toNat = some bytes → s.plane = Memory.filled s.drv.n →
    ∃ (m : Memory) (l : LzRegs) (sub : SubLatches) (latched : LatchFlags),
      sub = (if 8 ≤ bytes.length then { s.sub with lzhdr0 := u32At bytes 0, lzhdr1 := u32At bytes 4 } else s.sub) ∧
      latched = (if 8 ≤ bytes.length then { s.latched with lzhdr := true } else s.latched) ∧
      match expandTokens bytes.length (bytes.getD 8 0) (bytes.drop 12) s.drv.n [] with
      | .done out =>
        exec .lzExpand s = .next { s with
          plane := m
          lz := l
          sub := sub
          latched := latched
          trunc := if out.length < s.drv.n then s.trunc ||| (1#8 <<< (2 * s.seq.pch.toNat + 1)) else s.trunc } ∧
        l.ldp = out.length ∧ out.length ≤ s.drv.n ∧ Holds m (padTo s.drv.n out)
      | .bad out off =>
        exec .lzExpand s = .next { s with
          plane := m
          lz := l
          sub := sub
          latched := latched
          err := { cause := .invalidBackReference, plane := s.seq.pch, pos := out.length, off := off }
          status := .error
          stage := .idle } ∧
        out.length < off.toNat ∧ Holds m (padTo s.drv.n out)

/-! ## HSW and BR -/

/-- R153 with R152's cursor move: HB0 and HB1 consume one bit and go to the left or right child of an internal node;
nothing else changes. -/
def Obligations.WalkBitGoesToTheChild : Prop :=
  ∀ s : State, 256 ≤ s.hsw.cur.toNat → s.hsw.cur.toNat ≤ 510 →
    exec .hb0 s = .next { s with
      br := (if s.br.bitI = 7#3 then { s.br with bitI := 0, byteP := s.br.byteP + 1 }
        else { s.br with bitI := s.br.bitI + 1 })
      hsw := { s.hsw with cur := (nodeAt s.htb.node s.hsw.cur).left } } ∧
    exec .hb1 s = .next { s with
      br := (if s.br.bitI = 7#3 then { s.br with bitI := 0, byteP := s.br.byteP + 1 }
        else { s.br with bitI := s.br.bitI + 1 })
      hsw := { s.hsw with cur := (nodeAt s.htb.node s.hsw.cur).right } }

/-- R103, R155: on a leaf, EMIT writes the leaf's byte at MID[HPROD] and starts the next symbol at the root; nothing else
changes. That CUR returns to ROOT after the last byte of MID too is R103's effect of the code; HUF.DECODE, which by R155
returns with CUR on that leaf, puts it back (log 8). -/
def Obligations.EmitWritesTheLeafByte : Prop :=
  ∀ s : State, s.hsw.cur.toNat < 256 → s.hsw.hprod < s.mid.len →
    ∃ m : Memory,
      exec .emit s = .next { s with
        mid := m
        hsw := { s.hsw with hprod := s.hsw.hprod + 1, cur := s.hsw.root } } ∧
      m.len = s.mid.len ∧
      (∀ a, m.read a = if a = s.hsw.hprod then some (BitVec.ofNat 8 s.hsw.cur.toNat) else s.mid.read a)

/-- R155, R156, R61: HUF.DECODE with a finished tree completes; MID holds the bytes the payload's bits walk to, then FILL
up to HLEN, the truncation flag is set iff the bits ran out before HLEN bytes, and if they did not, CUR is the leaf of
the last byte. -/
def Obligations.HufDecodeWalksThePayload : Prop :=
  ∀ (s : State) (pay : List Byte),
    s.hsw.root = 510#9 → TreeOk s.htb.node → 0x408 ≤ s.seq.psize →
    s.bytesAt .src (s.seq.poff + 0x408) (s.seq.psize - 0x408) = some pay →
    ∃ (m : Memory) (b : BrRegs) (h : HswRegs) (out : List Byte),
      out = walkBits s.htb.node 510#9 s.sub.hlen.toInt.toNat 510#9 (payloadBits pay) ∧
      exec .hufDecode s = .next { s with
        mid := m
        br := b
        hsw := h
        trunc := if out.length < s.sub.hlen.toInt.toNat then s.trunc ||| (1#8 <<< (2 * s.seq.pch.toNat)) else s.trunc } ∧
      h.hprod = out.length ∧ h.root = 510#9 ∧ out.length ≤ s.sub.hlen.toInt.toNat ∧
      (out.length = s.sub.hlen.toInt.toNat → ∀ b, out.getLast? = some b → h.cur = b.setWidth 9) ∧
      Holds m (padTo s.sub.hlen.toInt.toNat out)

/-! ## HTB -/

/-- R131, R39: INSERT puts the node after every entry whose frequency is less than or equal to its own and before the
first that exceeds it, so an ordered list stays ordered. -/
def Obligations.InsertIsStable : Prop :=
  ∀ (node : Vector Node 512) (n : Idx9) (l : List Idx9),
    (∃ l1 l2, l = l1 ++ l2 ∧ insertNode node n l = l1 ++ n :: l2 ∧
      (∀ j ∈ l1, (freqAt node j).toNat ≤ (freqAt node n).toNat) ∧
      (∀ j, l2.head? = some j → (freqAt node n).toNat < (freqAt node j).toNat)) ∧
    (l.Pairwise (fun i j => (freqAt node i).toNat ≤ (freqAt node j).toNat) →
      (insertNode node n l).Pairwise (fun i j => (freqAt node i).toNat ≤ (freqAt node j).toNat))

/-- R134, R258: an all-zero table takes the fatal entry before any node is written. That MID, PLANE, PIX and the working
registers, which R256 and U8 call unspecified after ERROR, are as before is the model's choice, log 21. -/
def Obligations.AllZeroTableRaises : Prop :=
  ∀ s : State, (∀ i : Fin 256, s.freqs[i] = 0#32) →
    exec .htbBuild s = .next { s with
      err := { cause := .malformedHuffmanTable, plane := s.seq.pch, pos := 0, off := 0 }
      status := .error
      stage := .idle }

/-- R132, R131, R137, R133: MERGE takes the two front entries, the first removed to `left` and the second to `right`,
writes their sum mod 2^32 and them into slot NEXT alone, and inserts NEXT into the rest. A build is 255 merges from the
loaded leaves; before each of them LIST is ordered by frequency, so the two front entries are the lowest, and what a
merge writes stands in the finished tree. -/
def Obligations.MergeTakesTheTwoLowest : Prop :=
  (∀ (h : Htb) (a b : Idx9) (rest : List Idx9), h.list = a :: b :: rest →
    ∃ node : Vector Node 512,
      merge h = { node := node, list := insertNode node h.next rest, next := h.next + 1 } ∧
      nodeAt node h.next = { freq := freqAt h.node a + freqAt h.node b, left := a, right := b } ∧
      (∀ i, i ≠ h.next → nodeAt node i = nodeAt h.node i)) ∧
  (∀ (freqs : Vector U32 256) (h : Htb),
    buildTree freqs h = mergeTimes 255 (beforeMerges freqs h) ∧
    ∀ (k : Nat) (g : Htb), k < 255 → g = mergeTimes k (beforeMerges freqs h) →
      g.list.length = 256 - k ∧ g.next.toNat = 256 + k ∧
      g.list.Pairwise (fun i j => (freqAt g.node i).toNat ≤ (freqAt g.node j).toNat) ∧
      ∃ a b rest, g.list = a :: b :: rest ∧
        nodeAt (buildTree freqs h).node g.next
          = { freq := freqAt g.node a + freqAt g.node b, left := a, right := b })

/-- R133, R136, R137: every other table is built by exactly 255 merges: ROOT is 510, NEXT 511, LIST empty; every internal
node's children are distinct lower indices, every index below 510 is the child of exactly one of them, leaves keep
their frequency and an internal node's is its children's sum mod 2^32; slot 511 and all else are as before. -/
def Obligations.BuildMakesAFullTree : Prop :=
  ∀ s : State, Buildable s.freqs →
    ∃ node : Vector Node 512,
      exec .htbBuild s = .next { s with
        htb := { node := node, list := [], next := 511#9 }
        hsw := { s.hsw with root := 510#9 } } ∧
      TreeOk node ∧
      (∀ i : Fin 256, (nodeAt node (BitVec.ofNat 9 i.val)).freq = s.freqs[i]) ∧
      (∀ j : Idx9, 256 ≤ j.toNat → j.toNat ≤ 510 →
        freqAt node j = freqAt node (nodeAt node j).left + freqAt node (nodeAt node j).right) ∧
      (∀ i : Idx9, i.toNat < 510 → ∃ j : Idx9, 256 ≤ j.toNat ∧ j.toNat ≤ 510 ∧
        ((nodeAt node j).left = i ∨ (nodeAt node j).right = i) ∧
        ∀ j' : Idx9, 256 ≤ j'.toNat → j'.toNat ≤ 510 →
          ((nodeAt node j').left = i ∨ (nodeAt node j').right = i) → j' = j) ∧
      nodeAt node 511#9 = nodeAt s.htb.node 511#9

/-! ## PIL -/

/-- R242, R243, R44: PIL.PLACE copies every byte of PLANE into its lane of PIX with the rows reversed and leaves every
other cell of PIX alone; nothing else but PY and PX changes. -/
def Obligations.PlaceFlipsIntoItsLane : Prop :=
  ∀ s : State, s.drv.width * s.drv.height ≤ s.plane.len →
    s.drv.width * s.drv.height * s.drv.bypp ≤ s.pix.len → s.seq.pch.toNat < s.drv.bypp →
    ∃ (m : Memory) (y x : Nat),
      exec .pilPlace s = .next { s with pix := m, seq := { s.seq with py := y, px := x } } ∧
      m.len = s.pix.len ∧
      (∀ r c, r < s.drv.height → c < s.drv.width →
        m.read ((r * s.drv.width + c) * s.drv.bypp + s.seq.pch.toNat)
          = s.plane.read ((s.drv.height - 1 - r) * s.drv.width + c)) ∧
      (∀ a, (∀ r c, r < s.drv.height → c < s.drv.width →
          a ≠ (r * s.drv.width + c) * s.drv.bypp + s.seq.pch.toNat) →
        m.read a = s.pix.read a)

/-! ## Records and selectors -/

/-- R211, R252: HDR latches its fields, and rejects when SRC is shorter than the header; nothing else changes. That the
header and derived latches and PIX, which R252 calls unspecified after such a rejection, are as before is the model's
choice, log 21; the mark that the header is latched is the model's own field, log 24. -/
def Obligations.HdrLatchesOrRejects : Prop :=
  ∀ (h : Header) (s : State),
    (0x20 ≤ s.src.len →
      exec (.hdr h) s = .next { s with hdr := h, latched := { s.latched with hdr := true } }) ∧
    (s.src.len < 0x20 → exec (.hdr h) s = .next { s with status := .reject, stage := .idle })

/-- R212, R233: FORMAT.1 and FORMAT.2 are accepted alike and change nothing. -/
def Obligations.FormatSelectorsChangeNothing : Prop :=
  ∀ s : State, exec .format1 s = .next s ∧ exec .format2 s = .next s

/-- R215: the BPP selectors set ALPHA, BYPP and PIXFMT and fill PIX; under 32 bits an alpha plane is decoded iff its
range is not empty. -/
def Obligations.BppSelectorsChooseThePixelFormat : Prop :=
  ∀ s : State,
    exec .bpp24 s = .next { s with
      drv := { s.drv with alpha := false, bypp := 3, pixFmt := false }, pix := Memory.filled (s.drv.n * 3) } ∧
    (0 < s.hdr.aSize.toInt → exec .bpp32 s = .next { s with
      drv := { s.drv with alpha := true, bypp := 4, pixFmt := true }, pix := Memory.filled (s.drv.n * 4) }) ∧
    (s.hdr.aSize.toInt ≤ 0 → exec .bpp32 s = .next { s with
      drv := { s.drv with alpha := false, bypp := 3, pixFmt := false }, pix := Memory.filled (s.drv.n * 3) })

/-- R219, R260: SUBHDR in a range that holds it, with a length that is not negative and fits MID_CAP, latches HLEN and
PACKLEN and takes the table; a range too short raises BadSubHeader before anything is latched; a bad length raises it
with HLEN and PACKLEN latched, in the order of the pseudocode (log 9). That in the two ERROR cases PIX, PLANE, MID, NODE
and the working registers, which R256 and U8 call unspecified there, are as before is the model's choice, log 21; the mark that the two are latched
is the model's own field, log 24. -/
def Obligations.SubhdrLatchesOrRaises : Prop :=
  ∀ (t : SubHeader) (s : State),
    (0x408 ≤ s.seq.psize → 0 ≤ t.decodedLength.toInt →
      (∀ c, s.caps.midCap = some c → t.decodedLength.toInt ≤ (c : Int)) →
      exec (.subhdr t) s = .next { s with
        sub := { s.sub with hlen := t.decodedLength, packLen := t.packedLength }
        latched := { s.latched with sub := true }
        freqs := t.freqs }) ∧
    (s.seq.psize < 0x408 → exec (.subhdr t) s = .next { s with
      err := { cause := .badSubHeader, plane := s.seq.pch, pos := 0, off := 0 }, status := .error, stage := .idle }) ∧
    (0x408 ≤ s.seq.psize →
      (t.decodedLength.toInt < 0 ∨ ∃ c, s.caps.midCap = some c ∧ (c : Int) < t.decodedLength.toInt) →
      exec (.subhdr t) s = .next { s with
        sub := { s.sub with hlen := t.decodedLength, packLen := t.packedLength }
        latched := { s.latched with sub := true }
        err := { cause := .badSubHeader, plane := s.seq.pch, pos := 0, off := 0 }, status := .error, stage := .idle })

/-! ## The channel-scheme policy -/

/-- R218 under VARIANT 0x01: VARIANT.RLE expands the plane's range in SRC. -/
def Obligations.VariantRleExpandsTheRange : Prop :=
  ∀ (s : State) (range : List Byte),
    s.bytesAt .src s.seq.poff s.seq.psize = some range → s.drv.n ≤ s.plane.len →
    ∃ (m : Memory) (r : RleRegs) (out : List Byte),
      out = expandRuns s.seq.psize range s.drv.n ∧
      exec .variantRle s = .next { s with
        plane := m
        rle := r
        trunc := if out.length < s.drv.n then s.trunc ||| (1#8 <<< (2 * s.seq.pch.toNat + 1)) else s.trunc } ∧
      m.len = s.plane.len ∧
      (∀ a, m.read a = if a < out.length then out[a]? else s.plane.read a)

/-- R218 under VARIANT 0xA1: with a sub-header that is not refused and a table that is not all zero, VARIANT.HUFRLE is
SUBHDR, HTB.BUILD, HUF.DECODE and RLE.EXPAND over all of MID, one after the other; it completes, and the status is as
before. -/
def Obligations.VariantHufRleRunsItsPipeline : Prop :=
  ∀ (s : State) (range : List Byte) (t : SubHeader),
    0x408 ≤ s.seq.psize → s.bytesAt .src s.seq.poff s.seq.psize = some range → t = subHeaderOf range →
    0 ≤ t.decodedLength.toInt → (∀ c, s.caps.midCap = some c → t.decodedLength.toInt ≤ (c : Int)) →
    Buildable t.freqs → s.drv.n ≤ s.plane.len →
    ∃ a b c d : State,
      exec (.subhdr t) s = .next a ∧ exec .htbBuild a = .next b ∧ exec .hufDecode b = .next c ∧
      exec (.rleExpand .mid 0 t.decodedLength.toInt.toNat) c = .next d ∧
      exec .variantHufRle s = .next d ∧ d.status = s.status ∧ d.stage = s.stage ∧ d.err = s.err ∧
      d.plane.len = s.plane.len ∧ d.mid.len = t.decodedLength.toInt.toNat

/-- R218 under VARIANT 0xA2: under the same conditions VARIANT.HUFLZ is SUBHDR, HTB.BUILD, HUF.DECODE and LZ.EXPAND; when
the decoded intermediate sequence holds no bad back-reference it completes with the status as before. -/
def Obligations.VariantHufLzRunsItsPipeline : Prop :=
  ∀ (s : State) (range mid out : List Byte) (t : SubHeader),
    0x408 ≤ s.seq.psize → s.bytesAt .src s.seq.poff s.seq.psize = some range → t = subHeaderOf range →
    0 ≤ t.decodedLength.toInt → (∀ c, s.caps.midCap = some c → t.decodedLength.toInt ≤ (c : Int)) →
    Buildable t.freqs → s.plane = Memory.filled s.drv.n →
    mid = padTo t.decodedLength.toInt.toNat
      (walkBits (buildTree t.freqs s.htb).node 510#9 t.decodedLength.toInt.toNat 510#9
        (payloadBits (range.drop 0x408))) →
    expandTokens mid.length (mid.getD 8 0) (mid.drop 12) s.drv.n [] = .done out →
    ∃ a b c d : State,
      exec (.subhdr t) s = .next a ∧ exec .htbBuild a = .next b ∧ exec .hufDecode b = .next c ∧
      exec .lzExpand c = .next d ∧
      exec .variantHufLz s = .next d ∧ d.status = s.status ∧ d.stage = s.stage ∧ d.err = s.err ∧
      Holds d.mid mid ∧ Holds d.plane (padTo s.drv.n out)

/-- R218, R219, R134, R195, R256, R259 (c): the fatal errors of VARIANT.HUFRLE and VARIANT.HUFLZ, in their order. A range
shorter than a sub-header raises BadSubHeader with nothing latched; a declared length that is negative or above MID_CAP
raises it with HLEN and PACKLEN latched (log 9); else an all-zero table raises MalformedHuffmanTable before a node or a
bit; else, under HUFLZ, the first bad back-reference of the decoded sequence raises InvalidBackReference with LDP and
LOFF, the flag of a truncated stage one kept. That what R256 and U8 call unspecified after ERROR (PIX, PLANE, MID, NODE,
the working registers) is as the pseudocode left it is the model's choice, log 21; the mark that HLEN and PACKLEN are
latched is the model's own field, log 24. -/
def Obligations.VariantSelectorsRaise : Prop :=
  ∀ (s : State) (i : Instr), i = .variantHufRle ∨ i = .variantHufLz →
    (s.seq.psize < 0x408 → exec i s = .next { s with
      err := { cause := .badSubHeader, plane := s.seq.pch, pos := 0, off := 0 }, status := .error, stage := .idle }) ∧
    ∀ (range : List Byte) (t : SubHeader) (hlen : Nat),
      0x408 ≤ s.seq.psize → s.bytesAt .src s.seq.poff s.seq.psize = some range → t = subHeaderOf range →
      hlen = t.decodedLength.toInt.toNat →
      ((t.decodedLength.toInt < 0 ∨ ∃ c, s.caps.midCap = some c ∧ (c : Int) < t.decodedLength.toInt) →
        exec i s = .next { s with
          sub := { s.sub with hlen := t.decodedLength, packLen := t.packedLength }
          latched := { s.latched with sub := true }
          err := { cause := .badSubHeader, plane := s.seq.pch, pos := 0, off := 0 }, status := .error, stage := .idle }) ∧
      (0 ≤ t.decodedLength.toInt → (∀ c, s.caps.midCap = some c → t.decodedLength.toInt ≤ (c : Int)) →
        ((∀ j : Fin 256, t.freqs[j] = 0#32) → exec i s = .next { s with
          sub := { s.sub with hlen := t.decodedLength, packLen := t.packedLength }
          latched := { s.latched with sub := true }
          freqs := t.freqs
          err := { cause := .malformedHuffmanTable, plane := s.seq.pch, pos := 0, off := 0 }
          status := .error
          stage := .idle }) ∧
        (Buildable t.freqs → i = .variantHufLz → s.plane = Memory.filled s.drv.n →
          ∀ (prod mid out : List Byte) (off : Byte),
            prod = walkBits (treeOf t.freqs) 510#9 hlen 510#9 (payloadBits (range.drop 0x408)) →
            mid = padTo hlen prod →
            expandTokens mid.length (mid.getD 8 0) (mid.drop 12) s.drv.n [] = .bad out off →
            ∃ u : State, exec i s = .next u ∧ u.status = .error ∧ u.stage = .idle ∧
              u.err = { cause := .invalidBackReference, plane := s.seq.pch, pos := out.length, off := off } ∧
              u.trunc = (if prod.length < hlen then s.trunc ||| (1#8 <<< (2 * s.seq.pch.toNat)) else s.trunc) ∧
              Holds u.mid mid ∧ Holds u.plane (padTo s.drv.n out) ∧ u.src = s.src ∧ u.pix = s.pix ∧ u.drv = s.drv))

/-! ## The whole command -/

/-- R211 to R213, R252, R253: SEQ.DECODE on a container whose header is not accepted sets STATUS to REJECT and writes
nothing but the header latches it has read. That the derived latches and PIX, and for a container shorter than the header
the header latches, are as before, where R252 calls them unspecified, is the model's choice, log 21; the mark that the
header is latched is the model's own field, log 24. -/
def Obligations.SeqDecodeRejectsOtherFormats : Prop :=
  ∀ s : State, (s.src.len < 0x20 ∨ ¬ Accepted (srcHeader s) s.src.len) →
    exec .seqDecode s = .next { s with
      hdr := if 0x20 ≤ s.src.len then srcHeader s else s.hdr
      latched := if 0x20 ≤ s.src.len then { s.latched with hdr := true } else s.latched
      status := .reject
      stage := .idle }

/-- R231, R250, R70: SEQ.DECODE on an accepted container whose image fits PLANE_CAP always ends, in DONE or ERROR, from
every state: no access leaves its space whatever the bytes. -/
def Obligations.SeqDecodeAlwaysEnds : Prop :=
  ∀ s : State, 0x20 ≤ s.src.len → Accepted (srcHeader s) s.src.len →
    (∀ c, s.caps.planeCap = some c →
      edgeSpan (srcHeader s).left (srcHeader s).right * edgeSpan (srcHeader s).top (srcHeader s).bottom ≤ c) →
    ∃ t : State, exec .seqDecode s = .next t ∧ (t.status = .done ∨ t.status = .error) ∧ t.stage = .idle ∧
      t.src = s.src ∧ t.hdr = srcHeader s ∧ t.latched.hdr = true ∧
      (t.status = .done → t.err = s.err) ∧ (t.status = .error → t.err.cause ≠ .none)

/-- R214 to R218, R220, R232, R243, R36, under every VARIANT, end to end: when the range of every decoded plane decodes
(under 0x01 each does), SEQ.DECODE ends DONE; every pixel's byte is its plane's, rows reversed, and FILL in the lane of
an absent colour plane; and exactly the flags of the truncated stages have been set. -/
def Obligations.ContainerDecodesToItsPixels : Prop :=
  ∀ s : State, Decodable s →
    ((srcHeader s).variant = 0x01#8 ∨
      ∀ ch, decodes (srcHeader s) ch → ∃ out cut1 cut2, planeOf s ch = .done out cut1 cut2) →
    ∃ (t : State) (d : Derived), d = derivedOf (srcHeader s) ∧
      exec .seqDecode s = .next t ∧ t.status = .done ∧ t.stage = .idle ∧ t.err = s.err ∧ t.src = s.src ∧
      t.hdr = srcHeader s ∧ t.drv = d ∧ t.pix.len = d.width * d.height * d.bypp ∧
      ∀ ch : Chan,
        (decodes (srcHeader s) ch → ∃ out cut1 cut2, planeOf s ch = .done out cut1 cut2 ∧
          FlagsSet s t ch cut1 cut2 ∧
          ∀ r c, r < d.height → c < d.width →
            t.pix.read ((r * d.width + c) * d.bypp + ch.toNat) = out[(d.height - 1 - r) * d.width + c]?) ∧
        (¬ decodes (srcHeader s) ch → FlagsSet s t ch false false ∧
          ∀ r c, ch.toNat < d.bypp → r < d.height → c < d.width →
            t.pix.read ((r * d.width + c) * d.bypp + ch.toNat) = some 0x00#8)

/-- R256 to R260: when planes fail, SEQ.DECODE ends in ERROR with the cause, channel, position and distance of the first
of them in the order alpha, red, green, blue; the flags of the planes before it and of its own stage one are set, those
of a later plane never. -/
def Obligations.FirstFailingPlaneEndsTheCommand : Prop :=
  ∀ (s : State) (ch : Chan) (cause : ErrCause) (pos : Nat) (off : Byte) (cut1 : Bool), Decodable s →
    decodes (srcHeader s) ch → planeOf s ch = .failed cause pos off cut1 →
    (∀ ch' : Chan, ch < ch' → decodes (srcHeader s) ch' → ∃ out c1 c2, planeOf s ch' = .done out c1 c2) →
    ∃ t : State, exec .seqDecode s = .next t ∧ t.status = .error ∧ t.stage = .idle ∧
      t.err = { cause := cause, plane := ch, pos := pos, off := off } ∧ t.src = s.src ∧ t.hdr = srcHeader s ∧
      t.drv = derivedOf (srcHeader s) ∧
      FlagsSet s t ch cut1 false ∧
      ∀ ch' : Chan,
        (ch < ch' → decodes (srcHeader s) ch' → ∀ out c1 c2, planeOf s ch' = .done out c1 c2 → FlagsSet s t ch' c1 c2) ∧
        (ch' < ch ∨ ¬ decodes (srcHeader s) ch' → FlagsSet s t ch' false false)

/-- R214, R273 (D2): SEQ.DECODE of an accepted container whose image is above PLANE_CAP is refused. -/
def Obligations.ImageAbovePlaneCapIsRefused : Prop :=
  ∀ (s : State) (c : Nat), 0x20 ≤ s.src.len → Accepted (srcHeader s) s.src.len → s.caps.planeCap = some c →
    c < imageWidth (srcHeader s) * imageHeight (srcHeader s) →
    exec .seqDecode s = .refused .planeOverCap

/-- R233: two containers that differ in FORMAT (1 or 2), SCREENW and SCREENH alone give the same status, pixels, geometry,
truncation flags and error registers. -/
def Obligations.CanvasAndFormatDoNotMatter : Prop :=
  ∀ (bs cs : List Byte) (s : State), bs.length = cs.length → 0x20 ≤ bs.length →
    (∀ a, a ≠ 0 → (a < 2 ∨ 6 ≤ a) → bs[a]? = cs[a]?) →
    (bs[0]? = some 1#8 ∨ bs[0]? = some 2#8) → (cs[0]? = some 1#8 ∨ cs[0]? = some 2#8) →
    ∀ t, exec .seqDecode { s with src := Memory.ofBytes bs } = .next t →
      ∃ u, exec .seqDecode { s with src := Memory.ofBytes cs } = .next u ∧
        u.status = t.status ∧ u.pix = t.pix ∧ u.drv = t.drv ∧ u.trunc = t.trunc ∧ u.err = t.err

/-- R282, R232, R46: the outcome of a command is a function of the container alone: after START and SEQ.DECODE, two machines
with the same SRC (and capacities) show the host the same in every register and in PIX, whatever went before. Of an
unspecified register, a sub-header latch that no plane wrote among them (log 24), this says that what the same read
returns does not depend on the state, which is the model's form and no claim about its value (log 23). -/
def Obligations.OutcomeDependsOnTheContainerAlone : Prop :=
  ∀ s t s1 t1 s2 : State, s.src = t.src → s.caps = t.caps →
    exec .start s = .next s1 → exec .start t = .next t1 → exec .seqDecode s1 = .next s2 →
    ∃ t2, exec .seqDecode t1 = .next t2 ∧ ∀ (k : Nat) (r : HostReg), hostRead k r s2 = hostRead k r t2

/-! ## The host interface -/

/-- R230, R285: LOAD, when STATUS is not BUSY and the container fits SRC_CAP, puts exactly the bytes into SRC and changes
nothing else, so no read but SRCLEN's changes. That the host has the reads R230's table does not name, and that the header
latches of a rejected container stay readable whatever the length of the new one (R252's condition on SRCLEN being taken
of the rejected container), is the model's choice, log 10, by the mark of log 24. Of an unspecified register (log 23) the
clause says that what the same read returns does not depend on the state, which is the model's form and no claim about its
value. -/
def Obligations.LoadStoresTheContainer : Prop :=
  ∀ (bs : List Byte) (s : State), s.status ≠ .busy → (∀ c, s.caps.srcCap = some c → bs.length ≤ c) →
    ∃ m : Memory, exec (.load bs) s = .next { s with src := m } ∧ Holds m bs ∧
      ∀ (k : Nat) (r : HostReg), r ≠ .srcLen → hostRead k r { s with src := m } = hostRead k r s

/-- R210: START, when STATUS is not BUSY, makes STATUS BUSY, clears TRUNC and the error registers, and stands before
SEQ.DECODE; every other register, latch and space is as before: of the latches and working registers, which R46 calls
unspecified after START, that is the model's choice, log 7, with the mark that none of them has been written (log 24). -/
def Obligations.StartBeginsACommand : Prop :=
  ∀ s : State, s.status ≠ .busy →
    exec .start s = .next { s with
      status := .busy
      trunc := 0#8
      err := { cause := .none, plane := 0#2, pos := 0, off := 0#8 }
      stage := .hdrRead
      latched := { hdr := false, sub := false, lzhdr := false } }

/-- R280, R46: after RESET STATUS is IDLE, TRUNC and the error registers are 0, SRC and LIST are empty and no command is
running, whatever went before, a running command included. That the capacities, the model's own field (log 6), are as
before is the model's choice, log 15. -/
def Obligations.ResetClearsTheEngine : Prop :=
  ∀ s : State, ∃ t : State, exec .reset s = .next t ∧
    t.status = .idle ∧ t.trunc = 0#8 ∧ t.err = { cause := .none, plane := 0#2, pos := 0, off := 0#8 } ∧
    t.src.len = 0 ∧ t.htb.list = [] ∧ t.stage = .idle ∧ t.caps = s.caps

/-- R230, R273, R285: the model has no LOAD and no START while STATUS is BUSY, and no LOAD above SRC_CAP. -/
def Obligations.HostMovesOutsideTheirColumnAreRefused : Prop :=
  ∀ (bs : List Byte) (s : State),
    (s.status = .busy → exec (.load bs) s = .refused .hostMoveWhileBusy ∧ exec .start s = .refused .hostMoveWhileBusy) ∧
    (s.status ≠ .busy → ∀ c, s.caps.srcCap = some c → c < bs.length → exec (.load bs) s = .refused .srcOverCap)

/-- R37, R46, R230, R252, R273: what the host reads. STATUS always; WIDTH, HEIGHT, BYPP, PIXFMT, TRUNC and the bytes of
PIX in DONE; the error registers in ERROR; each with its value, and refused elsewhere. The registers R230's table does not
name it reads always: SRCLEN with its value unless BUSY; N and ALPHA with theirs in DONE and ERROR; a sub-header latch with
its own there if the command has written it; the header latches with theirs there, and in REJECT if the command has
latched them; elsewhere the value is unspecified and free (log 23). That the host has the reads R230's table does not name
is R37's reading, the model's choice (log 10); that a latch has been written is a mark of the model's own (log 24). -/
def Obligations.HostReadsFollowTheStatus : Prop :=
  ∀ (k : Nat) (s : State),
    hostRead k .status s = .next (s.status.code.toNat : Int) ∧
    (s.status = .done →
      hostRead k .width s = .next (s.drv.width : Int) ∧ hostRead k .height s = .next (s.drv.height : Int) ∧
      hostRead k .bypp s = .next (s.drv.bypp : Int) ∧ hostRead k .pixFmt s = .next (s.drv.pixFmt.toNat : Int) ∧
      hostRead k .trunc s = .next (s.trunc.toNat : Int) ∧
      (∀ a b, a < s.drv.n * s.drv.bypp → s.pix.read a = some b → hostRead k (.pix a) s = .next (b.toNat : Int)) ∧
      (∀ a, s.drv.n * s.drv.bypp ≤ a → hostRead k (.pix a) s = .refused .hostReadNotAllowed)) ∧
    (s.status ≠ .done → ∀ r, r = .width ∨ r = .height ∨ r = .bypp ∨ r = .pixFmt ∨ r = .trunc ∨ (∃ a, r = .pix a) →
      hostRead k r s = .refused .hostReadNotAllowed) ∧
    (s.status = .error →
      hostRead k .errCause s = .next (s.err.cause.code.toNat : Int) ∧
      hostRead k .errPlane s = .next (s.err.plane.toNat : Int) ∧
      hostRead k .errPos s = .next (s.err.pos : Int) ∧ hostRead k .errOff s = .next (s.err.off.toNat : Int)) ∧
    (s.status ≠ .error → ∀ r, r = .errCause ∨ r = .errPlane ∨ r = .errPos ∨ r = .errOff →
      hostRead k r s = .refused .hostReadNotAllowed) ∧
    (s.status ≠ .busy → hostRead k .srcLen s = .next (s.src.len : Int)) ∧
    (s.status = .done ∨ s.status = .error →
      hostRead k .n s = .next (s.drv.n : Int) ∧ hostRead k .alpha s = .next (s.drv.alpha.toNat : Int) ∧
      (s.latched.sub = true →
        hostRead k .hlen s = .next s.sub.hlen.toInt ∧ hostRead k .packLen s = .next s.sub.packLen.toInt) ∧
      (s.latched.lzhdr = true →
        hostRead k .lzhdr0 s = .next (s.sub.lzhdr0.toNat : Int) ∧
        hostRead k .lzhdr1 s = .next (s.sub.lzhdr1.toNat : Int))) ∧
    (s.status = .done ∨ s.status = .error ∨ (s.status = .reject ∧ s.latched.hdr = true) →
      hostRead k .format s = .next (s.hdr.format.toNat : Int) ∧ hostRead k .variant s = .next (s.hdr.variant.toNat : Int) ∧
      hostRead k .screenW s = .next (s.hdr.screenW.toNat : Int) ∧ hostRead k .screenH s = .next (s.hdr.screenH.toNat : Int) ∧
      hostRead k .bpp s = .next (s.hdr.bpp.toNat : Int) ∧ hostRead k .left s = .next (s.hdr.left.toNat : Int) ∧
      hostRead k .right s = .next (s.hdr.right.toNat : Int) ∧ hostRead k .top s = .next (s.hdr.top.toNat : Int) ∧
      hostRead k .bottom s = .next (s.hdr.bottom.toNat : Int) ∧ hostRead k .aSize s = .next s.hdr.aSize.toInt ∧
      hostRead k .rSize s = .next s.hdr.rSize.toInt ∧ hostRead k .gSize s = .next s.hdr.gSize.toInt ∧
      hostRead k .bSize s = .next s.hdr.bSize.toInt) ∧
    (s.status = .busy ∨ s.status = .idle ∨ (s.status = .reject ∧ s.latched.hdr = false) → ∀ r,
      r = .format ∨ r = .variant ∨ r = .screenW ∨ r = .screenH ∨ r = .bpp ∨ r = .left ∨ r = .right ∨ r = .top ∨
        r = .bottom ∨ r = .aSize ∨ r = .rSize ∨ r = .gSize ∨ r = .bSize →
      hostRead k r s = .next (unspecifiedValue k r)) ∧
    (s.status = .busy ∨ s.status = .idle ∨ s.status = .reject → ∀ r,
      r = .n ∨ r = .alpha ∨ r = .hlen ∨ r = .packLen ∨ r = .lzhdr0 ∨ r = .lzhdr1 →
      hostRead k r s = .next (unspecifiedValue k r)) ∧
    (s.latched.sub = false → ∀ r, r = .hlen ∨ r = .packLen → hostRead k r s = .next (unspecifiedValue k r)) ∧
    (s.latched.lzhdr = false → ∀ r, r = .lzhdr0 ∨ r = .lzhdr1 → hostRead k r s = .next (unspecifiedValue k r)) ∧
    (s.status = .busy → hostRead k .srcLen s = .next (unspecifiedValue k .srcLen))

/-! ## Decoding -/

/-- R90 to R106, R110: for every well-formed instruction that something encodes, decoding its own bytes, whatever follows
them, gives it back. -/
def Obligations.DecodeOfEncodeIsTheInstruction : Prop :=
  ∀ (special : Byte) (i : Instr) (space : CodeSpace) (rest : List Byte),
    WellFormed special i = true → codeSpace i = some space →
    decode space special (encode special i ++ rest) = .ok i (encode special i).length

/-- R118, R119: whatever bytes the decoder accepts in a code space, the instruction is well formed, belongs to that code
space, and its encoding is exactly the bytes consumed (of a payload bit, the bit). -/
def Obligations.AcceptedBytesAreTheEncoding : Prop :=
  ∀ (space : CodeSpace) (special : Byte) (bs : List Byte) (i : Instr) (n : Nat),
    decode space special bs = .ok i n →
    WellFormed special i = true ∧ codeSpace i = some space ∧ n ≤ bs.length ∧ 0 < n ∧
    (space ≠ .hb → bs.take n = encode special i) ∧
    (space = .hb → ∃ b, bs.head? = some b ∧ encode special i = [b &&& 0x01#8])

/-- R101, R119: exactly FORMAT 1 and 2, VARIANT 0x01, 0xA1 and 0xA2, BPP 24 and 32 are decoded; and every byte is a run's
control byte. -/
def Obligations.IllegalSelectorsAreRefused : Prop :=
  ∀ (special b b' : Byte) (rest : List Byte),
    ((∃ i n, decode .format special (b :: rest) = .ok i n) ↔ (b = 1#8 ∨ b = 2#8)) ∧
    ((∃ i n, decode .variant special (b :: rest) = .ok i n) ↔ (b = 0x01#8 ∨ b = 0xA1#8 ∨ b = 0xA2#8)) ∧
    ((∃ i n, decode .bpp special (b :: b' :: rest) = .ok i n) ↔ ((b = 24#8 ∨ b = 32#8) ∧ b' = 0#8)) ∧
    (∃ i, decode .rc special (b :: rest) = .ok i 1)

/-- R101, R103, R104, R106: a few codes written out bit by bit decode to the instruction they stand for. -/
def Obligations.SampleCodesDecode : Prop :=
  decode .rc 0 [0b00000000#8] = .ok .nop 1 ∧
  decode .rc 0 [0b00000011#8, 0x11#8, 0x22#8, 0x33#8] = .ok (.lit 3#7) 1 ∧
  decode .rc 0 [0b10000100#8, 0xAA#8] = .ok (.rep 4#7) 1 ∧
  decode .lt 0x7E#8 [0x41#8] = .ok (.lzlit 0x41#8) 1 ∧
  decode .lt 0x7E#8 [0x7E#8, 0x7E#8] = .ok .lzesc 2 ∧
  decode .lt 0x7E#8 [0x7E#8, 0x01#8, 0x03#8] = .ok (.lzcpy 0x01#8 0x03#8) 3 ∧
  decode .hb 0 [0b11111110#8] = .ok .hb0 1 ∧
  decode .variant 0 [0b10100010#8] = .ok .variantHufLz 1 ∧
  decode .bpp 0 [0b00100000#8, 0b00000000#8] = .ok .bpp32 2

/-! ## The step -/

/-- While a unit's loop runs and no host move is due, a step reads the next code of the unit's stream as R171, R191 and
R152 fetch it, and is the meaning of the instruction those bytes decode to; the sequencer stays where it is (R27) unless
the instruction ended the command. That one step is one code with its whole fetch is the model's choice, log 4 and log
18; that the host's moves are a list in the state, in which a LOAD or START waits, is log 5's. -/
def Obligations.StepRunsTheDecodedCode : Prop :=
  ∀ (s : State) (i : Instr) (n : Nat), NoMoveDue s → s.status = .busy →
    (∀ c, s.stage = .rle → s.rle.rsp < s.rle.rsrcb → s.rle.rdp < s.rle.rdstb →
      s.byteAt (runSpace s.rle.rsrc) (s.rle.rbase + s.rle.rsp) = some c → decode .rc 0 [c] = .ok i n →
      step s = settle .rle (exec i s)) ∧
    (∀ bs, s.stage = .lz → s.lz.lsp < s.lz.llen → s.lz.ldp < s.lz.ldstb →
      s.bytesAt .mid s.lz.lsp (min 3 (s.lz.llen - s.lz.lsp)) = some bs → decode .lt s.lz.special bs = .ok i n →
      step s = settle .lz (exec i s)) ∧
    (∀ b, s.stage = .huffWalk → s.hsw.hprod < hlenOf s.sub → 256 ≤ s.hsw.cur.toNat → s.br.byteP < s.br.payLen →
      s.byteAt .src (s.br.payBase + s.br.byteP) = some b → decode .hb 0 [b >>> s.br.bitI.toNat] = .ok i n →
      step s = settle .huffWalk (exec i s))

/-- R121: at every position where the model's `fetch` issues an instruction, a step with no host move due is that
instruction's meaning, after which the sequencer goes on unless the command has ended. Which instruction is issued where
is left to `fetch`, which follows R216, R218 and R232; that one step is one issued instruction is the model's choice, log
4, and the list of the host's moves log 5's. -/
def Obligations.StepRunsTheIssuedInstruction : Prop :=
  ∀ (s : State) (i : Instr) (after : Stage), NoMoveDue s → s.status = .busy → fetch s = .instr i after →
    step s = (match exec i s with
      | .next t => .next (if t.status = .busy then { t with stage := after } else t)
      | .fault f => .fault f
      | .refused r => .refused r)

/-- R20, R281: while STATUS is not BUSY and the host makes no move, a step changes nothing; that such a step exists is the
model's form (log 5). -/
def Obligations.IdleEngineDoesNothing : Prop :=
  ∀ s : State, s.host = [] → s.status ≠ .busy → step s = .next s

/-- R230, R280, R281: a RESET that the host makes is taken at once, a running command or not; a LOAD or START is taken at
once while STATUS is not BUSY, and while it is, waits, the engine taking its turn as if the host waited. That the host's
coming moves are a list in the state, in which LOAD and START wait and an entry can be no move, is the model's choice, log
5. -/
def Obligations.HostMovesAreTakenInTurn : Prop :=
  ∀ (s : State) (rest : List HostEvent),
    (s.host = .reset :: rest → step s = exec .reset { s with host := rest }) ∧
    (∀ bytes, s.host = .load bytes :: rest → s.status ≠ .busy → step s = exec (.load bytes) { s with host := rest }) ∧
    (s.host = .start :: rest → s.status ≠ .busy → step s = exec .start { s with host := rest }) ∧
    (s.host = .wait :: rest → s.status ≠ .busy → step s = .next { s with host := rest }) ∧
    (s.host = .wait :: rest → s.status = .busy → ∀ t, step s = .next t → t.host = rest) ∧
    (s.status = .busy → s.host = .start :: rest ∨ (∃ bytes, s.host = .load bytes :: rest) →
      step s = step { s with host := .wait :: s.host } ∧ ∀ t, step s = .next t → t.host = s.host)

/-! ## What every instruction leaves alone -/

/-- R41: no instruction but LOAD and RESET changes SRC. -/
def Obligations.OnlyTheHostWritesSrc : Prop :=
  ∀ (i : Instr) (s t : State), exec i s = .next t → i ≠ .reset → (∀ bs, i ≠ .load bs) → t.src = s.src

/-- R36: TRUNC is sticky: no instruction but START and RESET clears a bit. -/
def Obligations.TruncIsSticky : Prop :=
  ∀ (i : Instr) (s t : State) (k : Nat), exec i s = .next t → i ≠ .start → i ≠ .reset →
    s.trunc.getLsbD k = true → t.trunc.getLsbD k = true

/-- R231: no instruction but START makes STATUS BUSY. -/
def Obligations.OnlyStartMakesBusy : Prop :=
  ∀ (i : Instr) (s t : State), exec i s = .next t → i ≠ .start → t.status = .busy → s.status = .busy

/-- R244 (f), R40: the stream codes, the tree build, the Huffman stage and both expanders never touch PIX; and PIL.PLACE
never touches SRC, MID or PLANE. -/
def Obligations.OnlyPilAndPixInitWritePix : Prop :=
  ∀ (i : Instr) (s t : State), exec i s = .next t →
    (i ≠ .pilPlace → i ≠ .bpp24 → i ≠ .bpp32 → i ≠ .seqDecode → i ≠ .reset → t.pix = s.pix) ∧
    (i = .pilPlace → t.src = s.src ∧ t.mid = s.mid ∧ t.plane = s.plane)

/-! ## Invariants of every step -/

/-- R46: the invariants hold at reset. The equality of PIXFMT and ALPHA, the cursor ranges and the empty MID, PLANE and
PIX rest on the model's reset values where R46 gives none (log 1, log 2). -/
def Obligations.ResetMeetsTheInvariant : Prop :=
  Inv State.reset ∧ CursorInv State.reset ∧ SafeState State.reset

/-- R32, R35, R39, R231: every step from any state that meets the invariant keeps it: canonical memory, a sequencer
position exactly while BUSY, error registers set exactly in ERROR, LIST empty between builds, PIXFMT equal to
ALPHA. -/
def Obligations.StepKeepsTheInvariant : Prop :=
  ∀ s t : State, Inv s → step s = .next t → Inv t

/-- R21, R24, R25: every step keeps the cursors and counts in their ranges. -/
def Obligations.StepKeepsTheCursorRanges : Prop :=
  ∀ s t : State, CursorInv s → step s = .next t → CursorInv t

/-- R70, R250: from a safe state no step faults, and the next state is safe again: every access of every unit stays
inside its space, whatever the container's bytes. -/
def Obligations.SafeStepsNeverFault : Prop :=
  ∀ s : State, SafeState s → (∀ f, step s ≠ .fault f) ∧ (∀ t, step s = .next t → SafeState t)

/-! ## Grains -/

/-- R173, R231, D20: where RLE.EXPAND would be issued, the stream codes run one by one end in the state that the whole
operation gives, with PIL.PLACE next. The grain is the model's own field (log 4). -/
def Obligations.RunCodesMakeUpRleExpand : Prop :=
  ∀ s t : State, s.host = [] → s.status = .busy → s.grain = .code → s.stage = .expand → s.hdr.variant ≠ 0xA2#8 →
    exec (.rleExpand (runOperands s).1 (runOperands s).2.1 (runOperands s).2.2) s = .next t →
    ∃ k, Host.Core.run Sys2Proof.core k s = .next { t with stage := .place }

/-- R193, R231, D20: the same for LZ.EXPAND, a fatal back-reference included (log 4). -/
def Obligations.TokensMakeUpLzExpand : Prop :=
  ∀ s t : State, s.host = [] → s.status = .busy → s.grain = .code → s.stage = .expand → s.hdr.variant = 0xA2#8 →
    exec .lzExpand s = .next t →
    ∃ k, Host.Core.run Sys2Proof.core k s = .next (if t.status = .busy then { t with stage := .place } else t)

/-- R155, R231, D20: the same for HUF.DECODE and its payload bits (log 4). -/
def Obligations.BitsMakeUpHufDecode : Prop :=
  ∀ s t : State, s.host = [] → s.status = .busy → s.grain = .code → s.stage = .huff →
    exec .hufDecode s = .next t →
    ∃ k, Host.Core.run Sys2Proof.core k s = .next { t with stage := .expand }

/-- R231, R232, D20: at every grain, the steps from the START of a command reach the very state that SEQ.DECODE as one
operation gives, so every command ends and no grain can be told from another. The grain is the model's own field
(log 4). -/
def Obligations.EveryGrainReachesTheSameEnd : Prop :=
  ∀ s t : State, s.host = [] → s.status = .busy → s.stage = .hdrRead → exec .seqDecode s = .next t →
    ∃ k, Host.Core.run Sys2Proof.core k s = .next t
end

