-- ==== Sys2Proof/Laws/Decode.lean ====
section
/-! SUPPORT. Byte order there and back (R60), and the codes of the run stream (R104). -/

namespace Sys2Proof

/-! ## Little-endian fields (R60) -/

theorem le16_byte0 (a b : Byte) : (le16 a b).extractLsb' 0 8 = a := by
  ext i hi
  simp only [le16, ← BitVec.getLsbD_eq_getElem, BitVec.getLsbD_append, BitVec.getLsbD_extractLsb']
  simp [hi]

theorem le16_byte1 (a b : Byte) : (le16 a b).extractLsb' 8 8 = b := by
  ext i hi
  simp only [le16, ← BitVec.getLsbD_eq_getElem, BitVec.getLsbD_append, BitVec.getLsbD_extractLsb']
  simp [hi]

/-- A 16-bit field read from its own two bytes (R60). -/
theorem le16_bytes16 (v : U16) : le16 (v.extractLsb' 0 8) (v.extractLsb' 8 8) = v := by
  ext i hi
  simp only [le16, ← BitVec.getLsbD_eq_getElem, BitVec.getLsbD_append, BitVec.getLsbD_extractLsb']
  by_cases h : i < 8
  · simp [h]
  · simp [h, show i - 8 < 8 by omega, show 8 + (i - 8) = i by omega]

/-- A 32-bit field read from its own four bytes (R60). -/
theorem le32_bytes32 (v : U32) :
    le32 (v.extractLsb' 0 8) (v.extractLsb' 8 8) (v.extractLsb' 16 8) (v.extractLsb' 24 8) = v := by
  ext i hi
  simp only [le32, ← BitVec.getLsbD_eq_getElem, BitVec.getLsbD_append, BitVec.getLsbD_extractLsb']
  by_cases h : i < 8
  · simp [h]
  · by_cases h2 : i < 16
    · simp [h, show i - 8 < 8 by omega, show 8 + (i - 8) = i by omega]
    · by_cases h3 : i < 24
      · simp [h, show ¬ i - 8 < 8 by omega, show i - 8 - 8 < 8 by omega, show 16 + (i - 8 - 8) = i by omega]
      · simp [h, show ¬ i - 8 < 8 by omega, show ¬ i - 8 - 8 < 8 by omega, show i - 8 - 8 - 8 < 8 by omega,
          show 24 + (i - 8 - 8 - 8) = i by omega]

theorem le32_byte0 (a b c d : Byte) : (le32 a b c d).extractLsb' 0 8 = a := by
  ext i hi
  simp only [le32, ← BitVec.getLsbD_eq_getElem, BitVec.getLsbD_append, BitVec.getLsbD_extractLsb']
  simp [hi]

theorem le32_byte1 (a b c d : Byte) : (le32 a b c d).extractLsb' 8 8 = b := by
  ext i hi
  simp only [le32, ← BitVec.getLsbD_eq_getElem, BitVec.getLsbD_append, BitVec.getLsbD_extractLsb']
  simp [hi]

theorem le32_byte2 (a b c d : Byte) : (le32 a b c d).extractLsb' 16 8 = c := by
  ext i hi
  simp only [le32, ← BitVec.getLsbD_eq_getElem, BitVec.getLsbD_append, BitVec.getLsbD_extractLsb']
  simp [hi, show ¬ 16 + i < 8 by omega, show ¬ 16 + i - 8 < 8 by omega, show 16 + i - 8 - 8 = i by omega]

theorem le32_byte3 (a b c d : Byte) : (le32 a b c d).extractLsb' 24 8 = d := by
  ext i hi
  simp only [le32, ← BitVec.getLsbD_eq_getElem, BitVec.getLsbD_append, BitVec.getLsbD_extractLsb']
  simp [hi, show ¬ 24 + i < 8 by omega, show ¬ 24 + i - 8 < 8 by omega, show ¬ 24 + i - 8 - 8 < 8 by omega,
    show 24 + i - 8 - 8 - 8 = i by omega]

/-- The bytes of a 16-bit field put together from two (R60). -/
theorem bytes16_le16 (a b : Byte) : bytes16 (le16 a b) = [a, b] := by
  simp only [bytes16, le16_byte0, le16_byte1]

/-- The bytes of a 32-bit field put together from four (R60). -/
theorem bytes32_le32 (a b c d : Byte) : bytes32 (le32 a b c d) = [a, b, c, d] := by
  simp only [bytes32, le32_byte0, le32_byte1, le32_byte2, le32_byte3]

@[simp] theorem bytes16_length (v : U16) : (bytes16 v).length = 2 := rfl
@[simp] theorem bytes32_length (v : U32) : (bytes32 v).length = 4 := rfl

@[simp] theorem bytes32_flatMap_length (l : List U32) : (l.flatMap bytes32).length = 4 * l.length := by
  induction l with
  | nil => rfl
  | cons a rest ih => simp only [List.flatMap_cons, List.length_append, bytes32_length, ih, List.length_cons]; omega

/-- The frequency table read from its own bytes (R102). -/
theorem wordsOf_flatMap (l : List U32) (rest : List Byte) : wordsOf l.length (l.flatMap bytes32 ++ rest) = l := by
  induction l with
  | nil => rfl
  | cons a l ih =>
    rw [List.length_cons, wordsOf]
    have h1 : u32At ((a :: l).flatMap bytes32 ++ rest) 0 = a := by
      simpa [u32At, u8At, bytes32] using le32_bytes32 a
    have h2 : ((a :: l).flatMap bytes32 ++ rest).drop 4 = l.flatMap bytes32 ++ rest := by simp [bytes32]
    rw [h1, h2, ih]

/-- The bytes that `n` words were read from (R102). -/
theorem flatMap_wordsOf (n : Nat) (bs : List Byte) (h : 4 * n ≤ bs.length) :
    (wordsOf n bs).flatMap bytes32 = bs.take (4 * n) := by
  induction n generalizing bs with
  | zero => simp [wordsOf]
  | succ n ih =>
    rcases bs with - | ⟨a, - | ⟨b, - | ⟨c, - | ⟨d, rest⟩⟩⟩⟩
    · simp at h
    · simp at h; omega
    · simp at h; omega
    · simp at h; omega
    · rw [wordsOf, List.flatMap_cons, ih _ (by simp only [List.drop_succ_cons, List.drop_zero, List.length_cons] at *; omega)]
      have : u32At (a :: b :: c :: d :: rest) 0 = le32 a b c d := rfl
      rw [this, bytes32_le32, show 4 * (n + 1) = 4 * n + 4 by omega]
      simp

/-! ## The run codes (R104) -/

theorem decodeRun_lit (n : BitVec 7) (h : n ≠ 0#7) : decodeRun (n.setWidth 8) = .lit n := by
  revert h; revert n; decide

theorem decodeRun_rep (n : BitVec 7) : decodeRun (0x80#8 ||| n.setWidth 8) = .rep n := by
  revert n; decide

/-- A control byte decodes to a REP exactly from 0x80 up, to a LIT exactly from 0x01 to 0x7F (R104). -/
theorem decodeRun_cases (c : Byte) :
    (c.toNat = 0 ∧ decodeRun c = .nop) ∨
    (0 < c.toNat ∧ c.toNat < 128 ∧ decodeRun c = .lit (c.setWidth 7) ∧ (c.setWidth 7).toNat = c.toNat) ∨
    (128 ≤ c.toNat ∧ decodeRun c = .rep (c.setWidth 7) ∧ (c.setWidth 7).toNat = c.toNat - 128) := by
  have hc := c.isLt
  unfold decodeRun
  by_cases h1 : 127 < c.toNat
  · right; right
    rw [if_pos h1]
    exact ⟨by omega, rfl, by rw [BitVec.toNat_setWidth]; omega⟩
  · rw [if_neg h1]
    by_cases h2 : 0 < c.toNat
    · right; left
      rw [if_pos h2]
      exact ⟨h2, by omega, rfl, by rw [BitVec.toNat_setWidth]; omega⟩
    · left
      rw [if_neg h2]
      exact ⟨by omega, rfl⟩

end Sys2Proof
end

