-- ==== Sys2Proof/Laws/Memory.lean ====
section
/-! SUPPORT. The laws of one memory space: a read after a write to the same offset gives the value written, a write
leaves every other offset alone, and every operation keeps the canonical form. -/

namespace Sys2Proof.Machine

/-! ## What a listing reads as -/

theorem lookup_erase_same (cells : List Host.Cell) (a : Nat) :
    Memory.lookup (Memory.erase cells a) a = Config.fill := by
  induction cells with
  | nil => rfl
  | cons c rest ih =>
    by_cases h : c.1 = a
    · simpa [Memory.erase, h] using ih
    · simpa [Memory.erase, Memory.lookup, h] using ih

theorem lookup_erase_other (cells : List Host.Cell) {a b : Nat} (h : b ≠ a) :
    Memory.lookup (Memory.erase cells a) b = Memory.lookup cells b := by
  induction cells with
  | nil => rfl
  | cons c rest ih =>
    by_cases hc : c.1 = a
    · have hb : ¬ c.1 = b := fun e => h (e.symm.trans hc)
      simpa [Memory.erase, Memory.lookup, hc, hb, Ne.symm h] using ih
    · by_cases hb : c.1 = b
      · simp [Memory.erase, Memory.lookup, hb, h]
      · simpa [Memory.erase, Memory.lookup, hc, hb] using ih

theorem lookup_insert (cells : List Host.Cell) (a : Nat) (v : Byte) (b : Nat)
    (ha : ∀ c ∈ cells, c.1 ≠ a) :
    Memory.lookup (Memory.insert cells a v) b = if b = a then v else Memory.lookup cells b := by
  induction cells with
  | nil =>
    by_cases h : b = a
    · simp [Memory.insert, Memory.lookup, h]
    · simp [Memory.insert, Memory.lookup, h, Ne.symm h]
  | cons c rest ih =>
    have hc : c.1 ≠ a := ha c (by simp)
    have hr := ih fun c hm => ha c (by simp [hm])
    by_cases hlt : c.1 < a
    · rw [Memory.insert, if_pos hlt]
      by_cases hb : c.1 = b
      · have : b ≠ a := hb ▸ hc
        simp [Memory.lookup, hb, this]
      · simp [Memory.lookup, hb, hr]
    · by_cases h : b = a
      · simp [Memory.insert, Memory.lookup, hlt, h]
      · simp [Memory.insert, Memory.lookup, hlt, h, Ne.symm h]

theorem erase_no_key (cells : List Host.Cell) (a : Nat) : ∀ c ∈ Memory.erase cells a, c.1 ≠ a := by
  intro c hc
  simpa using (List.mem_filter.1 hc).2

/-- What a stored byte reads as, everywhere (R71). -/
theorem lookup_put (cells : List Host.Cell) (a : Nat) (v : Byte) (b : Nat) :
    Memory.lookup (Memory.put cells a v) b = if b = a then v else Memory.lookup cells b := by
  unfold Memory.put
  by_cases hv : v = Config.fill
  · by_cases h : b = a
    · simp [hv, h, lookup_erase_same]
    · simp [hv, h, lookup_erase_other cells h]
  · rw [if_neg hv, lookup_insert _ _ _ _ (erase_no_key cells a)]
    by_cases h : b = a
    · simp [h]
    · simp [h, lookup_erase_other cells h]

/-! ## Reading a space -/

@[simp] theorem Memory.set_len (m : Memory) (a : Nat) (v : Byte) : (m.set a v).len = m.len := rfl

@[simp] theorem Memory.filled_len (n : Nat) : (Memory.filled n).len = n := rfl

/-- A read of a space with one byte set (R71). -/
theorem Memory.read_set (m : Memory) (a : Nat) (v : Byte) (b : Nat) :
    (m.set a v).read b = if b = a ∧ a < m.len then some v else m.read b := by
  unfold Memory.read Memory.set
  simp only [lookup_put]
  by_cases h : b = a <;> by_cases hl : a < m.len <;> simp_all

@[simp] theorem Memory.read_set_same (m : Memory) (a : Nat) (v : Byte) (h : a < m.len) : (m.set a v).read a = some v := by
  simp [Memory.read_set, h]

theorem Memory.read_set_other (m : Memory) {a b : Nat} (v : Byte) (h : b ≠ a) : (m.set a v).read b = m.read b := by
  simp [Memory.read_set, h]

@[simp] theorem Memory.read_filled (n a : Nat) :
    (Memory.filled n).read a = if a < n then some Config.fill else none := rfl

theorem Memory.read_isSome (m : Memory) (a : Nat) : (m.read a).isSome ↔ a < m.len := by
  unfold Memory.read; split <;> simp_all

theorem Memory.read_lt (m : Memory) {a : Nat} (h : a < m.len) : m.read a = some (Memory.lookup m.cells a) := by
  simp [Memory.read, h]

theorem Memory.read_ge (m : Memory) {a : Nat} (h : m.len ≤ a) : m.read a = none := by
  simp [Memory.read, Nat.not_lt.2 h]

theorem Memory.read_eq_some (m : Memory) {a : Nat} {v : Byte} (h : m.read a = some v) : a < m.len :=
  (m.read_isSome a).1 (by simp [h])

/-- A write answers exactly inside the space. -/
theorem Memory.write_eq (m : Memory) (a : Nat) (v : Byte) :
    m.write a v = if a < m.len then some (m.set a v) else none := rfl

/-! ## Canonical form -/

theorem insert_mem (cells : List Host.Cell) (a : Nat) (v : Byte) (c : Host.Cell) :
    c ∈ Memory.insert cells a v ↔ c = (a, v) ∨ c ∈ cells := by
  induction cells with
  | nil => simp [Memory.insert]
  | cons d rest ih =>
    by_cases h : d.1 < a
    · simp only [Memory.insert, h, if_true, List.mem_cons, ih]; tauto
    · simp [Memory.insert, h]

theorem insert_rising (cells : List Host.Cell) (a : Nat) (v : Byte)
    (hs : cells.Pairwise (fun c d => c.1 < d.1)) (ha : ∀ c ∈ cells, c.1 ≠ a) :
    (Memory.insert cells a v).Pairwise (fun c d => c.1 < d.1) := by
  induction cells with
  | nil => simp [Memory.insert]
  | cons c rest ih =>
    have hc : c.1 ≠ a := ha c (by simp)
    obtain ⟨h1, h2⟩ := List.pairwise_cons.1 hs
    by_cases hlt : c.1 < a
    · simp only [Memory.insert, hlt, if_true]
      refine List.pairwise_cons.2 ⟨fun d hd => ?_, ih h2 fun d hd => ha d (by simp [hd])⟩
      rcases (insert_mem rest a v d).1 hd with rfl | hd
      · exact hlt
      · exact h1 d hd
    · simp only [Memory.insert, hlt, if_false]
      have hgt : a < c.1 := by omega
      refine List.pairwise_cons.2 ⟨fun d hd => ?_, hs⟩
      rcases List.mem_cons.1 hd with rfl | hd
      · exact hgt
      · exact hgt.trans (h1 d hd)

/-- Setting a byte of a space keeps the canonical form. -/
theorem Memory.set_wf (m : Memory) (a : Nat) (v : Byte) (h : m.wf) (ha : a < m.len) : (m.set a v).wf := by
  obtain ⟨h1, h2⟩ := h
  have hes : (Memory.erase m.cells a).Pairwise (fun c d => c.1 < d.1) := h1.sublist List.filter_sublist
  have hem : ∀ c ∈ Memory.erase m.cells a, c.1 < m.len ∧ c.2 ≠ Config.fill :=
    fun c hc => h2 c (List.mem_filter.1 hc).1
  by_cases hv : v = Config.fill
  · simpa [Memory.wf, Memory.set, Memory.put, hv] using ⟨hes, fun a b hc => hem (a, b) hc⟩
  · refine ⟨?_, fun c hc => ?_⟩
    · simpa [Memory.set, Memory.put, hv] using insert_rising _ a v hes (erase_no_key m.cells a)
    · rw [Memory.set, Memory.put, if_neg hv] at hc
      rcases (insert_mem _ a v c).1 hc with rfl | hc
      · exact ⟨ha, hv⟩
      · exact hem c hc

/-- Every write keeps the canonical form. -/
theorem Memory.write_wf (m m' : Memory) (a : Nat) (v : Byte) (h : m.wf) (hw : m.write a v = some m') : m'.wf := by
  rw [Memory.write_eq] at hw
  split at hw
  · cases hw; exact m.set_wf a v h ‹_›
  · cases hw

/-- A filled space is in canonical form. -/
theorem Memory.filled_wf (n : Nat) : (Memory.filled n).wf := by simp [Memory.wf, Memory.filled]

theorem cellsFrom_spec (bs : List Byte) (i : Nat) :
    (Memory.cellsFrom i bs).Pairwise (fun c d => c.1 < d.1) ∧
      ∀ c ∈ Memory.cellsFrom i bs, i ≤ c.1 ∧ c.1 < i + bs.length ∧ c.2 ≠ Config.fill := by
  induction bs generalizing i with
  | nil => simp [Memory.cellsFrom]
  | cons b rest ih =>
    obtain ⟨h1, h2⟩ := ih (i + 1)
    by_cases hb : b = Config.fill
    · simp only [Memory.cellsFrom, hb, if_true]
      refine ⟨h1, fun c hc => ?_⟩
      obtain ⟨p, q, r⟩ := h2 c hc
      exact ⟨by omega, by simp only [List.length_cons]; omega, r⟩
    · simp only [Memory.cellsFrom, hb, if_false]
      refine ⟨List.pairwise_cons.2 ⟨fun c hc => (h2 c hc).1, h1⟩, fun c hc => ?_⟩
      rcases List.mem_cons.1 hc with rfl | hc
      · exact ⟨Nat.le_refl _, by simp, hb⟩
      · obtain ⟨p, q, r⟩ := h2 c hc
        exact ⟨by omega, by simp only [List.length_cons]; omega, r⟩

/-- A loaded space is in canonical form. -/
theorem Memory.ofBytes_wf (bs : List Byte) : (Memory.ofBytes bs).wf := by
  obtain ⟨h1, h2⟩ := cellsFrom_spec bs 0
  exact ⟨h1, fun c hc => ⟨by simpa [Memory.ofBytes] using (h2 c hc).2.1, (h2 c hc).2.2⟩⟩

theorem lookup_cellsFrom (bs : List Byte) (i a : Nat) :
    Memory.lookup (Memory.cellsFrom i bs) a = if i ≤ a then bs.getD (a - i) Config.fill else Config.fill := by
  induction bs generalizing i with
  | nil => simp [Memory.cellsFrom, Memory.lookup]
  | cons b rest ih =>
    have key : Memory.lookup (Memory.cellsFrom i (b :: rest)) a
        = if i = a then b else Memory.lookup (Memory.cellsFrom (i + 1) rest) a := by
      by_cases hb : b = Config.fill
      · by_cases hi : i = a
        · subst hi; simp [Memory.cellsFrom, hb, ih]
        · simp [Memory.cellsFrom, hb, hi]
      · simp [Memory.cellsFrom, hb, Memory.lookup]
    rw [key, ih]
    by_cases hi : i = a
    · subst hi; simp
    · by_cases hl : i ≤ a
      · have h1 : i + 1 ≤ a := by omega
        obtain ⟨k, hk⟩ : ∃ k, a - i = k + 1 := ⟨a - i - 1, by omega⟩
        have hk' : a - (i + 1) = k := by omega
        simp [hi, hl, h1, hk, hk']
      · have h1 : ¬ i + 1 ≤ a := by omega
        simp [hi, hl, h1]

/-- A loaded space holds exactly the bytes loaded (R230). -/
theorem Memory.read_ofBytes (bs : List Byte) (a : Nat) : (Memory.ofBytes bs).read a = bs[a]? := by
  unfold Memory.read Memory.ofBytes
  by_cases h : a < bs.length
  · simp [h, lookup_cellsFrom]
  · simp [h]

end Sys2Proof.Machine
end

