-- ==== Sys2Proof/Laws/Ops.lean ====
section
/-! SUPPORT. The laws of the shared operations of Ops.lean: the four spaces, reading and writing one byte or a run of
bytes, and sequencing. `Flow.Post` says at once what a piece of pseudocode can end in. -/

namespace Sys2Proof.Machine

/-! ## The four spaces -/

@[simp] theorem State.space_src (s : State) : s.space .src = s.src := rfl
@[simp] theorem State.space_mid (s : State) : s.space .mid = s.mid := rfl
@[simp] theorem State.space_plane (s : State) : s.space .plane = s.plane := rfl
@[simp] theorem State.space_pix (s : State) : s.space .pix = s.pix := rfl
@[simp] theorem State.setSpace_mid (s : State) (m : Memory) : s.setSpace .mid m = { s with mid := m } := rfl
@[simp] theorem State.setSpace_plane (s : State) (m : Memory) : s.setSpace .plane m = { s with plane := m } := rfl
@[simp] theorem State.setSpace_pix (s : State) (m : Memory) : s.setSpace .pix m = { s with pix := m } := rfl

/-! ## Bytes -/

/-- A byte exists exactly below the length of its space (R40). -/
theorem State.byteAt_isSome (s : State) (sp : SpaceId) (a : Nat) : (s.byteAt sp a).isSome ↔ a < (s.space sp).len :=
  (s.space sp).read_isSome a

theorem State.byteAt_lt (s : State) (sp : SpaceId) {a : Nat} (h : a < (s.space sp).len) :
    ∃ b, s.byteAt sp a = some b := ⟨_, (s.space sp).read_lt h⟩

theorem State.byteAt_ge (s : State) (sp : SpaceId) {a : Nat} (h : (s.space sp).len ≤ a) : s.byteAt sp a = none :=
  (s.space sp).read_ge h

/-- A run of bytes is read exactly when each of them exists, and is those bytes (R9). -/
theorem State.bytesAt_eq_some (s : State) (sp : SpaceId) (n a : Nat) (bs : List Byte) :
    s.bytesAt sp a n = some bs ↔ bs.length = n ∧ ∀ i, i < n → s.byteAt sp (a + i) = bs[i]? := by
  induction n generalizing a bs with
  | zero =>
    simp only [State.bytesAt, Option.some.injEq]
    exact ⟨fun h => by subst h; simp, fun h => (List.eq_nil_of_length_eq_zero h.1).symm⟩
  | succ n ih =>
    simp only [State.bytesAt]
    cases hb : s.byteAt sp a with
    | none =>
      refine ⟨fun h => by simp at h, fun h => ?_⟩
      have h0 := h.2 0 (Nat.succ_pos n)
      rw [Nat.add_zero, hb] at h0
      have : bs.length = 0 := by
        rcases bs with - | ⟨c, bs⟩
        · rfl
        · simp at h0
      omega
    | some b =>
      cases hr : s.bytesAt sp (a + 1) n with
      | none =>
        refine ⟨fun h => by simp at h, fun ⟨h1, h2⟩ => ?_⟩
        rcases bs with - | ⟨c, bs⟩
        · simp at h1
        · have := (ih (a + 1) bs).2 ⟨by simpa using h1, fun i hi => by
            have := h2 (i + 1) (by omega)
            rw [show a + 1 + i = a + (i + 1) by omega, this]; simp⟩
          rw [hr] at this; cases this
      | some rest =>
        obtain ⟨hl, he⟩ := (ih (a + 1) rest).1 hr
        constructor
        · intro h
          cases h
          refine ⟨by simp [hl], fun i hi => ?_⟩
          rcases i with - | i
          · simpa using hb
          · rw [show a + (i + 1) = a + 1 + i by omega, he i (by omega)]; simp
        · rintro ⟨h1, h2⟩
          rcases bs with - | ⟨c, bs⟩
          · simp at h1
          · have hc := h2 0 (Nat.succ_pos n)
            rw [Nat.add_zero, hb] at hc
            have hbs := (ih (a + 1) bs).2 ⟨by simpa using h1, fun i hi => by
              have := h2 (i + 1) (by omega)
              rw [show a + 1 + i = a + (i + 1) by omega, this]; simp⟩
            rw [hr] at hbs
            cases hbs
            simpa using hc

/-- A run of bytes inside its space is always read. -/
theorem State.bytesAt_total (s : State) (sp : SpaceId) (n a : Nat) (h : a + n ≤ (s.space sp).len) :
    ∃ bs, s.bytesAt sp a n = some bs ∧ bs.length = n := by
  induction n generalizing a with
  | zero => exact ⟨[], rfl, rfl⟩
  | succ n ih =>
    obtain ⟨b, hb⟩ := s.byteAt_lt sp (a := a) (by omega)
    obtain ⟨bs, hbs, hl⟩ := ih (a + 1) (by omega)
    exact ⟨b :: bs, by simp [State.bytesAt, hb, hbs], by simp [hl]⟩

/-- A run of bytes that is read has its length and lies inside its space. -/
theorem State.bytesAt_length (s : State) (sp : SpaceId) {n a : Nat} {bs : List Byte} (h : s.bytesAt sp a n = some bs) :
    bs.length = n := ((s.bytesAt_eq_some sp n a bs).1 h).1

theorem State.bytesAt_bound (s : State) (sp : SpaceId) {n a : Nat} {bs : List Byte} (h : s.bytesAt sp a n = some bs)
    (hn : 0 < n) : a + n ≤ (s.space sp).len := by
  obtain ⟨hl, he⟩ := (s.bytesAt_eq_some sp n a bs).1 h
  have := he (n - 1) (by omega)
  have hs : (s.byteAt sp (a + (n - 1))).isSome := by
    rw [this, List.getElem?_eq_getElem (by omega)]; rfl
  have := (s.byteAt_isSome sp _).1 hs
  omega

/-- Inside a space the padded read is the plain one (R190). -/
theorem State.paddedAt_eq (s : State) (sp : SpaceId) {n a : Nat} {bs : List Byte} (h : s.bytesAt sp a n = some bs) :
    s.paddedAt sp a n = bs := by
  induction n generalizing a bs with
  | zero => simpa [State.bytesAt, State.paddedAt] using h
  | succ n ih =>
    simp only [State.bytesAt] at h
    cases hb : s.byteAt sp a with
    | none => simp [hb] at h
    | some b =>
      cases hr : s.bytesAt sp (a + 1) n with
      | none => simp [hb, hr] at h
      | some rest =>
        simp only [hb, hr, Option.some.injEq] at h
        subst h
        simp [State.paddedAt, hb, ih hr]

@[simp] theorem State.paddedAt_length (s : State) (sp : SpaceId) (n a : Nat) : (s.paddedAt sp a n).length = n := by
  induction n generalizing a with
  | zero => rfl
  | succ n ih => simp [State.paddedAt, ih]

/-- The padded read, byte by byte. -/
theorem State.paddedAt_getElem? (s : State) (sp : SpaceId) (n a i : Nat) (h : i < n) :
    (s.paddedAt sp a n)[i]? = some ((s.byteAt sp (a + i)).getD Config.fill) := by
  induction n generalizing a i with
  | zero => omega
  | succ n ih =>
    rcases i with - | i
    · simp [State.paddedAt]
    · simp only [State.paddedAt, List.getElem?_cons_succ]
      rw [ih (a + 1) i (by omega), show a + 1 + i = a + (i + 1) by omega]

/-- The bytes of a space depend on that space alone. -/
theorem State.bytesAt_congr (s t : State) (sp : SpaceId) (h : s.space sp = t.space sp) (n a : Nat) :
    s.bytesAt sp a n = t.bytesAt sp a n := by
  induction n generalizing a with
  | zero => rfl
  | succ n ih => simp only [State.bytesAt, State.byteAt, h, ih]

theorem State.paddedAt_congr (s t : State) (sp : SpaceId) (h : s.space sp = t.space sp) (n a : Nat) :
    s.paddedAt sp a n = t.paddedAt sp a n := by
  induction n generalizing a with
  | zero => rfl
  | succ n ih => simp only [State.paddedAt, State.byteAt, h, ih]

/-! ## Sequencing -/

@[simp] theorem Flow.go_andThen (s : State) (f : State → Flow) : (Flow.go s).andThen f = f s := rfl
@[simp] theorem Flow.stop_andThen (s : State) (f : State → Flow) : (Flow.stop s).andThen f = .stop s := rfl
@[simp] theorem Flow.fault_andThen (e : Fault) (f : State → Flow) : (Flow.fault e).andThen f = .fault e := rfl
@[simp] theorem Flow.refuse_andThen (r : Refusal) (f : State → Flow) : (Flow.refuse r).andThen f = .refuse r := rfl
@[simp] theorem Flow.go_toOutcome (s : State) : (Flow.go s).toOutcome = .next s := rfl
@[simp] theorem Flow.stop_toOutcome (s : State) : (Flow.stop s).toOutcome = .next s := rfl
@[simp] theorem Flow.fault_toOutcome (e : Fault) : (Flow.fault e).toOutcome = .fault e := rfl
@[simp] theorem Flow.refuse_toOutcome (r : Refusal) : (Flow.refuse r).toOutcome = .refused r := rfl

theorem Flow.andThen_assoc (x : Flow) (f g : State → Flow) :
    (x.andThen f).andThen g = x.andThen fun s => (f s).andThen g := by cases x <;> rfl

/-- What a piece of pseudocode can end in: `G` of the state it goes on with, `S` of the state it ends the command in,
`F` of the fault it stops with. -/
def Flow.Post (x : Flow) (G S : State → Prop) (F : Fault → Prop) : Prop :=
  match x with
  | .go s => G s
  | .stop s => S s
  | .fault f => F f
  | .refuse _ => True

@[simp] theorem Flow.post_go (s : State) (G S : State → Prop) (F : Fault → Prop) : (Flow.go s).Post G S F ↔ G s := Iff.rfl
@[simp] theorem Flow.post_stop (s : State) (G S : State → Prop) (F : Fault → Prop) :
    (Flow.stop s).Post G S F ↔ S s := Iff.rfl
@[simp] theorem Flow.post_fault (f : Fault) (G S : State → Prop) (F : Fault → Prop) :
    (Flow.fault f).Post G S F ↔ F f := Iff.rfl
@[simp] theorem Flow.post_refuse (r : Refusal) (G S : State → Prop) (F : Fault → Prop) :
    (Flow.refuse r).Post G S F := trivial

/-- Program order: what `f` ends in from every state that `x` can go on with (R71). -/
theorem Flow.Post.andThen {x : Flow} {f : State → Flow} {G G' S : State → Prop} {F : Fault → Prop}
    (hx : x.Post G S F) (hf : ∀ s, G s → (f s).Post G' S F) : (x.andThen f).Post G' S F := by
  cases x with
  | go s => exact hf s hx
  | stop s => exact hx
  | fault e => exact hx
  | refuse r => trivial

theorem Flow.Post.mono {x : Flow} {G G' S S' : State → Prop} {F F' : Fault → Prop} (hx : x.Post G S F)
    (hg : ∀ s, G s → G' s) (hs : ∀ s, S s → S' s) (hf : ∀ f, F f → F' f) : x.Post G' S' F' := by
  cases x with
  | go s => exact hg s hx
  | stop s => exact hs s hx
  | fault e => exact hf e hx
  | refuse r => trivial

/-- The next state of an instruction, from what its flow ends in. -/
theorem Flow.Post.next {x : Flow} {P : State → Prop} {F : Fault → Prop} (hx : x.Post P P F) {t : State}
    (h : x.toOutcome = .next t) : P t := by
  cases x with
  | go s => cases h; exact hx
  | stop s => cases h; exact hx
  | fault e => cases h
  | refuse r => cases h

/-- An instruction whose flow meets no fault does not fault. -/
theorem Flow.Post.noFault {x : Flow} {G S : State → Prop} (hx : x.Post G S fun _ => False) (f : Fault) :
    x.toOutcome ≠ .fault f := by
  cases x with
  | go s => exact fun h => by cases h
  | stop s => exact fun h => by cases h
  | fault e => exact hx.elim
  | refuse r => exact fun h => by cases h

/-! ## One byte read or written -/

/-- Everything a store of one byte can do (R9, R40). -/
theorem putByte_eq (sp : SpaceId) (a : Nat) (v : Byte) (s : State) :
    putByte sp a v s
      = if a < (s.space sp).len then .go (s.setSpace sp ((s.space sp).set a v)) else .fault (.outOfRange sp a) := by
  unfold putByte
  rw [Memory.write_eq]
  split <;> simp_all

theorem putByte_lt (sp : SpaceId) {a : Nat} (v : Byte) (s : State) (h : a < (s.space sp).len) :
    putByte sp a v s = .go (s.setSpace sp ((s.space sp).set a v)) := by simp [putByte_eq, h]

theorem withByte_some (sp : SpaceId) {a : Nat} (s : State) (k : Byte → Flow) {b : Byte} (h : s.byteAt sp a = some b) :
    withByte sp a s k = k b := by simp [withByte, h]

theorem withBytes_some (sp : SpaceId) {a n : Nat} (s : State) (k : List Byte → Flow) {bs : List Byte}
    (h : s.bytesAt sp a n = some bs) : withBytes sp a n s k = k bs := by simp [withBytes, h]

/-- Everything a read of one byte can do: it goes on with the byte, or the byte does not exist. -/
theorem withByte_post {sp : SpaceId} {a : Nat} {s : State} {k : Byte → Flow} {G S : State → Prop} {F : Fault → Prop}
    (hk : ∀ b, s.byteAt sp a = some b → (k b).Post G S F)
    (hf : (s.space sp).len ≤ a → F (.outOfRange sp a)) : (withByte sp a s k).Post G S F := by
  unfold withByte
  cases h : s.byteAt sp a with
  | none =>
    refine hf (Nat.le_of_not_lt fun hl => ?_)
    obtain ⟨b, hb⟩ := s.byteAt_lt sp hl
    rw [h] at hb; cases hb
  | some b => exact hk b h

/-- Everything a read of a run of bytes can do. -/
theorem withBytes_post {sp : SpaceId} {a n : Nat} {s : State} {k : List Byte → Flow} {G S : State → Prop}
    {F : Fault → Prop} (hk : ∀ bs, s.bytesAt sp a n = some bs → (k bs).Post G S F)
    (hf : (s.space sp).len < a + n → F (.outOfRange sp a)) : (withBytes sp a n s k).Post G S F := by
  unfold withBytes
  cases h : s.bytesAt sp a n with
  | none =>
    refine hf (Nat.lt_of_not_le fun hl => ?_)
    obtain ⟨b, hb, -⟩ := s.bytesAt_total sp n a hl
    rw [h] at hb; cases hb
  | some b => exact hk b h

/-! ## Canonical form -/

/-- A store of one byte keeps every space in canonical form. -/
theorem putByte_memWf (sp : SpaceId) (a : Nat) (v : Byte) (s t : State) (h : s.memWf)
    (ht : putByte sp a v s = .go t) : t.memWf := by
  rw [putByte_eq] at ht
  split at ht
  · rename_i hl
    cases ht
    obtain ⟨h1, h2, h3, h4⟩ := h
    cases sp with
    | src => exact ⟨s.src.set_wf a v h1 hl, h2, h3, h4⟩
    | mid => exact ⟨h1, s.mid.set_wf a v h2 hl, h3, h4⟩
    | plane => exact ⟨h1, h2, s.plane.set_wf a v h3 hl, h4⟩
    | pix => exact ⟨h1, h2, h3, s.pix.set_wf a v h4 hl⟩
  · cases ht

/-- After reset every space is in canonical form. -/
theorem reset_memWf : State.reset.memWf :=
  ⟨Memory.filled_wf 0, Memory.filled_wf 0, Memory.filled_wf 0, Memory.filled_wf 0⟩

end Sys2Proof.Machine
end

