-- ==== Sys2Proof/Laws/Huffman.lean ====
section
/-! SUPPORT. What the operations of the bit reader and the symbol walker can do. -/

namespace Sys2Proof.Machine

/-- What no operation of the walk changes: everything but MID's bytes, the bit reader's cursor and CUR and HPROD. -/
structure WalkFrame (s t : State) : Prop where
  rest : t = { s with mid := t.mid, br := t.br, hsw := t.hsw }
  len : t.mid.len = s.mid.len
  wf : s.mid.wf → t.mid.wf
  payBase : t.br.payBase = s.br.payBase
  payLen : t.br.payLen = s.br.payLen
  byteP : s.br.byteP ≤ t.br.byteP
  byteLe : s.br.byteP ≤ s.br.payLen → t.br.byteP ≤ s.br.payLen
  root : t.hsw.root = s.hsw.root
  hprod : s.hsw.hprod ≤ t.hsw.hprod
  hprodLe : s.hsw.hprod ≤ hlenOf s.sub → t.hsw.hprod ≤ hlenOf s.sub

/-- What keeps a walk inside SRC, MID and the tree (R70, R136). -/
structure WalkBounds (s : State) : Prop where
  stream : s.br.payBase + s.br.payLen ≤ s.srcLen
  dest : hlenOf s.sub ≤ s.mid.len
  walk : WalkOk s
  cur : s.hsw.cur.toNat ≤ 510

theorem WalkFrame.refl (s : State) : WalkFrame s s :=
  ⟨rfl, rfl, id, rfl, rfl, Nat.le_refl _, id, rfl, Nat.le_refl _, id⟩

theorem WalkFrame.trans {s t u : State} (h : WalkFrame s t) (k : WalkFrame t u) : WalkFrame s u where
  rest := by rw [k.rest, h.rest]
  len := k.len.trans h.len
  wf := k.wf ∘ h.wf
  payBase := k.payBase.trans h.payBase
  payLen := k.payLen.trans h.payLen
  byteP := h.byteP.trans k.byteP
  byteLe := fun x => by have := k.byteLe (h.payLen ▸ h.byteLe x); rwa [h.payLen] at this
  root := k.root.trans h.root
  hprod := h.hprod.trans k.hprod
  hprodLe := fun x => by
    have hs : t.sub = s.sub := by rw [h.rest]
    have := k.hprodLe (hs.symm ▸ h.hprodLe x); rwa [hs] at this

theorem WalkFrame.sub {s t : State} (h : WalkFrame s t) : t.sub = s.sub := by rw [h.rest]

theorem WalkFrame.src {s t : State} (h : WalkFrame s t) : t.src = s.src := by rw [h.rest]

theorem WalkFrame.node {s t : State} (h : WalkFrame s t) : t.htb = s.htb := by rw [h.rest]

/-- The bounds stay as long as CUR stays a node of the tree. -/
theorem WalkFrame.bounds {s t : State} (h : WalkFrame s t) (b : WalkBounds s) (hc : t.hsw.cur.toNat ≤ 510) :
    WalkBounds t where
  stream := by rw [h.payBase, h.payLen, State.srcLen, h.src]; exact b.stream
  dest := by rw [h.sub, h.len]; exact b.dest
  walk := ⟨by rw [h.root]; exact b.walk.root, by rw [h.node]; exact b.walk.tree⟩
  cur := hc

/-! ## The bit reader (R152) -/

@[simp] theorem brAdvance_payBase (r : BrRegs) : (brAdvance r).payBase = r.payBase := by unfold brAdvance; split <;> rfl
@[simp] theorem brAdvance_payLen (r : BrRegs) : (brAdvance r).payLen = r.payLen := by unfold brAdvance; split <;> rfl

theorem brAdvance_byteP (r : BrRegs) :
    (brAdvance r).byteP = if r.bitI = 7#3 then r.byteP + 1 else r.byteP := by
  unfold brAdvance; split <;> rfl

theorem bitI_succ (x : BitVec 3) (h : x ≠ 7#3) : (x + 1).toNat = x.toNat + 1 := by
  revert x; decide

/-- A bit consumed from a reader that has one leaves one bit fewer (R152, R21). -/
theorem bitsLeft_brAdvance (r : BrRegs) (h : r.byteP < r.payLen) : bitsLeft (brAdvance r) + 1 = bitsLeft r := by
  have hb := r.bitI.isLt
  unfold brAdvance bitsLeft
  split
  · rename_i h7
    have h0 : (0 : BitVec 3).toNat = 0 := rfl
    have h1 : (7#3).toNat = 7 := rfl
    simp only [h7, h0, h1]
    omega
  · rename_i h7
    have h8 : r.bitI.toNat ≠ 7 := fun e => h7 (BitVec.eq_of_toNat_eq (by simpa using e))
    simp only [bitI_succ _ h7]
    omega

/-! ## The walk -/

/-- Everything one bit of a walk can do (R152, R153). -/
theorem walkBit_eq (right : Bool) (s : State) :
    walkBit right s =
      if 256 ≤ s.hsw.cur.toNat ∧ s.hsw.cur.toNat < 511 then
        .go { s with
          br := brAdvance s.br
          hsw := { s.hsw with
            cur := if right then (nodeAt s.htb.node s.hsw.cur).right else (nodeAt s.htb.node s.hsw.cur).left } }
      else .fault (.nodeUnspecified s.hsw.cur) := by
  unfold walkBit childAt
  by_cases h : 256#9 ≤ s.hsw.cur ∧ s.hsw.cur < 511#9
  · have h' : 256 ≤ s.hsw.cur.toNat ∧ s.hsw.cur.toNat < 511 := ⟨h.1, h.2⟩
    rw [if_pos h, if_pos h']
  · have h' : ¬ (256 ≤ s.hsw.cur.toNat ∧ s.hsw.cur.toNat < 511) := fun e => h ⟨e.1, e.2⟩
    rw [if_neg h, if_neg h']

/-- A walk stands on a leaf exactly below index 256 (R38). -/
theorem onLeaf_iff (s : State) : onLeaf s = true ↔ s.hsw.cur.toNat < 256 := by
  unfold onLeaf; rw [decide_eq_true_iff]; exact Iff.rfl

/-- Everything EMIT can do (R103, R155). -/
theorem hufEmit_eq (s : State) :
    hufEmit s =
      if s.hsw.cur.toNat < 256 then
        if s.hsw.hprod < s.mid.len then
          .go { s with
            mid := s.mid.set s.hsw.hprod (s.hsw.cur.setWidth 8)
            hsw := { s.hsw with hprod := s.hsw.hprod + 1, cur := s.hsw.root } }
        else .fault (.outOfRange .mid s.hsw.hprod)
      else .fault (.emitInternal s.hsw.cur) := by
  unfold hufEmit
  by_cases h : s.hsw.cur.toNat < 256
  · rw [if_pos ((onLeaf_iff s).2 h), if_pos h, putByte_eq]
    by_cases h1 : s.hsw.hprod < s.mid.len
    · rw [if_pos h1, if_pos (by simpa using h1)]; rfl
    · rw [if_neg h1, if_neg (by simpa using h1)]; rfl
  · rw [if_neg (fun e => h ((onLeaf_iff s).1 e)), if_neg h]

/-- HUF.DECODE's return changes nothing but CUR (R155). -/
theorem walkReturn_rest (s : State) : walkReturn s = { s with hsw := { s.hsw with cur := (walkReturn s).hsw.cur } } := by
  unfold walkReturn
  split
  · split <;> rfl
  · rfl

/-- With HLEN bytes produced, the last of them `b`, HUF.DECODE returns with CUR on the leaf of `b` (R155). -/
theorem walkReturn_last (s : State) {b : Byte} (h0 : 0 < s.hsw.hprod) (h : hlenOf s.sub ≤ s.hsw.hprod)
    (hb : s.mid.read (s.hsw.hprod - 1) = some b) : (walkReturn s).hsw.cur = b.setWidth 9 := by
  unfold walkReturn
  rw [if_pos ⟨h0, h⟩, show s.byteAt .mid (s.hsw.hprod - 1) = some b from hb]

/-- With bytes still to produce, or none produced, HUF.DECODE returns with CUR where the walk stopped (R155, R156). -/
theorem walkReturn_cut (s : State) (h : s.hsw.hprod = 0 ∨ s.hsw.hprod < hlenOf s.sub) : walkReturn s = s := by
  unfold walkReturn
  exact if_neg fun e => by omega

/-- Everything the loop of R155 can do: it never ends the command, and inside its bounds it never faults. -/
theorem hufLoop_post (k : Nat) (s : State) :
    (hufLoop k s).Post (fun t => WalkFrame s t ∧ (s.hsw.cur.toNat ≤ 510 → WalkOk s → t.hsw.cur.toNat ≤ 510))
      (fun _ => False) (fun _ => ¬ WalkBounds s) := by
  induction k generalizing s with
  | zero => exact ⟨WalkFrame.refl s, fun h _ => h⟩
  | succ k ih =>
    rw [hufLoop]
    split
    · rename_i hp
      split
      · rename_i hleaf
        rw [hufEmit_eq, if_pos ((onLeaf_iff s).1 hleaf)]
        split
        · rename_i hm
          rw [Flow.go_andThen]
          have hf : WalkFrame s { s with
              mid := s.mid.set s.hsw.hprod (s.hsw.cur.setWidth 8)
              hsw := { s.hsw with hprod := s.hsw.hprod + 1, cur := s.hsw.root } } :=
            ⟨rfl, rfl, fun w => s.mid.set_wf _ _ w hm, rfl, rfl, Nat.le_refl _, id, rfl, by simp, fun _ => hp⟩
          refine (ih _).mono (fun t ht => ⟨hf.trans ht.1, fun _ ho => ht.2 ?_ ⟨ho.root, ho.tree⟩⟩) (fun _ h => h)
            (fun _ h => fun hb => h (hf.bounds hb ?_))
          · simp only [ho.root]; decide
          · simp only [hb.walk.root]; decide
        · rename_i hm
          exact fun hb => hm (Nat.lt_of_lt_of_le hp hb.dest)
      · rename_i hleaf
        split
        · exact ⟨WalkFrame.refl s, fun h _ => h⟩
        · rename_i hx
          simp only [brExhausted, decide_eq_true_eq, Nat.not_le] at hx
          refine withByte_post (fun b _ => ?_) (fun hl => fun hb => ?_)
          · rw [walkBit_eq]
            split
            · rename_i hc
              rw [Flow.go_andThen]
              have hchild : WalkOk s → ∀ right : Bool,
                  (if right then (nodeAt s.htb.node s.hsw.cur).right else (nodeAt s.htb.node s.hsw.cur).left).toNat ≤ 510 := by
                intro ho right
                obtain ⟨h1, h2, -⟩ := ho.tree s.hsw.cur hc.1 (by omega)
                cases right
                · simp only [Bool.false_eq_true, if_false]; omega
                · simp only [if_true]; omega
              have hf : WalkFrame s { s with
                  br := brAdvance s.br
                  hsw := { s.hsw with
                    cur := if (bitWindow s.br b).getLsbD 0 then (nodeAt s.htb.node s.hsw.cur).right
                      else (nodeAt s.htb.node s.hsw.cur).left } } :=
                ⟨rfl, rfl, id, by simp, by simp, by simp only [brAdvance_byteP]; split <;> omega,
                  fun _ => by simp only [brAdvance_byteP]; split <;> omega, rfl, Nat.le_refl _, id⟩
              exact (ih _).mono
                (fun t ht => ⟨hf.trans ht.1, fun _ ho => ht.2 (hchild ho _) ⟨ho.root, ho.tree⟩⟩) (fun _ h => h)
                (fun _ h => fun hb => h (hf.bounds hb (hchild hb.walk _)))
            · rename_i hc
              intro hb
              have h1 := hb.cur
              have h2 : ¬ s.hsw.cur.toNat < 256 := fun e => hleaf ((onLeaf_iff s).2 e)
              exact hc ⟨by omega, by omega⟩
          · have := hb.stream; simp only [State.srcLen, State.space_src] at *; omega
    · exact ⟨WalkFrame.refl s, fun h _ => h⟩

/-- With enough fuel the loop of R155 ends because HLEN bytes are produced, or because the walk stands on an internal node
and the bits are used up (R156). -/
theorem hufLoop_ends (k : Nat) (s : State) (hk : bitsLeft s.br + (hlenOf s.sub - s.hsw.hprod) ≤ k) :
    (hufLoop k s).Post
      (fun t => hlenOf s.sub ≤ t.hsw.hprod ∨ (256 ≤ t.hsw.cur.toNat ∧ brExhausted t.br = true))
      (fun _ => False) (fun _ => True) := by
  induction k generalizing s with
  | zero => exact .inl (by omega)
  | succ k ih =>
    rw [hufLoop]
    split
    · rename_i hp
      split
      · rename_i hleaf
        rw [hufEmit_eq, if_pos ((onLeaf_iff s).1 hleaf)]
        split
        · exact ih _ (by simp only; omega)
        · trivial
      · rename_i hleaf
        split
        · rename_i hx
          refine .inr ⟨?_, hx⟩
          have : ¬ s.hsw.cur.toNat < 256 := fun e => hleaf ((onLeaf_iff s).2 e)
          omega
        · rename_i hx
          simp only [brExhausted, decide_eq_true_eq, Nat.not_le] at hx
          refine withByte_post (fun b _ => ?_) (fun _ => trivial)
          rw [walkBit_eq]
          split
          · refine ih _ ?_
            have := bitsLeft_brAdvance s.br hx
            simp only; omega
          · trivial
    · exact .inl (by omega)

end Sys2Proof.Machine
end

