-- ==== Sys2Proof/Laws/Interleave.lean ====
section
/-! SUPPORT. What PIL.PLACE can do, and the arithmetic of its two offsets. -/

namespace Sys2Proof.Machine

/-! ## Offsets (R44, R242) -/

/-- A pixel inside the image has its place below the pixel count. -/
theorem pixel_lt {w h y x : Nat} (hy : y < h) (hx : x < w) : y * w + x < w * h := by
  have : (y + 1) * w ≤ h * w := Nat.mul_le_mul_right w hy
  rw [Nat.add_mul, Nat.one_mul] at this
  rw [Nat.mul_comm w h]; omega

/-- The byte of a lane of a pixel has its place below the pixel buffer's length. -/
theorem lane_lt {p n b c : Nat} (hp : p < n) (hc : c < b) : p * b + c < n * b := by
  have : (p + 1) * b ≤ n * b := Nat.mul_le_mul_right b hp
  rw [Nat.add_mul, Nat.one_mul] at this
  omega

/-- Two lanes' bytes have one place only when they are the same lane of the same pixel (R243). -/
theorem lane_inj {p q b c d : Nat} (hc : c < b) (hd : d < b) (h : p * b + c = q * b + d) : p = q ∧ c = d := by
  have hp : (p * b + c) / b = p := by
    rw [Nat.mul_comm, Nat.mul_add_div (by omega), Nat.div_eq_of_lt hc, Nat.add_zero]
  have hq : (q * b + d) / b = q := by
    rw [Nat.mul_comm, Nat.mul_add_div (by omega), Nat.div_eq_of_lt hd, Nat.add_zero]
  have : p = q := by rw [← hp, ← hq, h]
  subst this
  exact ⟨rfl, by omega⟩

/-- Two pixels have one place only when row and column agree. -/
theorem pixel_inj {w y y' x x' : Nat} (hx : x < w) (hx' : x' < w) (h : y * w + x = y' * w + x') : y = y' ∧ x = x' :=
  lane_inj hx hx' h

/-- The offset read of PLANE is below N for every pixel of the image. -/
theorem planeOffset_lt (d : Derived) {y x : Nat} (hy : y < d.height) (hx : x < d.width) :
    planeOffset d y x < d.width * d.height := pixel_lt (by omega) hx

/-- The offset written in PIX is below its length for every pixel of the image. -/
theorem pixOffset_lt (d : Derived) {ch : Chan} {y x : Nat} (hy : y < d.height) (hx : x < d.width)
    (hc : ch.toNat < d.bypp) : pixOffset d ch y x < d.width * d.height * d.bypp := lane_lt (pixel_lt hy hx) hc

/-! ## What stays -/

/-- What PIL.PLACE never changes: everything but PIX's bytes, PY and PX. -/
structure PilFrame (s t : State) : Prop where
  rest : t = { s with pix := t.pix, seq := { s.seq with py := t.seq.py, px := t.seq.px } }
  len : t.pix.len = s.pix.len
  wf : s.pix.wf → t.pix.wf

/-- PLANE and PIX have room for the image, and the channel has a lane (R70, R241). -/
structure PilBounds (s : State) : Prop where
  plane : s.drv.width * s.drv.height ≤ s.plane.len
  pix : s.drv.width * s.drv.height * s.drv.bypp ≤ s.pix.len
  lane : s.seq.pch.toNat < s.drv.bypp

theorem PilFrame.refl (s : State) : PilFrame s s := ⟨rfl, rfl, id⟩

theorem PilFrame.trans {s t u : State} (h : PilFrame s t) (k : PilFrame t u) : PilFrame s u where
  rest := by rw [k.rest, h.rest]
  len := k.len.trans h.len
  wf := k.wf ∘ h.wf

theorem PilFrame.drv {s t : State} (h : PilFrame s t) : t.drv = s.drv := by rw [h.rest]

theorem PilFrame.plane {s t : State} (h : PilFrame s t) : t.plane = s.plane := by rw [h.rest]

theorem PilFrame.pch {s t : State} (h : PilFrame s t) : t.seq.pch = s.seq.pch := by rw [h.rest]

theorem PilFrame.bounds {s t : State} (h : PilFrame s t) : PilBounds t ↔ PilBounds s := by
  constructor <;> intro ⟨h1, h2, h3⟩
  · rw [h.drv, h.plane] at h1; rw [h.drv, h.len] at h2; rw [h.drv, h.pch] at h3; exact ⟨h1, h2, h3⟩
  · refine ⟨?_, ?_, ?_⟩
    · rw [h.drv, h.plane]; exact h1
    · rw [h.drv, h.len]; exact h2
    · rw [h.drv, h.pch]; exact h3

/-! ## The moves -/

/-- One byte move inside the spaces (R242). -/
theorem placeByte_spec (y x : Nat) (s : State) {v : Byte} (hv : s.plane.read (planeOffset s.drv y x) = some v)
    (hp : pixOffset s.drv s.seq.pch y x < s.pix.len) :
    placeByte y x s = .go { s with
      pix := s.pix.set (pixOffset s.drv s.seq.pch y x) v
      seq := { s.seq with py := y, px := x } } := by
  have hb : ({ s with seq := { s.seq with py := y, px := x } } : State).byteAt .plane (planeOffset s.drv y x) = some v := hv
  unfold placeByte
  simp only
  rw [withByte_some _ _ _ hb, putByte_lt .pix v _ (by simpa using hp)]
  rfl

/-- Everything one byte move can do. -/
theorem placeByte_post (y x : Nat) (s : State) (hy : y < s.drv.height) (hx : x < s.drv.width) :
    (placeByte y x s).Post (PilFrame s) (fun _ => False) (fun _ => ¬ PilBounds s) := by
  have ha : PilFrame s { s with seq := { s.seq with py := y, px := x } } := ⟨rfl, rfl, id⟩
  unfold placeByte
  refine withByte_post (fun v _ => ?_) (fun hl => fun hb => ?_)
  · rw [putByte_eq]
    split
    · rename_i hp
      exact ⟨rfl, rfl, fun w => s.pix.set_wf _ _ w hp⟩
    · rename_i hp
      intro hb
      have := pixOffset_lt s.drv hy hx hb.lane
      have := hb.pix
      simp only [State.space_pix] at hp
      omega
  · have := planeOffset_lt s.drv hy hx
    have := hb.plane
    simp only [State.space_plane] at hl
    omega

/-- Everything a row of moves can do. -/
theorem placeRow_post (y k x : Nat) (s : State) (hy : y < s.drv.height) (hx : x + k ≤ s.drv.width) :
    (placeRow y x k s).Post (PilFrame s) (fun _ => False) (fun _ => ¬ PilBounds s) := by
  induction k generalizing x s with
  | zero => exact PilFrame.refl s
  | succ k ih =>
    refine Flow.Post.andThen (placeByte_post y x s hy (by omega)) fun t ht => ?_
    exact (ih (x + 1) t (by rw [ht.drv]; exact hy) (by rw [ht.drv]; omega)).mono (fun u hu => ht.trans hu)
      (fun _ h => h) (fun _ h => fun hb => h (ht.bounds.2 hb))

/-- Everything the rows of R242 can do. -/
theorem placeRows_post (k y : Nat) (s : State) (hy : y + k ≤ s.drv.height) :
    (placeRows y k s).Post (PilFrame s) (fun _ => False) (fun _ => ¬ PilBounds s) := by
  induction k generalizing y s with
  | zero => exact PilFrame.refl s
  | succ k ih =>
    refine Flow.Post.andThen (placeRow_post y s.drv.width 0 s (by omega) (by omega)) fun t ht => ?_
    exact (ih (y + 1) t (by rw [ht.drv]; omega)).mono (fun u hu => ht.trans hu) (fun _ h => h)
      (fun _ h => fun hb => h (ht.bounds.2 hb))

/-- Everything PIL.PLACE can do (R242). -/
theorem pilPlace_post (s : State) : (pilPlace s).Post (PilFrame s) (fun _ => False) (fun _ => ¬ PilBounds s) :=
  placeRows_post s.drv.height 0 s (by omega)

end Sys2Proof.Machine
end

