-- ==== Sys2Proof/Laws/Lz.lean ====
section
/-! SUPPORT. What each operation of the LZ expander can do: the registers it keeps, the bytes it writes, and the ways it
can stop. -/

namespace Sys2Proof.Machine

/-! ## The distance (R197) -/

/-- An offset byte that is not the escape byte stands for a distance of at most 254 (R197). -/
theorem lzDistance_le (special o : Byte) (h : o ≠ special) : (lzDistance special o).toNat ≤ 254 := by
  have hne : o.toNat ≠ special.toNat := fun e => h (BitVec.eq_of_toNat_eq e)
  unfold lzDistance
  split
  · rename_i hlt
    have : special.toNat < o.toNat := hlt
    have h1 := o.isLt
    have h2 : (o - 1).toNat = o.toNat - 1 := by
      rw [BitVec.toNat_sub_of_le (by show 1 ≤ o.toNat; omega)]; rfl
    omega
  · rename_i hlt
    have : ¬ special.toNat < o.toNat := hlt
    have h1 := special.isLt
    omega

/-- `lzWire` is `lzDistance` read backward (R122, R110 (d)). -/
theorem lzDistance_lzWire (special d : Byte) (h : d.toNat ≤ 254) :
    lzWire special d ≠ special ∧ lzDistance special (lzWire special d) = d := by
  have h1 := special.isLt
  unfold lzWire
  split
  · rename_i hlt
    have hlt' : d.toNat < special.toNat := hlt
    refine ⟨fun e => by rw [e] at hlt'; omega, ?_⟩
    unfold lzDistance
    rw [if_neg]
    intro hh
    have : special.toNat < d.toNat := hh
    omega
  · rename_i hlt
    have hlt' : ¬ d.toNat < special.toNat := hlt
    have ha : (d + 1).toNat = d.toNat + 1 := by rw [BitVec.toNat_add]; show (d.toNat + 1) % 256 = _; omega
    refine ⟨fun e => by rw [← e, ha] at hlt'; omega, ?_⟩
    unfold lzDistance
    rw [if_pos]
    · simp
    · show special.toNat < (d + 1).toNat
      omega

/-! ## What stays -/

/-- What no operation of the LZ expander changes once it is initialised: everything but PLANE's bytes and the LZX
registers, and of these SPECIAL and the two budgets, and the ranges of LDP and LOFF (R25). -/
structure LzFrame (s t : State) : Prop where
  rest : t = { s with plane := t.plane, lz := t.lz }
  len : t.plane.len = s.plane.len
  wf : s.plane.wf → t.plane.wf
  special : t.lz.special = s.lz.special
  llen : t.lz.llen = s.lz.llen
  ldstb : t.lz.ldstb = s.lz.ldstb
  lsp : s.lz.lsp ≤ t.lz.lsp
  ldp : s.lz.ldp ≤ t.lz.ldp
  ldpLe : s.lz.ldp ≤ s.lz.ldstb → t.lz.ldp ≤ s.lz.ldstb
  lspLe : s.lz.lsp ≤ max 12 s.lz.llen → t.lz.lsp ≤ max 12 s.lz.llen
  loffLe : s.lz.loff.toNat ≤ 254 → t.lz.loff.toNat ≤ 254

/-- MID holds the whole intermediate sequence and PLANE the destination budget (R70). -/
structure LzBounds (s : State) : Prop where
  stream : s.lz.llen ≤ s.mid.len
  dest : s.lz.ldstb ≤ s.plane.len

theorem LzFrame.refl (s : State) : LzFrame s s :=
  ⟨rfl, rfl, id, rfl, rfl, rfl, Nat.le_refl _, Nat.le_refl _, id, id, id⟩

theorem LzFrame.trans {s t u : State} (h : LzFrame s t) (k : LzFrame t u) : LzFrame s u where
  rest := by rw [k.rest, h.rest]
  len := k.len.trans h.len
  wf := k.wf ∘ h.wf
  special := k.special.trans h.special
  llen := k.llen.trans h.llen
  ldstb := k.ldstb.trans h.ldstb
  lsp := h.lsp.trans k.lsp
  ldp := h.ldp.trans k.ldp
  ldpLe := fun x => by have := k.ldpLe (h.ldstb ▸ h.ldpLe x); rwa [h.ldstb] at this
  lspLe := fun x => by have := k.lspLe (h.llen ▸ h.lspLe x); rwa [h.llen] at this
  loffLe := k.loffLe ∘ h.loffLe

theorem LzFrame.mid {s t : State} (h : LzFrame s t) : t.mid = s.mid := by rw [h.rest]

theorem LzFrame.bounds {s t : State} (h : LzFrame s t) : LzBounds t ↔ LzBounds s := by
  constructor
  · intro k
    refine ⟨?_, ?_⟩
    · have := k.stream; rwa [h.llen, h.mid] at this
    · have := k.dest; rwa [h.ldstb, h.len] at this
  · intro k
    refine ⟨?_, ?_⟩
    · rw [h.llen, h.mid]; exact k.stream
    · rw [h.ldstb, h.len]; exact k.dest

/-- The fatal entry for a back-reference of distance LOFF beyond LDP, PLANE as it was (R195, R256). -/
def LzRaised (s t : State) : Prop :=
  ∃ u : State, LzFrame s u ∧ u.lz.ldp < u.lz.loff.toNat ∧
    raise .invalidBackReference u.lz.ldp u.lz.loff u = .stop t

theorem LzRaised.after {s t u : State} (h : LzFrame s t) (k : LzRaised t u) : LzRaised s u := by
  obtain ⟨v, hv, hl, hr⟩ := k
  exact ⟨v, h.trans hv, hl, hr⟩

/-! ## The operations -/

/-- One byte emitted inside PLANE: PLANE[LDP] takes it and LDP moves past it (R192, R194). -/
theorem lzEmit_spec (v : Byte) (s : State) (h : s.lz.ldp < s.plane.len) :
    lzEmit v s = .go { s with plane := s.plane.set s.lz.ldp v, lz := { s.lz with ldp := s.lz.ldp + 1 } } := by
  rw [lzEmit, putByte_lt .plane v s (by simpa using h)]; rfl

/-- The copy of R196 inside PLANE: every written cell holds what the cell `off` behind it holds in the end (R72), and no
other cell changes. -/
theorem lzCopy_spec (k : Nat) (s : State) (ho : s.lz.loff.toNat ≤ s.lz.ldp) (hd : s.lz.ldp + k ≤ s.plane.len) :
    ∃ m : Memory, lzCopy k s = .go { s with plane := m, lz := { s.lz with ldp := s.lz.ldp + k } } ∧
      m.len = s.plane.len ∧ (s.plane.wf → m.wf) ∧
      (∀ i, i < k → m.read (s.lz.ldp + i) = m.read (s.lz.ldp + i - s.lz.loff.toNat)) ∧
      (∀ a, a < s.lz.ldp ∨ s.lz.ldp + k ≤ a → m.read a = s.plane.read a) ∧
      (s.lz.loff.toNat = 0 → ∀ a, m.read a = s.plane.read a) := by
  induction k generalizing s with
  | zero => exact ⟨s.plane, rfl, rfl, id, fun i hi => by omega, fun _ _ => rfl, fun _ _ => rfl⟩
  | succ k ih =>
    have hl : s.lz.ldp < s.plane.len := by omega
    obtain ⟨v, hv⟩ := s.byteAt_lt .plane (a := s.lz.ldp - s.lz.loff.toNat) (by simp only [State.space_plane]; omega)
    obtain ⟨m, hm, hlen, hw, hc, hf, h0⟩ := ih
      { s with plane := s.plane.set s.lz.ldp v, lz := { s.lz with ldp := s.lz.ldp + 1 } }
      (by simp only; omega) (by simp only [Memory.set_len]; omega)
    simp only at hc hf h0 hlen hw
    have hread : s.plane.read (s.lz.ldp - s.lz.loff.toNat) = some v := hv
    refine ⟨m, ?_, hlen, fun w => hw (s.plane.set_wf _ _ w hl), fun i hi => ?_, fun a ha => ?_, fun hz a => ?_⟩
    · rw [lzCopy, withByte_some _ _ _ hv, lzEmit_spec v s hl, Flow.go_andThen, hm]
      simp [Nat.add_assoc, Nat.add_comm 1 k]
    · rcases i with - | i
      · rw [Nat.add_zero, hf _ (Or.inl (by omega)), Memory.read_set_same _ _ _ hl]
        by_cases hz : s.lz.loff.toNat = 0
        · rw [hz, Nat.sub_zero, hf _ (Or.inl (by omega)), Memory.read_set_same _ _ _ hl]
        · rw [hf _ (Or.inl (by omega)), Memory.read_set_other _ _ (by omega), hread]
      · rw [show s.lz.ldp + (i + 1) = s.lz.ldp + 1 + i by omega]
        exact hc i (by omega)
    · rw [hf a (by omega), Memory.read_set_other _ _ (by omega)]
    · rw [h0 hz a, Memory.read_set]
      split
      · rename_i hh
        rw [hz, Nat.sub_zero] at hread
        rw [hh.1, hread]
      · rfl

/-- Everything the emission of one byte can do. -/
theorem lzEmit_post (v : Byte) (s : State) (h : s.lz.ldp < s.lz.ldstb) :
    (lzEmit v s).Post (fun t => LzFrame s t ∧ t.lz.loff = s.lz.loff ∧ t.lz.lsp = s.lz.lsp ∧ t.lz.ldp = s.lz.ldp + 1)
      (fun _ => False) (fun _ => ¬ LzBounds s) := by
  rw [lzEmit, putByte_eq]
  split
  · rename_i hl
    exact ⟨⟨rfl, rfl, fun w => s.plane.set_wf _ _ w hl, rfl, rfl, rfl, Nat.le_refl _, by simp, fun _ => by simp; omega,
      id, id⟩, rfl, rfl, rfl⟩
  · rename_i hl
    exact fun hb => hl (by have := hb.dest; simp only [State.space_plane]; omega)

/-- Everything the copy of R196 can do. -/
theorem lzCopy_post (k : Nat) (s : State) (hk : k ≤ s.lz.ldstb - s.lz.ldp) :
    (lzCopy k s).Post (fun t => LzFrame s t ∧ t.lz.lsp = s.lz.lsp) (fun _ => False) (fun _ => ¬ LzBounds s) := by
  induction k generalizing s with
  | zero => exact ⟨LzFrame.refl s, rfl⟩
  | succ k ih =>
    rw [lzCopy]
    refine withByte_post (fun v _ => ?_) (fun hl => fun hb => ?_)
    · refine Flow.Post.andThen (lzEmit_post v s (by omega)) fun t ht => ?_
      obtain ⟨hf, -, hs, hp⟩ := ht
      exact (ih t (by rw [hf.ldstb, hp]; omega)).mono (fun u hu => ⟨hf.trans hu.1, hu.2.trans hs⟩) (fun _ h => h)
        (fun _ h => fun hb => h (hf.bounds.2 hb))
    · have := hb.dest; simp only [State.space_plane] at hl; omega

/-- Everything an LZCPY can do after its fetch (R195, R196). -/
theorem lzCpy_post (o cnt : Byte) (s : State) (ho : o ≠ s.lz.special) :
    (lzCpy o cnt s).Post (fun t => LzFrame s t ∧ t.lz.lsp = s.lz.lsp) (LzRaised s) (fun _ => ¬ LzBounds s) := by
  have hf : LzFrame s { s with lz := { s.lz with loff := lzDistance s.lz.special o } } :=
    ⟨rfl, rfl, id, rfl, rfl, rfl, Nat.le_refl _, Nat.le_refl _, id, id, fun _ => lzDistance_le _ _ ho⟩
  unfold lzCpy
  simp only
  split
  · rename_i hlt
    exact ⟨_, hf, hlt, rfl⟩
  · exact (lzCopy_post _ _ (Nat.min_le_right _ _)).mono (fun t ht => ⟨hf.trans ht.1, ht.2⟩) (fun _ h => h.elim)
      (fun _ h => fun hb => h (hf.bounds.2 hb))

/-- What the decoder reads from the bytes of a token, and how many it consumes (R106). -/
theorem decodeToken_ok {special : Byte} {bs : List Byte} {i : Instr} {n : Nat} (h : decodeToken special bs = .ok i n) :
    (∃ b rest, bs = b :: rest ∧ b ≠ special ∧ i = .lzlit b ∧ n = 1) ∨
    (∃ rest, bs = special :: special :: rest ∧ i = .lzesc ∧ n = 2) ∨
    (∃ o cnt rest, bs = special :: o :: cnt :: rest ∧ o ≠ special ∧ i = .lzcpy o cnt ∧ n = 3) := by
  unfold decodeToken at h
  split at h
  · cases h
  · rename_i b rest
    split at h
    · rename_i hb
      cases h
      exact .inl ⟨b, rest, rfl, hb, rfl, rfl⟩
    · rename_i hb
      have hb' : b = special := by simpa using hb
      subst hb'
      split at h
      · cases h
      · rename_i o rest
        split at h
        · rename_i ho
          subst ho
          cases h
          exact .inr (.inl ⟨rest, rfl, rfl, rfl⟩)
        · rename_i ho
          split at h
          · cases h
          · rename_i cnt rest
            cases h
            exact .inr (.inr ⟨o, cnt, rest, rfl, ho, rfl, rfl⟩)

/-- A token is cut off only when its bytes end before it does (R191). -/
theorem decodeToken_reject {special : Byte} {bs : List Byte} {r : DecodeReject} (h : decodeToken special bs = .reject r) :
    bs = [] ∨ bs = [special] ∨ ∃ o, o ≠ special ∧ bs = [special, o] := by
  unfold decodeToken at h
  split at h
  · exact .inl rfl
  · rename_i b rest
    split at h
    · cases h
    · rename_i hb
      have hb' : b = special := by simpa using hb
      subst hb'
      split at h
      · exact .inr (.inl rfl)
      · rename_i o rest
        split at h
        · cases h
        · rename_i ho
          split at h
          · exact .inr (.inr ⟨o, ho, rfl⟩)
          · cases h

/-- Everything one token can do (R191): it consumes at least one byte and no byte beyond those it was given. -/
theorem lzToken_post (bs : List Byte) (s : State) (h : s.lz.ldp < s.lz.ldstb) (hb : bs ≠ [])
    (hl : s.lz.lsp + bs.length ≤ s.lz.llen) :
    (lzToken bs s).Post (fun t => LzFrame s t ∧ s.lz.lsp < t.lz.lsp) (LzRaised s) (fun _ => ¬ LzBounds s) := by
  have hpos : 0 < bs.length := List.length_pos_of_ne_nil hb
  have f1 : ∀ b, LzFrame s (lzFetch b s) := fun b =>
    ⟨rfl, rfl, id, rfl, rfl, rfl, by simp [lzFetch], Nat.le_refl _, id, fun _ => by simp only [lzFetch]; omega, id⟩
  have f2 : 2 ≤ bs.length → ∀ b o, LzFrame s (lzFetchOffset o (lzFetch b s)) := fun h2 b o =>
    ⟨rfl, rfl, id, rfl, rfl, rfl, by simp only [lzFetchOffset, lzFetch]; omega, Nat.le_refl _, id,
      fun _ => by simp only [lzFetchOffset, lzFetch]; omega, id⟩
  have f3 : 3 ≤ bs.length → ∀ b o c, LzFrame s (lzFetchCount c (lzFetchOffset o (lzFetch b s))) := fun h2 b o c =>
    ⟨rfl, rfl, id, rfl, rfl, rfl, by simp only [lzFetchCount, lzFetchOffset, lzFetch]; omega, Nat.le_refl _, id,
      fun _ => by simp only [lzFetchCount, lzFetchOffset, lzFetch]; omega, id⟩
  have emit : ∀ v u, LzFrame s u → s.lz.lsp < u.lz.lsp → u.lz.ldp = s.lz.ldp →
      (lzEmit v u).Post (fun t => LzFrame s t ∧ s.lz.lsp < t.lz.lsp) (LzRaised s) (fun _ => ¬ LzBounds s) := by
    intro v u hu hlt hdp
    exact (lzEmit_post v u (by rw [hu.ldstb, hdp]; exact h)).mono
      (fun t ht => ⟨hu.trans ht.1, by rw [ht.2.2.1]; exact hlt⟩) (fun _ h => h.elim)
      (fun _ h => fun hb => h (hu.bounds.2 hb))
  unfold lzToken
  split
  · exact emit _ _ (f1 _) (by simp [lzFetch]) rfl
  · rename_i o cnt n hd
    have h3 : 3 ≤ bs.length ∧ o ≠ s.lz.special := by
      rcases decodeToken_ok hd with ⟨b, rest, -, -, hi, -⟩ | ⟨rest, -, hi, -⟩ | ⟨o', cnt', rest, hbs, ho, hi, -⟩
      · cases hi
      · cases hi
      · cases hi; rw [hbs]; exact ⟨by simp, ho⟩
    have hf := f3 h3.1 s.lz.special o cnt
    refine (lzCpy_post o cnt (lzFetchCount cnt (lzFetchOffset o (lzFetch s.lz.special s))) h3.2).mono (fun t ht => ⟨hf.trans ht.1, ?_⟩) (fun t ht => ht.after hf)
      (fun _ h => fun hb => h (hf.bounds.2 hb))
    rw [ht.2]; simp only [lzFetchCount, lzFetchOffset, lzFetch]; omega
  · rename_i i n h1 h2 hd
    have h2' : 2 ≤ bs.length := by
      rcases decodeToken_ok hd with ⟨b, rest, -, -, hi, -⟩ | ⟨rest, hbs, -, -⟩ | ⟨o', cnt', rest, -, -, hi, -⟩
      · exact absurd hi (fun e => h1 b (by rw [e]))
      · rw [hbs]; simp
      · exact absurd hi (fun e => h2 o' cnt' (by rw [e]))
    exact emit _ _ (f2 h2' _ _) (by simp only [lzFetchOffset, lzFetch]; omega) rfl
  · rename_i r hd
    rcases decodeToken_reject hd with rfl | rfl | ⟨o, -, rfl⟩
    · exact absurd rfl hb
    · exact ⟨f1 _, by simp [lzCut, lzFetch]⟩
    · exact ⟨f2 (by simp) _ _, by simp only [lzCut, lzFetchOffset, lzFetch]; omega⟩

/-- Everything the loop of R193 can do. -/
theorem lzLoop_post (k : Nat) (s : State) :
    (lzLoop k s).Post (LzFrame s) (LzRaised s) (fun _ => ¬ LzBounds s) := by
  induction k generalizing s with
  | zero => exact LzFrame.refl s
  | succ k ih =>
    rw [lzLoop]
    split
    · rename_i hm
      simp only [lzMore, Bool.and_eq_true, decide_eq_true_eq] at hm
      have hw : tokenWindow s.lz ≤ s.lz.llen - s.lz.lsp := Nat.min_le_right _ _
      have hw1 : 1 ≤ tokenWindow s.lz := by unfold tokenWindow; omega
      refine withBytes_post (fun bs hbs => ?_) (fun hl => fun hb => ?_)
      · have hlen := s.bytesAt_length .mid hbs
        refine Flow.Post.andThen (lzToken_post bs s hm.1 (fun e => by rw [e] at hlen; simp at hlen; omega) (by omega))
          fun t ht => ?_
        exact (ih t).mono (fun u hu => ht.1.trans hu) (fun u hu => hu.after ht.1)
          (fun _ h => fun hb => h (ht.1.bounds.2 hb))
      · have := hb.stream; simp only [State.space_mid] at hl; omega
    · exact LzFrame.refl s

/-- With enough fuel the loop of R193 ends because the plane is full or MID is used up (R199). -/
theorem lzLoop_ends (k : Nat) (s : State) (hk : s.lz.llen - s.lz.lsp ≤ k) :
    (lzLoop k s).Post (fun t => lzMore t = false) (fun _ => True) (fun _ => True) := by
  induction k generalizing s with
  | zero =>
    simp only [lzLoop, Flow.post_go, lzMore, Bool.and_eq_false_iff, decide_eq_false_iff_not]; omega
  | succ k ih =>
    rw [lzLoop]
    split
    · rename_i hm
      have hm' := hm
      simp only [lzMore, Bool.and_eq_true, decide_eq_true_eq] at hm'
      have hw : tokenWindow s.lz ≤ s.lz.llen - s.lz.lsp := Nat.min_le_right _ _
      have hw1 : 1 ≤ tokenWindow s.lz := by unfold tokenWindow; omega
      refine withBytes_post (fun bs hbs => ?_) (fun _ => trivial)
      have hlen := s.bytesAt_length .mid hbs
      refine Flow.Post.andThen ((lzToken_post bs s hm'.1 (fun e => by rw [e] at hlen; simp at hlen; omega)
        (by omega)).mono (fun _ h => h) (fun _ _ => trivial) fun _ _ => trivial) fun t ht => ih t ?_
      have := ht.2
      have := ht.1.llen
      omega
    · rename_i hm
      simpa using hm

end Sys2Proof.Machine
end

