-- ==== Sys2Proof/Laws/Rle.lean ====
section
/-! SUPPORT. What each operation of the RLE expander can do: the registers it keeps, the bytes it writes, and the only
way it can stop. -/

namespace Sys2Proof.Machine

/-- What no operation of the RLE expander changes: everything but PLANE's bytes and the RLE registers, and of these the
stream, the two budgets, and the ranges of the two counts (R24). -/
structure RleFrame (s t : State) : Prop where
  rest : t = { s with plane := t.plane, rle := t.rle }
  len : t.plane.len = s.plane.len
  wf : s.plane.wf → t.plane.wf
  rsrc : t.rle.rsrc = s.rle.rsrc
  rbase : t.rle.rbase = s.rle.rbase
  rsrcb : t.rle.rsrcb = s.rle.rsrcb
  rdstb : t.rle.rdstb = s.rle.rdstb
  rsp : s.rle.rsp ≤ t.rle.rsp
  rdp : s.rle.rdp ≤ t.rle.rdp
  rspLe : s.rle.rsp ≤ s.rle.rsrcb → t.rle.rsp ≤ s.rle.rsrcb
  rdpLe : s.rle.rdp ≤ s.rle.rdstb → t.rle.rdp ≤ s.rle.rdstb

/-- The stream lies inside its space and the destination budget inside PLANE: what the bounds discipline of R70 gives the
unit. -/
structure RleBounds (s : State) : Prop where
  stream : s.rle.rbase + s.rle.rsrcb ≤ (s.space (runSpace s.rle.rsrc)).len
  dest : s.rle.rdstb ≤ s.plane.len

theorem RleFrame.refl (s : State) : RleFrame s s :=
  ⟨rfl, rfl, id, rfl, rfl, rfl, rfl, Nat.le_refl _, Nat.le_refl _, id, id⟩

theorem RleFrame.trans {s t u : State} (h : RleFrame s t) (k : RleFrame t u) : RleFrame s u where
  rest := by rw [k.rest, h.rest]
  len := k.len.trans h.len
  wf := k.wf ∘ h.wf
  rsrc := k.rsrc.trans h.rsrc
  rbase := k.rbase.trans h.rbase
  rsrcb := k.rsrcb.trans h.rsrcb
  rdstb := k.rdstb.trans h.rdstb
  rsp := h.rsp.trans k.rsp
  rdp := h.rdp.trans k.rdp
  rspLe := fun x => by have := k.rspLe (h.rsrcb ▸ h.rspLe x); rwa [h.rsrcb] at this
  rdpLe := fun x => by have := k.rdpLe (h.rdstb ▸ h.rdpLe x); rwa [h.rdstb] at this

/-- The run stream's space is as before. -/
theorem RleFrame.space {s t : State} (h : RleFrame s t) (x : RunSource) :
    t.space (runSpace x) = s.space (runSpace x) := by
  rw [h.rest]; cases x <;> rfl

theorem RleFrame.bounds {s t : State} (h : RleFrame s t) : RleBounds t ↔ RleBounds s := by
  constructor
  · intro k
    refine ⟨?_, ?_⟩
    · have := k.stream; rwa [h.rsrc, h.rbase, h.rsrcb, h.space] at this
    · have := k.dest; rwa [h.rdstb, h.len] at this
  · intro k
    refine ⟨?_, ?_⟩
    · rw [h.rsrc, h.rbase, h.rsrcb, h.space]; exact k.stream
    · rw [h.rdstb, h.len]; exact k.dest

/-- The byte loop of R174: `k` cells from RDP on take `v`, RDP moves past them, nothing else changes. -/
theorem rleEmit_spec (k : Nat) (v : Byte) (s : State) (hd : s.rle.rdstb ≤ s.plane.len) (hk : k ≤ s.rle.rdstb - s.rle.rdp) :
    ∃ m : Memory, rleEmit k v s = .go { s with plane := m, rle := { s.rle with rdp := s.rle.rdp + k } } ∧
      m.len = s.plane.len ∧
      ∀ a, m.read a = if s.rle.rdp ≤ a ∧ a < s.rle.rdp + k then some v else s.plane.read a := by
  induction k generalizing s with
  | zero => exact ⟨s.plane, rfl, rfl, fun a => by rw [if_neg]; omega⟩
  | succ k ih =>
    obtain ⟨m, hm, hl, hr⟩ := ih
      { s with plane := s.plane.set s.rle.rdp v, rle := { s.rle with rdp := s.rle.rdp + 1 } }
      hd (by simp only; omega)
    refine ⟨m, ?_, hl, fun a => ?_⟩
    · rw [rleEmit, putByte_lt .plane v s (by simp only [State.space_plane]; omega)]
      simpa [Nat.add_assoc, Nat.add_comm 1 k] using hm
    · rw [hr a]
      simp only [Memory.read_set]
      by_cases h1 : a = s.rle.rdp
      · subst h1
        rw [if_neg (by omega), if_pos ⟨rfl, by omega⟩, if_pos (by omega)]
      · by_cases h2 : s.rle.rdp + 1 ≤ a ∧ a < s.rle.rdp + 1 + k
        · rw [if_pos h2, if_pos (by omega)]
        · rw [if_neg h2, if_neg (fun hh => h1 hh.1), if_neg (by omega)]

/-- The copy loop of R175: `k` cells of PLANE from RDP + i on take the stream bytes at RSP + i on. -/
theorem rleCopy_spec (k i : Nat) (s : State) (hb : RleBounds s) (h1 : i + k ≤ s.rle.rsrcb - s.rle.rsp)
    (h2 : i + k ≤ s.rle.rdstb - s.rle.rdp) :
    ∃ m : Memory, rleCopy i k s = .go { s with plane := m } ∧ m.len = s.plane.len ∧
      ∀ a, m.read a = if s.rle.rdp + i ≤ a ∧ a < s.rle.rdp + i + k
        then s.byteAt (runSpace s.rle.rsrc) (s.rle.rbase + s.rle.rsp + (a - s.rle.rdp)) else s.plane.read a := by
  induction k generalizing s i with
  | zero => exact ⟨s.plane, rfl, rfl, fun a => by rw [if_neg]; omega⟩
  | succ k ih =>
    have hs := hb.stream
    have hd := hb.dest
    obtain ⟨b, hv⟩ := s.byteAt_lt (runSpace s.rle.rsrc) (a := s.rle.rbase + s.rle.rsp + i) (by omega)
    have hsp : ∀ m : Memory,
        ({ s with plane := m } : State).space (runSpace s.rle.rsrc) = s.space (runSpace s.rle.rsrc) := by
      intro m; cases s.rle.rsrc <;> rfl
    obtain ⟨m, hm, hl, hr⟩ := ih (i + 1) { s with plane := s.plane.set (s.rle.rdp + i) b }
      ⟨by rw [hsp]; exact hs, hd⟩ (by simp only; omega) (by simp only; omega)
    refine ⟨m, ?_, hl, fun a => ?_⟩
    · rw [rleCopy, withByte_some _ _ _ hv, putByte_lt .plane b s (by simp only [State.space_plane]; omega)]
      simpa using hm
    · rw [hr a]
      simp only [Memory.read_set, State.byteAt, hsp]
      by_cases h1 : a = s.rle.rdp + i
      · subst h1
        rw [if_neg (by omega), if_pos ⟨rfl, by omega⟩, if_pos (by omega),
          show s.rle.rbase + s.rle.rsp + (s.rle.rdp + i - s.rle.rdp) = s.rle.rbase + s.rle.rsp + i by omega]
        exact hv.symm
      · by_cases h2 : s.rle.rdp + (i + 1) ≤ a ∧ a < s.rle.rdp + (i + 1) + k
        · rw [if_pos h2, if_pos (by omega)]
        · rw [if_neg h2, if_neg (fun hh => h1 hh.1), if_neg (by omega)]

/-- A LIT after its control fetch (R175): both cursors move by its clamped count, that many cells of PLANE take the
stream's bytes, nothing else changes. -/
theorem rleLit_spec (n : BitVec 7) (s : State) (hb : RleBounds s) :
    ∃ m : Memory,
      rleLit n s = .go { s with
        plane := m
        rle := { s.rle with rsp := s.rle.rsp + litCount n s.rle, rdp := s.rle.rdp + litCount n s.rle } } ∧
      m.len = s.plane.len ∧
      ∀ a, m.read a = if s.rle.rdp ≤ a ∧ a < s.rle.rdp + litCount n s.rle
        then s.byteAt (runSpace s.rle.rsrc) (s.rle.rbase + s.rle.rsp + (a - s.rle.rdp)) else s.plane.read a := by
  obtain ⟨m, h1, h2, h3⟩ := rleCopy_spec (litCount n s.rle) 0 s hb (by unfold litCount; omega) (by unfold litCount; omega)
  refine ⟨m, ?_, h2, by simpa using h3⟩
  unfold rleLit
  simp only [h1, Flow.go_andThen]

/-- A REP after its control fetch whose value byte lies outside the source budget (R174 (b)). -/
theorem rleRep_missing (n : BitVec 7) (s : State) (h : s.rle.rsrcb ≤ s.rle.rsp) :
    rleRep n s = .go { s with rle := { s.rle with rlen := n } } := by
  unfold rleRep
  simp only
  rw [if_pos h]

/-- A REP after its control fetch (R174): its value byte is consumed and written as often as the budget allows. -/
theorem rleRep_spec (n : BitVec 7) (s : State) (hb : RleBounds s) (h : s.rle.rsp < s.rle.rsrcb) :
    ∃ (m : Memory) (v : Byte),
      s.byteAt (runSpace s.rle.rsrc) (s.rle.rbase + s.rle.rsp) = some v ∧
      rleRep n s = .go { s with
        plane := m
        rle := { s.rle with rlen := n, rv := v, rsp := s.rle.rsp + 1, rdp := s.rle.rdp + repCount n s.rle } } ∧
      m.len = s.plane.len ∧
      ∀ a, m.read a = if s.rle.rdp ≤ a ∧ a < s.rle.rdp + repCount n s.rle then some v else s.plane.read a := by
  have hs := hb.stream
  obtain ⟨v, hv⟩ := s.byteAt_lt (runSpace s.rle.rsrc) (a := s.rle.rbase + s.rle.rsp) (by omega)
  obtain ⟨m, h1, h2, h3⟩ := rleEmit_spec (repCount n s.rle) v
    { s with rle := { s.rle with rlen := n, rv := v, rsp := s.rle.rsp + 1 } } hb.dest (Nat.min_le_right _ _)
  refine ⟨m, v, hv, ?_, h2, h3⟩
  have hv' : ({ s with rle := { s.rle with rlen := n } } : State).byteAt (runSpace s.rle.rsrc) (s.rle.rbase + s.rle.rsp)
      = some v := by
    rw [← hv]; cases s.rle.rsrc <;> rfl
  unfold rleRep
  simp only
  rw [if_neg (by omega), withByte_some _ _ _ hv']
  exact h1

/-- Everything the byte loop of R174 can do. -/
theorem rleEmit_post (k : Nat) (v : Byte) (s : State) (hk : k ≤ s.rle.rdstb - s.rle.rdp) :
    (rleEmit k v s).Post (fun t => RleFrame s t ∧ t.rle.rsp = s.rle.rsp) (fun _ => False) (fun _ => ¬ RleBounds s) := by
  induction k generalizing s with
  | zero => exact ⟨RleFrame.refl s, rfl⟩
  | succ k ih =>
    rw [rleEmit, putByte_eq]
    split
    · rename_i hl
      rw [Flow.go_andThen]
      have hl' : s.rle.rdp < s.plane.len := hl
      have hf : RleFrame s
          { s with plane := s.plane.set s.rle.rdp v, rle := { s.rle with rdp := s.rle.rdp + 1 } } :=
        ⟨rfl, rfl, fun w => s.plane.set_wf _ _ w hl', rfl, rfl, rfl, rfl, Nat.le_refl _, by simp, id,
          fun _ => by simp only; omega⟩
      exact (ih _ (by simp only [State.setSpace_plane]; omega)).mono
        (fun t ht => ⟨hf.trans ht.1, ht.2⟩) (fun _ h => h) (fun _ h => fun hb => h (hf.bounds.2 hb))
    · rename_i hl
      exact fun hb => hl (by have := hb.dest; simp only [State.space_plane]; omega)

/-- Everything the copy loop of R175 can do. -/
theorem rleCopy_post (k i : Nat) (s : State) (h1 : i + k ≤ s.rle.rsrcb - s.rle.rsp) (h2 : i + k ≤ s.rle.rdstb - s.rle.rdp) :
    (rleCopy i k s).Post (fun t => RleFrame s t ∧ t.rle = s.rle) (fun _ => False) (fun _ => ¬ RleBounds s) := by
  induction k generalizing s i with
  | zero => exact ⟨RleFrame.refl s, rfl⟩
  | succ k ih =>
    rw [rleCopy]
    refine withByte_post (fun b _ => ?_) (fun hl => fun hb => ?_)
    · rw [putByte_eq]
      split
      · rename_i hl
        rw [Flow.go_andThen]
        have hf : RleFrame s { s with plane := s.plane.set (s.rle.rdp + i) b } :=
          ⟨rfl, rfl, fun w => s.plane.set_wf _ _ w hl, rfl, rfl, rfl, rfl, Nat.le_refl _, Nat.le_refl _, id, id⟩
        exact (ih (i + 1) _ (by simp only [State.setSpace_plane]; omega) (by simp only [State.setSpace_plane]; omega)).mono
          (fun t ht => ⟨hf.trans ht.1, ht.2⟩) (fun _ h => h) (fun _ h => fun hb => h (hf.bounds.2 hb))
      · rename_i hl
        exact fun hb => hl (by have := hb.dest; simp only [State.space_plane]; omega)
    · have := hb.stream; omega

/-- Everything a REP can do after its control fetch (R174). -/
theorem rleRep_post (n : BitVec 7) (s : State) :
    (rleRep n s).Post (RleFrame s) (fun _ => False) (fun _ => ¬ RleBounds s) := by
  unfold rleRep
  simp only
  split
  · exact ⟨rfl, rfl, id, rfl, rfl, rfl, rfl, Nat.le_refl _, Nat.le_refl _, id, id⟩
  · rename_i hlt
    refine withByte_post (fun v _ => ?_) (fun hl => fun hb => ?_)
    · have hf : RleFrame s { s with rle := { s.rle with rlen := n, rv := v, rsp := s.rle.rsp + 1 } } :=
        ⟨rfl, rfl, id, rfl, rfl, rfl, rfl, by simp, Nat.le_refl _, fun _ => by simp only; omega, id⟩
      exact (rleEmit_post _ v _ (Nat.min_le_right _ _)).mono
        (fun t ht => hf.trans ht.1) (fun _ h => h) (fun _ h => fun hb => h (hf.bounds.2 hb))
    · have h1 := hb.stream
      have h2 : ({ s with rle := { s.rle with rlen := n } } : State).space (runSpace s.rle.rsrc)
          = s.space (runSpace s.rle.rsrc) := by cases s.rle.rsrc <;> rfl
      rw [h2] at hl
      omega

/-- Everything a LIT can do after its control fetch (R175). -/
theorem rleLit_post (n : BitVec 7) (s : State) :
    (rleLit n s).Post (RleFrame s) (fun _ => False) (fun _ => ¬ RleBounds s) := by
  have h1 : litCount n s.rle ≤ s.rle.rsrcb - s.rle.rsp := by unfold litCount; omega
  have h2 : litCount n s.rle ≤ s.rle.rdstb - s.rle.rdp := by unfold litCount; omega
  refine Flow.Post.andThen (rleCopy_post _ 0 s (by omega) (by omega)) fun t ht => ?_
  refine ht.1.trans ⟨rfl, rfl, id, rfl, rfl, rfl, rfl, by simp, by simp, fun _ => ?_, fun _ => ?_⟩
  · simp only [ht.2] at *; omega
  · simp only [ht.2] at *; omega

/-- Everything one run can do (R171). -/
theorem rleRun_post (c : Byte) (s : State) (h : s.rle.rsp < s.rle.rsrcb) :
    (rleRun c s).Post (fun t => RleFrame s t ∧ s.rle.rsp < t.rle.rsp) (fun _ => False) (fun _ => ¬ RleBounds s) := by
  have hf : RleFrame s (rleFetch c s) :=
    ⟨rfl, rfl, id, rfl, rfl, rfl, rfl, by simp [rleFetch], Nat.le_refl _, fun _ => by simp only [rleFetch]; omega, id⟩
  have key : ∀ t, RleFrame (rleFetch c s) t → RleFrame s t ∧ s.rle.rsp < t.rle.rsp := fun t ht =>
    ⟨hf.trans ht, by have := ht.rsp; simp only [rleFetch] at this; omega⟩
  unfold rleRun
  split
  · exact (rleRep_post _ _).mono key (fun _ h => h) (fun _ h => fun hb => h (hf.bounds.2 hb))
  · exact (rleLit_post _ _).mono key (fun _ h => h) (fun _ h => fun hb => h (hf.bounds.2 hb))
  · exact key _ (RleFrame.refl _)

/-- Everything the loop of R173 can do. -/
theorem rleLoop_post (k : Nat) (s : State) :
    (rleLoop k s).Post (RleFrame s) (fun _ => False) (fun _ => ¬ RleBounds s) := by
  induction k generalizing s with
  | zero => exact RleFrame.refl s
  | succ k ih =>
    rw [rleLoop]
    split
    · rename_i hm
      simp only [rleMore, Bool.and_eq_true, decide_eq_true_eq] at hm
      refine withByte_post (fun c _ => ?_) (fun hl => fun hb => ?_)
      · refine Flow.Post.andThen (rleRun_post c s hm.1) fun t ht => ?_
        exact (ih t).mono (fun u hu => ht.1.trans hu) (fun _ h => h) (fun _ h => fun hb => h (ht.1.bounds.2 hb))
      · have := hb.stream; omega
    · exact RleFrame.refl s

/-- With enough fuel the loop of R173 ends because a budget is used up, not because the fuel is (R179). -/
theorem rleLoop_ends (k : Nat) (s : State) (hk : s.rle.rsrcb - s.rle.rsp ≤ k) :
    (rleLoop k s).Post (fun t => rleMore t = false) (fun _ => False) (fun _ => True) := by
  induction k generalizing s with
  | zero =>
    simp only [rleLoop, Flow.post_go, rleMore, Bool.and_eq_false_iff, decide_eq_false_iff_not]; omega
  | succ k ih =>
    rw [rleLoop]
    split
    · rename_i hm
      have hm' := hm
      simp only [rleMore, Bool.and_eq_true, decide_eq_true_eq] at hm'
      refine withByte_post (fun c _ => ?_) (fun _ => trivial)
      refine Flow.Post.andThen ((rleRun_post c s hm'.1).mono (fun _ h => h) (fun _ h => h) fun _ _ => trivial)
        fun t ht => ih t ?_
      have := ht.2
      have := ht.1.rsrcb
      omega
    · rename_i hm
      simpa using hm

end Sys2Proof.Machine
end

