-- ==== Sys2Proof/Laws/Tree.lean ====
section
/-! SUPPORT. What the primitive steps of the tree builder do: one slot of NODE written, INSERT as a permutation, MERGE on
a list of two entries and more. -/

namespace Sys2Proof.Machine

/-! ## NODE -/

/-- A slot read after one slot is written (R38). -/
theorem nodeAt_setNode (node : Vector Node 512) (i j : Idx9) (n : Node) :
    nodeAt (setNode node i n) j = if j = i then n else nodeAt node j := by
  unfold nodeAt setNode
  rw [Vector.getElem_set]
  by_cases h : j = i
  · subst h; simp
  · rw [if_neg (fun e => h (BitVec.eq_of_toNat_eq e.symm)), if_neg h]

@[simp] theorem nodeAt_setNode_same (node : Vector Node 512) (i : Idx9) (n : Node) : nodeAt (setNode node i n) i = n := by
  simp [nodeAt_setNode]

theorem nodeAt_setNode_other (node : Vector Node 512) {i j : Idx9} (n : Node) (h : j ≠ i) :
    nodeAt (setNode node i n) j = nodeAt node j := by simp [nodeAt_setNode, h]

/-- Two node tables with the same slots are equal. -/
theorem node_ext {x y : Vector Node 512} (h : ∀ i : Idx9, nodeAt x i = nodeAt y i) : x = y := by
  apply Vector.ext
  intro i hi
  have := h (BitVec.ofNat 9 i)
  unfold nodeAt at this
  simpa [BitVec.toNat_ofNat, Nat.mod_eq_of_lt hi] using this

/-- A frequency read after one slot is written. -/
theorem freqAt_setNode (node : Vector Node 512) (i j : Idx9) (n : Node) :
    freqAt (setNode node i n) j = if j = i then n.freq else freqAt node j := by
  unfold freqAt
  rw [nodeAt_setNode]
  split <;> rfl

/-! ## INSERT (R131) -/

/-- INSERT goes behind the entries that do not exceed it and before the first that does (R131). -/
theorem insertNode_between (node : Vector Node 512) (n : Idx9) (l1 l2 : List Idx9)
    (h1 : ∀ z ∈ l1, freqAt node z ≤ freqAt node n) (h2 : ∀ z, l2.head? = some z → freqAt node n < freqAt node z) :
    insertNode node n (l1 ++ l2) = l1 ++ n :: l2 := by
  induction l1 with
  | nil =>
    rcases l2 with - | ⟨j, l⟩
    · rfl
    · exact if_pos (h2 j rfl)
  | cons z zs ih =>
    rw [List.cons_append, insertNode, if_neg (BitVec.not_lt.2 (h1 z (by simp))), ih fun y hy => h1 y (by simp [hy])]
    rfl

/-- INSERT adds its node to LIST and moves no entry past another. -/
theorem insertNode_perm (node : Vector Node 512) (n : Idx9) (l : List Idx9) : (insertNode node n l).Perm (n :: l) := by
  induction l with
  | nil => exact .refl _
  | cons j rest ih =>
    rw [insertNode]
    split
    · exact .refl _
    · exact (ih.cons j).trans (.swap n j rest)

@[simp] theorem insertNode_length (node : Vector Node 512) (n : Idx9) (l : List Idx9) :
    (insertNode node n l).length = l.length + 1 := (insertNode_perm node n l).length_eq

@[simp] theorem mem_insertNode (node : Vector Node 512) (n : Idx9) (l : List Idx9) (x : Idx9) :
    x ∈ insertNode node n l ↔ x = n ∨ x ∈ l := by
  rw [(insertNode_perm node n l).mem_iff]; simp

/-- INSERT keeps the entries distinct (R39). -/
theorem insertNode_nodup (node : Vector Node 512) (n : Idx9) (l : List Idx9) (hn : n ∉ l) (hl : l.Nodup) :
    (insertNode node n l).Nodup := (insertNode_perm node n l).nodup_iff.2 (List.nodup_cons.2 ⟨hn, hl⟩)

/-- INSERT looks at the frequencies of the listed nodes and its own, at nothing else. -/
theorem insertNode_congr (x y : Vector Node 512) (n : Idx9) (l : List Idx9)
    (h : ∀ j, j = n ∨ j ∈ l → freqAt x j = freqAt y j) : insertNode x n l = insertNode y n l := by
  induction l with
  | nil => rfl
  | cons j rest ih =>
    rw [insertNode, insertNode, h n (.inl rfl), h j (.inr (by simp)),
      ih fun i hi => h i (hi.imp id fun m => by simp [m])]

/-! ## LOADLEAVES (R130) -/

/-- One leaf loaded (R130): its frequency is written, no other's, and it is inserted. -/
theorem loadLeaf_freq (freqs : Vector U32 256) (i : Fin 256) (h : Htb) (j : Idx9) :
    freqAt (loadLeaf freqs i h).node j = if j = BitVec.ofNat 9 i.val then freqs[i] else freqAt h.node j :=
  freqAt_setNode ..

theorem loadLeaf_freq_same (freqs : Vector U32 256) (i : Fin 256) (h : Htb) :
    freqAt (loadLeaf freqs i h).node (BitVec.ofNat 9 i.val) = freqs[i] := by rw [loadLeaf_freq, if_pos rfl]

theorem loadLeaf_freq_other (freqs : Vector U32 256) (i : Fin 256) (h : Htb) {j : Idx9} (hj : j ≠ BitVec.ofNat 9 i.val) :
    freqAt (loadLeaf freqs i h).node j = freqAt h.node j := by rw [loadLeaf_freq, if_neg hj]

theorem loadLeaf_list (freqs : Vector U32 256) (i : Fin 256) (h : Htb) :
    (loadLeaf freqs i h).list = insertNode (loadLeaf freqs i h).node (BitVec.ofNat 9 i.val) h.list := rfl

@[simp] theorem loadLeaf_next (freqs : Vector U32 256) (i : Fin 256) (h : Htb) : (loadLeaf freqs i h).next = h.next := rfl

/-! ## MERGE (R132) -/

/-- MERGE on a list of two entries and more. -/
theorem merge_cons (h : Htb) (a b : Idx9) (rest : List Idx9) (hl : h.list = a :: b :: rest) :
    merge h =
      let node := setNode h.node h.next { freq := freqAt h.node a + freqAt h.node b, left := a, right := b }
      { node := node, list := insertNode node h.next rest, next := h.next + 1 } := by
  unfold merge; rw [hl]

/-- Every MERGE shortens LIST by one (R136). -/
theorem merge_length (h : Htb) (hl : 1 < h.list.length) : (merge h).list.length + 1 = h.list.length := by
  rcases hh : h.list with - | ⟨a, - | ⟨b, rest⟩⟩
  · rw [hh] at hl; simp at hl
  · rw [hh] at hl; simp at hl
  · rw [merge_cons h a b rest hh]; simp

/-- A table is all zero exactly when each of its entries is (R134). -/
theorem allZero_iff (freqs : Vector U32 256) : allZero freqs = true ↔ ∀ i : Fin 256, freqs[i] = 0#32 := by
  unfold allZero
  rw [List.all_eq_true]
  constructor
  · intro h i
    have := h freqs[i] (by
      rw [Array.mem_toList_iff]
      exact Array.getElem_mem (xs := freqs.toArray) (i := i.val) (by simp))
    simpa using this
  · intro h f hf
    obtain ⟨i, hi, rfl⟩ := Array.getElem_of_mem (Array.mem_toList_iff.1 hf)
    have hi' : i < 256 := by simpa using hi
    simpa using h ⟨i, hi'⟩

/-- Everything HTB.BUILD can do (R133): the fatal entry, or NODE, NEXT and ROOT written and LIST empty. -/
theorem htbBuild_post (s : State) :
    (htbBuild s).Post
      (fun t => allZero s.freqs = false ∧
        t = { s with
          htb := { buildTree s.freqs s.htb with list := [] }
          hsw := { s.hsw with root := (buildTree s.freqs s.htb).list.headD 0 } })
      (fun t => allZero s.freqs = true ∧ raise .malformedHuffmanTable 0 0 s = .stop t) (fun _ => False) := by
  unfold htbBuild
  split
  · rename_i h; exact ⟨h, rfl⟩
  · rename_i h; exact ⟨by simpa using h, rfl⟩

end Sys2Proof.Machine
end

