-- ==== Sys2Proof/Laws/Sequencer.lean ====
section
/-! SUPPORT. What every unit operation, every part of the header check and the whole command keep, and the three ways a
command ends. -/

namespace Sys2Proof.Machine

/-- What no part of a command changes: the container, the model's own fields, and no flag of TRUNC is cleared; spaces in
canonical form stay so, an empty LIST stays empty, PIXFMT stays equal to ALPHA. -/
structure Keeps (s t : State) : Prop where
  src : t.src = s.src
  caps : t.caps = s.caps
  grain : t.grain = s.grain
  host : t.host = s.host
  trunc : ∀ k, s.trunc.getLsbD k = true → t.trunc.getLsbD k = true
  wf : s.memWf → t.memWf
  list : s.htb.list = [] → t.htb.list = []
  pixFmt : s.drv.pixFmt = s.drv.alpha → t.drv.pixFmt = t.drv.alpha

/-- What a part that goes on keeps as well: STATUS, the error registers and the sequencer's position. -/
structure Goes (s t : State) : Prop extends Keeps s t where
  status : t.status = s.status
  err : t.err = s.err
  stage : t.stage = s.stage

/-- How a command ends: REJECT or DONE with the error registers as they were, or ERROR with a cause (R231, R250). -/
structure Ends (s t : State) : Prop extends Keeps s t where
  stage : t.stage = .idle
  how : (t.status = .reject ∧ t.err = s.err) ∨ (t.status = .done ∧ t.err = s.err) ∨
    (t.status = .error ∧ t.err.cause ≠ .none)

theorem Keeps.refl (s : State) : Keeps s s := ⟨rfl, rfl, rfl, rfl, fun _ h => h, id, id, id⟩

theorem Keeps.trans {s t u : State} (h : Keeps s t) (k : Keeps t u) : Keeps s u :=
  ⟨k.src.trans h.src, k.caps.trans h.caps, k.grain.trans h.grain, k.host.trans h.host,
    fun i hi => k.trunc i (h.trunc i hi), k.wf ∘ h.wf, k.list ∘ h.list, k.pixFmt ∘ h.pixFmt⟩

theorem Goes.refl (s : State) : Goes s s := ⟨Keeps.refl s, rfl, rfl, rfl⟩

theorem Goes.trans {s t u : State} (h : Goes s t) (k : Goes t u) : Goes s u :=
  ⟨h.toKeeps.trans k.toKeeps, k.status.trans h.status, k.err.trans h.err, k.stage.trans h.stage⟩

theorem Ends.after {s t u : State} (h : Goes s t) (k : Ends t u) : Ends s u :=
  ⟨h.toKeeps.trans k.toKeeps, k.stage, by
    rcases k.how with ⟨a, b⟩ | ⟨a, b⟩ | ⟨a, b⟩
    · exact .inl ⟨a, b.trans h.err⟩
    · exact .inr (.inl ⟨a, b.trans h.err⟩)
    · exact .inr (.inr ⟨a, b⟩)⟩

/-- A part of a command that goes on as `Goes` or ends the command as `Ends`. -/
abbrev Flow.Sound (s : State) (x : Flow) : Prop := x.Post (Goes s) (Ends s) fun _ => True

/-- Soundness goes through program order. -/
theorem Flow.Sound.andThen {s : State} {x : Flow} {f : State → Flow} (hx : x.Sound s) (hf : ∀ t, (f t).Sound t) :
    (x.andThen f).Sound s :=
  Flow.Post.andThen hx fun t ht => (hf t).mono (fun _ hu => ht.trans hu) (fun _ hu => hu.after ht) fun _ _ => trivial

/-! ## The ends of a command -/

theorem reject_sound (s : State) : (reject s).Sound s :=
  ⟨⟨rfl, rfl, rfl, rfl, fun _ h => h, id, id, id⟩, rfl, .inl ⟨rfl, rfl⟩⟩

theorem raise_sound (c : ErrCause) (hc : c ≠ .none) (pos : Nat) (off : Byte) (s : State) : (raise c pos off s).Sound s :=
  ⟨⟨rfl, rfl, rfl, rfl, fun _ h => h, id, id, id⟩, rfl, .inr (.inr ⟨rfl, hc⟩)⟩

theorem finish_sound (s : State) : (finish s).Sound s :=
  ⟨⟨rfl, rfl, rfl, rfl, fun _ h => h, id, id, id⟩, rfl, .inr (.inl ⟨rfl, rfl⟩)⟩

/-! ## The header -/

theorem hdrRead_sound (h : Header) (s : State) : (hdrRead h s).Sound s := by
  unfold hdrRead
  split
  · exact reject_sound s
  · exact ⟨⟨rfl, rfl, rfl, rfl, fun _ h => h, id, id, id⟩, rfl, rfl, rfl⟩

theorem checkFormat_sound (s : State) : (checkFormat s).Sound s := by
  unfold checkFormat
  split
  · exact Goes.refl s
  · exact reject_sound s

theorem checkSelectors_sound (s : State) : (checkSelectors s).Sound s := by
  unfold checkSelectors
  split
  · exact Goes.refl s
  · exact reject_sound s

theorem checkSizes_sound (s : State) : (checkSizes s).Sound s := by
  unfold checkSizes
  split
  · exact reject_sound s
  · split
    · exact reject_sound s
    · exact Goes.refl s

theorem geometry_sound (s : State) : (geometry s).Sound s := by
  unfold geometry
  simp only
  split
  · trivial
  · exact ⟨⟨rfl, rfl, rfl, rfl, fun _ h => h, id, id, id⟩, rfl, rfl, rfl⟩

theorem pixInit_goes (alpha : Bool) (s : State) : Goes s (pixInit alpha s) :=
  ⟨⟨rfl, rfl, rfl, rfl, fun _ h => h, fun ⟨h1, h2, h3, _⟩ => ⟨h1, h2, h3, Memory.filled_wf _⟩, id, fun _ => rfl⟩,
    rfl, rfl, rfl⟩

theorem pixFormat_sound (s : State) : (pixFormat s).Sound s := pixInit_goes _ s

theorem hdrFetch_sound (s : State) : (hdrFetch s).Sound s := by
  unfold hdrFetch
  split
  · exact reject_sound s
  · exact withBytes_post (fun bs _ => hdrRead_sound _ s) fun _ => trivial

theorem acceptHeader_sound (s : State) : (acceptHeader s).Sound s :=
  Flow.Sound.andThen (Flow.Sound.andThen (Flow.Sound.andThen (Flow.Sound.andThen
    (Flow.Sound.andThen (hdrFetch_sound s) checkFormat_sound) checkSelectors_sound) checkSizes_sound) geometry_sound)
    pixFormat_sound

theorem subhdrRead_sound (t : SubHeader) (s : State) : (subhdrRead t s).Sound s := by
  unfold subhdrRead
  split
  · exact raise_sound _ (by decide) _ _ s
  · have hg : Goes s { s with sub := { s.sub with hlen := t.decodedLength, packLen := t.packedLength }, latched := { s.latched with sub := true } } :=
      ⟨⟨rfl, rfl, rfl, rfl, fun _ h => h, id, id, id⟩, rfl, rfl, rfl⟩
    simp only
    split
    · exact (raise_sound .badSubHeader (by decide) 0 0 _).mono (fun _ h => hg.trans h) (fun _ h => h.after hg)
        fun _ _ => trivial
    · exact ⟨⟨rfl, rfl, rfl, rfl, fun _ h => h, id, id, id⟩, rfl, rfl, rfl⟩

theorem subhdrFetch_sound (s : State) : (subhdrFetch s).Sound s := by
  unfold subhdrFetch
  split
  · exact raise_sound _ (by decide) _ _ s
  · exact withBytes_post (fun bs _ => subhdrRead_sound _ s) fun _ => trivial

/-! ## The units -/

theorem setTrunc_goes (st : Nat) (s : State) : Goes s (setTrunc st s) :=
  ⟨⟨rfl, rfl, rfl, rfl, fun k h => by simp [setTrunc, h], id, id, id⟩, rfl, rfl, rfl⟩

theorem hufEnd_goes (s : State) : Goes s (hufEnd s) := by
  unfold hufEnd; split
  · exact setTrunc_goes 1 s
  · exact Goes.refl s

theorem walkReturn_goes (s : State) : Goes s (walkReturn s) := by
  rw [walkReturn_rest]
  exact ⟨⟨rfl, rfl, rfl, rfl, fun _ h => h, id, id, id⟩, rfl, rfl, rfl⟩

theorem rleEnd_goes (s : State) : Goes s (rleEnd s) := by
  unfold rleEnd; split
  · exact setTrunc_goes 2 s
  · exact Goes.refl s

theorem lzEnd_goes (s : State) : Goes s (lzEnd s) := by
  unfold lzEnd; split
  · exact setTrunc_goes 2 s
  · exact Goes.refl s

theorem RleFrame.goes {s t : State} (h : RleFrame s t) : Goes s t := by
  have hr := h.rest
  refine ⟨⟨by rw [hr], by rw [hr], by rw [hr], by rw [hr], fun k hk => by rw [hr]; exact hk, fun ⟨h1, h2, h3, h4⟩ => ?_,
    fun hk => by rw [hr]; exact hk, fun hk => by rw [hr]; exact hk⟩, by rw [hr], by rw [hr], by rw [hr]⟩
  have h5 := h.wf h3
  exact ⟨by rw [hr]; exact h1, by rw [hr]; exact h2, h5, by rw [hr]; exact h4⟩

theorem LzFrame.goes {s t : State} (h : LzFrame s t) : Goes s t := by
  have hr := h.rest
  refine ⟨⟨by rw [hr], by rw [hr], by rw [hr], by rw [hr], fun k hk => by rw [hr]; exact hk, fun ⟨h1, h2, h3, h4⟩ => ?_,
    fun hk => by rw [hr]; exact hk, fun hk => by rw [hr]; exact hk⟩, by rw [hr], by rw [hr], by rw [hr]⟩
  have h5 := h.wf h3
  exact ⟨by rw [hr]; exact h1, by rw [hr]; exact h2, h5, by rw [hr]; exact h4⟩

theorem WalkFrame.goes {s t : State} (h : WalkFrame s t) : Goes s t := by
  have hr := h.rest
  refine ⟨⟨by rw [hr], by rw [hr], by rw [hr], by rw [hr], fun k hk => by rw [hr]; exact hk, fun ⟨h1, h2, h3, h4⟩ => ?_,
    fun hk => by rw [hr]; exact hk, fun hk => by rw [hr]; exact hk⟩, by rw [hr], by rw [hr], by rw [hr]⟩
  have h5 := h.wf h2
  exact ⟨by rw [hr]; exact h1, h5, by rw [hr]; exact h3, by rw [hr]; exact h4⟩

theorem PilFrame.goes {s t : State} (h : PilFrame s t) : Goes s t := by
  have hr := h.rest
  refine ⟨⟨by rw [hr], by rw [hr], by rw [hr], by rw [hr], fun k hk => by rw [hr]; exact hk, fun ⟨h1, h2, h3, h4⟩ => ?_,
    fun hk => by rw [hr]; exact hk, fun hk => by rw [hr]; exact hk⟩, by rw [hr], by rw [hr], by rw [hr]⟩
  have h5 := h.wf h4
  exact ⟨by rw [hr]; exact h1, by rw [hr]; exact h2, by rw [hr]; exact h3, h5⟩

theorem LzRaised.ends {s t : State} (h : LzRaised s t) : Ends s t := by
  obtain ⟨u, hu, -, hr⟩ := h
  have := raise_sound .invalidBackReference (by decide) u.lz.ldp u.lz.loff u
  rw [hr] at this
  exact this.after hu.goes

theorem htbBuild_sound (s : State) : (htbBuild s).Sound s := by
  refine (htbBuild_post s).mono (fun t ht => ?_) (fun t ht => ?_) fun _ _ => trivial
  · rw [ht.2]
    exact ⟨⟨rfl, rfl, rfl, rfl, fun _ h => h, id, fun _ => rfl, id⟩, rfl, rfl, rfl⟩
  · have := raise_sound .malformedHuffmanTable (by decide) 0 0 s
    rw [ht.2] at this
    exact this

theorem hufInit_goes (s : State) : Goes s (hufInit s) := by
  unfold hufInit walkStart
  split
  · exact ⟨⟨rfl, rfl, rfl, rfl, fun _ h => h, fun ⟨h1, _, h3, h4⟩ => ⟨h1, Memory.filled_wf _, h3, h4⟩, id, id⟩,
      rfl, rfl, rfl⟩
  · exact ⟨⟨rfl, rfl, rfl, rfl, fun _ h => h, fun ⟨h1, _, h3, h4⟩ => ⟨h1, Memory.filled_wf _, h3, h4⟩, id, id⟩,
      rfl, rfl, rfl⟩

theorem hufDecode_sound (s : State) : (hufDecode s).Sound s := by
  unfold hufDecode
  simp only
  have hg := hufInit_goes s
  refine Flow.Post.andThen (G := Goes s) ((hufLoop_post _ _).mono (fun t ht => hg.trans ht.1.goes) (fun _ h => h.elim)
    fun _ _ => trivial) fun t ht => ?_
  exact ht.trans ((walkReturn_goes t).trans (hufEnd_goes _))

theorem rleInit_goes (sp : RunSource) (base budget : Nat) (s : State) : Goes s (rleInit sp base budget s) :=
  ⟨⟨rfl, rfl, rfl, rfl, fun _ h => h, id, id, id⟩, rfl, rfl, rfl⟩

theorem rleExpand_sound (sp : RunSource) (base budget : Nat) (s : State) : (rleExpand sp base budget s).Sound s := by
  unfold rleExpand
  have hg := rleInit_goes sp base budget s
  refine Flow.Post.andThen (G := Goes s) ((rleLoop_post _ _).mono (fun t ht => hg.trans ht.goes) (fun _ h => h.elim)
    fun _ _ => trivial) fun t ht => ?_
  exact ht.trans (rleEnd_goes t)

theorem lzInit_goes (h : LzHeader) (s : State) : Goes s (lzInit h s) :=
  ⟨⟨rfl, rfl, rfl, rfl, fun _ h => h, id, id, id⟩, rfl, rfl, rfl⟩

theorem lzExpand_sound (s : State) : (lzExpand s).Sound s := by
  unfold lzExpand
  simp only
  have hg := lzInit_goes (midHeader s) s
  refine Flow.Post.andThen (G := Goes s) ((lzLoop_post _ _).mono (fun t ht => hg.trans ht.goes)
    (fun _ h => h.ends.after hg) fun _ _ => trivial) fun t ht => ?_
  exact ht.trans (lzEnd_goes t)

theorem pilPlace_sound (s : State) : (pilPlace s).Sound s :=
  (pilPlace_post s).mono (fun _ h => h.goes) (fun _ h => h.elim) fun _ _ => trivial

/-! ## The plan -/

theorem stageOne_sound (s : State) : (stageOne s).Sound s :=
  Flow.Sound.andThen (Flow.Sound.andThen (subhdrFetch_sound s) htbBuild_sound) hufDecode_sound

theorem planeRle_sound (s : State) : (planeRle s).Sound s := rleExpand_sound _ _ _ s

theorem planeHufRle_sound (s : State) : (planeHufRle s).Sound s :=
  Flow.Sound.andThen (stageOne_sound s) fun t => rleExpand_sound _ _ _ t

theorem planeHufLz_sound (s : State) : (planeHufLz s).Sound s :=
  Flow.Sound.andThen (stageOne_sound s) lzExpand_sound

theorem decodePlane_sound (s : State) : (decodePlane s).Sound s := by
  unfold decodePlane
  split
  · exact planeRle_sound s
  · split
    · exact planeHufLz_sound s
    · exact planeHufRle_sound s

theorem planStart_goes (s : State) : Goes s (planStart s) :=
  ⟨⟨rfl, rfl, rfl, rfl, fun _ h => h, id, id, id⟩, rfl, rfl, rfl⟩

theorem choosePlane_goes (ch : Chan) (s : State) : Goes s (choosePlane ch s) :=
  ⟨⟨rfl, rfl, rfl, rfl, fun _ h => h, id, id, id⟩, rfl, rfl, rfl⟩

theorem planeInit_goes (s : State) : Goes s (planeInit s) :=
  ⟨⟨rfl, rfl, rfl, rfl, fun _ h => h, fun ⟨h1, h2, _, h4⟩ => ⟨h1, h2, Memory.filled_wf _, h4⟩, id, id⟩, rfl, rfl, rfl⟩

theorem planAdvance_goes (s : State) : Goes s (planAdvance s) :=
  ⟨⟨rfl, rfl, rfl, rfl, fun _ h => h, id, id, id⟩, rfl, rfl, rfl⟩

theorem Flow.Sound.after {s t : State} {x : Flow} (h : Goes s t) (k : x.Sound t) : x.Sound s :=
  k.mono (fun _ hu => h.trans hu) (fun _ hu => hu.after h) fun _ _ => trivial

theorem planTurn_sound (ch : Chan) (s : State) : (planTurn ch s).Sound s := by
  unfold planTurn
  simp only
  refine Flow.Sound.after (choosePlane_goes ch s) (Flow.Sound.andThen ?_ planAdvance_goes)
  split
  · exact Flow.Sound.andThen (Flow.Sound.after (planeInit_goes _) (decodePlane_sound _)) pilPlace_sound
  · exact Goes.refl _

theorem planes_sound (s : State) : (planes s).Sound s :=
  Flow.Sound.andThen (Flow.Sound.andThen (Flow.Sound.andThen
    (Flow.Sound.after (planStart_goes s) (planTurn_sound _ _)) (planTurn_sound _)) (planTurn_sound _)) (planTurn_sound _)

/-- The whole command never goes on: it ends as `Ends`, or the model stops it (R231). -/
theorem seqDecode_post (s : State) : (seqDecode s).Post (fun _ => False) (Ends s) fun _ => True := by
  unfold seqDecode
  refine Flow.Post.andThen (G := Goes s) (Flow.Sound.andThen (acceptHeader_sound s) planes_sound) fun t ht => ?_
  exact (finish_sound t).after ht

end Sys2Proof.Machine
end

