-- ==== Sys2Proof/Laws/Exec.lean ====
section
/-! SUPPORT. What every instruction can do, in one lemma. -/

namespace Sys2Proof.Machine

/-- Every instruction but the host's three goes on as `Goes` or ends the command as `Ends`: what stays is said once, for
all of them. -/
theorem exec_sound (i : Instr) (s : State) (h1 : ∀ bs, i ≠ .load bs) (h2 : i ≠ .start) (h3 : i ≠ .reset) :
    ∃ x : Flow, exec i s = x.toOutcome ∧ x.Sound s := by
  have go : ∀ t, Goes s t → (Flow.go t).Sound s := fun t h => h
  have rf : ∀ c, Goes s (rleFetch c s) := fun c => ⟨⟨rfl, rfl, rfl, rfl, fun _ h => h, id, id, id⟩, rfl, rfl, rfl⟩
  have lf : ∀ t : State, t = { s with lz := t.lz } → Goes s t := fun t ht => by
    rw [ht]; exact ⟨⟨rfl, rfl, rfl, rfl, fun _ h => h, id, id, id⟩, rfl, rfl, rfl⟩
  have emit : ∀ v (t : State), t = { s with lz := t.lz } → (lzEmit v t).Sound s := fun v t ht => by
    have hg := lf t ht
    refine Flow.Sound.after hg ?_
    rw [lzEmit, putByte_eq]
    split
    · rename_i hl
      exact ⟨⟨rfl, rfl, rfl, rfl, fun _ h => h, fun ⟨a, b, c, d⟩ => ⟨a, b, t.plane.set_wf _ _ c hl, d⟩, id, id⟩, rfl, rfl, rfl⟩
    · trivial
  have copy : ∀ k (t : State), (lzCopy k t).Sound t := fun k => by
    induction k with
    | zero => exact fun t => Goes.refl t
    | succ k ih =>
      intro t
      rw [lzCopy]
      refine withByte_post (fun v _ => ?_) (fun _ => trivial)
      refine Flow.Sound.andThen ?_ ih
      rw [lzEmit, putByte_eq]
      split
      · rename_i hl
        exact ⟨⟨rfl, rfl, rfl, rfl, fun _ h => h, fun ⟨a, b, c, d⟩ => ⟨a, b, t.plane.set_wf _ _ c hl, d⟩, id, id⟩, rfl, rfl, rfl⟩
      · trivial
  have walk : ∀ r, (walkBit r s).Sound s := fun r => by
    rw [walkBit_eq]; split
    · exact ⟨⟨rfl, rfl, rfl, rfl, fun _ h => h, id, id, id⟩, rfl, rfl, rfl⟩
    · trivial
  cases i with
  | nop => exact ⟨_, rfl, go _ (rf _)⟩
  | lit n => exact ⟨_, rfl, Flow.Sound.after (rf _) ((rleLit_post _ _).mono (fun _ h => h.goes) (fun _ h => h.elim) fun _ _ => trivial)⟩
  | rep n => exact ⟨_, rfl, Flow.Sound.after (rf _) ((rleRep_post _ _).mono (fun _ h => h.goes) (fun _ h => h.elim) fun _ _ => trivial)⟩
  | lzlit b => exact ⟨_, rfl, emit _ _ rfl⟩
  | lzesc => exact ⟨_, rfl, emit _ _ rfl⟩
  | lzcpy o cnt =>
    refine ⟨_, rfl, Flow.Sound.after (lf (lzFetchCount cnt (lzFetchOffset o (lzFetch s.lz.special s))) rfl) ?_⟩
    unfold lzCpy
    simp only
    have hg : ∀ (t : State) x, Goes t { t with lz := x } := fun t x => ⟨⟨rfl, rfl, rfl, rfl, fun _ h => h, id, id, id⟩, rfl, rfl, rfl⟩
    split
    · exact Flow.Sound.after (hg _ _) (raise_sound _ (by decide) _ _ _)
    · exact Flow.Sound.after (hg _ _) (copy _ _)
  | hb0 => exact ⟨_, rfl, walk _⟩
  | hb1 => exact ⟨_, rfl, walk _⟩
  | emit =>
    refine ⟨_, rfl, ?_⟩
    rw [hufEmit_eq]
    split
    · split
      · rename_i hl
        exact ⟨⟨rfl, rfl, rfl, rfl, fun _ h => h, fun ⟨a, b, c, d⟩ => ⟨a, s.mid.set_wf _ _ b hl, c, d⟩, id, id⟩, rfl, rfl, rfl⟩
      · trivial
    · trivial
  | format1 => exact ⟨_, rfl, go _ (Goes.refl s)⟩
  | format2 => exact ⟨_, rfl, go _ (Goes.refl s)⟩
  | variantRle => exact ⟨_, rfl, planeRle_sound s⟩
  | variantHufRle => exact ⟨_, rfl, planeHufRle_sound s⟩
  | variantHufLz => exact ⟨_, rfl, planeHufLz_sound s⟩
  | bpp24 => exact ⟨_, rfl, go _ (pixInit_goes _ s)⟩
  | bpp32 => exact ⟨_, rfl, go _ (pixInit_goes _ s)⟩
  | hdr h => exact ⟨_, rfl, hdrRead_sound h s⟩
  | subhdr t => exact ⟨_, rfl, subhdrRead_sound t s⟩
  | lzhdr h => exact ⟨_, rfl, go _ (lzInit_goes h s)⟩
  | seqDecode => exact ⟨_, rfl, (seqDecode_post s).mono (fun _ h => h.elim) (fun _ h => h) fun _ _ => trivial⟩
  | htbBuild => exact ⟨_, rfl, htbBuild_sound s⟩
  | hufDecode => exact ⟨_, rfl, hufDecode_sound s⟩
  | rleExpand sp base budget => exact ⟨_, rfl, rleExpand_sound sp base budget s⟩
  | lzExpand => exact ⟨_, rfl, lzExpand_sound s⟩
  | pilPlace => exact ⟨_, rfl, pilPlace_sound s⟩
  | load bs => exact absurd rfl (h1 bs)
  | start => exact absurd rfl h2
  | reset => exact absurd rfl h3

/-- What any next state of such an instruction keeps. -/
theorem exec_keeps (i : Instr) (s t : State) (h1 : ∀ bs, i ≠ .load bs) (h2 : i ≠ .start) (h3 : i ≠ .reset)
    (h : exec i s = .next t) : Goes s t ∨ Ends s t := by
  obtain ⟨x, hx, hs⟩ := exec_sound i s h1 h2 h3
  rw [hx] at h
  exact Flow.Post.next (P := fun t => Goes s t ∨ Ends s t)
    (hs.mono (fun _ h => Or.inl h) (fun _ h => Or.inr h) fun _ h => h) h

/-- LOAD answers only while STATUS is not BUSY, and changes SRC alone (R230). -/
theorem load_next (bs : List Byte) (s t : State) (h : exec (.load bs) s = .next t) : s.status ≠ .busy ∧ t = { s with src := Memory.ofBytes bs } := by
  have h' : (hostLoad bs s).toOutcome = .next t := h
  unfold hostLoad at h'
  split at h'
  · cases h'
  · split at h'
    · cases h'
    · cases h'; exact ⟨‹_›, rfl⟩

/-- START answers only while STATUS is not BUSY (R210). -/
theorem start_next (s t : State) (h : exec .start s = .next t) : s.status ≠ .busy ∧ t = { s with status := .busy, trunc := 0, err := ErrRegs.clear, stage := .hdrRead, latched := LatchFlags.clear } := by
  have h' : (hostStart s).toOutcome = .next t := h
  unfold hostStart at h'
  split at h'
  · cases h'
  · cases h'; exact ⟨‹_›, rfl⟩

end Sys2Proof.Machine
end

