-- ==== Sys2Proof/Laws/Header.lean ====
section
/-! SUPPORT. What the header's part of a command does (R211 to R215): every check is its rule's condition, and all of
them together accept exactly the headers of `Accepted`. -/

namespace Sys2Proof.Machine

/-- A capacity is exceeded exactly when there is one and it is smaller. -/
theorem exceeds_iff (n : Nat) (cap : Option Nat) : Config.exceeds n cap = true ↔ ∃ c, cap = some c ∧ c < n := by
  cases cap <;> simp [Config.exceeds]

/-- HDR.READ of a container that holds a header latches what stands in SRC (R211). -/
theorem hdrFetch_eq (s : State) (h : 0x20 ≤ s.src.len) :
    hdrFetch s = .go { s with hdr := srcHeader s, latched := { s.latched with hdr := true } } := by
  unfold hdrFetch
  rw [if_neg (by simp only [State.srcLen, Config.hdrLen]; omega)]
  obtain ⟨bs, hbs, hl⟩ := s.bytesAt_total .src Config.hdrLen 0 (by simpa [Config.hdrLen] using h)
  rw [withBytes_some _ _ _ hbs]
  unfold hdrRead
  rw [if_neg (by simp only [State.srcLen, Config.hdrLen]; omega)]
  simp only [srcHeader, State.paddedAt_eq s .src hbs]

/-- HDR.READ of a shorter one rejects (R211). -/
theorem hdrFetch_short (s : State) (h : s.src.len < 0x20) : hdrFetch s = reject s := by
  unfold hdrFetch
  rw [if_pos (by simp only [State.srcLen, Config.hdrLen]; omega)]

/-- R212's test of FORMAT. -/
theorem checkFormat_eq (s : State) :
    checkFormat s = if s.hdr.format = 1#8 ∨ s.hdr.format = 2#8 then .go s else reject s := by
  unfold checkFormat decodeFormat
  by_cases h1 : s.hdr.format = 1#8
  · simp [h1]
  · by_cases h2 : s.hdr.format = 2#8 <;> simp [h1, h2]

/-- R212's tests of VARIANT and BPP. -/
theorem checkSelectors_eq (s : State) :
    checkSelectors s =
      if (s.hdr.variant = 0x01#8 ∨ s.hdr.variant = 0xA1#8 ∨ s.hdr.variant = 0xA2#8) ∧
          (s.hdr.bpp = 24#16 ∨ s.hdr.bpp = 32#16) then .go s else reject s := by
  unfold checkSelectors decodeVariant decodeBpp Config.variantRle Config.variantHufRle Config.variantHufLz
  by_cases h1 : s.hdr.variant = 0x01#8 <;> by_cases h2 : s.hdr.variant = 0xA1#8 <;>
    by_cases h3 : s.hdr.variant = 0xA2#8 <;> by_cases h4 : s.hdr.bpp = 24#16 <;> by_cases h5 : s.hdr.bpp = 32#16 <;>
    simp [h1, h2, h3, h4, h5]

/-- R213. -/
theorem checkSizes_eq (s : State) :
    checkSizes s =
      if 0 ≤ s.hdr.aSize.toInt ∧ 0 ≤ s.hdr.rSize.toInt ∧ 0 ≤ s.hdr.gSize.toInt ∧ 0 ≤ s.hdr.bSize.toInt ∧
          0x20 + s.hdr.aSize.toInt + s.hdr.rSize.toInt + s.hdr.gSize.toInt + s.hdr.bSize.toInt = (s.src.len : Int)
        then .go s else reject s := by
  unfold checkSizes sizeNegative sizeSum State.srcLen
  by_cases h : (decide (s.hdr.aSize.toInt < 0) || decide (s.hdr.rSize.toInt < 0) || decide (s.hdr.gSize.toInt < 0)
      || decide (s.hdr.bSize.toInt < 0)) = true
  · rw [if_pos h, if_neg]
    simp only [Bool.or_eq_true, decide_eq_true_eq] at h
    omega
  · rw [if_neg h]
    simp only [Bool.or_eq_true, decide_eq_true_eq] at h
    by_cases h2 : 0x20 + s.hdr.aSize.toInt + s.hdr.rSize.toInt + s.hdr.gSize.toInt + s.hdr.bSize.toInt
        = (s.src.len : Int)
    · rw [if_neg (by omega), if_pos (by omega)]
    · rw [if_pos (by omega), if_neg (by omega)]

/-- HDR.READ and HDR.CHECK accept exactly the headers of `Accepted` (R211 to R213). -/
theorem headerChecks_accepted (s : State) (h : 0x20 ≤ s.src.len) (ha : Accepted (srcHeader s) s.src.len) :
    (((hdrFetch s).andThen checkFormat).andThen checkSelectors).andThen checkSizes
      = .go { s with hdr := srcHeader s, latched := { s.latched with hdr := true } } := by
  obtain ⟨h1, h2, h3, h4⟩ := ha
  rw [hdrFetch_eq s h, Flow.go_andThen, checkFormat_eq, if_pos h1, Flow.go_andThen, checkSelectors_eq,
    if_pos ⟨h2, h3⟩, Flow.go_andThen, checkSizes_eq, if_pos h4]

theorem headerChecks_rejected (s : State) (h : 0x20 ≤ s.src.len) (ha : ¬ Accepted (srcHeader s) s.src.len) :
    (((hdrFetch s).andThen checkFormat).andThen checkSelectors).andThen checkSizes
      = reject { s with hdr := srcHeader s, latched := { s.latched with hdr := true } } := by
  rw [hdrFetch_eq s h, Flow.go_andThen, checkFormat_eq]
  by_cases h1 : (srcHeader s).format = 1#8 ∨ (srcHeader s).format = 2#8
  · rw [if_pos h1, Flow.go_andThen, checkSelectors_eq]
    by_cases h2 : ((srcHeader s).variant = 0x01#8 ∨ (srcHeader s).variant = 0xA1#8 ∨ (srcHeader s).variant = 0xA2#8) ∧
        ((srcHeader s).bpp = 24#16 ∨ (srcHeader s).bpp = 32#16)
    · rw [if_pos h2, Flow.go_andThen, checkSizes_eq, if_neg fun h3 => ha ⟨h1, h2.1, h2.2, h3⟩]
    · rw [if_neg h2]; rfl
  · rw [if_neg h1]; rfl

/-- All that comes before the first plane, on a decodable container (R211 to R215). -/
theorem acceptHeader_eq (s : State) (h : Decodable s) :
    acceptHeader s = .go { s with
      hdr := srcHeader s
      latched := { s.latched with hdr := true }
      drv := derivedOf (srcHeader s)
      pix := Memory.filled ((derivedOf (srcHeader s)).n * (derivedOf (srcHeader s)).bypp) } := by
  unfold acceptHeader
  rw [headerChecks_accepted s h.long h.accepted, Flow.go_andThen]
  unfold geometry
  have hf : Config.exceeds (edgeSpan (srcHeader s).left (srcHeader s).right
      * edgeSpan (srcHeader s).top (srcHeader s).bottom) s.caps.planeCap = false :=
    Bool.eq_false_iff.2 fun e => by
      obtain ⟨c, hc, hl⟩ := (exceeds_iff _ _).1 e
      exact absurd (h.fits c hc) (Nat.not_le.2 hl)
  simp only [hf, Bool.false_eq_true, if_false, Flow.go_andThen, pixFormat, pixInit, alphaSized, derivedOf, imageWidth,
    imageHeight, Bool.decide_and]
  rfl

end Sys2Proof.Machine
end

