-- ==== Sys2Proof/Laws/PerInstr.lean ====
section
/-! SUPPORT. Statements made for every row of the opcode table, one lemma per constructor. -/

namespace Sys2Proof.Laws

/-- An instruction has bytes exactly when some code space encodes it: EMIT, the unit operations and the host commands
have none (R103, R121, R230). -/
def Encoded.Statement (i : Instr) : Prop := ∀ special : Byte, encode special i ≠ [] ↔ (codeSpace i).isSome = true

theorem Encoded.nop : Encoded.Statement .nop :=
  fun _ => ⟨fun _ => rfl, fun _ => List.cons_ne_nil _ _⟩

theorem Encoded.lit (n : BitVec 7) : Encoded.Statement (.lit n) :=
  fun _ => ⟨fun _ => rfl, fun _ => List.cons_ne_nil _ _⟩

theorem Encoded.rep (n : BitVec 7) : Encoded.Statement (.rep n) :=
  fun _ => ⟨fun _ => rfl, fun _ => List.cons_ne_nil _ _⟩

theorem Encoded.lzlit (b : Byte) : Encoded.Statement (.lzlit b) :=
  fun _ => ⟨fun _ => rfl, fun _ => List.cons_ne_nil _ _⟩

theorem Encoded.lzesc : Encoded.Statement .lzesc :=
  fun _ => ⟨fun _ => rfl, fun _ => List.cons_ne_nil _ _⟩

theorem Encoded.lzcpy (o cnt : Byte) : Encoded.Statement (.lzcpy o cnt) :=
  fun _ => ⟨fun _ => rfl, fun _ => List.cons_ne_nil _ _⟩

theorem Encoded.hb0 : Encoded.Statement .hb0 :=
  fun _ => ⟨fun _ => rfl, fun _ => List.cons_ne_nil _ _⟩

theorem Encoded.hb1 : Encoded.Statement .hb1 :=
  fun _ => ⟨fun _ => rfl, fun _ => List.cons_ne_nil _ _⟩

theorem Encoded.emit : Encoded.Statement .emit :=
  fun _ => ⟨fun h => absurd rfl h, fun h => nomatch h⟩

theorem Encoded.format1 : Encoded.Statement .format1 :=
  fun _ => ⟨fun _ => rfl, fun _ => List.cons_ne_nil _ _⟩

theorem Encoded.format2 : Encoded.Statement .format2 :=
  fun _ => ⟨fun _ => rfl, fun _ => List.cons_ne_nil _ _⟩

theorem Encoded.variantRle : Encoded.Statement .variantRle :=
  fun _ => ⟨fun _ => rfl, fun _ => List.cons_ne_nil _ _⟩

theorem Encoded.variantHufRle : Encoded.Statement .variantHufRle :=
  fun _ => ⟨fun _ => rfl, fun _ => List.cons_ne_nil _ _⟩

theorem Encoded.variantHufLz : Encoded.Statement .variantHufLz :=
  fun _ => ⟨fun _ => rfl, fun _ => List.cons_ne_nil _ _⟩

theorem Encoded.bpp24 : Encoded.Statement .bpp24 :=
  fun _ => ⟨fun _ => rfl, fun _ => List.cons_ne_nil _ _⟩

theorem Encoded.bpp32 : Encoded.Statement .bpp32 :=
  fun _ => ⟨fun _ => rfl, fun _ => List.cons_ne_nil _ _⟩

theorem Encoded.hdr (h : Header) : Encoded.Statement (.hdr h) :=
  fun _ => ⟨fun _ => rfl, fun _ => List.cons_ne_nil _ _⟩

theorem Encoded.subhdr (t : SubHeader) : Encoded.Statement (.subhdr t) :=
  fun _ => ⟨fun _ => rfl, fun _ => List.cons_ne_nil _ _⟩

theorem Encoded.lzhdr (h : LzHeader) : Encoded.Statement (.lzhdr h) :=
  fun _ => ⟨fun _ => rfl, fun _ => List.cons_ne_nil _ _⟩

theorem Encoded.seqDecode : Encoded.Statement .seqDecode :=
  fun _ => ⟨fun h => absurd rfl h, fun h => nomatch h⟩

theorem Encoded.htbBuild : Encoded.Statement .htbBuild :=
  fun _ => ⟨fun h => absurd rfl h, fun h => nomatch h⟩

theorem Encoded.hufDecode : Encoded.Statement .hufDecode :=
  fun _ => ⟨fun h => absurd rfl h, fun h => nomatch h⟩

theorem Encoded.rleExpand (sp : RunSource) (base budget : Nat) : Encoded.Statement (.rleExpand sp base budget) :=
  fun _ => ⟨fun h => absurd rfl h, fun h => nomatch h⟩

theorem Encoded.lzExpand : Encoded.Statement .lzExpand :=
  fun _ => ⟨fun h => absurd rfl h, fun h => nomatch h⟩

theorem Encoded.pilPlace : Encoded.Statement .pilPlace :=
  fun _ => ⟨fun h => absurd rfl h, fun h => nomatch h⟩

theorem Encoded.load (bytes : List Byte) : Encoded.Statement (.load bytes) :=
  fun _ => ⟨fun h => absurd rfl h, fun h => nomatch h⟩

theorem Encoded.start : Encoded.Statement .start :=
  fun _ => ⟨fun h => absurd rfl h, fun h => nomatch h⟩

theorem Encoded.reset : Encoded.Statement .reset :=
  fun _ => ⟨fun h => absurd rfl h, fun h => nomatch h⟩

end Sys2Proof.Laws
end

