-- ==== Sys2Proof/Laws/State.lean ====
section
/-! SUPPORT. One lemma per field per named update of the state: what each update leaves and what it writes. -/

namespace Sys2Proof.Machine

/-! ## setTrunc -/

@[simp] theorem setTrunc_status (st : Nat) (s : State) : (setTrunc st s).status = s.status := rfl
@[simp] theorem setTrunc_trunc (st : Nat) (s : State) : (setTrunc st s).trunc = s.trunc ||| (1#8 <<< truncIndex s.seq.pch st) := rfl
@[simp] theorem setTrunc_err (st : Nat) (s : State) : (setTrunc st s).err = s.err := rfl
@[simp] theorem setTrunc_hdr (st : Nat) (s : State) : (setTrunc st s).hdr = s.hdr := rfl
@[simp] theorem setTrunc_drv (st : Nat) (s : State) : (setTrunc st s).drv = s.drv := rfl
@[simp] theorem setTrunc_sub (st : Nat) (s : State) : (setTrunc st s).sub = s.sub := rfl
@[simp] theorem setTrunc_br (st : Nat) (s : State) : (setTrunc st s).br = s.br := rfl
@[simp] theorem setTrunc_hsw (st : Nat) (s : State) : (setTrunc st s).hsw = s.hsw := rfl
@[simp] theorem setTrunc_htb (st : Nat) (s : State) : (setTrunc st s).htb = s.htb := rfl
@[simp] theorem setTrunc_freqs (st : Nat) (s : State) : (setTrunc st s).freqs = s.freqs := rfl
@[simp] theorem setTrunc_rle (st : Nat) (s : State) : (setTrunc st s).rle = s.rle := rfl
@[simp] theorem setTrunc_lz (st : Nat) (s : State) : (setTrunc st s).lz = s.lz := rfl
@[simp] theorem setTrunc_seq (st : Nat) (s : State) : (setTrunc st s).seq = s.seq := rfl
@[simp] theorem setTrunc_src (st : Nat) (s : State) : (setTrunc st s).src = s.src := rfl
@[simp] theorem setTrunc_mid (st : Nat) (s : State) : (setTrunc st s).mid = s.mid := rfl
@[simp] theorem setTrunc_plane (st : Nat) (s : State) : (setTrunc st s).plane = s.plane := rfl
@[simp] theorem setTrunc_pix (st : Nat) (s : State) : (setTrunc st s).pix = s.pix := rfl
@[simp] theorem setTrunc_stage (st : Nat) (s : State) : (setTrunc st s).stage = s.stage := rfl
@[simp] theorem setTrunc_grain (st : Nat) (s : State) : (setTrunc st s).grain = s.grain := rfl
@[simp] theorem setTrunc_host (st : Nat) (s : State) : (setTrunc st s).host = s.host := rfl
@[simp] theorem setTrunc_caps (st : Nat) (s : State) : (setTrunc st s).caps = s.caps := rfl
@[simp] theorem setTrunc_latched (st : Nat) (s : State) : (setTrunc st s).latched = s.latched := rfl

/-! ## rleInit -/

@[simp] theorem rleInit_status (sp : RunSource) (base budget : Nat) (s : State) : (rleInit sp base budget s).status = s.status := rfl
@[simp] theorem rleInit_trunc (sp : RunSource) (base budget : Nat) (s : State) : (rleInit sp base budget s).trunc = s.trunc := rfl
@[simp] theorem rleInit_err (sp : RunSource) (base budget : Nat) (s : State) : (rleInit sp base budget s).err = s.err := rfl
@[simp] theorem rleInit_hdr (sp : RunSource) (base budget : Nat) (s : State) : (rleInit sp base budget s).hdr = s.hdr := rfl
@[simp] theorem rleInit_drv (sp : RunSource) (base budget : Nat) (s : State) : (rleInit sp base budget s).drv = s.drv := rfl
@[simp] theorem rleInit_sub (sp : RunSource) (base budget : Nat) (s : State) : (rleInit sp base budget s).sub = s.sub := rfl
@[simp] theorem rleInit_br (sp : RunSource) (base budget : Nat) (s : State) : (rleInit sp base budget s).br = s.br := rfl
@[simp] theorem rleInit_hsw (sp : RunSource) (base budget : Nat) (s : State) : (rleInit sp base budget s).hsw = s.hsw := rfl
@[simp] theorem rleInit_htb (sp : RunSource) (base budget : Nat) (s : State) : (rleInit sp base budget s).htb = s.htb := rfl
@[simp] theorem rleInit_freqs (sp : RunSource) (base budget : Nat) (s : State) : (rleInit sp base budget s).freqs = s.freqs := rfl
@[simp] theorem rleInit_rle (sp : RunSource) (base budget : Nat) (s : State) : (rleInit sp base budget s).rle = { s.rle with rsrc := sp, rbase := base, rsrcb := budget, rsp := 0, rdstb := s.drv.n, rdp := 0 } := rfl
@[simp] theorem rleInit_lz (sp : RunSource) (base budget : Nat) (s : State) : (rleInit sp base budget s).lz = s.lz := rfl
@[simp] theorem rleInit_seq (sp : RunSource) (base budget : Nat) (s : State) : (rleInit sp base budget s).seq = s.seq := rfl
@[simp] theorem rleInit_src (sp : RunSource) (base budget : Nat) (s : State) : (rleInit sp base budget s).src = s.src := rfl
@[simp] theorem rleInit_mid (sp : RunSource) (base budget : Nat) (s : State) : (rleInit sp base budget s).mid = s.mid := rfl
@[simp] theorem rleInit_plane (sp : RunSource) (base budget : Nat) (s : State) : (rleInit sp base budget s).plane = s.plane := rfl
@[simp] theorem rleInit_pix (sp : RunSource) (base budget : Nat) (s : State) : (rleInit sp base budget s).pix = s.pix := rfl
@[simp] theorem rleInit_stage (sp : RunSource) (base budget : Nat) (s : State) : (rleInit sp base budget s).stage = s.stage := rfl
@[simp] theorem rleInit_grain (sp : RunSource) (base budget : Nat) (s : State) : (rleInit sp base budget s).grain = s.grain := rfl
@[simp] theorem rleInit_host (sp : RunSource) (base budget : Nat) (s : State) : (rleInit sp base budget s).host = s.host := rfl
@[simp] theorem rleInit_caps (sp : RunSource) (base budget : Nat) (s : State) : (rleInit sp base budget s).caps = s.caps := rfl
@[simp] theorem rleInit_latched (sp : RunSource) (base budget : Nat) (s : State) : (rleInit sp base budget s).latched = s.latched := rfl

/-! ## rleFetch -/

@[simp] theorem rleFetch_status (c : Byte) (s : State) : (rleFetch c s).status = s.status := rfl
@[simp] theorem rleFetch_trunc (c : Byte) (s : State) : (rleFetch c s).trunc = s.trunc := rfl
@[simp] theorem rleFetch_err (c : Byte) (s : State) : (rleFetch c s).err = s.err := rfl
@[simp] theorem rleFetch_hdr (c : Byte) (s : State) : (rleFetch c s).hdr = s.hdr := rfl
@[simp] theorem rleFetch_drv (c : Byte) (s : State) : (rleFetch c s).drv = s.drv := rfl
@[simp] theorem rleFetch_sub (c : Byte) (s : State) : (rleFetch c s).sub = s.sub := rfl
@[simp] theorem rleFetch_br (c : Byte) (s : State) : (rleFetch c s).br = s.br := rfl
@[simp] theorem rleFetch_hsw (c : Byte) (s : State) : (rleFetch c s).hsw = s.hsw := rfl
@[simp] theorem rleFetch_htb (c : Byte) (s : State) : (rleFetch c s).htb = s.htb := rfl
@[simp] theorem rleFetch_freqs (c : Byte) (s : State) : (rleFetch c s).freqs = s.freqs := rfl
@[simp] theorem rleFetch_rle (c : Byte) (s : State) : (rleFetch c s).rle = { s.rle with rc := c, rsp := s.rle.rsp + 1 } := rfl
@[simp] theorem rleFetch_lz (c : Byte) (s : State) : (rleFetch c s).lz = s.lz := rfl
@[simp] theorem rleFetch_seq (c : Byte) (s : State) : (rleFetch c s).seq = s.seq := rfl
@[simp] theorem rleFetch_src (c : Byte) (s : State) : (rleFetch c s).src = s.src := rfl
@[simp] theorem rleFetch_mid (c : Byte) (s : State) : (rleFetch c s).mid = s.mid := rfl
@[simp] theorem rleFetch_plane (c : Byte) (s : State) : (rleFetch c s).plane = s.plane := rfl
@[simp] theorem rleFetch_pix (c : Byte) (s : State) : (rleFetch c s).pix = s.pix := rfl
@[simp] theorem rleFetch_stage (c : Byte) (s : State) : (rleFetch c s).stage = s.stage := rfl
@[simp] theorem rleFetch_grain (c : Byte) (s : State) : (rleFetch c s).grain = s.grain := rfl
@[simp] theorem rleFetch_host (c : Byte) (s : State) : (rleFetch c s).host = s.host := rfl
@[simp] theorem rleFetch_caps (c : Byte) (s : State) : (rleFetch c s).caps = s.caps := rfl
@[simp] theorem rleFetch_latched (c : Byte) (s : State) : (rleFetch c s).latched = s.latched := rfl

/-! ## lzInit -/

@[simp] theorem lzInit_status (h : LzHeader) (s : State) : (lzInit h s).status = s.status := rfl
@[simp] theorem lzInit_trunc (h : LzHeader) (s : State) : (lzInit h s).trunc = s.trunc := rfl
@[simp] theorem lzInit_err (h : LzHeader) (s : State) : (lzInit h s).err = s.err := rfl
@[simp] theorem lzInit_hdr (h : LzHeader) (s : State) : (lzInit h s).hdr = s.hdr := rfl
@[simp] theorem lzInit_drv (h : LzHeader) (s : State) : (lzInit h s).drv = s.drv := rfl
@[simp] theorem lzInit_sub (h : LzHeader) (s : State) : (lzInit h s).sub = if 8 ≤ hlenOf s.sub then { s.sub with lzhdr0 := h.word0, lzhdr1 := h.word1 } else s.sub := rfl
@[simp] theorem lzInit_br (h : LzHeader) (s : State) : (lzInit h s).br = s.br := rfl
@[simp] theorem lzInit_hsw (h : LzHeader) (s : State) : (lzInit h s).hsw = s.hsw := rfl
@[simp] theorem lzInit_htb (h : LzHeader) (s : State) : (lzInit h s).htb = s.htb := rfl
@[simp] theorem lzInit_freqs (h : LzHeader) (s : State) : (lzInit h s).freqs = s.freqs := rfl
@[simp] theorem lzInit_rle (h : LzHeader) (s : State) : (lzInit h s).rle = s.rle := rfl
@[simp] theorem lzInit_lz (h : LzHeader) (s : State) : (lzInit h s).lz = { s.lz with llen := hlenOf s.sub, ldstb := s.drv.n, ldp := 0, lsp := 12, special := if 8 < hlenOf s.sub then h.special else 0x00#8 } := rfl
@[simp] theorem lzInit_seq (h : LzHeader) (s : State) : (lzInit h s).seq = s.seq := rfl
@[simp] theorem lzInit_src (h : LzHeader) (s : State) : (lzInit h s).src = s.src := rfl
@[simp] theorem lzInit_mid (h : LzHeader) (s : State) : (lzInit h s).mid = s.mid := rfl
@[simp] theorem lzInit_plane (h : LzHeader) (s : State) : (lzInit h s).plane = s.plane := rfl
@[simp] theorem lzInit_pix (h : LzHeader) (s : State) : (lzInit h s).pix = s.pix := rfl
@[simp] theorem lzInit_stage (h : LzHeader) (s : State) : (lzInit h s).stage = s.stage := rfl
@[simp] theorem lzInit_grain (h : LzHeader) (s : State) : (lzInit h s).grain = s.grain := rfl
@[simp] theorem lzInit_host (h : LzHeader) (s : State) : (lzInit h s).host = s.host := rfl
@[simp] theorem lzInit_caps (h : LzHeader) (s : State) : (lzInit h s).caps = s.caps := rfl
@[simp] theorem lzInit_latched (h : LzHeader) (s : State) : (lzInit h s).latched = if 8 ≤ hlenOf s.sub then { s.latched with lzhdr := true } else s.latched := rfl

/-! ## lzFetch -/

@[simp] theorem lzFetch_status (b : Byte) (s : State) : (lzFetch b s).status = s.status := rfl
@[simp] theorem lzFetch_trunc (b : Byte) (s : State) : (lzFetch b s).trunc = s.trunc := rfl
@[simp] theorem lzFetch_err (b : Byte) (s : State) : (lzFetch b s).err = s.err := rfl
@[simp] theorem lzFetch_hdr (b : Byte) (s : State) : (lzFetch b s).hdr = s.hdr := rfl
@[simp] theorem lzFetch_drv (b : Byte) (s : State) : (lzFetch b s).drv = s.drv := rfl
@[simp] theorem lzFetch_sub (b : Byte) (s : State) : (lzFetch b s).sub = s.sub := rfl
@[simp] theorem lzFetch_br (b : Byte) (s : State) : (lzFetch b s).br = s.br := rfl
@[simp] theorem lzFetch_hsw (b : Byte) (s : State) : (lzFetch b s).hsw = s.hsw := rfl
@[simp] theorem lzFetch_htb (b : Byte) (s : State) : (lzFetch b s).htb = s.htb := rfl
@[simp] theorem lzFetch_freqs (b : Byte) (s : State) : (lzFetch b s).freqs = s.freqs := rfl
@[simp] theorem lzFetch_rle (b : Byte) (s : State) : (lzFetch b s).rle = s.rle := rfl
@[simp] theorem lzFetch_lz (b : Byte) (s : State) : (lzFetch b s).lz = { s.lz with lb := b, lsp := s.lz.lsp + 1 } := rfl
@[simp] theorem lzFetch_seq (b : Byte) (s : State) : (lzFetch b s).seq = s.seq := rfl
@[simp] theorem lzFetch_src (b : Byte) (s : State) : (lzFetch b s).src = s.src := rfl
@[simp] theorem lzFetch_mid (b : Byte) (s : State) : (lzFetch b s).mid = s.mid := rfl
@[simp] theorem lzFetch_plane (b : Byte) (s : State) : (lzFetch b s).plane = s.plane := rfl
@[simp] theorem lzFetch_pix (b : Byte) (s : State) : (lzFetch b s).pix = s.pix := rfl
@[simp] theorem lzFetch_stage (b : Byte) (s : State) : (lzFetch b s).stage = s.stage := rfl
@[simp] theorem lzFetch_grain (b : Byte) (s : State) : (lzFetch b s).grain = s.grain := rfl
@[simp] theorem lzFetch_host (b : Byte) (s : State) : (lzFetch b s).host = s.host := rfl
@[simp] theorem lzFetch_caps (b : Byte) (s : State) : (lzFetch b s).caps = s.caps := rfl
@[simp] theorem lzFetch_latched (b : Byte) (s : State) : (lzFetch b s).latched = s.latched := rfl

/-! ## lzFetchOffset -/

@[simp] theorem lzFetchOffset_status (o : Byte) (s : State) : (lzFetchOffset o s).status = s.status := rfl
@[simp] theorem lzFetchOffset_trunc (o : Byte) (s : State) : (lzFetchOffset o s).trunc = s.trunc := rfl
@[simp] theorem lzFetchOffset_err (o : Byte) (s : State) : (lzFetchOffset o s).err = s.err := rfl
@[simp] theorem lzFetchOffset_hdr (o : Byte) (s : State) : (lzFetchOffset o s).hdr = s.hdr := rfl
@[simp] theorem lzFetchOffset_drv (o : Byte) (s : State) : (lzFetchOffset o s).drv = s.drv := rfl
@[simp] theorem lzFetchOffset_sub (o : Byte) (s : State) : (lzFetchOffset o s).sub = s.sub := rfl
@[simp] theorem lzFetchOffset_br (o : Byte) (s : State) : (lzFetchOffset o s).br = s.br := rfl
@[simp] theorem lzFetchOffset_hsw (o : Byte) (s : State) : (lzFetchOffset o s).hsw = s.hsw := rfl
@[simp] theorem lzFetchOffset_htb (o : Byte) (s : State) : (lzFetchOffset o s).htb = s.htb := rfl
@[simp] theorem lzFetchOffset_freqs (o : Byte) (s : State) : (lzFetchOffset o s).freqs = s.freqs := rfl
@[simp] theorem lzFetchOffset_rle (o : Byte) (s : State) : (lzFetchOffset o s).rle = s.rle := rfl
@[simp] theorem lzFetchOffset_lz (o : Byte) (s : State) : (lzFetchOffset o s).lz = { s.lz with lob := o, lsp := s.lz.lsp + 1 } := rfl
@[simp] theorem lzFetchOffset_seq (o : Byte) (s : State) : (lzFetchOffset o s).seq = s.seq := rfl
@[simp] theorem lzFetchOffset_src (o : Byte) (s : State) : (lzFetchOffset o s).src = s.src := rfl
@[simp] theorem lzFetchOffset_mid (o : Byte) (s : State) : (lzFetchOffset o s).mid = s.mid := rfl
@[simp] theorem lzFetchOffset_plane (o : Byte) (s : State) : (lzFetchOffset o s).plane = s.plane := rfl
@[simp] theorem lzFetchOffset_pix (o : Byte) (s : State) : (lzFetchOffset o s).pix = s.pix := rfl
@[simp] theorem lzFetchOffset_stage (o : Byte) (s : State) : (lzFetchOffset o s).stage = s.stage := rfl
@[simp] theorem lzFetchOffset_grain (o : Byte) (s : State) : (lzFetchOffset o s).grain = s.grain := rfl
@[simp] theorem lzFetchOffset_host (o : Byte) (s : State) : (lzFetchOffset o s).host = s.host := rfl
@[simp] theorem lzFetchOffset_caps (o : Byte) (s : State) : (lzFetchOffset o s).caps = s.caps := rfl
@[simp] theorem lzFetchOffset_latched (o : Byte) (s : State) : (lzFetchOffset o s).latched = s.latched := rfl

/-! ## lzFetchCount -/

@[simp] theorem lzFetchCount_status (cnt : Byte) (s : State) : (lzFetchCount cnt s).status = s.status := rfl
@[simp] theorem lzFetchCount_trunc (cnt : Byte) (s : State) : (lzFetchCount cnt s).trunc = s.trunc := rfl
@[simp] theorem lzFetchCount_err (cnt : Byte) (s : State) : (lzFetchCount cnt s).err = s.err := rfl
@[simp] theorem lzFetchCount_hdr (cnt : Byte) (s : State) : (lzFetchCount cnt s).hdr = s.hdr := rfl
@[simp] theorem lzFetchCount_drv (cnt : Byte) (s : State) : (lzFetchCount cnt s).drv = s.drv := rfl
@[simp] theorem lzFetchCount_sub (cnt : Byte) (s : State) : (lzFetchCount cnt s).sub = s.sub := rfl
@[simp] theorem lzFetchCount_br (cnt : Byte) (s : State) : (lzFetchCount cnt s).br = s.br := rfl
@[simp] theorem lzFetchCount_hsw (cnt : Byte) (s : State) : (lzFetchCount cnt s).hsw = s.hsw := rfl
@[simp] theorem lzFetchCount_htb (cnt : Byte) (s : State) : (lzFetchCount cnt s).htb = s.htb := rfl
@[simp] theorem lzFetchCount_freqs (cnt : Byte) (s : State) : (lzFetchCount cnt s).freqs = s.freqs := rfl
@[simp] theorem lzFetchCount_rle (cnt : Byte) (s : State) : (lzFetchCount cnt s).rle = s.rle := rfl
@[simp] theorem lzFetchCount_lz (cnt : Byte) (s : State) : (lzFetchCount cnt s).lz = { s.lz with lcnt := cnt, lsp := s.lz.lsp + 1 } := rfl
@[simp] theorem lzFetchCount_seq (cnt : Byte) (s : State) : (lzFetchCount cnt s).seq = s.seq := rfl
@[simp] theorem lzFetchCount_src (cnt : Byte) (s : State) : (lzFetchCount cnt s).src = s.src := rfl
@[simp] theorem lzFetchCount_mid (cnt : Byte) (s : State) : (lzFetchCount cnt s).mid = s.mid := rfl
@[simp] theorem lzFetchCount_plane (cnt : Byte) (s : State) : (lzFetchCount cnt s).plane = s.plane := rfl
@[simp] theorem lzFetchCount_pix (cnt : Byte) (s : State) : (lzFetchCount cnt s).pix = s.pix := rfl
@[simp] theorem lzFetchCount_stage (cnt : Byte) (s : State) : (lzFetchCount cnt s).stage = s.stage := rfl
@[simp] theorem lzFetchCount_grain (cnt : Byte) (s : State) : (lzFetchCount cnt s).grain = s.grain := rfl
@[simp] theorem lzFetchCount_host (cnt : Byte) (s : State) : (lzFetchCount cnt s).host = s.host := rfl
@[simp] theorem lzFetchCount_caps (cnt : Byte) (s : State) : (lzFetchCount cnt s).caps = s.caps := rfl
@[simp] theorem lzFetchCount_latched (cnt : Byte) (s : State) : (lzFetchCount cnt s).latched = s.latched := rfl

/-! ## brInit -/

@[simp] theorem brInit_status (s : State) : (brInit s).status = s.status := rfl
@[simp] theorem brInit_trunc (s : State) : (brInit s).trunc = s.trunc := rfl
@[simp] theorem brInit_err (s : State) : (brInit s).err = s.err := rfl
@[simp] theorem brInit_hdr (s : State) : (brInit s).hdr = s.hdr := rfl
@[simp] theorem brInit_drv (s : State) : (brInit s).drv = s.drv := rfl
@[simp] theorem brInit_sub (s : State) : (brInit s).sub = s.sub := rfl
@[simp] theorem brInit_br (s : State) : (brInit s).br = { payBase := s.seq.poff + 0x408, payLen := s.seq.psize - 0x408, byteP := 0, bitI := 0 } := rfl
@[simp] theorem brInit_hsw (s : State) : (brInit s).hsw = s.hsw := rfl
@[simp] theorem brInit_htb (s : State) : (brInit s).htb = s.htb := rfl
@[simp] theorem brInit_freqs (s : State) : (brInit s).freqs = s.freqs := rfl
@[simp] theorem brInit_rle (s : State) : (brInit s).rle = s.rle := rfl
@[simp] theorem brInit_lz (s : State) : (brInit s).lz = s.lz := rfl
@[simp] theorem brInit_seq (s : State) : (brInit s).seq = s.seq := rfl
@[simp] theorem brInit_src (s : State) : (brInit s).src = s.src := rfl
@[simp] theorem brInit_mid (s : State) : (brInit s).mid = s.mid := rfl
@[simp] theorem brInit_plane (s : State) : (brInit s).plane = s.plane := rfl
@[simp] theorem brInit_pix (s : State) : (brInit s).pix = s.pix := rfl
@[simp] theorem brInit_stage (s : State) : (brInit s).stage = s.stage := rfl
@[simp] theorem brInit_grain (s : State) : (brInit s).grain = s.grain := rfl
@[simp] theorem brInit_host (s : State) : (brInit s).host = s.host := rfl
@[simp] theorem brInit_caps (s : State) : (brInit s).caps = s.caps := rfl
@[simp] theorem brInit_latched (s : State) : (brInit s).latched = s.latched := rfl

/-! ## midInit -/

@[simp] theorem midInit_status (s : State) : (midInit s).status = s.status := rfl
@[simp] theorem midInit_trunc (s : State) : (midInit s).trunc = s.trunc := rfl
@[simp] theorem midInit_err (s : State) : (midInit s).err = s.err := rfl
@[simp] theorem midInit_hdr (s : State) : (midInit s).hdr = s.hdr := rfl
@[simp] theorem midInit_drv (s : State) : (midInit s).drv = s.drv := rfl
@[simp] theorem midInit_sub (s : State) : (midInit s).sub = s.sub := rfl
@[simp] theorem midInit_br (s : State) : (midInit s).br = s.br := rfl
@[simp] theorem midInit_hsw (s : State) : (midInit s).hsw = { s.hsw with hprod := 0 } := rfl
@[simp] theorem midInit_htb (s : State) : (midInit s).htb = s.htb := rfl
@[simp] theorem midInit_freqs (s : State) : (midInit s).freqs = s.freqs := rfl
@[simp] theorem midInit_rle (s : State) : (midInit s).rle = s.rle := rfl
@[simp] theorem midInit_lz (s : State) : (midInit s).lz = s.lz := rfl
@[simp] theorem midInit_seq (s : State) : (midInit s).seq = s.seq := rfl
@[simp] theorem midInit_src (s : State) : (midInit s).src = s.src := rfl
@[simp] theorem midInit_mid (s : State) : (midInit s).mid = Memory.filled (hlenOf s.sub) := rfl
@[simp] theorem midInit_plane (s : State) : (midInit s).plane = s.plane := rfl
@[simp] theorem midInit_pix (s : State) : (midInit s).pix = s.pix := rfl
@[simp] theorem midInit_stage (s : State) : (midInit s).stage = s.stage := rfl
@[simp] theorem midInit_grain (s : State) : (midInit s).grain = s.grain := rfl
@[simp] theorem midInit_host (s : State) : (midInit s).host = s.host := rfl
@[simp] theorem midInit_caps (s : State) : (midInit s).caps = s.caps := rfl
@[simp] theorem midInit_latched (s : State) : (midInit s).latched = s.latched := rfl

/-! ## walkStart -/

@[simp] theorem walkStart_status (s : State) : (walkStart s).status = s.status := by unfold walkStart; split <;> rfl
@[simp] theorem walkStart_trunc (s : State) : (walkStart s).trunc = s.trunc := by unfold walkStart; split <;> rfl
@[simp] theorem walkStart_err (s : State) : (walkStart s).err = s.err := by unfold walkStart; split <;> rfl
@[simp] theorem walkStart_hdr (s : State) : (walkStart s).hdr = s.hdr := by unfold walkStart; split <;> rfl
@[simp] theorem walkStart_drv (s : State) : (walkStart s).drv = s.drv := by unfold walkStart; split <;> rfl
@[simp] theorem walkStart_sub (s : State) : (walkStart s).sub = s.sub := by unfold walkStart; split <;> rfl
@[simp] theorem walkStart_br (s : State) : (walkStart s).br = s.br := by unfold walkStart; split <;> rfl
@[simp] theorem walkStart_hsw (s : State) : (walkStart s).hsw = if s.hsw.hprod < hlenOf s.sub then { s.hsw with cur := s.hsw.root } else s.hsw := by unfold walkStart; split <;> rfl
@[simp] theorem walkStart_htb (s : State) : (walkStart s).htb = s.htb := by unfold walkStart; split <;> rfl
@[simp] theorem walkStart_freqs (s : State) : (walkStart s).freqs = s.freqs := by unfold walkStart; split <;> rfl
@[simp] theorem walkStart_rle (s : State) : (walkStart s).rle = s.rle := by unfold walkStart; split <;> rfl
@[simp] theorem walkStart_lz (s : State) : (walkStart s).lz = s.lz := by unfold walkStart; split <;> rfl
@[simp] theorem walkStart_seq (s : State) : (walkStart s).seq = s.seq := by unfold walkStart; split <;> rfl
@[simp] theorem walkStart_src (s : State) : (walkStart s).src = s.src := by unfold walkStart; split <;> rfl
@[simp] theorem walkStart_mid (s : State) : (walkStart s).mid = s.mid := by unfold walkStart; split <;> rfl
@[simp] theorem walkStart_plane (s : State) : (walkStart s).plane = s.plane := by unfold walkStart; split <;> rfl
@[simp] theorem walkStart_pix (s : State) : (walkStart s).pix = s.pix := by unfold walkStart; split <;> rfl
@[simp] theorem walkStart_stage (s : State) : (walkStart s).stage = s.stage := by unfold walkStart; split <;> rfl
@[simp] theorem walkStart_grain (s : State) : (walkStart s).grain = s.grain := by unfold walkStart; split <;> rfl
@[simp] theorem walkStart_host (s : State) : (walkStart s).host = s.host := by unfold walkStart; split <;> rfl
@[simp] theorem walkStart_caps (s : State) : (walkStart s).caps = s.caps := by unfold walkStart; split <;> rfl
@[simp] theorem walkStart_latched (s : State) : (walkStart s).latched = s.latched := by unfold walkStart; split <;> rfl

/-! ## pixInit -/

@[simp] theorem pixInit_status (alpha : Bool) (s : State) : (pixInit alpha s).status = s.status := rfl
@[simp] theorem pixInit_trunc (alpha : Bool) (s : State) : (pixInit alpha s).trunc = s.trunc := rfl
@[simp] theorem pixInit_err (alpha : Bool) (s : State) : (pixInit alpha s).err = s.err := rfl
@[simp] theorem pixInit_hdr (alpha : Bool) (s : State) : (pixInit alpha s).hdr = s.hdr := rfl
@[simp] theorem pixInit_drv (alpha : Bool) (s : State) : (pixInit alpha s).drv = { s.drv with alpha := alpha, bypp := if alpha then 4 else 3, pixFmt := alpha } := rfl
@[simp] theorem pixInit_sub (alpha : Bool) (s : State) : (pixInit alpha s).sub = s.sub := rfl
@[simp] theorem pixInit_br (alpha : Bool) (s : State) : (pixInit alpha s).br = s.br := rfl
@[simp] theorem pixInit_hsw (alpha : Bool) (s : State) : (pixInit alpha s).hsw = s.hsw := rfl
@[simp] theorem pixInit_htb (alpha : Bool) (s : State) : (pixInit alpha s).htb = s.htb := rfl
@[simp] theorem pixInit_freqs (alpha : Bool) (s : State) : (pixInit alpha s).freqs = s.freqs := rfl
@[simp] theorem pixInit_rle (alpha : Bool) (s : State) : (pixInit alpha s).rle = s.rle := rfl
@[simp] theorem pixInit_lz (alpha : Bool) (s : State) : (pixInit alpha s).lz = s.lz := rfl
@[simp] theorem pixInit_seq (alpha : Bool) (s : State) : (pixInit alpha s).seq = s.seq := rfl
@[simp] theorem pixInit_src (alpha : Bool) (s : State) : (pixInit alpha s).src = s.src := rfl
@[simp] theorem pixInit_mid (alpha : Bool) (s : State) : (pixInit alpha s).mid = s.mid := rfl
@[simp] theorem pixInit_plane (alpha : Bool) (s : State) : (pixInit alpha s).plane = s.plane := rfl
@[simp] theorem pixInit_pix (alpha : Bool) (s : State) : (pixInit alpha s).pix = Memory.filled (s.drv.n * if alpha then 4 else 3) := rfl
@[simp] theorem pixInit_stage (alpha : Bool) (s : State) : (pixInit alpha s).stage = s.stage := rfl
@[simp] theorem pixInit_grain (alpha : Bool) (s : State) : (pixInit alpha s).grain = s.grain := rfl
@[simp] theorem pixInit_host (alpha : Bool) (s : State) : (pixInit alpha s).host = s.host := rfl
@[simp] theorem pixInit_caps (alpha : Bool) (s : State) : (pixInit alpha s).caps = s.caps := rfl
@[simp] theorem pixInit_latched (alpha : Bool) (s : State) : (pixInit alpha s).latched = s.latched := rfl

/-! ## planStart -/

@[simp] theorem planStart_status (s : State) : (planStart s).status = s.status := rfl
@[simp] theorem planStart_trunc (s : State) : (planStart s).trunc = s.trunc := rfl
@[simp] theorem planStart_err (s : State) : (planStart s).err = s.err := rfl
@[simp] theorem planStart_hdr (s : State) : (planStart s).hdr = s.hdr := rfl
@[simp] theorem planStart_drv (s : State) : (planStart s).drv = s.drv := rfl
@[simp] theorem planStart_sub (s : State) : (planStart s).sub = s.sub := rfl
@[simp] theorem planStart_br (s : State) : (planStart s).br = s.br := rfl
@[simp] theorem planStart_hsw (s : State) : (planStart s).hsw = s.hsw := rfl
@[simp] theorem planStart_htb (s : State) : (planStart s).htb = s.htb := rfl
@[simp] theorem planStart_freqs (s : State) : (planStart s).freqs = s.freqs := rfl
@[simp] theorem planStart_rle (s : State) : (planStart s).rle = s.rle := rfl
@[simp] theorem planStart_lz (s : State) : (planStart s).lz = s.lz := rfl
@[simp] theorem planStart_seq (s : State) : (planStart s).seq = { s.seq with poff := 0x20 } := rfl
@[simp] theorem planStart_src (s : State) : (planStart s).src = s.src := rfl
@[simp] theorem planStart_mid (s : State) : (planStart s).mid = s.mid := rfl
@[simp] theorem planStart_plane (s : State) : (planStart s).plane = s.plane := rfl
@[simp] theorem planStart_pix (s : State) : (planStart s).pix = s.pix := rfl
@[simp] theorem planStart_stage (s : State) : (planStart s).stage = s.stage := rfl
@[simp] theorem planStart_grain (s : State) : (planStart s).grain = s.grain := rfl
@[simp] theorem planStart_host (s : State) : (planStart s).host = s.host := rfl
@[simp] theorem planStart_caps (s : State) : (planStart s).caps = s.caps := rfl
@[simp] theorem planStart_latched (s : State) : (planStart s).latched = s.latched := rfl

/-! ## choosePlane -/

@[simp] theorem choosePlane_status (ch : Chan) (s : State) : (choosePlane ch s).status = s.status := rfl
@[simp] theorem choosePlane_trunc (ch : Chan) (s : State) : (choosePlane ch s).trunc = s.trunc := rfl
@[simp] theorem choosePlane_err (ch : Chan) (s : State) : (choosePlane ch s).err = s.err := rfl
@[simp] theorem choosePlane_hdr (ch : Chan) (s : State) : (choosePlane ch s).hdr = s.hdr := rfl
@[simp] theorem choosePlane_drv (ch : Chan) (s : State) : (choosePlane ch s).drv = s.drv := rfl
@[simp] theorem choosePlane_sub (ch : Chan) (s : State) : (choosePlane ch s).sub = s.sub := rfl
@[simp] theorem choosePlane_br (ch : Chan) (s : State) : (choosePlane ch s).br = s.br := rfl
@[simp] theorem choosePlane_hsw (ch : Chan) (s : State) : (choosePlane ch s).hsw = s.hsw := rfl
@[simp] theorem choosePlane_htb (ch : Chan) (s : State) : (choosePlane ch s).htb = s.htb := rfl
@[simp] theorem choosePlane_freqs (ch : Chan) (s : State) : (choosePlane ch s).freqs = s.freqs := rfl
@[simp] theorem choosePlane_rle (ch : Chan) (s : State) : (choosePlane ch s).rle = s.rle := rfl
@[simp] theorem choosePlane_lz (ch : Chan) (s : State) : (choosePlane ch s).lz = s.lz := rfl
@[simp] theorem choosePlane_seq (ch : Chan) (s : State) : (choosePlane ch s).seq = { s.seq with pch := ch, psize := planeSize s ch } := rfl
@[simp] theorem choosePlane_src (ch : Chan) (s : State) : (choosePlane ch s).src = s.src := rfl
@[simp] theorem choosePlane_mid (ch : Chan) (s : State) : (choosePlane ch s).mid = s.mid := rfl
@[simp] theorem choosePlane_plane (ch : Chan) (s : State) : (choosePlane ch s).plane = s.plane := rfl
@[simp] theorem choosePlane_pix (ch : Chan) (s : State) : (choosePlane ch s).pix = s.pix := rfl
@[simp] theorem choosePlane_stage (ch : Chan) (s : State) : (choosePlane ch s).stage = s.stage := rfl
@[simp] theorem choosePlane_grain (ch : Chan) (s : State) : (choosePlane ch s).grain = s.grain := rfl
@[simp] theorem choosePlane_host (ch : Chan) (s : State) : (choosePlane ch s).host = s.host := rfl
@[simp] theorem choosePlane_caps (ch : Chan) (s : State) : (choosePlane ch s).caps = s.caps := rfl
@[simp] theorem choosePlane_latched (ch : Chan) (s : State) : (choosePlane ch s).latched = s.latched := rfl

/-! ## planeInit -/

@[simp] theorem planeInit_status (s : State) : (planeInit s).status = s.status := rfl
@[simp] theorem planeInit_trunc (s : State) : (planeInit s).trunc = s.trunc := rfl
@[simp] theorem planeInit_err (s : State) : (planeInit s).err = s.err := rfl
@[simp] theorem planeInit_hdr (s : State) : (planeInit s).hdr = s.hdr := rfl
@[simp] theorem planeInit_drv (s : State) : (planeInit s).drv = s.drv := rfl
@[simp] theorem planeInit_sub (s : State) : (planeInit s).sub = s.sub := rfl
@[simp] theorem planeInit_br (s : State) : (planeInit s).br = s.br := rfl
@[simp] theorem planeInit_hsw (s : State) : (planeInit s).hsw = s.hsw := rfl
@[simp] theorem planeInit_htb (s : State) : (planeInit s).htb = s.htb := rfl
@[simp] theorem planeInit_freqs (s : State) : (planeInit s).freqs = s.freqs := rfl
@[simp] theorem planeInit_rle (s : State) : (planeInit s).rle = s.rle := rfl
@[simp] theorem planeInit_lz (s : State) : (planeInit s).lz = s.lz := rfl
@[simp] theorem planeInit_seq (s : State) : (planeInit s).seq = s.seq := rfl
@[simp] theorem planeInit_src (s : State) : (planeInit s).src = s.src := rfl
@[simp] theorem planeInit_mid (s : State) : (planeInit s).mid = s.mid := rfl
@[simp] theorem planeInit_plane (s : State) : (planeInit s).plane = Memory.filled s.drv.n := rfl
@[simp] theorem planeInit_pix (s : State) : (planeInit s).pix = s.pix := rfl
@[simp] theorem planeInit_stage (s : State) : (planeInit s).stage = s.stage := rfl
@[simp] theorem planeInit_grain (s : State) : (planeInit s).grain = s.grain := rfl
@[simp] theorem planeInit_host (s : State) : (planeInit s).host = s.host := rfl
@[simp] theorem planeInit_caps (s : State) : (planeInit s).caps = s.caps := rfl
@[simp] theorem planeInit_latched (s : State) : (planeInit s).latched = s.latched := rfl

/-! ## planAdvance -/

@[simp] theorem planAdvance_status (s : State) : (planAdvance s).status = s.status := rfl
@[simp] theorem planAdvance_trunc (s : State) : (planAdvance s).trunc = s.trunc := rfl
@[simp] theorem planAdvance_err (s : State) : (planAdvance s).err = s.err := rfl
@[simp] theorem planAdvance_hdr (s : State) : (planAdvance s).hdr = s.hdr := rfl
@[simp] theorem planAdvance_drv (s : State) : (planAdvance s).drv = s.drv := rfl
@[simp] theorem planAdvance_sub (s : State) : (planAdvance s).sub = s.sub := rfl
@[simp] theorem planAdvance_br (s : State) : (planAdvance s).br = s.br := rfl
@[simp] theorem planAdvance_hsw (s : State) : (planAdvance s).hsw = s.hsw := rfl
@[simp] theorem planAdvance_htb (s : State) : (planAdvance s).htb = s.htb := rfl
@[simp] theorem planAdvance_freqs (s : State) : (planAdvance s).freqs = s.freqs := rfl
@[simp] theorem planAdvance_rle (s : State) : (planAdvance s).rle = s.rle := rfl
@[simp] theorem planAdvance_lz (s : State) : (planAdvance s).lz = s.lz := rfl
@[simp] theorem planAdvance_seq (s : State) : (planAdvance s).seq = { s.seq with poff := s.seq.poff + s.seq.psize } := rfl
@[simp] theorem planAdvance_src (s : State) : (planAdvance s).src = s.src := rfl
@[simp] theorem planAdvance_mid (s : State) : (planAdvance s).mid = s.mid := rfl
@[simp] theorem planAdvance_plane (s : State) : (planAdvance s).plane = s.plane := rfl
@[simp] theorem planAdvance_pix (s : State) : (planAdvance s).pix = s.pix := rfl
@[simp] theorem planAdvance_stage (s : State) : (planAdvance s).stage = s.stage := rfl
@[simp] theorem planAdvance_grain (s : State) : (planAdvance s).grain = s.grain := rfl
@[simp] theorem planAdvance_host (s : State) : (planAdvance s).host = s.host := rfl
@[simp] theorem planAdvance_caps (s : State) : (planAdvance s).caps = s.caps := rfl
@[simp] theorem planAdvance_latched (s : State) : (planAdvance s).latched = s.latched := rfl

/-! ## atStage -/

@[simp] theorem atStage_status (x : Stage) (s : State) : (atStage x s).status = s.status := rfl
@[simp] theorem atStage_trunc (x : Stage) (s : State) : (atStage x s).trunc = s.trunc := rfl
@[simp] theorem atStage_err (x : Stage) (s : State) : (atStage x s).err = s.err := rfl
@[simp] theorem atStage_hdr (x : Stage) (s : State) : (atStage x s).hdr = s.hdr := rfl
@[simp] theorem atStage_drv (x : Stage) (s : State) : (atStage x s).drv = s.drv := rfl
@[simp] theorem atStage_sub (x : Stage) (s : State) : (atStage x s).sub = s.sub := rfl
@[simp] theorem atStage_br (x : Stage) (s : State) : (atStage x s).br = s.br := rfl
@[simp] theorem atStage_hsw (x : Stage) (s : State) : (atStage x s).hsw = s.hsw := rfl
@[simp] theorem atStage_htb (x : Stage) (s : State) : (atStage x s).htb = s.htb := rfl
@[simp] theorem atStage_freqs (x : Stage) (s : State) : (atStage x s).freqs = s.freqs := rfl
@[simp] theorem atStage_rle (x : Stage) (s : State) : (atStage x s).rle = s.rle := rfl
@[simp] theorem atStage_lz (x : Stage) (s : State) : (atStage x s).lz = s.lz := rfl
@[simp] theorem atStage_seq (x : Stage) (s : State) : (atStage x s).seq = s.seq := rfl
@[simp] theorem atStage_src (x : Stage) (s : State) : (atStage x s).src = s.src := rfl
@[simp] theorem atStage_mid (x : Stage) (s : State) : (atStage x s).mid = s.mid := rfl
@[simp] theorem atStage_plane (x : Stage) (s : State) : (atStage x s).plane = s.plane := rfl
@[simp] theorem atStage_pix (x : Stage) (s : State) : (atStage x s).pix = s.pix := rfl
@[simp] theorem atStage_stage (x : Stage) (s : State) : (atStage x s).stage = x := rfl
@[simp] theorem atStage_grain (x : Stage) (s : State) : (atStage x s).grain = s.grain := rfl
@[simp] theorem atStage_host (x : Stage) (s : State) : (atStage x s).host = s.host := rfl
@[simp] theorem atStage_caps (x : Stage) (s : State) : (atStage x s).caps = s.caps := rfl
@[simp] theorem atStage_latched (x : Stage) (s : State) : (atStage x s).latched = s.latched := rfl

/-! ## walkReturn -/

@[simp] theorem walkReturn_status (s : State) : (walkReturn s).status = s.status := by rw [walkReturn_rest]
@[simp] theorem walkReturn_trunc (s : State) : (walkReturn s).trunc = s.trunc := by rw [walkReturn_rest]
@[simp] theorem walkReturn_err (s : State) : (walkReturn s).err = s.err := by rw [walkReturn_rest]
@[simp] theorem walkReturn_hdr (s : State) : (walkReturn s).hdr = s.hdr := by rw [walkReturn_rest]
@[simp] theorem walkReturn_drv (s : State) : (walkReturn s).drv = s.drv := by rw [walkReturn_rest]
@[simp] theorem walkReturn_sub (s : State) : (walkReturn s).sub = s.sub := by rw [walkReturn_rest]
@[simp] theorem walkReturn_br (s : State) : (walkReturn s).br = s.br := by rw [walkReturn_rest]
@[simp] theorem walkReturn_htb (s : State) : (walkReturn s).htb = s.htb := by rw [walkReturn_rest]
@[simp] theorem walkReturn_freqs (s : State) : (walkReturn s).freqs = s.freqs := by rw [walkReturn_rest]
@[simp] theorem walkReturn_rle (s : State) : (walkReturn s).rle = s.rle := by rw [walkReturn_rest]
@[simp] theorem walkReturn_lz (s : State) : (walkReturn s).lz = s.lz := by rw [walkReturn_rest]
@[simp] theorem walkReturn_seq (s : State) : (walkReturn s).seq = s.seq := by rw [walkReturn_rest]
@[simp] theorem walkReturn_src (s : State) : (walkReturn s).src = s.src := by rw [walkReturn_rest]
@[simp] theorem walkReturn_mid (s : State) : (walkReturn s).mid = s.mid := by rw [walkReturn_rest]
@[simp] theorem walkReturn_plane (s : State) : (walkReturn s).plane = s.plane := by rw [walkReturn_rest]
@[simp] theorem walkReturn_pix (s : State) : (walkReturn s).pix = s.pix := by rw [walkReturn_rest]
@[simp] theorem walkReturn_stage (s : State) : (walkReturn s).stage = s.stage := by rw [walkReturn_rest]
@[simp] theorem walkReturn_grain (s : State) : (walkReturn s).grain = s.grain := by rw [walkReturn_rest]
@[simp] theorem walkReturn_host (s : State) : (walkReturn s).host = s.host := by rw [walkReturn_rest]
@[simp] theorem walkReturn_caps (s : State) : (walkReturn s).caps = s.caps := by rw [walkReturn_rest]
@[simp] theorem walkReturn_latched (s : State) : (walkReturn s).latched = s.latched := by rw [walkReturn_rest]
@[simp] theorem walkReturn_root (s : State) : (walkReturn s).hsw.root = s.hsw.root := by rw [walkReturn_rest]
@[simp] theorem walkReturn_hprod (s : State) : (walkReturn s).hsw.hprod = s.hsw.hprod := by rw [walkReturn_rest]

/-! ## hufEnd -/

@[simp] theorem hufEnd_status (s : State) : (hufEnd s).status = s.status := by unfold hufEnd; split <;> rfl
@[simp] theorem hufEnd_trunc (s : State) : (hufEnd s).trunc = if s.hsw.hprod < hlenOf s.sub then s.trunc ||| (1#8 <<< truncIndex s.seq.pch 1) else s.trunc := by unfold hufEnd; split <;> rfl
@[simp] theorem hufEnd_err (s : State) : (hufEnd s).err = s.err := by unfold hufEnd; split <;> rfl
@[simp] theorem hufEnd_hdr (s : State) : (hufEnd s).hdr = s.hdr := by unfold hufEnd; split <;> rfl
@[simp] theorem hufEnd_drv (s : State) : (hufEnd s).drv = s.drv := by unfold hufEnd; split <;> rfl
@[simp] theorem hufEnd_sub (s : State) : (hufEnd s).sub = s.sub := by unfold hufEnd; split <;> rfl
@[simp] theorem hufEnd_br (s : State) : (hufEnd s).br = s.br := by unfold hufEnd; split <;> rfl
@[simp] theorem hufEnd_hsw (s : State) : (hufEnd s).hsw = s.hsw := by unfold hufEnd; split <;> rfl
@[simp] theorem hufEnd_htb (s : State) : (hufEnd s).htb = s.htb := by unfold hufEnd; split <;> rfl
@[simp] theorem hufEnd_freqs (s : State) : (hufEnd s).freqs = s.freqs := by unfold hufEnd; split <;> rfl
@[simp] theorem hufEnd_rle (s : State) : (hufEnd s).rle = s.rle := by unfold hufEnd; split <;> rfl
@[simp] theorem hufEnd_lz (s : State) : (hufEnd s).lz = s.lz := by unfold hufEnd; split <;> rfl
@[simp] theorem hufEnd_seq (s : State) : (hufEnd s).seq = s.seq := by unfold hufEnd; split <;> rfl
@[simp] theorem hufEnd_src (s : State) : (hufEnd s).src = s.src := by unfold hufEnd; split <;> rfl
@[simp] theorem hufEnd_mid (s : State) : (hufEnd s).mid = s.mid := by unfold hufEnd; split <;> rfl
@[simp] theorem hufEnd_plane (s : State) : (hufEnd s).plane = s.plane := by unfold hufEnd; split <;> rfl
@[simp] theorem hufEnd_pix (s : State) : (hufEnd s).pix = s.pix := by unfold hufEnd; split <;> rfl
@[simp] theorem hufEnd_stage (s : State) : (hufEnd s).stage = s.stage := by unfold hufEnd; split <;> rfl
@[simp] theorem hufEnd_grain (s : State) : (hufEnd s).grain = s.grain := by unfold hufEnd; split <;> rfl
@[simp] theorem hufEnd_host (s : State) : (hufEnd s).host = s.host := by unfold hufEnd; split <;> rfl
@[simp] theorem hufEnd_caps (s : State) : (hufEnd s).caps = s.caps := by unfold hufEnd; split <;> rfl
@[simp] theorem hufEnd_latched (s : State) : (hufEnd s).latched = s.latched := by unfold hufEnd; split <;> rfl

/-! ## rleEnd -/

@[simp] theorem rleEnd_status (s : State) : (rleEnd s).status = s.status := by unfold rleEnd; split <;> rfl
@[simp] theorem rleEnd_trunc (s : State) : (rleEnd s).trunc = if s.rle.rdp < s.rle.rdstb then s.trunc ||| (1#8 <<< truncIndex s.seq.pch 2) else s.trunc := by unfold rleEnd; split <;> rfl
@[simp] theorem rleEnd_err (s : State) : (rleEnd s).err = s.err := by unfold rleEnd; split <;> rfl
@[simp] theorem rleEnd_hdr (s : State) : (rleEnd s).hdr = s.hdr := by unfold rleEnd; split <;> rfl
@[simp] theorem rleEnd_drv (s : State) : (rleEnd s).drv = s.drv := by unfold rleEnd; split <;> rfl
@[simp] theorem rleEnd_sub (s : State) : (rleEnd s).sub = s.sub := by unfold rleEnd; split <;> rfl
@[simp] theorem rleEnd_br (s : State) : (rleEnd s).br = s.br := by unfold rleEnd; split <;> rfl
@[simp] theorem rleEnd_hsw (s : State) : (rleEnd s).hsw = s.hsw := by unfold rleEnd; split <;> rfl
@[simp] theorem rleEnd_htb (s : State) : (rleEnd s).htb = s.htb := by unfold rleEnd; split <;> rfl
@[simp] theorem rleEnd_freqs (s : State) : (rleEnd s).freqs = s.freqs := by unfold rleEnd; split <;> rfl
@[simp] theorem rleEnd_rle (s : State) : (rleEnd s).rle = s.rle := by unfold rleEnd; split <;> rfl
@[simp] theorem rleEnd_lz (s : State) : (rleEnd s).lz = s.lz := by unfold rleEnd; split <;> rfl
@[simp] theorem rleEnd_seq (s : State) : (rleEnd s).seq = s.seq := by unfold rleEnd; split <;> rfl
@[simp] theorem rleEnd_src (s : State) : (rleEnd s).src = s.src := by unfold rleEnd; split <;> rfl
@[simp] theorem rleEnd_mid (s : State) : (rleEnd s).mid = s.mid := by unfold rleEnd; split <;> rfl
@[simp] theorem rleEnd_plane (s : State) : (rleEnd s).plane = s.plane := by unfold rleEnd; split <;> rfl
@[simp] theorem rleEnd_pix (s : State) : (rleEnd s).pix = s.pix := by unfold rleEnd; split <;> rfl
@[simp] theorem rleEnd_stage (s : State) : (rleEnd s).stage = s.stage := by unfold rleEnd; split <;> rfl
@[simp] theorem rleEnd_grain (s : State) : (rleEnd s).grain = s.grain := by unfold rleEnd; split <;> rfl
@[simp] theorem rleEnd_host (s : State) : (rleEnd s).host = s.host := by unfold rleEnd; split <;> rfl
@[simp] theorem rleEnd_caps (s : State) : (rleEnd s).caps = s.caps := by unfold rleEnd; split <;> rfl
@[simp] theorem rleEnd_latched (s : State) : (rleEnd s).latched = s.latched := by unfold rleEnd; split <;> rfl

/-! ## lzEnd -/

@[simp] theorem lzEnd_status (s : State) : (lzEnd s).status = s.status := by unfold lzEnd; split <;> rfl
@[simp] theorem lzEnd_trunc (s : State) : (lzEnd s).trunc = if s.lz.ldp < s.lz.ldstb then s.trunc ||| (1#8 <<< truncIndex s.seq.pch 2) else s.trunc := by unfold lzEnd; split <;> rfl
@[simp] theorem lzEnd_err (s : State) : (lzEnd s).err = s.err := by unfold lzEnd; split <;> rfl
@[simp] theorem lzEnd_hdr (s : State) : (lzEnd s).hdr = s.hdr := by unfold lzEnd; split <;> rfl
@[simp] theorem lzEnd_drv (s : State) : (lzEnd s).drv = s.drv := by unfold lzEnd; split <;> rfl
@[simp] theorem lzEnd_sub (s : State) : (lzEnd s).sub = s.sub := by unfold lzEnd; split <;> rfl
@[simp] theorem lzEnd_br (s : State) : (lzEnd s).br = s.br := by unfold lzEnd; split <;> rfl
@[simp] theorem lzEnd_hsw (s : State) : (lzEnd s).hsw = s.hsw := by unfold lzEnd; split <;> rfl
@[simp] theorem lzEnd_htb (s : State) : (lzEnd s).htb = s.htb := by unfold lzEnd; split <;> rfl
@[simp] theorem lzEnd_freqs (s : State) : (lzEnd s).freqs = s.freqs := by unfold lzEnd; split <;> rfl
@[simp] theorem lzEnd_rle (s : State) : (lzEnd s).rle = s.rle := by unfold lzEnd; split <;> rfl
@[simp] theorem lzEnd_lz (s : State) : (lzEnd s).lz = s.lz := by unfold lzEnd; split <;> rfl
@[simp] theorem lzEnd_seq (s : State) : (lzEnd s).seq = s.seq := by unfold lzEnd; split <;> rfl
@[simp] theorem lzEnd_src (s : State) : (lzEnd s).src = s.src := by unfold lzEnd; split <;> rfl
@[simp] theorem lzEnd_mid (s : State) : (lzEnd s).mid = s.mid := by unfold lzEnd; split <;> rfl
@[simp] theorem lzEnd_plane (s : State) : (lzEnd s).plane = s.plane := by unfold lzEnd; split <;> rfl
@[simp] theorem lzEnd_pix (s : State) : (lzEnd s).pix = s.pix := by unfold lzEnd; split <;> rfl
@[simp] theorem lzEnd_stage (s : State) : (lzEnd s).stage = s.stage := by unfold lzEnd; split <;> rfl
@[simp] theorem lzEnd_grain (s : State) : (lzEnd s).grain = s.grain := by unfold lzEnd; split <;> rfl
@[simp] theorem lzEnd_host (s : State) : (lzEnd s).host = s.host := by unfold lzEnd; split <;> rfl
@[simp] theorem lzEnd_caps (s : State) : (lzEnd s).caps = s.caps := by unfold lzEnd; split <;> rfl
@[simp] theorem lzEnd_latched (s : State) : (lzEnd s).latched = s.latched := by unfold lzEnd; split <;> rfl

/-! ## setSpace -/

@[simp] theorem setSpace_status (s : State) (sp : SpaceId) (m : Memory) : (s.setSpace sp m).status = s.status := by cases sp <;> rfl
@[simp] theorem setSpace_trunc (s : State) (sp : SpaceId) (m : Memory) : (s.setSpace sp m).trunc = s.trunc := by cases sp <;> rfl
@[simp] theorem setSpace_err (s : State) (sp : SpaceId) (m : Memory) : (s.setSpace sp m).err = s.err := by cases sp <;> rfl
@[simp] theorem setSpace_hdr (s : State) (sp : SpaceId) (m : Memory) : (s.setSpace sp m).hdr = s.hdr := by cases sp <;> rfl
@[simp] theorem setSpace_drv (s : State) (sp : SpaceId) (m : Memory) : (s.setSpace sp m).drv = s.drv := by cases sp <;> rfl
@[simp] theorem setSpace_sub (s : State) (sp : SpaceId) (m : Memory) : (s.setSpace sp m).sub = s.sub := by cases sp <;> rfl
@[simp] theorem setSpace_br (s : State) (sp : SpaceId) (m : Memory) : (s.setSpace sp m).br = s.br := by cases sp <;> rfl
@[simp] theorem setSpace_hsw (s : State) (sp : SpaceId) (m : Memory) : (s.setSpace sp m).hsw = s.hsw := by cases sp <;> rfl
@[simp] theorem setSpace_htb (s : State) (sp : SpaceId) (m : Memory) : (s.setSpace sp m).htb = s.htb := by cases sp <;> rfl
@[simp] theorem setSpace_freqs (s : State) (sp : SpaceId) (m : Memory) : (s.setSpace sp m).freqs = s.freqs := by cases sp <;> rfl
@[simp] theorem setSpace_rle (s : State) (sp : SpaceId) (m : Memory) : (s.setSpace sp m).rle = s.rle := by cases sp <;> rfl
@[simp] theorem setSpace_lz (s : State) (sp : SpaceId) (m : Memory) : (s.setSpace sp m).lz = s.lz := by cases sp <;> rfl
@[simp] theorem setSpace_seq (s : State) (sp : SpaceId) (m : Memory) : (s.setSpace sp m).seq = s.seq := by cases sp <;> rfl
@[simp] theorem setSpace_stage (s : State) (sp : SpaceId) (m : Memory) : (s.setSpace sp m).stage = s.stage := by cases sp <;> rfl
@[simp] theorem setSpace_grain (s : State) (sp : SpaceId) (m : Memory) : (s.setSpace sp m).grain = s.grain := by cases sp <;> rfl
@[simp] theorem setSpace_host (s : State) (sp : SpaceId) (m : Memory) : (s.setSpace sp m).host = s.host := by cases sp <;> rfl
@[simp] theorem setSpace_caps (s : State) (sp : SpaceId) (m : Memory) : (s.setSpace sp m).caps = s.caps := by cases sp <;> rfl
@[simp] theorem setSpace_latched (s : State) (sp : SpaceId) (m : Memory) : (s.setSpace sp m).latched = s.latched := by cases sp <;> rfl

@[simp] theorem setSpace_space (s : State) (sp sp' : SpaceId) (m : Memory) :
    (s.setSpace sp m).space sp' = if sp' = sp then m else s.space sp' := by cases sp <;> cases sp' <;> rfl

@[simp] theorem setSpace_setSpace (s : State) (sp : SpaceId) (m m' : Memory) :
    (s.setSpace sp m).setSpace sp m' = s.setSpace sp m' := by cases sp <;> rfl

@[simp] theorem setSpace_same (s : State) (sp : SpaceId) : s.setSpace sp (s.space sp) = s := by cases sp <;> rfl

@[simp] theorem runSpace_ne_plane (x : RunSource) : runSpace x ≠ .plane := by cases x <;> simp [runSpace]

@[simp] theorem space_src (s : State) : s.space .src = s.src := rfl
@[simp] theorem space_mid (s : State) : s.space .mid = s.mid := rfl
@[simp] theorem space_plane (s : State) : s.space .plane = s.plane := rfl
@[simp] theorem space_pix (s : State) : s.space .pix = s.pix := rfl
@[simp] theorem setSpace_plane_eq (s : State) (m : Memory) : s.setSpace .plane m = { s with plane := m } := rfl
@[simp] theorem setSpace_mid_eq (s : State) (m : Memory) : s.setSpace .mid m = { s with mid := m } := rfl
@[simp] theorem setSpace_pix_eq (s : State) (m : Memory) : s.setSpace .pix m = { s with pix := m } := rfl

end Sys2Proof.Machine
end

