-- ==== Sys2Proof/Laws/Step.lean ====
section
/-! SUPPORT. What one step can do: the host's move, or the engine's instruction, or the sequencer's move. -/

namespace Sys2Proof.Machine

/-- A fetch that decodes answers the decoder's instruction. -/
theorem fetchDecoded_instr {space : CodeSpace} {special : Byte} {bs : List Byte} {after x : Stage} {m : SeqMove}
    {i : Instr} (h : fetchDecoded space special bs after m = .instr i x) :
    x = after ∧ ∃ n, decode space special bs = .ok i n := by
  unfold fetchDecoded at h
  split at h
  · rename_i i' n hd
    cases h
    exact ⟨rfl, n, hd⟩
  · cases h

theorem fetchBytes_instr {space : CodeSpace} {special : Byte} {sp : SpaceId} {a n : Nat} {after x : Stage} {m : SeqMove}
    {s : State} {i : Instr} (h : fetchBytes space special sp a n after m s = .instr i x) :
    x = after ∧ ∃ bs k, s.bytesAt sp a n = some bs ∧ decode space special bs = .ok i k := by
  unfold fetchBytes at h
  split at h
  · cases h
  · rename_i bs hb
    obtain ⟨h1, k, h2⟩ := fetchDecoded_instr h
    exact ⟨h1, bs, k, hb, h2⟩

/-- No decoder reads a host command (R230). -/
theorem decode_notHost {space : CodeSpace} {special : Byte} {bs : List Byte} {i : Instr} {n : Nat}
    (h : decode space special bs = .ok i n) : (∀ b, i ≠ .load b) ∧ i ≠ .start ∧ i ≠ .reset ∧ i ≠ .seqDecode := by
  cases space with
  | lt =>
    rcases decodeToken_ok h with ⟨b, rest, -, -, rfl, -⟩ | ⟨rest, -, rfl, -⟩ | ⟨o, cnt, rest, -, -, rfl, -⟩ <;> simp
  | rc =>
    simp only [decode] at h
    split at h
    · cases h
    · cases h
      unfold decodeRun
      split
      · simp
      · split <;> simp
  | hb =>
    simp only [decode] at h
    split at h
    · cases h
    · cases h
      unfold decodeBit
      split <;> simp
  | format =>
    simp only [decode] at h
    split at h
    · cases h
    · unfold decodeFormat at h
      split at h
      · cases h; simp
      · split at h
        · cases h; simp
        · cases h
  | variant =>
    simp only [decode] at h
    split at h
    · cases h
    · unfold decodeVariant at h
      split at h
      · cases h; simp
      · split at h
        · cases h; simp
        · split at h
          · cases h; simp
          · cases h
  | bpp =>
    simp only [decode] at h
    split at h
    · unfold decodeBpp at h
      split at h
      · cases h; simp
      · split at h
        · cases h; simp
        · cases h
    · cases h
  | ch =>
    simp only [decode] at h
    split at h
    · cases h
    · cases h; simp
  | sh =>
    simp only [decode] at h
    split at h
    · cases h
    · cases h; simp
  | lh =>
    simp only [decode] at h
    split at h
    · cases h
    · cases h; simp

/-- The engine never issues a host command, and after every instruction but the whole command the sequencer has a
position (R27, R121). -/
theorem fetch_instr {s : State} {i : Instr} {after : Stage} (h : fetch s = .instr i after) :
    (∀ b, i ≠ .load b) ∧ i ≠ .start ∧ i ≠ .reset ∧ (i = .seqDecode ∨ after ≠ .idle) := by
  have hd : ∀ {space special bs x y m}, fetchDecoded space special bs x m = .instr i y → x ≠ .idle →
      (∀ b, i ≠ .load b) ∧ i ≠ .start ∧ i ≠ .reset ∧ (i = .seqDecode ∨ y ≠ .idle) := by
    intro space special bs x y m h hx
    obtain ⟨rfl, n, hn⟩ := fetchDecoded_instr h
    obtain ⟨a, b, c, -⟩ := decode_notHost hn
    exact ⟨a, b, c, .inr hx⟩
  have hb : ∀ {space special sp a n x y m}, fetchBytes space special sp a n x m s = .instr i y → x ≠ .idle →
      (∀ b, i ≠ .load b) ∧ i ≠ .start ∧ i ≠ .reset ∧ (i = .seqDecode ∨ y ≠ .idle) := by
    intro space special sp a n x y m h hx
    obtain ⟨rfl, bs, k, -, hn⟩ := fetchBytes_instr h
    obtain ⟨a, b, c, -⟩ := decode_notHost hn
    exact ⟨a, b, c, .inr hx⟩
  unfold fetch at h
  split at h
  · cases h
  · split at h
    · cases h; simp
    · split at h
      · cases h
      · exact hb h (by simp)
  · exact hd h (by simp)
  · cases h
  · exact hd h (by simp)
  · cases h
  · cases h
  · split at h
    · exact hd h (by simp)
    · cases h
  · split at h
    · cases h
    · exact hb h (by simp)
  · cases h; simp
  · split at h
    · cases h
    · cases h; simp
  · unfold fetchWalk at h
    split at h
    · split at h
      · cases h; simp
      · split at h
        · cases h
        · split at h
          · cases h
          · exact hd h (by simp)
    · cases h
  · split at h
    · split at h
      · exact hd h (by simp)
      · cases h; simp
    · split at h
      · cases h
      · cases h; simp
  · split at h
    · exact hb h (by simp)
    · cases h
  · split at h
    · exact hb h (by simp)
    · cases h
  · cases h; simp
  · cases h

/-- What a move of the sequencer can do: it goes on at some position, with everything else kept as `Goes` keeps it, or
ends the command (R27, R216). -/
theorem runMove_post (m : SeqMove) (s : State) (hs : s.stage ≠ .idle) :
    (runMove m s).Post (fun t => ∃ u x, Goes s u ∧ x ≠ .idle ∧ t = atStage x u) (Ends s) fun _ => True := by
  have at' : ∀ {u : State} {x : Stage}, Goes s u → x ≠ .idle → ∃ v y, Goes s v ∧ y ≠ Stage.idle ∧ atStage x u = atStage y v :=
    fun {u x} h1 h2 => ⟨u, x, h1, h2, rfl⟩
  cases m with
  | reject => exact (reject_sound s).mono (fun _ h => ⟨_, _, h, hs, by rw [← h.stage]; rfl⟩) (fun _ h => h) fun _ _ => trivial
  | badSubHeader =>
    exact (raise_sound _ (by decide) _ _ s).mono (fun _ h => ⟨_, _, h, hs, by rw [← h.stage]; rfl⟩) (fun _ h => h)
      fun _ _ => trivial
  | check =>
    refine Flow.Post.andThen (G := Goes s) (Flow.Sound.andThen (Flow.Sound.andThen (checkSelectors_sound s)
      checkSizes_sound) geometry_sound) fun t ht => at' ht (by simp)
  | plan => exact at' (planStart_goes s) (by simp)
  | select ch =>
    simp only [runMove]
    split
    · exact at' ((choosePlane_goes ch s).trans (planeInit_goes _)) (by simp)
    · exact at' (choosePlane_goes ch s) (by simp)
  | policy => exact at' (Goes.refl s) (by split <;> simp)
  | hufInit => exact at' (hufInit_goes s) (by simp)
  | hufEnd => exact at' ((walkReturn_goes s).trans (hufEnd_goes _)) (by simp)
  | rleInit => exact at' (rleInit_goes _ _ _ s) (by simp)
  | rleEnd => exact at' (rleEnd_goes s) (by simp)
  | lzCut =>
    refine withBytes_post (fun bs _ => ?_) fun _ => trivial
    have hg : Goes s (lzCut bs s) := by
      rcases bs with - | ⟨b, - | ⟨o, rest⟩⟩
      · exact Goes.refl s
      · exact ⟨⟨rfl, rfl, rfl, rfl, fun _ h => h, id, id, id⟩, rfl, rfl, rfl⟩
      · exact ⟨⟨rfl, rfl, rfl, rfl, fun _ h => h, id, id, id⟩, rfl, rfl, rfl⟩
    exact ⟨_, _, hg, hs, by rw [← hg.stage]; rfl⟩
  | lzEnd => exact at' (lzEnd_goes s) (by simp)
  | advance =>
    simp only [runMove]
    split
    · exact (Flow.Sound.after (planAdvance_goes s) (finish_sound _)).mono
        (fun _ h => ⟨_, _, h, hs, by rw [← h.stage]; rfl⟩) (fun _ h => h) fun _ _ => trivial
    · exact at' (planAdvance_goes s) (by simp)

/-- What one turn of the engine can do. -/
theorem engineStep_cases {s t : State} (h : engineStep s = .next t) :
    ((s.status ≠ .busy ∨ s.stage = .idle) ∧ t = s) ∨
    (s.status = .busy ∧ ∃ i after u, fetch s = .instr i after ∧ exec i s = .next u ∧
      t = if u.status = .busy then atStage after u else u) ∨
    (s.status = .busy ∧ ∃ m, fetch s = .move m ∧ (runMove m s).toOutcome = .next t) := by
  unfold engineStep at h
  split at h
  · rename_i hb
    split at h
    · rename_i i after hf
      unfold settle at h
      split at h
      · rename_i u hu
        cases h
        exact .inr (.inl ⟨hb, i, after, u, hf, hu, rfl⟩)
      · cases h
      · cases h
    · rename_i m hf
      exact .inr (.inr ⟨hb, m, hf, h⟩)
    · cases h
    · rename_i hf
      cases h
      refine .inl ⟨.inr ?_, rfl⟩
      unfold fetch at hf
      have nd : ∀ {space special bs x m}, fetchDecoded space special bs x m ≠ .idle := by
        intro space special bs x m e; unfold fetchDecoded at e; split at e <;> cases e
      have nb : ∀ {space special sp a n x m}, fetchBytes space special sp a n x m s ≠ .idle := by
        intro space special sp a n x m e
        unfold fetchBytes at e
        split at e
        · cases e
        · exact nd e
      split at hf
      · assumption
      · split at hf
        · cases hf
        · split at hf
          · cases hf
          · exact (nb hf).elim
      · exact (nd hf).elim
      · cases hf
      · exact (nd hf).elim
      · cases hf
      · cases hf
      · split at hf
        · exact (nd hf).elim
        · cases hf
      · split at hf
        · cases hf
        · exact (nb hf).elim
      · cases hf
      · split at hf <;> cases hf
      · unfold fetchWalk at hf
        split at hf
        · split at hf
          · cases hf
          · split at hf
            · cases hf
            · split at hf
              · cases hf
              · exact (nd hf).elim
        · cases hf
      · split at hf
        · split at hf
          · exact (nd hf).elim
          · cases hf
        · split at hf <;> cases hf
      · split at hf
        · exact (nb hf).elim
        · cases hf
      · split at hf
        · exact (nb hf).elim
        · cases hf
      · cases hf
      · cases hf
  · rename_i hb
    cases h
    exact .inl ⟨.inl hb, rfl⟩

/-- What one step can do: a turn of the engine (the host waiting or still waiting), or one move of the host (R230). -/
theorem step_cases {s t : State} (h : step s = .next t) :
    (∃ rest, engineStep { s with host := rest } = .next t) ∨
    (∃ i rest, (i = .reset ∨ (s.status ≠ .busy ∧ (i = .start ∨ ∃ bs, i = .load bs))) ∧
      exec i { s with host := rest } = .next t) := by
  unfold step machineStep at h
  split at h
  · exact .inl ⟨s.host, h⟩
  · rename_i rest _
    exact .inl ⟨rest, h⟩
  · rename_i rest _
    exact .inr ⟨_, rest, .inl rfl, h⟩
  · rename_i bs rest _
    split at h
    · exact .inl ⟨s.host, h⟩
    · exact .inr ⟨_, rest, .inr ⟨‹_›, .inr ⟨bs, rfl⟩⟩, h⟩
  · rename_i rest _
    split at h
    · exact .inl ⟨s.host, h⟩
    · exact .inr ⟨_, rest, .inr ⟨‹_›, .inl rfl⟩, h⟩

/-- With no move of the host due a step is a turn of the engine (R20, R230). -/
theorem step_of_noMoveDue {s : State} (h : NoMoveDue s) : step s = engineStep s := by
  unfold step machineStep
  rcases h with h | ⟨hb, rest, h | ⟨bs, h⟩⟩ <;> rw [h]
  · exact if_pos hb
  · exact if_pos hb

/-- A turn of the engine leaves the host's coming moves alone (R230). -/
theorem engineStep_host {s t : State} (h : engineStep s = .next t) : t.host = s.host := by
  rcases engineStep_cases h with ⟨-, rfl⟩ | ⟨-, i, after, u, hf, hu, rfl⟩ | ⟨-, m, hf, hm⟩
  · rfl
  · obtain ⟨a, b, c, -⟩ := fetch_instr hf
    have : u.host = s.host := (exec_keeps i s u a b c hu).elim (fun g => g.host) fun e => e.host
    split <;> exact this
  · by_cases hi : s.stage = .idle
    · unfold fetch at hf; rw [hi] at hf; cases hf
    · exact Flow.Post.next (P := fun t => t.host = s.host) ((runMove_post m s hi).mono
        (fun t ⟨u, x, hu, _, e⟩ => by rw [e]; exact hu.host) (fun t ht => ht.host) fun _ h => h) hm

end Sys2Proof.Machine
end

