-- ==== Sys2Proof/Tests/Slice0.lean ====
section
/-! SUPPORT. The model's own tests: the well-formedness smoke tests; every constructor's decoding, from words written out
from 30_encoding.md; single steps with the results of 95_test_vectors.md; and for every obligation with hypotheses a
concrete state that meets them. -/

open Sys2Proof Sys2Proof.Machine

namespace Sys2Proof.Tests

set_option Elab.async false

/-! ## Helpers -/

/-- The next state, reset where there is none. -/
def after (x : Host.Outcome State Fault Refusal) : State :=
  match x with
  | .next s => s
  | _ => State.reset

/-- The outcome is a next state. -/
def went (x : Host.Outcome State Fault Refusal) : Bool :=
  match x with
  | .next _ => true
  | _ => false

/-- A busy engine at a position. -/
def busyAt (x : Stage) : State := { State.reset with status := .busy, stage := x }

/-- RLE before its first code: the stream in SRC, a plane of `n` cells. -/
def runState (stream : List Byte) (n : Nat) : State :=
  { busyAt .rle with
    src := Memory.ofBytes stream
    plane := Memory.filled n
    drv := { State.reset.drv with width := n, height := 1, n := n }
    rle := { State.reset.rle with rsrcb := stream.length, rdstb := n } }

/-- LZX before its first token: MID is a header with the escape byte and the payload, a plane of `n` cells. -/
def tokenState (special : Byte) (payload : List Byte) (n : Nat) : State :=
  { busyAt .lz with
    mid := Memory.ofBytes ([6, 0, 0, 0, 18, 0, 0, 0, special, 0, 0, 0] ++ payload)
    plane := Memory.filled n
    drv := { State.reset.drv with width := n, height := 1, n := n }
    sub := { State.reset.sub with hlen := BitVec.ofNat 32 (12 + payload.length) }
    lz := { State.reset.lz with special := special, llen := 12 + payload.length, lsp := 12, ldstb := n } }

/-- PIL before a placement. -/
def placeState (w h bypp : Nat) (ch : Chan) (plane : List Byte) : State :=
  { busyAt .place with
    drv := { State.reset.drv with width := w, height := h, n := w * h, bypp := bypp }
    seq := { State.reset.seq with pch := ch }
    plane := Memory.ofBytes plane
    pix := Memory.filled (w * h * bypp) }

/-- The container P1 of 95_test_vectors.md: 2 × 2, 24 bits, three REP runs. -/
def p1 : List Byte :=
  [0x01, 0x01, 0x02, 0x00, 0x02, 0x00, 0x18, 0x00, 0x00, 0x00, 0x02, 0x00, 0x00, 0x00, 0x02, 0x00,
   0x00, 0x00, 0x00, 0x00, 0x02, 0x00, 0x00, 0x00, 0x02, 0x00, 0x00, 0x00, 0x02, 0x00, 0x00, 0x00,
   0x84, 0x10, 0x84, 0x20, 0x84, 0x30]

/-- A sub-header with HLEN `n` and the one frequency f[0] = 1. -/
def subBytes (n : Byte) : List Byte := [n, 0, 0, 0, 7, 0, 0, 0, 1, 0, 0, 0] ++ List.replicate 1020 0

/-- SEQ with a plane in hand whose range is the whole of SRC. -/
def rangeState (range : List Byte) (n : Nat) : State :=
  { busyAt .policy with
    src := Memory.ofBytes range
    plane := Memory.filled n
    drv := { State.reset.drv with width := n, height := 1, n := n }
    seq := { State.reset.seq with psize := range.length } }

/-- An engine with a container loaded, a command just started. -/
def startedWith (bs : List Byte) : State := { busyAt .hdrRead with src := Memory.ofBytes bs }

/-! ## Well-formedness: an ill-formed term for each check -/

theorem test_wf_refuses_lit_of_zero : WellFormed 0x7E#8 (.lit 0#7) = false := by decide
theorem test_wf_refuses_lzlit_of_escape : WellFormed 0x7E#8 (.lzlit 0x7E#8) = false := by decide
theorem test_wf_refuses_lzcpy_of_escape : WellFormed 0x7E#8 (.lzcpy 0x7E#8 3#8) = false := by decide
theorem test_wf_accepts_the_rest :
    WellFormed 0x7E#8 (.lit 1#7) = true ∧ WellFormed 0x7E#8 (.rep 0#7) = true ∧
      WellFormed 0x7E#8 (.lzlit 0x7F#8) = true ∧ WellFormed 0x7E#8 (.lzcpy 0#8 0#8) = true := by decide

/-! ## Decoding: words written out from the spec's tables -/

theorem test_decode_nop : decode .rc 0 [0b00000000#8] = .ok .nop 1 := by decide
theorem test_decode_lit_least : decode .rc 0 [0b00000001#8] = .ok (.lit 1#7) 1 := by decide
theorem test_decode_lit_most : decode .rc 0 [0b01111111#8] = .ok (.lit 127#7) 1 := by decide
theorem test_decode_rep_least : decode .rc 0 [0b10000000#8, 0xAA#8] = .ok (.rep 0#7) 1 := by decide
theorem test_decode_rep_most : decode .rc 0 [0b11111111#8, 0x41#8] = .ok (.rep 127#7) 1 := by decide
theorem test_decode_lzlit : decode .lt 0x7E#8 [0x41#8] = .ok (.lzlit 0x41#8) 1 := by decide
theorem test_decode_lzesc : decode .lt 0x7E#8 [0x7E#8, 0x7E#8] = .ok .lzesc 2 := by decide
theorem test_decode_lzcpy : decode .lt 0x7E#8 [0x7E#8, 0x01#8, 0x03#8] = .ok (.lzcpy 0x01#8 0x03#8) 3 := by decide
theorem test_decode_token_cut : decode .lt 0x7E#8 [0x7E#8, 0x01#8] = .reject .cutShort := by decide
theorem test_decode_hb0 : decode .hb 0 [0b11111110#8] = .ok .hb0 1 := by decide
theorem test_decode_hb1 : decode .hb 0 [0b00000001#8] = .ok .hb1 1 := by decide
theorem test_decode_format1 : decode .format 0 [0b00000001#8] = .ok .format1 1 := by decide
theorem test_decode_format2 : decode .format 0 [0b00000010#8] = .ok .format2 1 := by decide
theorem test_decode_variantRle : decode .variant 0 [0b00000001#8] = .ok .variantRle 1 := by decide
theorem test_decode_variantHufRle : decode .variant 0 [0b10100001#8] = .ok .variantHufRle 1 := by decide
theorem test_decode_variantHufLz : decode .variant 0 [0b10100010#8] = .ok .variantHufLz 1 := by decide
theorem test_decode_bpp24 : decode .bpp 0 [0b00011000#8, 0b00000000#8] = .ok .bpp24 2 := by decide
theorem test_decode_bpp32 : decode .bpp 0 [0b00100000#8, 0b00000000#8] = .ok .bpp32 2 := by decide
theorem test_decode_illegal_selectors :
    decode .format 0 [3] = .reject .illegalFormat ∧ decode .variant 0 [0xA3] = .reject .illegalVariant ∧
      decode .bpp 0 [0x10, 0x00] = .reject .illegalBpp := by decide

/-- The header of P1 as 95_test_vectors.md reads it. -/
def p1Header : Header where
  format := 1
  variant := 1
  screenW := 2
  screenH := 2
  bpp := 24
  left := 0
  right := 2
  top := 0
  bottom := 2
  aSize := 0
  rSize := 2
  gSize := 2
  bSize := 2

/-- The header of P1, field by field (R100). -/
theorem test_decode_hdr :
    decode .ch 0 p1 = .ok (.hdr p1Header) 32 := by decide

/-- R105 with R60: the example of R190. -/
theorem test_decode_lzhdr :
    decode .lh 0 [0x06, 0, 0, 0, 0x12, 0, 0, 0, 0x7E, 1, 2, 3]
      = .ok (.lzhdr { word0 := 6, word1 := 18, special := 0x7E, pad := 0x030201 }) 12 := by decide

/-- The fields of a decoded sub-header that a test looks at. -/
def subFields (x : Decoded) : Option (U32 × U32 × U32 × U32 × U32 × Nat) :=
  match x with
  | .ok (.subhdr t) n => some (t.decodedLength, t.packedLength, t.freqs[0], t.freqs[1], t.freqs[255], n)
  | _ => none

/-- R102: offsets 0x000, 0x004, 0x008 + 4 × i. -/
theorem test_decode_subhdr :
    subFields (decode .sh 0 ([0xFE, 0xFF, 0xFF, 0xFF, 2, 0, 0, 0, 5, 0, 0, 0, 1, 2, 3, 4] ++ List.replicate 1012 0
      ++ [9, 0, 0, 0x80])) = some (0xFFFFFFFE, 2, 5, 0x04030201, 0x80000009, 1032) := by decide +kernel

/-- Bare table words: EMIT for the word of no bits, and one word of each width the decoder tells apart (log 3). -/
theorem test_table_words :
    decodeTableWord 0 0 = some .emit ∧ decodeTableWord 1 0 = some .hb0 ∧ decodeTableWord 1 1 = some .hb1 ∧
      decodeTableWord 8 0x00 = some .nop ∧ decodeTableWord 8 0x03 = some (.lit 3) ∧
      decodeTableWord 8 0x84 = some (.rep 4) ∧ decodeTableWord 8 1 = some .format1 ∧
      decodeTableWord 8 2 = some .format2 ∧ decodeTableWord 8 0xA1 = some .variantHufRle ∧
      decodeTableWord 8 0xA2 = some .variantHufLz ∧ decodeTableWord 16 24 = some .bpp24 ∧
      decodeTableWord 16 32 = some .bpp32 ∧ decodeTableWord 16 0x7E7E = some .lzesc ∧
      decodeTableWord 24 0x03017E = some (.lzcpy 1 3) := by decide

/-! ## Single steps: 95_test_vectors.md and the examples of the rules -/

/-- A tree of which only the two nodes of R133's example that a short walk meets are written. -/
def twoNodes : Vector Node 512 :=
  setNode (setNode State.reset.htb.node 510 { freq := 8, left := 509, right := 0 }) 509 { freq := 3, left := 508, right := 9 }

/-- HSW at the root of that tree, HLEN 2, the payload byte 06 of V-HUF-1. -/
def walkState : State :=
  { busyAt .huffWalk with
    htb := { node := twoNodes, list := [], next := 511 }
    sub := { State.reset.sub with hlen := 2 }
    seq := { State.reset.seq with psize := 0x409, pch := 2 }
    src := { len := 0x409, cells := [(0x408, 0x06#8)] }
    mid := Memory.filled 2
    br := { payBase := 0x408, payLen := 1, byteP := 0, bitI := 0 }
    hsw := { root := 510, cur := 510, hprod := 0 } }

/-- V-RLE-15: the first 00 is consumed and nothing is produced. -/
theorem test_nop : (after (exec .nop (runState [0, 0, 0x81, 0x55] 1))).rle.rsp = 1 ∧
    (after (exec .nop (runState [0, 0, 0x81, 0x55] 1))).rle.rdp = 0 := by decide

/-- V-RLE-1. -/
theorem test_lit : (after (exec (.lit 3) (runState [3, 0x11, 0x22, 0x33] 3))).plane = Memory.ofBytes [0x11, 0x22, 0x33] ∧
    (after (exec (.lit 3) (runState [3, 0x11, 0x22, 0x33] 3))).rle.rsp = 4 := by decide

/-- V-RLE-13: cut at the destination. -/
theorem test_lit_clamped : (after (exec (.lit 3) (runState [3, 0x11, 0x22, 0x33] 2))).plane = Memory.ofBytes [0x11, 0x22] ∧
    (after (exec (.lit 3) (runState [3, 0x11, 0x22, 0x33] 2))).rle.rsp = 3 := by decide

/-- V-RLE-5: cut at the destination. -/
theorem test_rep_clamped : (after (exec (.rep 4) (runState [0x84, 0xAA] 2))).plane = Memory.ofBytes [0xAA, 0xAA] ∧
    (after (exec (.rep 4) (runState [0x84, 0xAA] 2))).rle.rsp = 2 := by decide

/-- V-RLE-8: the value byte is missing. -/
theorem test_rep_missing : (after (exec (.rep 1) (runState [0x81] 3))).plane = Memory.filled 3 ∧
    (after (exec (.rep 1) (runState [0x81] 3))).rle.rsp = 1 := by decide

/-- V-RLE-21: LIT then REP; no flag. -/
theorem test_rleExpand : (after (exec (.rleExpand .src 0 5) (runState [2, 0xAA, 0xBB, 0x83, 1] 5))).plane
      = Memory.ofBytes [0xAA, 0xBB, 1, 1, 1] ∧
    (after (exec (.rleExpand .src 0 5) (runState [2, 0xAA, 0xBB, 0x83, 1] 5))).trunc = 0 := by decide

/-- V-RLE-3 (90_conflicts.md C1): 0x83 is length 3, so one byte is FILL and the flag of stage 2 is set. -/
theorem test_rleExpand_truncated : (after (exec (.rleExpand .src 0 2) (runState [0x83, 0xAA] 4))).plane
      = Memory.ofBytes [0xAA, 0xAA, 0xAA, 0] ∧
    (after (exec (.rleExpand .src 0 2) (runState [0x83, 0xAA] 4))).trunc = 2 := by decide

/-- V-LZ-1, first token. -/
theorem test_lzlit : (after (exec (.lzlit 1) (tokenState 0x7E [1, 2] 6))).plane.read 0 = some 1 ∧
    (after (exec (.lzlit 1) (tokenState 0x7E [1, 2] 6))).lz.lsp = 13 := by decide

/-- V-LZ-2. -/
theorem test_lzesc : (after (exec .lzesc (tokenState 0x7E [0x7E, 0x7E] 1))).plane = Memory.ofBytes [0x7E] ∧
    (after (exec .lzesc (tokenState 0x7E [0x7E, 0x7E] 1))).lz.lsp = 14 := by decide

/-- LZX with `out` produced already. -/
def producedState (special : Byte) (payload out : List Byte) (n : Nat) : State :=
  let s := tokenState special payload n
  { s with plane := Memory.ofBytes (out ++ List.replicate (n - out.length) 0), lz := { s.lz with ldp := out.length } }

/-- R196's example: distance 2, count 5 over 0A 0B. -/
theorem test_lzcpy : (after (exec (.lzcpy 2 5) (producedState 0x7E [0x7E, 2, 5] [0x0A, 0x0B] 7))).plane
    = Memory.ofBytes [0x0A, 0x0B, 0x0A, 0x0B, 0x0A, 0x0B, 0x0A] := by decide

/-- V-LZ-6: the check is made with count 0; the wire byte 7F is distance 126. -/
theorem test_lzcpy_bad : (after (exec (.lzcpy 0x7F 0) (producedState 0x7E [0x7E, 0x7F, 0] [0x41, 0x42] 4))).err
    = { cause := .invalidBackReference, plane := 0, pos := 2, off := 126 } := by decide

/-- V-LZ-1. -/
theorem test_lzExpand : (after (exec .lzExpand (tokenState 0x7E [1, 2, 3, 0x7E, 1, 3] 6))).plane
      = Memory.ofBytes [1, 2, 3, 3, 3, 3] ∧
    (after (exec .lzExpand (tokenState 0x7E [1, 2, 3, 0x7E, 1, 3] 6))).lz.lsp = 18 := by decide

/-- V-LZ-9: the count byte is missing. -/
theorem test_lzExpand_cut : (after (exec .lzExpand (tokenState 0x7E [0x41, 0x7E, 1] 3))).plane = Memory.ofBytes [0x41, 0, 0] ∧
    (after (exec .lzExpand (tokenState 0x7E [0x41, 0x7E, 1] 3))).lz.lsp = 15 ∧
    (after (exec .lzExpand (tokenState 0x7E [0x41, 0x7E, 1] 3))).trunc = 2 := by decide

/-- R190's example. -/
theorem test_lzhdr : (after (exec (.lzhdr { word0 := 6, word1 := 18, special := 0x7E, pad := 0 }) (tokenState 0 [1] 4))).lz.special
      = 0x7E ∧
    (after (exec (.lzhdr { word0 := 6, word1 := 18, special := 0x7E, pad := 0 }) (tokenState 0 [1] 4))).sub.lzhdr1 = 18 := by
  decide

/-- R153's example: from 510 a bit 0 goes to 509. -/
theorem test_hb0 : (after (exec .hb0 walkState)).hsw.cur = 509 ∧ (after (exec .hb0 walkState)).br.bitI = 1 := by decide +kernel

/-- R153's example: from 509 a bit 1 goes to 9; the last bit of a byte moves to the next byte (R152). -/
theorem test_hb1 :
    (after (exec .hb1 { walkState with
      hsw := { walkState.hsw with cur := 509 }, br := { walkState.br with bitI := 7 } })).hsw.cur = 9 ∧
    (after (exec .hb1 { walkState with
      hsw := { walkState.hsw with cur := 509 }, br := { walkState.br with bitI := 7 } })).br.byteP = 1 := by decide +kernel

/-- R155: the leaf's index is the byte. -/
theorem test_emit :
    (after (exec .emit { walkState with hsw := { walkState.hsw with cur := 9 } })).mid = Memory.ofBytes [9, 0] ∧
    (after (exec .emit { walkState with hsw := { walkState.hsw with cur := 9 } })).hsw.cur = 510 := by decide +kernel

/-- V-HUF-1. -/
theorem test_hufDecode : (after (exec .hufDecode walkState)).mid = Memory.ofBytes [9, 0] ∧
    (after (exec .hufDecode walkState)).br.bitI = 3 ∧ (after (exec .hufDecode walkState)).trunc = 0 ∧
    (after (exec .hufDecode walkState)).hsw.cur = 0 := by decide +kernel

/-- V-HUF-4: no payload, HLEN 1; the flag of stage 1 of the red plane. -/
theorem test_hufDecode_truncated :
    (after (exec .hufDecode { walkState with
      sub := { walkState.sub with hlen := 1 }, seq := { walkState.seq with psize := 0x408 } })).mid = Memory.ofBytes [0] ∧
    (after (exec .hufDecode { walkState with
      sub := { walkState.sub with hlen := 1 }, seq := { walkState.seq with psize := 0x408 } })).trunc = 0x10 := by
  decide +kernel

/-- R131's example: frequencies 0, 0, 3, 5 and a candidate of 3. -/
def insertNodes : Vector Node 512 :=
  setNode (setNode (setNode State.reset.htb.node 7 { freq := 3, left := 0, right := 0 })
    8 { freq := 5, left := 0, right := 0 }) 9 { freq := 3, left := 0, right := 0 }

theorem test_insert : insertNode insertNodes 9 [1, 2, 7, 8] = [1, 2, 7, 9, 8] := by decide +kernel

/-- R132's example: the first two entries become the children of 256, which goes after 255 and before 9. -/
theorem test_merge :
    (merge { node := setNode insertNodes 0 { freq := 5, left := 0, right := 0 }
             list := [1, 2, 255, 9, 0], next := 256 }).list = [255, 256, 9, 0] := by decide +kernel

/-- V-HTB-9. -/
theorem test_htbBuild_all_zero : (after (exec .htbBuild (busyAt .build))).err.cause = .malformedHuffmanTable ∧
    (after (exec .htbBuild (busyAt .build))).status = .error := by decide +kernel

/-- V-PIL-2. -/
theorem test_pilPlace : (after (exec .pilPlace (placeState 3 2 3 0 [1, 2, 3, 4, 5, 6]))).pix
    = Memory.ofBytes [4, 0, 0, 5, 0, 0, 6, 0, 0, 1, 0, 0, 2, 0, 0, 3, 0, 0] := by decide

/-- V-PIL-3. -/
theorem test_pilPlace_alpha : (after (exec .pilPlace (placeState 2 3 4 3 [1, 2, 3, 4, 5, 6]))).pix
    = Memory.ofBytes [0, 0, 0, 5, 0, 0, 0, 6, 0, 0, 0, 3, 0, 0, 0, 4, 0, 0, 0, 1, 0, 0, 0, 2] := by decide

/-- R211: a container of 31 bytes is rejected. -/
theorem test_hdr_short : (after (exec (.hdr p1Header) (startedWith (p1.take 31)))).status = .reject := by decide

/-- R215: 32 bits and an empty alpha range give three bytes a pixel. -/
theorem test_bpp32_no_alpha : (after (exec .bpp32 (placeState 2 2 0 0 []))).drv.bypp = 3 ∧
    (after (exec .bpp32 (placeState 2 2 0 0 []))).pix = Memory.filled 12 := by decide

/-- R215: 24 bits and an alpha range that is not empty give three bytes a pixel. -/
theorem test_bpp24_alpha_range :
    (after (exec .bpp24 { placeState 2 2 0 0 [] with hdr := { p1Header with aSize := 5 } })).drv.alpha = false ∧
    (after (exec .bpp24 { placeState 2 2 0 0 [] with hdr := { p1Header with aSize := 5 } })).drv.bypp = 3 := by decide

/-- P9 (b): a declared length of −1. -/
theorem test_subhdr_negative :
    (after (exec (.subhdr { decodedLength := 0xFFFFFFFF, packedLength := 0, freqs := Vector.replicate 256 1 })
      (rangeState (List.replicate 0x408 0) 4))).err.cause = .badSubHeader := by decide +kernel

/-- P9 (a): a range one byte too short, under both Huffman variants. -/
theorem test_variants_short_range :
    (after (exec .variantHufRle (rangeState (List.replicate 0x407 0) 4))).err.cause = .badSubHeader ∧
    (after (exec .variantHufLz (rangeState (List.replicate 0x407 0) 4))).err.cause = .badSubHeader := by decide +kernel

/-- The red plane of P1. -/
theorem test_variantRle : (after (exec .variantRle (rangeState [0x84, 0x10] 4))).plane = Memory.ofBytes [0x10, 0x10, 0x10, 0x10] := by
  decide

/-- V-SEQ-1: the whole of P1. -/
theorem test_seqDecode : (after (exec .seqDecode (startedWith p1))).status = .done ∧
    (after (exec .seqDecode (startedWith p1))).pix
      = Memory.ofBytes [0x30, 0x20, 0x10, 0x30, 0x20, 0x10, 0x30, 0x20, 0x10, 0x30, 0x20, 0x10] := by decide +kernel

/-- V-SEQ-2: one byte appended. -/
theorem test_seqDecode_reject : (after (exec .seqDecode (startedWith (p1 ++ [7])))).status = .reject := by decide +kernel

/-- R281: LOAD, START. -/
theorem test_load_start :
    (after (exec .start (after (exec (.load p1) State.reset)))).status = .busy ∧
      (after (exec .start (after (exec (.load p1) State.reset)))).srcLen = 38 := by decide +kernel

/-- R280: a RESET while BUSY abandons the command. -/
theorem test_reset_while_busy : (after (exec .reset (startedWith p1))).status = .idle ∧
    (after (exec .reset (startedWith p1))).srcLen = 0 := by decide +kernel

/-- R230: no LOAD while BUSY. -/
theorem test_load_busy : went (exec (.load p1) (startedWith p1)) = false := by decide +kernel

/-- What a read gives, −1 where it is refused. -/
def readOf (x : Host.Outcome Int Fault Refusal) : Int :=
  match x with
  | .next v => v
  | _ => -1

/-- P1 (95_test_vectors.md): what the host reads in DONE; WIDTH, TRUNC and PIX only there (R230). -/
theorem test_host_reads :
    [HostReg.status, .width, .height, .bypp, .pixFmt, .trunc, .pix 0, .pix 11, .pix 12, .errCause].map
        (fun r => readOf (hostRead 0 r (after (exec .seqDecode (startedWith p1))))) = [2, 2, 2, 3, 0, 0, 0x30, 0x10, -1, -1] ∧
      [HostReg.width, .trunc, .errCause].map (fun r => readOf (hostRead 0 r (after (exec .htbBuild (busyAt .build)))))
        = [-1, -1, 2] := by decide +kernel

/-- The read is answered. -/
def answers (x : Host.Outcome Int Fault Refusal) : Bool :=
  match x with
  | .next _ => true
  | _ => false

/-- R252: after a rejection the header latches hold what was read; with SRC shorter than the header, in IDLE (R46) and
while BUSY (R37) the value is unspecified and the read is still answered; WIDTH is not the host's to read there (R230). -/
theorem test_host_reads_reject :
    readOf (hostRead 0 .bpp (after (exec .seqDecode (startedWith (p1 ++ [7]))))) = 24 ∧
      answers (hostRead 0 .bpp (after (exec .seqDecode (startedWith (p1.take 31))))) = true ∧
      answers (hostRead 0 .hlen State.reset) = true ∧
      answers (hostRead 0 .width (after (exec .seqDecode (startedWith (p1 ++ [7]))))) = false ∧
      answers (hostRead 0 .bpp (startedWith p1)) = true ∧ answers (hostRead 0 .width (startedWith p1)) = false := by
  decide +kernel

/-- R252, R230: a LOAD after a rejection writes SRC and SRCLEN alone, so the header latches of a rejected container stay
readable whatever the new length, and a container shorter than the header leaves them unspecified still. -/
theorem test_host_reads_after_load :
    let rejected := fun bs => after (exec .seqDecode (startedWith bs))
    readOf (hostRead 0 .bpp (after (exec (.load []) (rejected (p1 ++ [7]))))) = 24 ∧
      readOf (hostRead 0 .srcLen (after (exec (.load []) (rejected (p1 ++ [7]))))) = 0 ∧
      readSpecified .bpp (after (exec (.load p1) (rejected (p1.take 31)))) = false := by decide +kernel

/-- R46: a sub-header latch of an earlier command is unspecified after a command that writes none. -/
theorem test_host_reads_old_latch :
    let used := { State.reset with latched := { hdr := true, sub := true, lzhdr := true }, src := Memory.ofBytes p1 }
    let done := after (exec .seqDecode (after (exec .start used)))
    done.status = .done ∧ readSpecified .bpp done = true ∧ readSpecified .hlen done = false ∧
      readSpecified .lzhdr0 done = false := by decide +kernel

/-- Bare table words run as the next step: REP 4 writes four bytes, LZCPY of distance 1 is fatal on an empty plane, an
illegal FORMAT is no instruction. -/
theorem test_fetch_words :
    (after (step (State.reset.withFetchWord 8 0x84))).rle.rdp = 4 ∧
      (after (step (State.reset.withFetchWord 24 0x03017E))).err.off = 1 ∧
      (after (step (State.reset.withFetchWord 1 1))).br.bitI = 1 ∧
      (after (step (State.reset.withFetchWord 0 0))).hsw.hprod = 1 ∧
      (after (step (State.reset.withFetchWord 16 24))).drv.bypp = 3 ∧
      (after (step (State.reset.withFetchWord 8 2))).stage = .hdrCheck ∧
      (after (step (State.reset.withFetchWord 256 1))).hdr.format = 1 := by decide +kernel

/-! ## Witnesses: for every obligation with hypotheses, a state and operands that meet them all -/

theorem witness_LitCopiesClampedRun :
    let s := runState [3, 0x11, 0x22, 0x33] 3
    s.rle.rbase + s.rle.rsrcb ≤ (s.space (runSpace s.rle.rsrc)).len ∧ s.rle.rdstb ≤ s.plane.len ∧
      litCount 3 (rleFetch 3 s).rle = 3 := by decide

/-- The value byte missing: the control byte is the budget's last. -/
theorem witness_RepEmitsClampedRun_missing :
    let s := runState [0x81] 3
    s.rle.rsrcb ≤ s.rle.rsp + 1 := by decide

/-- The value byte just inside the budget. -/
theorem witness_RepEmitsClampedRun :
    let s := runState [0x81, 0xAA] 3
    s.rle.rsp + 1 < s.rle.rsrcb ∧ s.rle.rbase + s.rle.rsrcb ≤ (s.space (runSpace s.rle.rsrc)).len ∧
      s.rle.rdstb ≤ s.plane.len := by decide

theorem witness_RleExpandDecodesItsStream :
    let s := runState [2, 0xAA, 0xBB, 0x83, 1] 5
    s.bytesAt (runSpace .src) 0 5 = some [2, 0xAA, 0xBB, 0x83, 1] ∧ s.drv.n ≤ s.plane.len ∧
      expandRuns 5 [2, 0xAA, 0xBB, 0x83, 1] s.drv.n = [0xAA, 0xBB, 1, 1, 1] := by decide

theorem witness_LzlitEmitsItsByte :
    let s := tokenState 0x7E [0x41] 1
    s.lz.ldp < s.plane.len := by decide

theorem witness_LzescEmitsTheEscapeByte :
    let s := tokenState 0x7E [0x7E, 0x7E] 1
    s.lz.ldp < s.plane.len := by decide

/-- One byte produced, distance 2 (V-LZ-5). -/
theorem witness_LzcpyBadDistanceRaises :
    let s := producedState 0x7E [0x7E, 2, 1] [1] 4
    2#8 = (if s.lz.special.toNat < (2#8).toNat then 2#8 - 1 else 2#8) ∧ s.lz.ldp < (2#8).toNat := by decide

/-- The distance equal to the bytes produced. -/
theorem witness_LzcpyCopiesForward :
    let s := producedState 0x7E [0x7E, 2, 5] [0x0A, 0x0B] 7
    2#8 = (if s.lz.special.toNat < (2#8).toNat then 2#8 - 1 else 2#8) ∧ (2#8).toNat ≤ s.lz.ldp ∧
      s.lz.ldp ≤ s.lz.ldstb ∧ s.lz.ldstb ≤ s.plane.len := by decide

/-- Wire 1 under escape byte 0, which is distance 0. -/
theorem witness_LzcpyCopiesForward_zero :
    let s := producedState 0 [0, 1, 2] [0x41] 4
    0#8 = (if s.lz.special.toNat < (1#8).toNat then 1#8 - 1 else 1#8) ∧ (0#8).toNat ≤ s.lz.ldp ∧
      s.lz.ldp ≤ s.lz.ldstb ∧ s.lz.ldstb ≤ s.plane.len := by decide

/-- Distance 1, the shortest, and count 3. -/
theorem witness_LzcpyRepeatsPeriodically :
    let s := producedState 0x7E [0x7E, 1, 3] [1, 2, 3] 6
    1#8 = (if s.lz.special.toNat < (1#8).toNat then 1#8 - 1 else 1#8) ∧ 0 < (1#8).toNat ∧ (1#8).toNat ≤ s.lz.ldp ∧
      s.lz.ldp ≤ s.lz.ldstb ∧ s.lz.ldstb ≤ s.plane.len ∧ went (exec (.lzcpy 1 3) s) = true ∧
      min (3#8).toNat (s.lz.ldstb - s.lz.ldp) = 3 := by decide

theorem witness_LzDistanceIsABijection :
    (0xFF#8 ≠ 0x7E#8 ∧ (lzDistance 0x7E 0xFF).toNat = 254) ∧ (0x00#8 ≠ 0x7E#8 ∧ (lzDistance 0x7E 0x00).toNat = 0) ∧
      (0xFE#8).toNat ≤ 254 := by decide

/-- HLEN 0, the least length, and 13. -/
theorem witness_LzhdrStartsTheExpansion :
    0 ≤ State.reset.sub.hlen.toInt ∧ 0 ≤ (tokenState 0x7E [0x41] 1).sub.hlen.toInt := by decide

theorem witness_LzExpandDecodesItsStream_done :
    let s := tokenState 0x7E [1, 2, 3, 0x7E, 1, 3] 6
    let bytes := [6, 0, 0, 0, 18, 0, 0, 0, 0x7E, 0, 0, 0, 1, 2, 3, 0x7E, 1, 3]
    s.bytesAt .mid 0 s.sub.hlen.toInt.toNat = some bytes ∧ s.plane = Memory.filled s.drv.n ∧
      expandTokens bytes.length (bytes.getD 8 0) (bytes.drop 12) s.drv.n [] = .done [1, 2, 3, 3, 3, 3] := by decide

theorem witness_LzExpandDecodesItsStream_bad :
    let s := tokenState 0x7E [1, 0x7E, 2, 1] 4
    let bytes := [6, 0, 0, 0, 18, 0, 0, 0, 0x7E, 0, 0, 0, 1, 0x7E, 2, 1]
    s.bytesAt .mid 0 s.sub.hlen.toInt.toNat = some bytes ∧ s.plane = Memory.filled s.drv.n ∧
      expandTokens bytes.length (bytes.getD 8 0) (bytes.drop 12) s.drv.n [] = .bad [1] 2 := by decide

/-- The root, and the least internal node. -/
theorem witness_WalkBitGoesToTheChild :
    (256 ≤ walkState.hsw.cur.toNat ∧ walkState.hsw.cur.toNat ≤ 510) ∧
      (256 ≤ (256#9).toNat ∧ (256#9).toNat ≤ 510) := by decide

/-- The greatest leaf. -/
theorem witness_EmitWritesTheLeafByte :
    let s := { walkState with hsw := { walkState.hsw with cur := 255 } }
    s.hsw.cur.toNat < 256 ∧ s.hsw.hprod < s.mid.len := by decide

/-- A table in which every internal node has two distinct children below it. -/
def flatTree : Vector Node 512 := Vector.replicate 512 { freq := 0, left := 0, right := 1 }

theorem flatTree_ok : TreeOk flatTree := by
  intro j h _
  simp only [nodeAt, flatTree, Vector.getElem_replicate]
  refine ⟨?_, ?_, by decide⟩
  · show 0 < j.toNat
    omega
  · show 1 < j.toNat
    omega

/-- HSW after a build, the payload one byte. -/
def builtState : State := { walkState with htb := { node := flatTree, list := [], next := 511 } }

theorem witness_HufDecodeWalksThePayload :
    builtState.hsw.root = 510#9 ∧ TreeOk builtState.htb.node ∧ 0x408 ≤ builtState.seq.psize ∧
      builtState.bytesAt .src (builtState.seq.poff + 0x408) (builtState.seq.psize - 0x408) = some [0x06#8] :=
  ⟨by decide, flatTree_ok, by decide, by decide⟩

theorem witness_InsertIsStable :
    ([1, 2, 7, 8] : List Idx9).Pairwise (fun i j => (freqAt insertNodes i).toNat ≤ (freqAt insertNodes j).toNat) ∧
      insertNode insertNodes 9 [1, 2, 7, 8] = [1, 2, 7] ++ 9 :: [8] := by decide +kernel

/-- One frequency that is not 0. -/
def oneFreq : Vector U32 256 := (Vector.replicate 256 (0 : U32)).set 0 1

/-- A LIST of exactly two entries, and the first and the last merge of a build. -/
theorem witness_MergeTakesTheTwoLowest :
    ({ node := insertNodes, list := [7, 8], next := 256 } : Htb).list = 7 :: 8 :: [] ∧ 0 < 255 ∧ 254 < 255 ∧
      mergeTimes 0 (beforeMerges oneFreq State.reset.htb) = beforeMerges oneFreq State.reset.htb :=
  ⟨rfl, by decide, by decide, rfl⟩

theorem witness_AllZeroTableRaises : ∀ i : Fin 256, (busyAt .build).freqs[i] = 0#32 := by
  intro i
  simp [busyAt, State.reset]

theorem oneFreq_buildable : Buildable oneFreq := ⟨0, by decide +kernel⟩

theorem witness_BuildMakesAFullTree : Buildable ({ busyAt .build with freqs := oneFreq } : State).freqs := oneFreq_buildable

/-- A four-byte pixel in its last lane. -/
theorem witness_PlaceFlipsIntoItsLane :
    let s := placeState 2 3 4 3 [1, 2, 3, 4, 5, 6]
    s.drv.width * s.drv.height ≤ s.plane.len ∧ s.drv.width * s.drv.height * s.drv.bypp ≤ s.pix.len ∧
      s.seq.pch.toNat < s.drv.bypp := by decide

/-- Exactly 32 bytes, and 31. -/
theorem witness_HdrLatchesOrRejects :
    0x20 ≤ (startedWith (p1.take 32)).src.len ∧ (startedWith (p1.take 31)).src.len < 0x20 := by decide

/-- An alpha range of one byte, and an empty one. -/
theorem witness_BppSelectorsChooseThePixelFormat :
    0 < ({ State.reset with hdr := { p1Header with aSize := 1 } } : State).hdr.aSize.toInt ∧
      ({ State.reset with hdr := p1Header } : State).hdr.aSize.toInt ≤ 0 := by decide

/-- A sub-header of HLEN `n` with the one frequency f[0] = 1. -/
def subOf (n : U32) : SubHeader := { decodedLength := n, packedLength := 7, freqs := oneFreq }

/-- A range of exactly 0x408 bytes, unbounded MID_CAP; MID_CAP equal to the length. -/
theorem witness_SubhdrLatchesOrRaises :
    let s := rangeState (subBytes 3) 4
    0x408 ≤ s.seq.psize ∧ 0 ≤ (subOf 3).decodedLength.toInt ∧
      (∀ c, ({ s with caps := { s.caps with midCap := some 3 } } : State).caps.midCap = some c →
        (subOf 3).decodedLength.toInt ≤ (c : Int)) := by
  refine ⟨by decide +kernel, by decide, ?_⟩
  intro c hc
  have : c = 3 := (Option.some.inj hc).symm
  subst this
  decide

theorem witness_SubhdrLatchesOrRaises_short : (rangeState (List.replicate 0x407 0) 4).seq.psize < 0x408 := by
  decide +kernel

theorem witness_SubhdrLatchesOrRaises_bad :
    let s := rangeState (subBytes 3) 4
    0x408 ≤ s.seq.psize ∧ (subOf 0xFFFFFFFF).decodedLength.toInt < 0 ∧
      ∃ c, ({ s with caps := { s.caps with midCap := some 2 } } : State).caps.midCap = some c ∧
        (c : Int) < (subOf 3).decodedLength.toInt :=
  ⟨by decide +kernel, by decide, 2, rfl, by decide⟩

theorem witness_VariantRleExpandsTheRange :
    let s := rangeState [0x84, 0x10] 4
    s.bytesAt .src s.seq.poff s.seq.psize = some [0x84, 0x10] ∧ s.drv.n ≤ s.plane.len := by decide

theorem subBytes_table (n : Byte) : Buildable (subHeaderOf (subBytes n)).freqs := by
  refine ⟨0, ?_⟩
  show u32At ((subBytes n).drop 8) 0 ≠ 0
  simp only [subBytes, List.cons_append, List.drop_succ_cons, List.drop_zero]
  decide

theorem witness_VariantHufRleRunsItsPipeline :
    let s := rangeState (subBytes 3) 4
    0x408 ≤ s.seq.psize ∧ s.bytesAt .src s.seq.poff s.seq.psize = some (subBytes 3) ∧
      0 ≤ (subHeaderOf (subBytes 3)).decodedLength.toInt ∧ s.caps.midCap = none ∧
      Buildable (subHeaderOf (subBytes 3)).freqs ∧ s.drv.n ≤ s.plane.len :=
  ⟨by decide +kernel, by decide +kernel, by decide +kernel, rfl, subBytes_table 3, by decide +kernel⟩

/-- No payload: MID is 14 bytes of FILL, whose token is an escaped escape byte. -/
theorem witness_VariantHufLzRunsItsPipeline :
    let s := rangeState (subBytes 14) 1
    let mid := padTo 14 (walkBits (buildTree (subHeaderOf (subBytes 14)).freqs s.htb).node 510#9 14 510#9
      (payloadBits ((subBytes 14).drop 0x408)))
    0x408 ≤ s.seq.psize ∧ s.bytesAt .src s.seq.poff s.seq.psize = some (subBytes 14) ∧
      (subHeaderOf (subBytes 14)).decodedLength.toInt = 14 ∧ s.caps.midCap = none ∧
      Buildable (subHeaderOf (subBytes 14)).freqs ∧ s.plane = Memory.filled s.drv.n ∧
      expandTokens mid.length (mid.getD 8 0) (mid.drop 12) s.drv.n [] = .done [0] := by
  intro s mid
  have hbits : payloadBits ((subBytes 14).drop 0x408) = [] := by decide +kernel
  have hmid : mid = List.replicate 14 0 := by
    show padTo 14 (walkBits _ 510#9 14 510#9 (payloadBits ((subBytes 14).drop 0x408))) = _
    rw [hbits]
    rfl
  refine ⟨by decide +kernel, by decide +kernel, by decide +kernel, rfl, subBytes_table 14, rfl, ?_⟩
  rw [hmid]
  decide +kernel

/-- A range one byte too short; MID_CAP one below the declared length; and an all-zero table. -/
theorem witness_VariantSelectorsRaise_subheader :
    (rangeState (List.replicate 0x407 0) 4).seq.psize < 0x408 ∧
      (let s := { rangeState (subBytes 3) 4 with caps := { State.reset.caps with midCap := some 2 } }
       0x408 ≤ s.seq.psize ∧ s.bytesAt .src s.seq.poff s.seq.psize = some (subBytes 3) ∧ s.caps.midCap = some 2 ∧
         ((2 : Nat) : Int) < (subHeaderOf (subBytes 3)).decodedLength.toInt) ∧
      (let s := rangeState (List.replicate 0x408 0) 4
       0x408 ≤ s.seq.psize ∧ s.bytesAt .src s.seq.poff s.seq.psize = some (List.replicate 0x408 0) ∧
         0 ≤ (subHeaderOf (List.replicate 0x408 0)).decodedLength.toInt ∧ s.caps.midCap = none ∧
         allZero (subHeaderOf (List.replicate 0x408 0)).freqs = true) := by decide +kernel

/-- Two used byte values, 254 and 255. -/
def twoFreqs : Vector U32 256 := Vector.ofFn fun i => if i.val = 255 then 9#32 else if i.val = 254 then 5#32 else 0#32

theorem twoFreqs_buildable : Buildable twoFreqs := ⟨⟨255, by omega⟩, by simp [twoFreqs]⟩

theorem twoFreqs_zero {k : Nat} (hk : k < 254) : twoFreqs[(⟨k, by omega⟩ : Fin 256)] = 0#32 := by
  have h5 : k ≠ 255 := by omega
  have h4 : k ≠ 254 := by omega
  simp [twoFreqs, h5, h4]

/-- Only leaves of frequency 0 below `k` stand in LIST. -/
structure Zeros (k : Nat) (g : Htb) : Prop where
  len : g.list.length = k
  mem : ∀ z ∈ g.list, z.toNat < k ∧ freqAt g.node z = 0#32

theorem zeros_ne {k : Nat} {g : Htb} (h : Zeros k g) (j : Nat) (hj : j < 512) (hk : k ≤ j) :
    ∀ z ∈ g.list, z ≠ BitVec.ofNat 9 j := by
  rintro z hz rfl
  have := (h.mem _ hz).1
  rw [BitVec.toNat_ofNat, Nat.mod_eq_of_lt (by omega)] at this
  omega

theorem zeros_load {k : Nat} {g : Htb} (hk : k < 254) (h : Zeros k g) :
    Zeros (k + 1) (loadLeaf twoFreqs ⟨k, by omega⟩ g) := by
  refine ⟨by rw [loadLeaf_list, insertNode_length, h.len], fun z hz => ?_⟩
  rw [loadLeaf_list, mem_insertNode] at hz
  rw [loadLeaf_freq]
  rcases hz with rfl | hz
  · refine ⟨?_, by rw [if_pos rfl]; exact twoFreqs_zero hk⟩
    show (BitVec.ofNat 9 k).toNat < _
    rw [BitVec.toNat_ofNat, Nat.mod_eq_of_lt (by omega)]
    omega
  · have := h.mem z hz
    exact ⟨by omega, by rw [if_neg (zeros_ne h k (by omega) (Nat.le_refl k) z hz)]; exact this.2⟩

theorem zeros_loads (h : Htb) : ∀ k, k ≤ 254 →
    Zeros k (((List.finRange 256).take k).foldl (fun h i => loadLeaf twoFreqs i h) { h with list := [] }) := by
  intro k
  induction k with
  | zero => intro _; exact ⟨rfl, fun z hz => nomatch hz⟩
  | succ k ih =>
    intro hk
    have ht : (List.finRange 256).take (k + 1) = (List.finRange 256).take k ++ [⟨k, by omega⟩] := by
      rw [List.take_add_one]; simp [show k < 256 by omega]
    rw [ht, List.foldl_append]
    exact zeros_load (by omega) (ih (by omega))

/-- LIST while `twoFreqs` is merged: `k` nodes of frequency 0, then 254, then 255. -/
structure TwoLeft (k : Nat) (h : Htb) : Prop where
  list : ∃ zs, zs.length = k ∧ h.list = zs ++ [254#9, 255#9] ∧ ∀ z ∈ zs, z.toNat < h.next.toNat ∧ freqAt h.node z = 0#32
  next : h.next.toNat + k = 510
  low : 256 ≤ h.next.toNat
  f4 : freqAt h.node 254#9 = 5#32
  f5 : freqAt h.node 255#9 = 9#32

theorem twoLeft_start (h : Htb) : TwoLeft 254 (beforeMerges twoFreqs h) := by
  have hz := zeros_loads h 254 (Nat.le_refl _)
  have hl : loadLeaves twoFreqs h
      = loadLeaf twoFreqs ⟨255, by omega⟩ (loadLeaf twoFreqs ⟨254, by omega⟩
        (((List.finRange 256).take 254).foldl (fun h i => loadLeaf twoFreqs i h) { h with list := [] })) := by
    unfold loadLeaves
    conv_lhs => rw [← List.take_append_drop 254 (List.finRange 256), List.foldl_append]
    rfl
  revert hl
  generalize ((List.finRange 256).take 254).foldl _ _ = g at hz
  intro hl
  have t4 : twoFreqs[(⟨254, by omega⟩ : Fin 256)] = 5#32 := by simp [twoFreqs]
  have t5 : twoFreqs[(⟨255, by omega⟩ : Fin 256)] = 9#32 := by simp [twoFreqs]
  have n4 := zeros_ne hz 254 (by omega) (by omega)
  have n5 := zeros_ne hz 255 (by omega) (by omega)
  have z4 : ∀ z ∈ g.list, freqAt (loadLeaf twoFreqs ⟨254, by omega⟩ g).node z = 0#32 := fun z hm =>
    (loadLeaf_freq_other _ _ _ (n4 z hm)).trans (hz.mem z hm).2
  have e4 : (loadLeaf twoFreqs ⟨254, by omega⟩ g).list = g.list ++ [254#9] := by
    have := insertNode_between (loadLeaf twoFreqs ⟨254, by omega⟩ g).node 254#9 g.list [] (fun z hm => by
      rw [z4 z hm]; exact BitVec.le_def.2 (Nat.zero_le _)) (fun z hm => nomatch hm)
    rw [List.append_nil] at this
    exact this
  have f4 : freqAt (loadLeaf twoFreqs ⟨254, by omega⟩ g).node 254#9 = 5#32 := (loadLeaf_freq_same ..).trans t4
  generalize loadLeaf twoFreqs ⟨254, by omega⟩ g = g4 at *
  have f5 : freqAt (loadLeaf twoFreqs ⟨255, by omega⟩ g4).node 255#9 = 9#32 := (loadLeaf_freq_same ..).trans t5
  have z5 : ∀ z ∈ g.list, freqAt (loadLeaf twoFreqs ⟨255, by omega⟩ g4).node z = 0#32 := fun z hm =>
    (loadLeaf_freq_other _ _ _ (n5 z hm)).trans (z4 z hm)
  have f45 : freqAt (loadLeaf twoFreqs ⟨255, by omega⟩ g4).node 254#9 = 5#32 :=
    (loadLeaf_freq_other _ _ _ (j := 254#9) (by show 254#9 ≠ 255#9; decide)).trans f4
  have e5 : (loadLeaf twoFreqs ⟨255, by omega⟩ g4).list = g.list ++ [254#9, 255#9] := by
    have := insertNode_between (loadLeaf twoFreqs ⟨255, by omega⟩ g4).node 255#9 (g.list ++ [254#9]) [] (fun z hm => by
      rcases List.mem_append.1 hm with hm | hm
      · rw [z5 z hm]; exact BitVec.le_def.2 (Nat.zero_le _)
      · rw [List.mem_singleton.1 hm, f45, f5]; decide) (fun z hm => nomatch hm)
    rw [List.append_nil, List.append_assoc] at this
    rw [loadLeaf_list, e4]
    exact this
  generalize loadLeaf twoFreqs ⟨255, by omega⟩ g4 = g5 at *
  unfold beforeMerges
  rw [hl]
  refine ⟨⟨g.list, hz.len, e5, fun z hm => ⟨?_, z5 z hm⟩⟩, ?_, ?_, f45, f5⟩
  · have := (hz.mem z hm).1
    show z.toNat < (256#9).toNat
    rw [show (256#9).toNat = 256 from rfl]
    omega
  · show (256#9).toNat + 254 = 510; decide
  · show 256 ≤ (256#9).toNat; decide

/-- A merge of two nodes of frequency 0. -/
theorem twoLeft_merge {k : Nat} {h : Htb} (hk : TwoLeft (k + 2) h) : TwoLeft (k + 1) (merge h) := by
  obtain ⟨⟨zs, hl, he, hz⟩, hn, hlow, h4, h5⟩ := hk
  rcases zs with - | ⟨a, - | ⟨b, zs⟩⟩
  · simp at hl
  · simp at hl
  have hne : ∀ z : Idx9, z.toNat < h.next.toNat → z ≠ h.next := by rintro z hz rfl; omega
  have n4 : 254#9 ≠ h.next := hne _ (by show 254 < _; omega)
  have n5 : 255#9 ≠ h.next := hne _ (by show 255 < _; omega)
  have hnx : (h.next + 1).toNat = h.next.toNat + 1 := by rw [BitVec.toNat_add]; simp; omega
  rw [merge_cons h a b (zs ++ [254#9, 255#9]) (by simpa using he), (hz a (by simp)).2, (hz b (by simp)).2]
  simp only [List.length_cons] at hl
  refine ⟨⟨zs ++ [h.next], by simp; omega, ?_, fun z hm => ?_⟩, by show (h.next + 1).toNat + _ = _; omega,
    by show _ ≤ (h.next + 1).toNat; omega, ?_, ?_⟩
  · refine (insertNode_between _ _ zs [254#9, 255#9] (fun z hm => ?_) fun z hm => ?_).trans (by simp)
    · rw [freqAt_setNode, freqAt_setNode, if_pos rfl, if_neg (hne z (hz z (by simp [hm])).1), (hz z (by simp [hm])).2]
      exact BitVec.le_def.2 (Nat.zero_le _)
    · rw [freqAt_setNode, freqAt_setNode, if_pos rfl, ← Option.some.inj hm, if_neg n4, h4]
      show 0#32 + 0#32 < 5#32
      decide
  · show z.toNat < (h.next + 1).toNat ∧ _
    rw [freqAt_setNode]
    rcases List.mem_append.1 hm with hm | hm
    · have := hz z (by simp [hm])
      exact ⟨by omega, by rw [if_neg (hne z this.1)]; exact this.2⟩
    · rw [List.mem_singleton.1 hm, if_pos rfl]
      exact ⟨by omega, rfl⟩
  · rw [freqAt_setNode, if_neg n4]; exact h4
  · rw [freqAt_setNode, if_neg n5]; exact h5

/-- The last two merges: the code of 255 is `1`, that of 254 is `01`. -/
theorem twoLeft_end {k : Nat} {h : Htb} (hk : TwoLeft (k + 1) h) :
    (nodeAt (mergeLoop (k + 3) h).node 510#9).right = 255#9 ∧ (nodeAt (mergeLoop (k + 3) h).node 510#9).left = 509#9 ∧
      (nodeAt (mergeLoop (k + 3) h).node 509#9).right = 254#9 := by
  induction k generalizing h with
  | zero =>
    obtain ⟨⟨zs, hl, he, hz⟩, hn, hlow, h4, h5⟩ := hk
    obtain ⟨z, rfl⟩ := List.length_eq_one_iff.1 hl
    have hx : h.next = 509#9 := BitVec.eq_of_toNat_eq (by show _ = 509; omega)
    have e1 : merge h = { node := setNode h.node 509#9 { freq := 5#32, left := z, right := 254#9 }
                          list := [509#9, 255#9], next := 510#9 } := by
      rw [merge_cons h z 254#9 [255#9] he, (hz z (by simp)).2, h4, hx]
      have : insertNode (setNode h.node 509#9 { freq := 0#32 + 5#32, left := z, right := 254#9 }) 509#9 ([] ++ [255#9])
          = [509#9, 255#9] :=
        insertNode_between _ _ [] [255#9] (fun z hm => nomatch hm) fun z hm => by
          rw [freqAt_setNode, freqAt_setNode, if_pos rfl, ← Option.some.inj hm, if_neg (by decide), h5]
          show 0#32 + 5#32 < 9#32
          decide
      exact congrArg (fun l => ({ node := _, list := l, next := _ } : Htb)) this
    have e2 := merge_cons (merge h) 509#9 255#9 [] (by rw [e1])
    rw [mergeLoop, if_pos (by rw [he]; simp), mergeLoop, if_pos (by rw [e1]; simp), mergeLoop,
      if_neg (by rw [e2]; simp [insertNode]), e2, e1]
    have h9 : nodeAt (setNode (setNode h.node 509#9 { freq := 5#32, left := z, right := 254#9 }) 510#9
        { freq := freqAt (setNode h.node 509#9 { freq := 5#32, left := z, right := 254#9 }) 509#9
                    + freqAt (setNode h.node 509#9 { freq := 5#32, left := z, right := 254#9 }) 255#9
          left := 509#9, right := 255#9 }) 509#9 = { freq := 5#32, left := z, right := 254#9 } := by
      rw [nodeAt_setNode_other _ _ (by decide), nodeAt_setNode_same]
    exact ⟨by simp, by simp, by rw [h9]⟩
  | succ k ih =>
    have := ih (twoLeft_merge hk)
    obtain ⟨⟨zs, hl, he, -⟩, -⟩ := hk
    rw [mergeLoop, if_pos (by rw [he]; simp)]
    exact this

theorem twoFreqs_codes (h : Htb) :
    (nodeAt (buildTree twoFreqs h).node 510#9).right = 255#9 ∧ (nodeAt (buildTree twoFreqs h).node 510#9).left = 509#9 ∧
      (nodeAt (buildTree twoFreqs h).node 509#9).right = 254#9 := by
  have hb : buildTree twoFreqs h = mergeLoop (beforeMerges twoFreqs h).list.length (beforeMerges twoFreqs h) := rfl
  have hs := twoLeft_start h
  generalize beforeMerges twoFreqs h = g at hb hs
  obtain ⟨zs, hl, he, -⟩ := hs.list
  have hlen : g.list.length = 253 + 3 := by rw [he, List.length_append, hl]; rfl
  rw [hb, hlen]
  exact twoLeft_end hs

/-- Thirteen bytes 255, then 254 255: the escape byte is 255, and distance 254 is met with nothing produced. -/
theorem twoCodes_walk (node : Vector Node 512) (a : (nodeAt node 510#9).right = 255#9)
    (b : (nodeAt node 510#9).left = 509#9) (c : (nodeAt node 509#9).right = 254#9) :
    walkBits node 510#9 15 510#9 (payloadBits [0xFF, 0xDF, 0x00]) = List.replicate 13 255#8 ++ [254#8, 255#8] := by
  have one : ∀ room bits, walkBits node 510#9 (room + 1) 510#9 (true :: bits)
      = 255#8 :: walkBits node 510#9 room 510#9 bits := by
    intro room bits
    rw [walkBits]
    simp only [if_true, a]
    exact if_pos (by decide)
  have two : ∀ room bits, walkBits node 510#9 (room + 1) 510#9 (false :: true :: bits)
      = 254#8 :: walkBits node 510#9 room 510#9 bits := by
    intro room bits
    rw [walkBits]
    simp only [Bool.false_eq_true, if_false, b]
    rw [if_neg (by decide), walkBits]
    simp only [if_true, c]
    exact if_pos (by decide)
  have none' : ∀ bit bits, walkBits node 510#9 0 510#9 (bit :: bits) = [] := fun bit bits => by rw [walkBits]
  have hb : payloadBits [0xFF, 0xDF, 0x00] = true :: true :: true :: true :: true :: true :: true :: true :: true :: true ::
      true :: true :: true :: false :: true :: true :: false :: List.replicate 7 false := by decide
  rw [hb, one, one, one, one, one, one, one, one, one, one, one, one, one, two, one, none']
  rfl

/-- A range whose payload decodes to thirteen bytes 255 and then 254 and 255. -/
def badRange : List Byte :=
  [15, 0, 0, 0, 3, 0, 0, 0] ++ List.replicate 1016 0 ++ [5, 0, 0, 0, 9, 0, 0, 0] ++ [0xFF, 0xDF, 0x00]

theorem badRange_table : (subHeaderOf badRange).freqs = twoFreqs := by
  have h : wordsOf 256 (badRange.drop 8)
      = (List.range 256).map fun i => if i = 255 then 9#32 else if i = 254 then 5#32 else 0#32 := by decide +kernel
  apply Vector.ext
  intro i hi
  simp only [subHeaderOf, h, twoFreqs, Vector.getElem_mk, List.getElem_toArray, List.getElem_map, List.getElem_range,
    Vector.getElem_ofFn]

theorem treeOf_eq (freqs : Vector U32 256) : treeOf freqs = (buildTree freqs blankHtb).node := rfl

theorem badRange_walk : walkBits (treeOf (subHeaderOf badRange).freqs) 510#9 15 510#9 (payloadBits (badRange.drop 0x408))
    = List.replicate 13 255#8 ++ [254#8, 255#8] := by
  have hd : badRange.drop 0x408 = [0xFF, 0xDF, 0x00] := by decide +kernel
  rw [badRange_table, hd, treeOf_eq]
  obtain ⟨a, b, c⟩ := twoFreqs_codes blankHtb
  generalize (buildTree twoFreqs blankHtb).node = node at a b c ⊢
  exact twoCodes_walk node a b c

/-- A distance of 254 with nothing produced. -/
theorem witness_VariantSelectorsRaise_backReference :
    (let s := rangeState badRange 4
     0x408 ≤ s.seq.psize ∧ s.bytesAt .src s.seq.poff s.seq.psize = some badRange ∧
      (subHeaderOf badRange).decodedLength.toInt = 15 ∧ s.caps.midCap = none ∧ s.plane = Memory.filled s.drv.n) ∧
    Buildable (subHeaderOf badRange).freqs ∧
    ∀ prod mid : List Byte,
      prod = walkBits (treeOf (subHeaderOf badRange).freqs) 510#9 15 510#9 (payloadBits (badRange.drop 0x408)) →
      mid = padTo 15 prod → expandTokens mid.length (mid.getD 8 0) (mid.drop 12) 4 [] = .bad [] 254 := by
  refine ⟨⟨by decide +kernel, by decide +kernel, by decide +kernel, rfl, rfl⟩, ?_, ?_⟩
  · rw [badRange_table]
    exact twoFreqs_buildable
  · intro prod mid hp hm
    rw [badRange_walk] at hp
    rw [hm, hp]
    decide +kernel

/-! ### The whole command -/

/-- A container of 31 bytes. -/
theorem witness_SeqDecodeRejectsOtherFormats_short : (startedWith (p1.take 31)).src.len < 0x20 := by decide

/-- P1 with one byte appended (V-SEQ-2): every test but the size sum passes. -/
theorem witness_SeqDecodeRejectsOtherFormats_sum :
    ¬ Accepted (srcHeader (startedWith (p1 ++ [7]))) (startedWith (p1 ++ [7])).src.len := by
  intro h
  exact absurd h.2.2.2.2.2.2.2 (by decide +kernel)

theorem p1_accepted : Accepted (srcHeader (startedWith p1)) (startedWith p1).src.len :=
  ⟨.inl (by decide +kernel), .inl (by decide +kernel), .inl (by decide +kernel), by decide +kernel, by decide +kernel,
    by decide +kernel, by decide +kernel, by decide +kernel⟩

/-- P1, with PLANE_CAP exactly its four bytes. -/
theorem witness_SeqDecodeAlwaysEnds :
    let s := { startedWith p1 with caps := { State.reset.caps with planeCap := some 4 } }
    0x20 ≤ s.src.len ∧ Accepted (srcHeader s) s.src.len ∧ s.caps.planeCap = some 4 ∧
      edgeSpan (srcHeader s).left (srcHeader s).right * edgeSpan (srcHeader s).top (srcHeader s).bottom ≤ 4 :=
  ⟨by decide, p1_accepted, rfl, by decide +kernel⟩

theorem p1_decodable : Decodable (startedWith p1) := ⟨by decide, p1_accepted, fun _ hc => nomatch hc⟩

/-- P1, whose red plane is decoded; the lane of a colour of size 0 is not. -/
theorem witness_ContainerDecodesToItsPixels_rle :
    Decodable (startedWith p1) ∧ (srcHeader (startedWith p1)).variant = 0x01#8 ∧
      decodes (srcHeader (startedWith p1)) 2 ∧ ¬ decodes { p1Header with rSize := 0 } 2 :=
  ⟨p1_decodable, by decide +kernel, ⟨by decide +kernel, by decide⟩, fun h => absurd h.1 (by decide)⟩

/-- A 1 × 1 image of 32 bits under VARIANT `v` with an alpha plane that decodes (a sub-header of HLEN 0) and a red
range of `red`. -/
def huffmanContainer (v : Byte) (red : List Byte) : List Byte :=
  [1, v, 0, 0, 0, 0, 32, 0, 0, 0, 1, 0, 0, 0, 1, 0, 0x08, 0x04, 0, 0] ++ bytes32 (BitVec.ofNat 32 red.length)
    ++ [0, 0, 0, 0, 0, 0, 0, 0] ++ subBytes 0 ++ red

theorem huffmanContainer_decodable {v : Byte} (hv : v = 0xA1 ∨ v = 0xA2) {red : List Byte} (hr : red = [] ∨ red = [5]) :
    Decodable (startedWith (huffmanContainer v red)) := by
  rcases hv with rfl | rfl <;> rcases hr with rfl | rfl <;>
    exact ⟨by decide +kernel, ⟨.inl (by decide +kernel), by decide +kernel, .inr (by decide +kernel), by decide +kernel,
      by decide +kernel, by decide +kernel, by decide +kernel, by decide +kernel⟩, fun _ hc => nomatch hc⟩

/-- The alpha plane decodes, and the colours are absent. -/
theorem witness_ContainerDecodesToItsPixels_huffman {v : Byte} (hv : v = 0xA1 ∨ v = 0xA2) :
    Decodable (startedWith (huffmanContainer v [])) ∧ decodes (srcHeader (startedWith (huffmanContainer v []))) 3 ∧
      planeOf (startedWith (huffmanContainer v [])) 3 = .done [0] false true := by
  refine ⟨huffmanContainer_decodable hv (.inl rfl), ⟨?_, fun _ => ?_⟩, ?_⟩ <;> rcases hv with rfl | rfl <;> decide +kernel

/-- The alpha plane decodes, and the red range, one byte, holds no sub-header. -/
theorem witness_FirstFailingPlaneEndsTheCommand {v : Byte} (hv : v = 0xA1 ∨ v = 0xA2) :
    Decodable (startedWith (huffmanContainer v [5])) ∧ decodes (srcHeader (startedWith (huffmanContainer v [5]))) 2 ∧
      planeOf (startedWith (huffmanContainer v [5])) 2 = .failed .badSubHeader 0 0 false ∧
      planeOf (startedWith (huffmanContainer v [5])) 3 = .done [0] false true := by
  refine ⟨huffmanContainer_decodable hv (.inr rfl), ⟨?_, fun h => nomatch h⟩, ?_, ?_⟩ <;> rcases hv with rfl | rfl <;>
    decide +kernel

/-- P1 with PLANE_CAP one less than its four bytes. -/
theorem witness_ImageAbovePlaneCapIsRefused :
    let s := { startedWith p1 with caps := { State.reset.caps with planeCap := some 3 } }
    0x20 ≤ s.src.len ∧ Accepted (srcHeader s) s.src.len ∧ s.caps.planeCap = some 3 ∧
      3 < imageWidth (srcHeader s) * imageHeight (srcHeader s) :=
  ⟨by decide, p1_accepted, rfl, by decide +kernel⟩

/-- P1 with FORMAT 2 and another canvas (V-SEQ-7, V-SEQ-12). -/
def p1Canvas : List Byte := [0x02, 0x01, 0x80, 0x02, 0xE0, 0x01] ++ p1.drop 6

theorem witness_CanvasAndFormatDoNotMatter :
    p1.length = p1Canvas.length ∧ 0x20 ≤ p1.length ∧
      (∀ a, a ≠ 0 → (a < 2 ∨ 6 ≤ a) → p1[a]? = p1Canvas[a]?) ∧
      (p1[0]? = some 1#8 ∨ p1[0]? = some 2#8) ∧ (p1Canvas[0]? = some 1#8 ∨ p1Canvas[0]? = some 2#8) ∧
      went (exec .seqDecode { startedWith p1 with src := Memory.ofBytes p1 }) = true := by
  refine ⟨by decide, by decide, ?_, by decide, by decide, by decide +kernel⟩
  intro a h0 h
  match a, h0, h with
  | 0, h0, _ => exact absurd rfl h0
  | 1, _, _ => rfl
  | 2, _, h => omega
  | 3, _, h => omega
  | 4, _, h => omega
  | 5, _, h => omega
  | k + 6, _, _ => rfl

/-- An engine fresh from reset and one that has been used, with the same container. -/
theorem witness_OutcomeDependsOnTheContainerAlone :
    let s := { State.reset with src := Memory.ofBytes p1 }
    let t := { startedWith p1 with
      status := .error, trunc := 0xFF, stage := .idle, plane := Memory.filled 9
      latched := { hdr := true, sub := true, lzhdr := true } }
    s.src = t.src ∧ s.caps = t.caps ∧ went (exec .start s) = true ∧ went (exec .start t) = true ∧
      went (exec .seqDecode (after (exec .start s))) = true := by decide +kernel

/-! ### The host -/

/-- SRC_CAP equal to the container's length. -/
theorem witness_LoadStoresTheContainer :
    State.reset.status ≠ .busy ∧
      (∀ c, ({ State.reset with caps := { State.reset.caps with srcCap := some 38 } } : State).caps.srcCap = some c →
        p1.length ≤ c) :=
  ⟨by decide, fun c hc => by cases hc; decide⟩

theorem witness_StartBeginsACommand : ({ State.reset with status := .error } : State).status ≠ .busy := by decide

/-- A busy engine; and an idle one whose SRC_CAP is one byte too small. -/
theorem witness_HostMovesOutsideTheirColumnAreRefused :
    (startedWith p1).status = .busy ∧ State.reset.status ≠ .busy ∧
      ({ State.reset with caps := { State.reset.caps with srcCap := some 37 } } : State).caps.srcCap = some 37 ∧
      37 < p1.length := by decide

/-- P1 decoded. -/
def p1Done : State := after (exec .seqDecode (startedWith p1))

/-- A busy engine; one in DONE with PIX of 12 bytes, its sub-header latches unwritten (RLE alone) or written; in ERROR; in
REJECT with a header latched and without; in IDLE. -/
theorem witness_HostReadsFollowTheStatus :
    (startedWith p1).status = .busy ∧ p1Done.status = .done ∧ 11 < p1Done.drv.n * p1Done.drv.bypp ∧
      p1Done.pix.read 11 = some 0x10 ∧ p1Done.drv.n * p1Done.drv.bypp ≤ 12 ∧
      p1Done.latched = { hdr := true, sub := false, lzhdr := false } ∧
      ({ p1Done with latched := { hdr := true, sub := true, lzhdr := true } } : State).status = .done ∧
      (after (exec .htbBuild (busyAt .build))).status = .error ∧
      (after (exec .seqDecode (startedWith (p1 ++ [7])))).status = .reject ∧
      (after (exec .seqDecode (startedWith (p1 ++ [7])))).latched.hdr = true ∧
      (after (exec .seqDecode (startedWith (p1.take 31)))).status = .reject ∧
      (after (exec .seqDecode (startedWith (p1.take 31)))).latched.hdr = false ∧ State.reset.status = .idle := by
  decide +kernel

/-! ### Decoding -/

theorem witness_DecodeOfEncodeIsTheInstruction :
    WellFormed 0x7E (.lzcpy 0xFF 0) = true ∧ codeSpace (.lzcpy 0xFF 0) = some .lt ∧
      WellFormed 0 (.lit 127) = true ∧ codeSpace (.lit 127) = some .rc ∧
      WellFormed 0 (.hdr p1Header) = true ∧ codeSpace (.hdr p1Header) = some .ch := by decide

/-- A byte code and a payload bit. -/
theorem witness_AcceptedBytesAreTheEncoding :
    decode .lt 0x7E [0x7E, 0x7E, 0x41] = .ok .lzesc 2 ∧ decode .hb 0 [0xFF] = .ok .hb1 1 := by decide

/-! ### The step -/

theorem witness_StepRunsTheDecodedCode_run :
    let s := runState [0x83, 0xAA] 4
    NoMoveDue s ∧ s.status = .busy ∧ s.stage = .rle ∧ s.rle.rsp < s.rle.rsrcb ∧ s.rle.rdp < s.rle.rdstb ∧
      s.byteAt (runSpace s.rle.rsrc) (s.rle.rbase + s.rle.rsp) = some 0x83#8 ∧
      decode .rc 0 [0x83#8] = .ok (.rep 3) 1 := ⟨.inl rfl, by decide⟩

/-- The last token of a stream: one byte of MID is left. -/
theorem witness_StepRunsTheDecodedCode_token :
    let s := tokenState 0x7E [0x41] 4
    NoMoveDue s ∧ s.status = .busy ∧ s.stage = .lz ∧ s.lz.lsp < s.lz.llen ∧ s.lz.ldp < s.lz.ldstb ∧
      s.bytesAt .mid s.lz.lsp (min 3 (s.lz.llen - s.lz.lsp)) = some [0x41#8] ∧
      decode .lt s.lz.special [0x41#8] = .ok (.lzlit 0x41) 1 := ⟨.inl rfl, by decide⟩

/-- The last bit of the payload. -/
theorem witness_StepRunsTheDecodedCode_bit :
    let s := { walkState with br := { walkState.br with bitI := 7 } }
    NoMoveDue s ∧ s.status = .busy ∧ s.stage = .huffWalk ∧ s.hsw.hprod < hlenOf s.sub ∧ 256 ≤ s.hsw.cur.toNat ∧
      s.br.byteP < s.br.payLen ∧ s.byteAt .src (s.br.payBase + s.br.byteP) = some 0x06#8 ∧
      decode .hb 0 [0x06#8 >>> s.br.bitI.toNat] = .ok .hb0 1 := ⟨.inl rfl, by decide⟩

theorem witness_StepRunsTheIssuedInstruction :
    NoMoveDue (startedWith p1) ∧ NoMoveDue { startedWith p1 with host := [.load p1] } ∧
      (startedWith p1).status = .busy ∧ fetch (startedWith p1) = .instr (.hdr p1Header) .hdrFormat :=
  ⟨.inl rfl, .inr ⟨rfl, [], .inr ⟨p1, rfl⟩⟩, rfl, by decide +kernel⟩

theorem witness_IdleEngineDoesNothing : State.reset.host = [] ∧ State.reset.status ≠ .busy := by decide

/-- Each move first in the list, with STATUS BUSY and not. -/
theorem witness_HostMovesAreTakenInTurn :
    ({ startedWith p1 with host := [.reset, .start] } : State).host = .reset :: [.start] ∧
      (∀ e ∈ [HostEvent.load p1, .start, .wait],
        ({ State.reset with host := [e] } : State).host = e :: [] ∧ State.reset.status ≠ .busy ∧
        ({ startedWith p1 with host := [e] } : State).host = e :: [] ∧ (startedWith p1).status = .busy ∧
        went (step { startedWith p1 with host := [e] }) = true) := by decide +kernel

/-- R230: LOAD and START are taken from the list, and START waits while the command runs. -/
theorem test_host_moves :
    (after (step { State.reset with host := [.load p1, .start] })).host = [.start] ∧
      (after (step { startedWith p1 with host := [.start] })).host = [.start] ∧
      (after (step { startedWith p1 with host := [.start] })).stage = .hdrFormat := by decide +kernel

/-! ### What every instruction leaves alone -/

theorem witness_OnlyTheHostWritesSrc : went (exec .lzExpand (tokenState 0x7E [1, 2, 3, 0x7E, 1, 3] 6)) = true := by decide

theorem witness_TruncIsSticky :
    went (exec (.rleExpand .src 0 2) { runState [0x83, 0xAA] 4 with trunc := 0x80 }) = true ∧
      ({ runState [0x83, 0xAA] 4 with trunc := 0x80 } : State).trunc.getLsbD 7 = true := by decide

theorem witness_OnlyStartMakesBusy :
    went (exec .nop (runState [0] 4)) = true ∧ (after (exec .nop (runState [0] 4))).status = .busy := by decide

theorem witness_OnlyPilAndPixInitWritePix :
    went (exec .nop (runState [0] 4)) = true ∧
      went (exec .pilPlace (placeState 3 2 3 2 [1, 2, 3, 4, 5, 6])) = true := by decide

/-! ### Invariants -/

/-- P1's red plane in the middle of its expansion. -/
def midPlane : State :=
  { startedWith p1 with
    stage := .rle
    hdr := p1Header
    drv := { width := 2, height := 2, n := 4, alpha := false, bypp := 3, pixFmt := false }
    plane := Memory.filled 4
    pix := Memory.filled 12
    seq := { poff := 0x20, psize := 2, pch := 2, py := 0, px := 0 }
    rle := { rsrc := .src, rbase := 0x20, rsrcb := 2, rsp := 0, rdstb := 4, rdp := 0, rc := 0, rv := 0, rlen := 0 } }

theorem midPlane_inv : Inv midPlane where
  mem := ⟨Memory.ofBytes_wf _, Memory.filled_wf _, Memory.filled_wf _, Memory.filled_wf _⟩
  running := by decide
  errored := by decide
  clear := by decide
  list := rfl
  pixFmt := rfl

theorem midPlane_cursors : CursorInv midPlane := ⟨by decide, by decide, by decide, by decide, by decide, by decide⟩

theorem midPlane_safe : SafeState midPlane where
  inv := midPlane_inv
  pos :=
    ⟨⟨by decide, by decide, rfl⟩, ⟨rfl, rfl⟩, ⟨by decide, by decide, by decide⟩, rfl, rfl, by decide⟩

theorem witness_StepKeepsTheInvariant : Inv midPlane ∧ went (step midPlane) = true := ⟨midPlane_inv, by decide⟩

theorem witness_StepKeepsTheCursorRanges : CursorInv midPlane ∧ went (step midPlane) = true := ⟨midPlane_cursors, by decide⟩

theorem witness_SafeStepsNeverFault : SafeState midPlane ∧ went (step midPlane) = true := ⟨midPlane_safe, by decide⟩

/-! ### Grains -/

theorem witness_RunCodesMakeUpRleExpand :
    let s := { midPlane with stage := .expand }
    s.host = [] ∧ s.status = .busy ∧ s.grain = .code ∧ s.stage = .expand ∧ s.hdr.variant ≠ 0xA2#8 ∧
      went (exec (.rleExpand (runOperands s).1 (runOperands s).2.1 (runOperands s).2.2) s) = true := by decide +kernel

/-- A stream that fills the plane, and one with a fatal back-reference. -/
theorem witness_TokensMakeUpLzExpand :
    ∀ payload ∈ [[1, 2, 3, 0x7E, 1, 3], [(1 : Byte), 0x7E, 2, 1]],
      let s := { tokenState 0x7E payload 6 with stage := .expand, hdr := { p1Header with variant := 0xA2 } }
      s.host = [] ∧ s.status = .busy ∧ s.grain = .code ∧ s.stage = .expand ∧ s.hdr.variant = 0xA2#8 ∧
        went (exec .lzExpand s) = true := by decide +kernel

theorem witness_BitsMakeUpHufDecode :
    let s := { walkState with stage := .huff }
    s.host = [] ∧ s.status = .busy ∧ s.grain = .code ∧ s.stage = .huff ∧ went (exec .hufDecode s) = true := by
  decide +kernel

/-- At the finest grain and at the coarsest. -/
theorem witness_EveryGrainReachesTheSameEnd :
    ∀ g ∈ [Grain.code, Grain.command],
      let s := { startedWith p1 with grain := g }
      s.host = [] ∧ s.status = .busy ∧ s.stage = .hdrRead ∧ went (exec .seqDecode s) = true := by decide +kernel

end Sys2Proof.Tests
end

/-! PROOFS. The statements of 10_state.md: the invariants of every step, what every instruction leaves alone, what the
host reads, and the code a step runs. -/

namespace Sys2Proof.Machine

/-! ## One induction step for every invariant -/

/-- The host's three moves (R230). -/
def HostMove (i : Instr) : Prop := i = .reset ∨ i = .start ∨ ∃ bs, i = .load bs

/-- What looks at no coming move of the host, and is kept by a turn of the engine and by each move of the host, is kept
by every step. -/
theorem step_preserves {P : State → Prop} (hhost : ∀ s rest, P s → P { s with host := rest })
    (hengine : ∀ s t, P s → engineStep s = .next t → P t)
    (hmove : ∀ i s t, HostMove i → P s → exec i s = .next t → P t)
    {s t : State} (hs : P s) (h : step s = .next t) : P t := by
  rcases step_cases h with ⟨rest, he⟩ | ⟨i, rest, hi, he⟩
  · exact hengine _ t (hhost s rest hs) he
  · have hm : HostMove i := by
      rcases hi with hr | ⟨-, hst | hld⟩
      · exact .inl hr
      · exact .inr (.inl hst)
      · exact .inr (.inr hld)
    exact hmove i _ t hm (hhost s rest hs) he

/-- RESET answers the reset state, but for the grain, the host's coming moves and the capacities (R280). -/
theorem reset_next {s t : State} (h : exec .reset s = .next t) :
    t = { State.reset with grain := s.grain, host := s.host, caps := s.caps } := by
  have h' : (hostReset s).toOutcome = .next t := h
  cases h'
  rfl

/-- The engine issues none of the host's moves (R230). -/
theorem fetch_notHostMove {s : State} {i : Instr} {after : Stage} (h : fetch s = .instr i after) : ¬ HostMove i := by
  obtain ⟨hload, hstart, hreset, -⟩ := fetch_instr h
  exact fun hi => hi.elim hreset fun hi => hi.elim hstart fun ⟨bs, e⟩ => hload bs e

/-- Every instruction but the host's three goes on as `Goes` or ends the command as `Ends`. -/
theorem exec_goes_or_ends {i : Instr} {s t : State} (hi : ¬ HostMove i) (h : exec i s = .next t) : Goes s t ∨ Ends s t :=
  exec_keeps i s t (fun bs e => hi (.inr (.inr ⟨bs, e⟩))) (fun e => hi (.inr (.inl e))) (fun e => hi (.inl e)) h

/-- Every instruction but the host's three keeps what `Keeps` says. -/
theorem exec_keeps_of_not_hostMove {i : Instr} {s t : State} (hi : ¬ HostMove i) (h : exec i s = .next t) : Keeps s t :=
  (exec_goes_or_ends hi h).elim (fun hg => hg.toKeeps) fun he => he.toKeeps

/-! ## The invariant (O50) -/

theorem reset_inv : Inv State.reset where
  mem := reset_memWf
  running := by decide
  errored := by decide
  clear := fun _ => rfl
  list := rfl
  pixFmt := rfl

theorem Inv.withHost {s : State} (h : Inv s) (rest : List HostEvent) : Inv { s with host := rest } :=
  ⟨h.mem, h.running, h.errored, h.clear, h.list, h.pixFmt⟩

/-- A part of a running command that goes on, the sequencer moved to another position. -/
theorem Inv.goes {s u : State} (h : Inv s) (hb : s.status = .busy) (hg : Goes s u) {x : Stage} (hx : x ≠ .idle) :
    Inv (atStage x u) where
  mem := hg.wf h.mem
  running := by simp [hg.status, hb, hx]
  errored := by simpa [hg.status, hg.err] using h.errored
  clear := by simpa [hg.status, hg.err] using h.clear
  list := hg.list h.list
  pixFmt := hg.pixFmt h.pixFmt

/-- The end of a running command: only the fatal entry leaves a cause (R35, R250). -/
theorem Inv.ends {s t : State} (h : Inv s) (hb : s.status = .busy) (he : Ends s t) : Inv t := by
  have quiet : t.status ≠ .busy → t.status ≠ .error → t.err = s.err → Inv t := fun hnb hne herr => by
    have hclear : t.err = ErrRegs.clear := herr.trans (h.clear (by simp [hb]))
    exact ⟨he.wf h.mem, by simp [hnb, he.stage], by simp [hne, hclear, ErrRegs.clear], fun _ => hclear, he.list h.list,
      he.pixFmt h.pixFmt⟩
  rcases he.how with ⟨hst, herr⟩ | ⟨hst, herr⟩ | ⟨hst, hc⟩
  · exact quiet (by simp [hst]) (by simp [hst]) herr
  · exact quiet (by simp [hst]) (by simp [hst]) herr
  · exact ⟨he.wf h.mem, by simp [hst, he.stage], by simp [hst, hc], fun hne => absurd hst hne, he.list h.list,
      he.pixFmt h.pixFmt⟩

theorem Ends.notBusy {s t : State} (h : Ends s t) : t.status ≠ .busy := by
  rcases h.how with ⟨hst, -⟩ | ⟨hst, -⟩ | ⟨hst, -⟩ <;> simp [hst]

/-- SEQ.DECODE answers only with the command ended (R231). -/
theorem seqDecode_ends {s t : State} (h : exec .seqDecode s = .next t) : Ends s t :=
  Flow.Post.next ((seqDecode_post s).mono (fun _ hf => hf.elim) (fun _ he => he) fun _ h => h) h

/-- An instruction the sequencer issued: the command has ended, or it runs on and the sequencer takes a position. -/
theorem issued_inv {s u : State} {i : Instr} {after : Stage} (hs : Inv s) (hb : s.status = .busy)
    (hf : fetch s = .instr i after) (hu : exec i s = .next u) :
    Inv (if u.status = .busy then atStage after u else u) := by
  have ended : Ends s u → Inv (if u.status = .busy then atStage after u else u) := fun he => by
    rw [if_neg he.notBusy]
    exact hs.ends hb he
  obtain ⟨-, -, -, rfl | hpos⟩ := fetch_instr hf
  · exact ended (seqDecode_ends hu)
  · rcases exec_goes_or_ends (fetch_notHostMove hf) hu with hg | he
    · rw [if_pos (hg.status.trans hb)]
      exact hs.goes hb hg hpos
    · exact ended he

/-- A turn of the engine keeps the invariant. -/
theorem engineStep_inv {s t : State} (hs : Inv s) (h : engineStep s = .next t) : Inv t := by
  rcases engineStep_cases h with ⟨-, rfl⟩ | ⟨hb, i, after, u, hf, hu, rfl⟩ | ⟨hb, m, -, hm⟩
  · exact hs
  · exact issued_inv hs hb hf hu
  · refine Flow.Post.next ((runMove_post m s (hs.running.1 hb)).mono ?_ ?_ fun _ h => h) hm
    · rintro t ⟨u, x, hg, hx, rfl⟩
      exact hs.goes hb hg hx
    · exact fun t he => hs.ends hb he

/-- LOAD, START and RESET keep the invariant. -/
theorem hostMove_inv {i : Instr} {s t : State} (hi : HostMove i) (hs : Inv s) (h : exec i s = .next t) : Inv t := by
  rcases hi with rfl | rfl | ⟨bs, rfl⟩
  · rw [reset_next h]
    exact ⟨reset_inv.mem, reset_inv.running, reset_inv.errored, reset_inv.clear, rfl, rfl⟩
  · obtain ⟨-, rfl⟩ := start_next s t h
    exact ⟨hs.mem, by simp, by simp [ErrRegs.clear], fun _ => rfl, hs.list, hs.pixFmt⟩
  · obtain ⟨-, rfl⟩ := load_next bs s t h
    obtain ⟨-, hmid, hplane, hpix⟩ := hs.mem
    exact ⟨⟨Memory.ofBytes_wf bs, hmid, hplane, hpix⟩, hs.running, hs.errored, hs.clear, hs.list, hs.pixFmt⟩

/-- Settles O50: every part of a command keeps the invariant by `Goes` or `Ends`, and so do the host's moves. -/
theorem stepKeepsTheInvariant : Obligations.StepKeepsTheInvariant :=
  fun _ _ hs h => step_preserves (P := Inv) (fun _ rest h => h.withHost rest) (fun _ _ => engineStep_inv)
    (fun _ _ _ => hostMove_inv) hs h

/-! ## The cursor ranges (O51) -/

/-- The ranges speak of the three groups of registers R21, R24 and R25 alone. -/
theorem CursorInv.congr {s t : State} (h : CursorInv s) (hbr : t.br = s.br) (hrle : t.rle = s.rle) (hlz : t.lz = s.lz) :
    CursorInv t where
  byteP := hbr ▸ h.byteP
  rsp := hrle ▸ h.rsp
  rdp := hrle ▸ h.rdp
  lsp := hlz ▸ h.lsp
  ldp := hlz ▸ h.ldp
  loff := hlz ▸ h.loff

theorem reset_cursors : CursorInv State.reset :=
  ⟨by decide, by decide, by decide, by decide, by decide, by decide⟩

theorem RleFrame.cursors {s t : State} (f : RleFrame s t) (h : CursorInv s) : CursorInv t where
  byteP := by rw [f.rest]; exact h.byteP
  rsp := by rw [f.rsrcb]; exact f.rspLe h.rsp
  rdp := by rw [f.rdstb]; exact f.rdpLe h.rdp
  lsp := by rw [f.rest]; exact h.lsp
  ldp := by rw [f.rest]; exact h.ldp
  loff := by rw [f.rest]; exact h.loff

theorem LzFrame.cursors {s t : State} (f : LzFrame s t) (h : CursorInv s) : CursorInv t where
  byteP := by rw [f.rest]; exact h.byteP
  rsp := by rw [f.rest]; exact h.rsp
  rdp := by rw [f.rest]; exact h.rdp
  lsp := by rw [f.llen]; exact f.lspLe h.lsp
  ldp := by rw [f.ldstb]; exact f.ldpLe h.ldp
  loff := f.loffLe h.loff

theorem LzRaised.cursors {s t : State} (r : LzRaised s t) (h : CursorInv s) : CursorInv t := by
  obtain ⟨u, hf, -, hr⟩ := r
  cases hr
  exact (hf.cursors h).congr rfl rfl rfl

theorem WalkFrame.cursors {s t : State} (f : WalkFrame s t) (h : CursorInv s) : CursorInv t where
  byteP := by rw [f.payLen]; exact f.byteLe h.byteP
  rsp := by rw [f.rest]; exact h.rsp
  rdp := by rw [f.rest]; exact h.rdp
  lsp := by rw [f.rest]; exact h.lsp
  ldp := by rw [f.rest]; exact h.ldp
  loff := by rw [f.rest]; exact h.loff

theorem PilFrame.cursors {s t : State} (f : PilFrame s t) (h : CursorInv s) : CursorInv t :=
  h.congr (by rw [f.rest]) (by rw [f.rest]) (by rw [f.rest])

/-- A piece of pseudocode that leaves the cursors in their ranges, whether it goes on or ends the command. -/
abbrev Flow.InRange (x : Flow) : Prop := x.Post CursorInv CursorInv fun _ => True

theorem Flow.InRange.andThen {x : Flow} {f : State → Flow} (hx : x.InRange) (hf : ∀ s, CursorInv s → (f s).InRange) :
    (x.andThen f).InRange := Flow.Post.andThen hx hf

/-! ### The ends of a command -/

theorem reject_inRange {s : State} (h : CursorInv s) : (reject s).InRange := h.congr rfl rfl rfl

theorem raise_inRange (c : ErrCause) (pos : Nat) (off : Byte) {s : State} (h : CursorInv s) :
    (raise c pos off s).InRange := h.congr rfl rfl rfl

theorem finish_inRange {s : State} (h : CursorInv s) : (finish s).InRange := h.congr rfl rfl rfl

/-! ### The header and the tree, which have no cursor -/

theorem hdrRead_inRange (r : Header) {s : State} (h : CursorInv s) : (hdrRead r s).InRange := by
  unfold hdrRead
  split
  · exact reject_inRange h
  · exact h.congr rfl rfl rfl

theorem hdrFetch_inRange {s : State} (h : CursorInv s) : (hdrFetch s).InRange := by
  unfold hdrFetch
  split
  · exact reject_inRange h
  · exact withBytes_post (fun _ _ => hdrRead_inRange _ h) fun _ => trivial

theorem checkFormat_inRange {s : State} (h : CursorInv s) : (checkFormat s).InRange := by
  rw [checkFormat_eq]
  split
  · exact h
  · exact reject_inRange h

theorem checkSelectors_inRange {s : State} (h : CursorInv s) : (checkSelectors s).InRange := by
  rw [checkSelectors_eq]
  split
  · exact h
  · exact reject_inRange h

theorem checkSizes_inRange {s : State} (h : CursorInv s) : (checkSizes s).InRange := by
  rw [checkSizes_eq]
  split
  · exact h
  · exact reject_inRange h

theorem geometry_inRange {s : State} (h : CursorInv s) : (geometry s).InRange := by
  unfold geometry
  simp only
  split
  · trivial
  · exact h.congr rfl rfl rfl

theorem pixInit_cursors (alpha : Bool) {s : State} (h : CursorInv s) : CursorInv (pixInit alpha s) := h.congr rfl rfl rfl

theorem acceptHeader_inRange {s : State} (h : CursorInv s) : (acceptHeader s).InRange :=
  (((((hdrFetch_inRange h).andThen fun _ => checkFormat_inRange).andThen fun _ => checkSelectors_inRange).andThen
    fun _ => checkSizes_inRange).andThen fun _ => geometry_inRange).andThen fun _ => pixInit_cursors _

theorem subhdrRead_inRange (r : SubHeader) {s : State} (h : CursorInv s) : (subhdrRead r s).InRange := by
  unfold subhdrRead
  simp only
  split
  · exact raise_inRange _ _ _ h
  · split
    · exact h.congr rfl rfl rfl
    · exact h.congr rfl rfl rfl

theorem subhdrFetch_inRange {s : State} (h : CursorInv s) : (subhdrFetch s).InRange := by
  unfold subhdrFetch
  split
  · exact raise_inRange _ _ _ h
  · exact withBytes_post (fun _ _ => subhdrRead_inRange _ h) fun _ => trivial

theorem htbBuild_inRange {s : State} (h : CursorInv s) : (htbBuild s).InRange := by
  unfold htbBuild
  split
  · exact raise_inRange _ _ _ h
  · exact h.congr rfl rfl rfl

/-! ### The units' operations -/

/-- BR.INIT stands before the first bit (R151). -/
theorem hufInit_cursors {s : State} (h : CursorInv s) : CursorInv (hufInit s) where
  byteP := by simp [hufInit]
  rsp := by simpa [hufInit] using h.rsp
  rdp := by simpa [hufInit] using h.rdp
  lsp := by simpa [hufInit] using h.lsp
  ldp := by simpa [hufInit] using h.ldp
  loff := by simpa [hufInit] using h.loff

theorem walkReturn_cursors {s : State} (h : CursorInv s) : CursorInv (walkReturn s) := by
  rw [walkReturn_rest]
  exact h.congr rfl rfl rfl

theorem hufEnd_cursors {s : State} (h : CursorInv s) : CursorInv (hufEnd s) :=
  h.congr (hufEnd_br s) (hufEnd_rle s) (hufEnd_lz s)

theorem hufLoop_inRange (k : Nat) {s : State} (h : CursorInv s) : (hufLoop k s).InRange :=
  (hufLoop_post k s).mono (fun _ ht => ht.1.cursors h) (fun _ hf => hf.elim) fun _ _ => trivial

theorem hufDecode_inRange {s : State} (h : CursorInv s) : (hufDecode s).InRange :=
  (hufLoop_inRange _ (hufInit_cursors h)).andThen fun _ ht => hufEnd_cursors (walkReturn_cursors ht)

/-- RLE.INIT stands before the first byte of both budgets (R170). -/
theorem rleInit_cursors (sp : RunSource) (base budget : Nat) {s : State} (h : CursorInv s) :
    CursorInv (rleInit sp base budget s) := ⟨h.byteP, Nat.zero_le _, Nat.zero_le _, h.lsp, h.ldp, h.loff⟩

theorem rleEnd_cursors {s : State} (h : CursorInv s) : CursorInv (rleEnd s) :=
  h.congr (rleEnd_br s) (rleEnd_rle s) (rleEnd_lz s)

theorem rleLoop_inRange (k : Nat) {s : State} (h : CursorInv s) : (rleLoop k s).InRange :=
  (rleLoop_post k s).mono (fun _ ht => ht.cursors h) (fun _ hf => hf.elim) fun _ _ => trivial

theorem rleExpand_inRange (sp : RunSource) (base budget : Nat) {s : State} (h : CursorInv s) :
    (rleExpand sp base budget s).InRange :=
  (rleLoop_inRange budget (rleInit_cursors sp base budget h)).andThen fun _ => rleEnd_cursors

/-- LZ.INIT stands at the payload's offset, 12, before the first byte of the plane (R190). -/
theorem lzInit_cursors (r : LzHeader) {s : State} (h : CursorInv s) : CursorInv (lzInit r s) :=
  ⟨h.byteP, h.rsp, h.rdp, Nat.le_max_left _ _, Nat.zero_le _, h.loff⟩

theorem lzEnd_cursors {s : State} (h : CursorInv s) : CursorInv (lzEnd s) :=
  h.congr (lzEnd_br s) (lzEnd_rle s) (lzEnd_lz s)

theorem lzLoop_inRange (k : Nat) {s : State} (h : CursorInv s) : (lzLoop k s).InRange :=
  (lzLoop_post k s).mono (fun _ ht => ht.cursors h) (fun _ ht => ht.cursors h) fun _ _ => trivial

theorem lzExpand_inRange {s : State} (h : CursorInv s) : (lzExpand s).InRange :=
  (lzLoop_inRange _ (lzInit_cursors (midHeader s) h)).andThen fun _ => lzEnd_cursors

theorem pilPlace_inRange {s : State} (h : CursorInv s) : (pilPlace s).InRange :=
  (pilPlace_post s).mono (fun _ ht => ht.cursors h) (fun _ hf => hf.elim) fun _ _ => trivial

/-! ### The plan -/

theorem stageOne_inRange {s : State} (h : CursorInv s) : (stageOne s).InRange :=
  ((subhdrFetch_inRange h).andThen fun _ => htbBuild_inRange).andThen fun _ => hufDecode_inRange

theorem planeRle_inRange {s : State} (h : CursorInv s) : (planeRle s).InRange := rleExpand_inRange _ _ _ h

theorem planeHufRle_inRange {s : State} (h : CursorInv s) : (planeHufRle s).InRange :=
  (stageOne_inRange h).andThen fun _ => rleExpand_inRange _ _ _

theorem planeHufLz_inRange {s : State} (h : CursorInv s) : (planeHufLz s).InRange :=
  (stageOne_inRange h).andThen fun _ => lzExpand_inRange

theorem decodePlane_inRange {s : State} (h : CursorInv s) : (decodePlane s).InRange := by
  unfold decodePlane
  split
  · exact planeRle_inRange h
  · split
    · exact planeHufLz_inRange h
    · exact planeHufRle_inRange h

theorem planTurn_inRange (ch : Chan) {s : State} (h : CursorInv s) : (planTurn ch s).InRange := by
  have hc : CursorInv (choosePlane ch s) := h.congr rfl rfl rfl
  have hi : CursorInv (planeInit (choosePlane ch s)) := hc.congr rfl rfl rfl
  unfold planTurn
  simp only
  refine Flow.InRange.andThen ?_ fun t ht => CursorInv.congr (t := planAdvance t) ht rfl rfl rfl
  split
  · exact (decodePlane_inRange hi).andThen fun _ => pilPlace_inRange
  · exact hc

theorem planes_inRange {s : State} (h : CursorInv s) : (planes s).InRange := by
  have hp : CursorInv (planStart s) := h.congr rfl rfl rfl
  exact (((planTurn_inRange _ hp).andThen fun _ => planTurn_inRange _).andThen fun _ => planTurn_inRange _).andThen
    fun _ => planTurn_inRange _

theorem seqDecode_inRange {s : State} (h : CursorInv s) : (seqDecode s).InRange :=
  ((acceptHeader_inRange h).andThen fun _ => planes_inRange).andThen fun _ => finish_inRange

/-! ### The stream codes, each inside its stream -/

theorem decodeRun_codeSpace (c : Byte) : codeSpace (decodeRun c) = some .rc := by
  unfold decodeRun
  split
  · rfl
  · split <;> rfl

/-- What a decoder reads belongs to its own code space (R90, R101). -/
theorem decode_codeSpace {space : CodeSpace} {special : Byte} {bs : List Byte} {i : Instr} {n : Nat}
    (h : decode space special bs = .ok i n) : codeSpace i = some space := by
  cases space with
  | rc =>
    rcases bs with - | ⟨c, rest⟩
    · cases h
    · cases h; exact decodeRun_codeSpace c
  | lt =>
    rcases decodeToken_ok h with ⟨b, rest, -, -, rfl, -⟩ | ⟨rest, -, rfl, -⟩ | ⟨o, cnt, rest, -, -, rfl, -⟩ <;> rfl
  | hb =>
    rcases bs with - | ⟨b, rest⟩
    · cases h
    · cases h; unfold decodeBit; split <;> rfl
  | format =>
    rcases bs with - | ⟨b, rest⟩
    · cases h
    · simp only [decode, decodeFormat] at h
      split at h
      · cases h; rfl
      · split at h <;> cases h; rfl
  | variant =>
    rcases bs with - | ⟨b, rest⟩
    · cases h
    · simp only [decode, decodeVariant] at h
      split at h
      · cases h; rfl
      · split at h
        · cases h; rfl
        · split at h <;> cases h; rfl
  | bpp =>
    rcases bs with - | ⟨b, - | ⟨b', rest⟩⟩
    · cases h
    · cases h
    · simp only [decode, decodeBpp] at h
      split at h
      · cases h; rfl
      · split at h <;> cases h; rfl
  | ch => simp only [decode] at h; split at h <;> cases h; rfl
  | sh => simp only [decode] at h; split at h <;> cases h; rfl
  | lh => simp only [decode] at h; split at h <;> cases h; rfl

/-- The code lies inside what its unit still has to read: the run stream (R173), the bytes of MID from LSP on (R191,
R193), the payload (R152). Only a stream code has such a condition. -/
def CodeFits (i : Instr) (s : State) : Prop :=
  match codeSpace i with
  | some .rc => s.rle.rsp < s.rle.rsrcb
  | some .lt =>
    WellFormed s.lz.special i = true ∧ s.lz.ldp < s.lz.ldstb ∧
      s.lz.lsp + (encode s.lz.special i).length ≤ s.lz.llen
  | some .hb => s.br.byteP < s.br.payLen
  | _ => True

theorem tokenWindow_le (r : LzRegs) : tokenWindow r ≤ r.llen - r.lsp := Nat.min_le_right _ _

/-- A token decoded from the bytes MID still holds fits into them (R191). -/
theorem decodeToken_fits {s : State} {bs : List Byte} {i : Instr} {n : Nat} (hd : s.lz.ldp < s.lz.ldstb)
    (hl : s.lz.lsp + bs.length ≤ s.lz.llen) (h : decode .lt s.lz.special bs = .ok i n) : CodeFits i s := by
  rcases decodeToken_ok h with ⟨b, rest, rfl, hb, rfl, -⟩ | ⟨rest, rfl, rfl, -⟩ | ⟨o, cnt, rest, rfl, ho, rfl, -⟩
  · refine ⟨by simpa [WellFormed] using hb, hd, ?_⟩
    simp only [encode, List.length_cons, List.length_nil] at *; omega
  · refine ⟨rfl, hd, ?_⟩
    simp only [encode, List.length_cons, List.length_nil] at *; omega
  · refine ⟨by simpa [WellFormed] using ho, hd, ?_⟩
    simp only [encode, List.length_cons, List.length_nil] at *; omega

theorem codeFits_of_none {i : Instr} (h : codeSpace i = none) (s : State) : CodeFits i s := by
  unfold CodeFits; rw [h]; trivial

/-- A selector or a record has no stream it could run out of. -/
theorem codeFits_of_record {i : Instr} {space : CodeSpace} (h : codeSpace i = some space) (s : State)
    (hs : space ∉ [CodeSpace.rc, .lt, .hb]) : CodeFits i s := by
  unfold CodeFits; rw [h]; cases space <;> simp_all

theorem fetchDecoded_codeSpace {space : CodeSpace} {special : Byte} {bs : List Byte} {x y : Stage} {m : SeqMove} {i : Instr}
    (h : fetchDecoded space special bs x m = .instr i y) : codeSpace i = some space := by
  obtain ⟨-, n, hn⟩ := fetchDecoded_instr h
  exact decode_codeSpace hn

theorem fetchBytes_codeSpace {space : CodeSpace} {special : Byte} {sp : SpaceId} {a n : Nat} {x y : Stage} {m : SeqMove}
    {s : State} {i : Instr} (h : fetchBytes space special sp a n x m s = .instr i y) : codeSpace i = some space := by
  obtain ⟨-, bs, k, -, hn⟩ := fetchBytes_instr h
  exact decode_codeSpace hn

/-- A payload bit is fetched only while BR has one (R152, R155). -/
theorem fetchWalk_fits {s : State} {i : Instr} {after : Stage} (h : fetchWalk s = .instr i after) : CodeFits i s := by
  unfold fetchWalk at h
  split at h
  · split at h
    · cases h; exact codeFits_of_none rfl s
    · split at h
      · cases h
      · rename_i hx
        split at h
        · cases h
        · unfold CodeFits
          rw [fetchDecoded_codeSpace h]
          simpa [brExhausted] using hx
  · cases h

/-- What the engine issues fits its stream: each unit fetches only while its loop's condition holds. -/
theorem fetch_fits {s : State} {i : Instr} {after : Stage} (h : fetch s = .instr i after) : CodeFits i s := by
  cases hst : s.stage with
  | idle | hdrCheck | plan | select _ | advance => simp only [fetch, hst] at h; cases h
  | build | place => simp only [fetch, hst] at h; cases h; exact codeFits_of_none rfl s
  | hdrFormat | pixFormat =>
    simp only [fetch, hst] at h
    exact codeFits_of_record (fetchDecoded_codeSpace h) s (by decide)
  | hdrRead =>
    simp only [fetch, hst] at h
    split at h
    · cases h; exact codeFits_of_none rfl s
    · split at h
      · cases h
      · exact codeFits_of_record (fetchBytes_codeSpace h) s (by decide)
  | policy =>
    simp only [fetch, hst] at h
    split at h
    · exact codeFits_of_record (fetchDecoded_codeSpace h) s (by decide)
    · cases h
  | subhdr =>
    simp only [fetch, hst] at h
    split at h
    · cases h
    · exact codeFits_of_record (fetchBytes_codeSpace h) s (by decide)
  | huff =>
    simp only [fetch, hst] at h
    split at h
    · cases h
    · cases h; exact codeFits_of_none rfl s
  | huffWalk => simp only [fetch, hst] at h; exact fetchWalk_fits h
  | expand =>
    simp only [fetch, hst] at h
    split at h
    · split at h
      · exact codeFits_of_record (fetchDecoded_codeSpace h) s (by decide)
      · cases h; exact codeFits_of_none rfl s
    · split at h
      · cases h
      · cases h; exact codeFits_of_none rfl s
  | rle =>
    simp only [fetch, hst] at h
    split at h
    · rename_i hm
      simp only [rleMore, Bool.and_eq_true, decide_eq_true_eq] at hm
      unfold CodeFits
      rw [fetchBytes_codeSpace h]
      exact hm.1
    · cases h
  | lz =>
    simp only [fetch, hst] at h
    split at h
    · rename_i hm
      simp only [lzMore, Bool.and_eq_true, decide_eq_true_eq] at hm
      obtain ⟨-, bs, k, hbs, hd⟩ := fetchBytes_instr h
      have hlen := s.bytesAt_length .mid hbs
      have hw := tokenWindow_le s.lz
      exact decodeToken_fits hm.1 (by omega) hd
    · cases h

/-! ### Every instruction and every move of the sequencer -/

/-- The control fetch inside the source budget (R171). -/
theorem rleFetch_cursors (c : Byte) {s : State} (h : CursorInv s) (hf : s.rle.rsp < s.rle.rsrcb) :
    CursorInv (rleFetch c s) := ⟨h.byteP, hf, h.rdp, h.lsp, h.ldp, h.loff⟩

theorem rleLit_inRange (n : BitVec 7) {s : State} (h : CursorInv s) : (rleLit n s).InRange :=
  (rleLit_post n s).mono (fun _ ht => ht.cursors h) (fun _ hf => hf.elim) fun _ _ => trivial

theorem rleRep_inRange (n : BitVec 7) {s : State} (h : CursorInv s) : (rleRep n s).InRange :=
  (rleRep_post n s).mono (fun _ ht => ht.cursors h) (fun _ hf => hf.elim) fun _ _ => trivial

/-- A change of the LZ registers that leaves LDP and LOFF alone and keeps LSP inside MID. -/
theorem CursorInv.lzFetched {s : State} (h : CursorInv s) (r : LzRegs) (hldp : r.ldp = s.lz.ldp)
    (hldstb : r.ldstb = s.lz.ldstb) (hloff : r.loff = s.lz.loff) (hlsp : r.lsp ≤ max 12 r.llen) :
    CursorInv { s with lz := r } :=
  ⟨h.byteP, h.rsp, h.rdp, hlsp, by simp only [hldp, hldstb]; exact h.ldp, by simp only [hloff]; exact h.loff⟩

theorem lzEmit_inRange (v : Byte) {s : State} (h : CursorInv s) (hd : s.lz.ldp < s.lz.ldstb) : (lzEmit v s).InRange :=
  (lzEmit_post v s hd).mono (fun _ ht => ht.1.cursors h) (fun _ hf => hf.elim) fun _ _ => trivial

theorem lzCpy_inRange (o cnt : Byte) {s : State} (h : CursorInv s) (ho : o ≠ s.lz.special) : (lzCpy o cnt s).InRange :=
  (lzCpy_post o cnt s ho).mono (fun _ ht => ht.1.cursors h) (fun _ ht => ht.cursors h) fun _ _ => trivial

/-- The bytes of a token that MID ends inside of are bytes of MID (R191). -/
theorem lzCut_cursors {bs : List Byte} {s : State} (h : CursorInv s) (hl : bs.length = tokenWindow s.lz) :
    CursorInv (lzCut bs s) := by
  have hw := tokenWindow_le s.lz
  match bs, hl with
  | [], _ => exact h
  | [b], hl => exact h.lzFetched _ rfl rfl rfl (by simp only [List.length_cons, List.length_nil] at hl ⊢; omega)
  | b :: o :: rest, hl => exact h.lzFetched _ rfl rfl rfl (by simp only [List.length_cons, lzFetch_lz] at hl ⊢; omega)

/-- A bit consumed while BR has one (R152). -/
theorem walkBit_inRange (right : Bool) {s : State} (h : CursorInv s) (hb : s.br.byteP < s.br.payLen) :
    (walkBit right s).InRange := by
  rw [walkBit_eq]
  split
  · exact ⟨by simp only [brAdvance_byteP, brAdvance_payLen]; split <;> omega, h.rsp, h.rdp, h.lsp, h.ldp, h.loff⟩
  · trivial

theorem hufEmit_inRange {s : State} (h : CursorInv s) : (hufEmit s).InRange := by
  rw [hufEmit_eq]
  split
  · split
    · exact h.congr rfl rfl rfl
    · trivial
  · trivial

/-- Every instruction of the engine, a stream code where it fits its stream, leaves the cursors in their ranges. -/
theorem exec_inRange {i : Instr} {s : State} (h : CursorInv s) (hf : CodeFits i s) (hi : ¬ HostMove i) :
    ∃ x : Flow, exec i s = x.toOutcome ∧ x.InRange := by
  cases i with
  | nop => exact ⟨.go _, rfl, rleFetch_cursors _ h hf⟩
  | lit n => exact ⟨_, rfl, rleLit_inRange n (rleFetch_cursors _ h hf)⟩
  | rep n => exact ⟨_, rfl, rleRep_inRange n (rleFetch_cursors _ h hf)⟩
  | lzlit b =>
    obtain ⟨-, hd, hl⟩ := hf
    have hl' : s.lz.lsp + 1 ≤ s.lz.llen := hl
    exact ⟨_, rfl, lzEmit_inRange b (h.lzFetched (lzFetch b s).lz rfl rfl rfl (by simp only [lzFetch_lz]; omega)) hd⟩
  | lzesc =>
    obtain ⟨-, hd, hl⟩ := hf
    have hl' : s.lz.lsp + 2 ≤ s.lz.llen := hl
    exact ⟨_, rfl, lzEmit_inRange _ (h.lzFetched (lzFetchOffset s.lz.special (lzFetch s.lz.special s)).lz rfl rfl rfl
      (by simp only [lzFetchOffset_lz, lzFetch_lz]; omega)) hd⟩
  | lzcpy o cnt =>
    obtain ⟨hw, -, hl⟩ := hf
    have ho : o ≠ s.lz.special := by simpa [WellFormed] using hw
    have hl' : s.lz.lsp + 3 ≤ s.lz.llen := hl
    exact ⟨_, rfl, lzCpy_inRange o cnt (h.lzFetched (lzFetchCount cnt (lzFetchOffset o (lzFetch s.lz.special s))).lz rfl rfl
      rfl (by simp only [lzFetchCount_lz, lzFetchOffset_lz, lzFetch_lz]; omega)) ho⟩
  | hb0 => exact ⟨_, rfl, walkBit_inRange false h hf⟩
  | hb1 => exact ⟨_, rfl, walkBit_inRange true h hf⟩
  | emit => exact ⟨_, rfl, hufEmit_inRange h⟩
  | format1 => exact ⟨.go s, rfl, h⟩
  | format2 => exact ⟨.go s, rfl, h⟩
  | variantRle => exact ⟨_, rfl, planeRle_inRange h⟩
  | variantHufRle => exact ⟨_, rfl, planeHufRle_inRange h⟩
  | variantHufLz => exact ⟨_, rfl, planeHufLz_inRange h⟩
  | bpp24 => exact ⟨.go _, rfl, pixInit_cursors _ h⟩
  | bpp32 => exact ⟨.go _, rfl, pixInit_cursors _ h⟩
  | hdr r => exact ⟨_, rfl, hdrRead_inRange r h⟩
  | subhdr r => exact ⟨_, rfl, subhdrRead_inRange r h⟩
  | lzhdr r => exact ⟨.go _, rfl, lzInit_cursors r h⟩
  | seqDecode => exact ⟨_, rfl, seqDecode_inRange h⟩
  | htbBuild => exact ⟨_, rfl, htbBuild_inRange h⟩
  | hufDecode => exact ⟨_, rfl, hufDecode_inRange h⟩
  | rleExpand sp base budget => exact ⟨_, rfl, rleExpand_inRange sp base budget h⟩
  | lzExpand => exact ⟨_, rfl, lzExpand_inRange h⟩
  | pilPlace => exact ⟨_, rfl, pilPlace_inRange h⟩
  | load bs => exact absurd (.inr (.inr ⟨bs, rfl⟩)) hi
  | start => exact absurd (.inr (.inl rfl)) hi
  | reset => exact absurd (.inl rfl) hi

theorem atStage_cursors (x : Stage) {s : State} (h : CursorInv s) : CursorInv (atStage x s) := h.congr rfl rfl rfl

/-- Every move of the sequencer leaves the cursors in their ranges. -/
theorem runMove_inRange (m : SeqMove) {s : State} (h : CursorInv s) : (runMove m s).InRange := by
  cases m with
  | reject => exact reject_inRange h
  | badSubHeader => exact raise_inRange _ _ _ h
  | check =>
    exact (((checkSelectors_inRange h).andThen fun _ => checkSizes_inRange).andThen fun _ => geometry_inRange).andThen
      fun _ => atStage_cursors _
  | plan => exact h.congr rfl rfl rfl
  | select ch =>
    simp only [runMove]
    split
    · exact h.congr rfl rfl rfl
    · exact h.congr rfl rfl rfl
  | policy => exact atStage_cursors _ h
  | hufInit => exact atStage_cursors _ (hufInit_cursors h)
  | hufEnd => exact atStage_cursors _ (hufEnd_cursors (walkReturn_cursors h))
  | rleInit => exact atStage_cursors _ (rleInit_cursors _ _ _ h)
  | rleEnd => exact atStage_cursors _ (rleEnd_cursors h)
  | lzCut => exact withBytes_post (fun _ hbs => lzCut_cursors h (s.bytesAt_length .mid hbs)) fun _ => trivial
  | lzEnd => exact atStage_cursors _ (lzEnd_cursors h)
  | advance =>
    simp only [runMove]
    split
    · exact h.congr rfl rfl rfl
    · exact h.congr rfl rfl rfl

/-- A turn of the engine keeps the cursor ranges. -/
theorem engineStep_cursors {s t : State} (h : CursorInv s) (he : engineStep s = .next t) : CursorInv t := by
  rcases engineStep_cases he with ⟨-, rfl⟩ | ⟨-, i, after, u, hf, hu, rfl⟩ | ⟨-, m, -, hm⟩
  · exact h
  · obtain ⟨x, hx, hr⟩ := exec_inRange h (fetch_fits hf) (fetch_notHostMove hf)
    have hcur : CursorInv u := Flow.Post.next hr (hx ▸ hu)
    split
    · exact atStage_cursors after hcur
    · exact hcur
  · exact Flow.Post.next (runMove_inRange m h) hm

/-- LOAD and START move no cursor, and RESET clears them all. -/
theorem hostMove_cursors {i : Instr} {s t : State} (hi : HostMove i) (h : CursorInv s) (he : exec i s = .next t) :
    CursorInv t := by
  rcases hi with rfl | rfl | ⟨bs, rfl⟩
  · rw [reset_next he]
    exact reset_cursors.congr rfl rfl rfl
  · obtain ⟨-, rfl⟩ := start_next s t he
    exact h.congr rfl rfl rfl
  · obtain ⟨-, rfl⟩ := load_next bs s t he
    exact h.congr rfl rfl rfl

/-- Settles O51: every unit's frame carries the ranges, and a stream code is fetched only where it fits its stream. -/
theorem stepKeepsTheCursorRanges : Obligations.StepKeepsTheCursorRanges :=
  fun _ _ hs h => step_preserves (P := CursorInv) (fun _ _ h => h.congr rfl rfl rfl) (fun _ _ => engineStep_cursors)
    (fun _ _ _ => hostMove_cursors) hs h

/-! ## What every instruction leaves alone (O45, O46) -/

/-- Settles O45: START leaves SRC alone, and so does every part of a command. -/
theorem onlyTheHostWritesSrc : Obligations.OnlyTheHostWritesSrc := by
  intro i s t h hreset hload
  by_cases hstart : i = .start
  · subst hstart
    obtain ⟨-, rfl⟩ := start_next s t h
    rfl
  · exact (exec_keeps_of_not_hostMove (fun hi => hi.elim hreset fun hi => hi.elim hstart fun ⟨bs, e⟩ => hload bs e) h).src

/-- Settles O46: LOAD leaves TRUNC alone, and no part of a command clears a flag. -/
theorem truncIsSticky : Obligations.TruncIsSticky := by
  intro i s t k h hstart hreset hk
  by_cases hload : ∃ bs, i = .load bs
  · obtain ⟨bs, rfl⟩ := hload
    obtain ⟨-, rfl⟩ := load_next bs s t h
    exact hk
  · exact (exec_keeps_of_not_hostMove (fun hi => hi.elim hreset fun hi => hi.elim hstart hload) h).trunc k hk

/-! ## What the host reads (O36) -/

/-- A specified read returns what the register holds (R37). -/
theorem hostRead_specified {r : HostReg} {s : State} (k : Nat) (ha : readAllowed r s = true)
    (hs : readSpecified r s = true) : hostRead k r s = regValue r s := by
  unfold hostRead; rw [if_pos ha, if_pos hs]

/-- An unspecified read returns a free value (log 23). -/
theorem hostRead_unspecified {r : HostReg} {s : State} (k : Nat) (ha : readAllowed r s = true)
    (hs : readSpecified r s = false) : hostRead k r s = .next (unspecifiedValue k r) := by
  unfold hostRead; rw [if_pos ha, if_neg (by simp [hs])]

/-- The host has no read outside R230's column (R273). -/
theorem hostRead_refused {r : HostReg} {s : State} (k : Nat) (ha : readAllowed r s = false) :
    hostRead k r s = .refused .hostReadNotAllowed := by
  unfold hostRead; rw [if_neg (by simp [ha])]

theorem headerAccepted_iff (s : State) : headerAccepted s = true ↔ s.status = .done ∨ s.status = .error := by
  simp [headerAccepted]

theorem headerLatched_iff (s : State) :
    headerLatched s = true ↔ s.status = .done ∨ s.status = .error ∨ (s.status = .reject ∧ s.latched.hdr = true) := by
  simp [headerLatched, headerAccepted, or_assoc]

/-- Where no command has ended with an accepted header. -/
theorem headerAccepted_false {s : State} (h : s.status = .busy ∨ s.status = .idle ∨ s.status = .reject) :
    headerAccepted s = false := by
  rcases h with h | h | h <;> simp [headerAccepted, h]

/-- Where the last command has latched no header. -/
theorem headerLatched_false {s : State}
    (h : s.status = .busy ∨ s.status = .idle ∨ (s.status = .reject ∧ s.latched.hdr = false)) :
    headerLatched s = false := by
  rcases h with h | h | ⟨h, hl⟩
  · simp [headerLatched, headerAccepted, h]
  · simp [headerLatched, headerAccepted, h]
  · simp [headerLatched, headerAccepted, h, hl]

/-- A byte of PIX in DONE (R37). -/
theorem hostRead_pix {s : State} (k : Nat) (hd : s.status = .done) {a : Nat} {b : Byte} (ha : a < s.drv.n * s.drv.bypp)
    (hb : s.pix.read a = some b) : hostRead k (.pix a) s = .next (b.toNat : Int) := by
  have hbyte : s.byteAt .pix a = some b := hb
  rw [hostRead_specified k (by simp [readAllowed, hd, ha]) (by simp [readSpecified, hd])]
  simp only [regValue, hbyte]

/-- Settles O36: each clause is a read that is specified, free or refused by its STATUS and marks. -/
theorem hostReadsFollowTheStatus : Obligations.HostReadsFollowTheStatus := by
  intro k s
  refine ⟨rfl, ?done, ?notDone, ?error, ?notError, ?srcLen, ?accepted, ?latched, ?headerFree, ?derivedFree, ?subFree,
    ?lzhdrFree, ?srcLenFree⟩
  case done =>
    intro hd
    have hacc : headerAccepted s = true := (headerAccepted_iff s).2 (.inl hd)
    have hbit : (s.status == .done) = true := by simp [hd]
    exact ⟨hostRead_specified k hbit hacc, hostRead_specified k hbit hacc, hostRead_specified k hbit hacc,
      hostRead_specified k hbit hacc, hostRead_specified k hbit (by simp [readSpecified, hd]),
      fun _ _ => hostRead_pix k hd, fun _ ha => hostRead_refused k (by simp [readAllowed, ha])⟩
  case notDone =>
    intro hd r hr
    refine hostRead_refused k ?_
    rcases hr with rfl | rfl | rfl | rfl | rfl | ⟨a, rfl⟩ <;> simp [readAllowed, hd]
  case error =>
    intro he
    have hbit : (s.status == .error) = true := by simp [he]
    exact ⟨hostRead_specified k hbit hbit, hostRead_specified k hbit hbit, hostRead_specified k hbit hbit,
      hostRead_specified k hbit hbit⟩
  case notError =>
    intro he r hr
    refine hostRead_refused k ?_
    rcases hr with rfl | rfl | rfl | rfl <;> simp [readAllowed, he]
  case srcLen => exact fun hb => hostRead_specified k rfl (by simp [readSpecified, hb])
  case accepted =>
    intro h
    have hacc : headerAccepted s = true := (headerAccepted_iff s).2 h
    have sub : s.latched.sub = true → (headerAccepted s && s.latched.sub) = true := fun hl => by simp [hacc, hl]
    have lzhdr : s.latched.lzhdr = true → (headerAccepted s && s.latched.lzhdr) = true := fun hl => by simp [hacc, hl]
    exact ⟨hostRead_specified k rfl hacc, hostRead_specified k rfl hacc,
      fun hl => ⟨hostRead_specified k rfl (sub hl), hostRead_specified k rfl (sub hl)⟩,
      fun hl => ⟨hostRead_specified k rfl (lzhdr hl), hostRead_specified k rfl (lzhdr hl)⟩⟩
  case latched =>
    intro h
    have hlat : headerLatched s = true := (headerLatched_iff s).2 h
    exact ⟨hostRead_specified k rfl hlat, hostRead_specified k rfl hlat, hostRead_specified k rfl hlat,
      hostRead_specified k rfl hlat, hostRead_specified k rfl hlat, hostRead_specified k rfl hlat,
      hostRead_specified k rfl hlat, hostRead_specified k rfl hlat, hostRead_specified k rfl hlat,
      hostRead_specified k rfl hlat, hostRead_specified k rfl hlat, hostRead_specified k rfl hlat,
      hostRead_specified k rfl hlat⟩
  case headerFree =>
    intro h r hr
    have hlat : headerLatched s = false := headerLatched_false h
    rcases hr with rfl | rfl | rfl | rfl | rfl | rfl | rfl | rfl | rfl | rfl | rfl | rfl | rfl <;>
      exact hostRead_unspecified k rfl hlat
  case derivedFree =>
    intro h r hr
    have hacc : headerAccepted s = false := headerAccepted_false h
    rcases hr with rfl | rfl | rfl | rfl | rfl | rfl <;>
      exact hostRead_unspecified k rfl (by simp [readSpecified, hacc])
  case subFree =>
    intro h r hr
    rcases hr with rfl | rfl <;> exact hostRead_unspecified k rfl (by simp [readSpecified, h])
  case lzhdrFree =>
    intro h r hr
    rcases hr with rfl | rfl <;> exact hostRead_unspecified k rfl (by simp [readSpecified, h])
  case srcLenFree => exact fun hb => hostRead_unspecified k rfl (by simp [readSpecified, hb])

/-! ## The code a step runs (O41) -/

/-- A turn of a running engine that fetches an instruction is that instruction (R27). -/
theorem engineStep_instr {s : State} {i : Instr} {after : Stage} (hb : s.status = .busy)
    (hf : fetch s = .instr i after) : engineStep s = settle after (exec i s) := by
  unfold engineStep; rw [if_pos hb, hf]

theorem fetchDecoded_ok {space : CodeSpace} {special : Byte} {bs : List Byte} {i : Instr} {n : Nat}
    (h : decode space special bs = .ok i n) (after : Stage) (m : SeqMove) :
    fetchDecoded space special bs after m = .instr i after := by
  unfold fetchDecoded; rw [h]

theorem fetchBytes_ok {space : CodeSpace} {special : Byte} {sp : SpaceId} {a n k : Nat} {s : State} {bs : List Byte}
    {i : Instr} (hb : s.bytesAt sp a n = some bs) (h : decode space special bs = .ok i k) (after : Stage) (m : SeqMove) :
    fetchBytes space special sp a n after m s = .instr i after := by
  unfold fetchBytes; rw [hb]; exact fetchDecoded_ok h after m

theorem bytesAt_one {s : State} {sp : SpaceId} {a : Nat} {b : Byte} (h : s.byteAt sp a = some b) :
    s.bytesAt sp a 1 = some [b] := by
  simp [State.bytesAt, h]

/-- The run loop fetches the control byte at RSP (R171, R173). -/
theorem fetch_run {s : State} {i : Instr} {n : Nat} {c : Byte} (hst : s.stage = .rle) (hsrc : s.rle.rsp < s.rle.rsrcb)
    (hdst : s.rle.rdp < s.rle.rdstb) (hc : s.byteAt (runSpace s.rle.rsrc) (s.rle.rbase + s.rle.rsp) = some c)
    (hd : decode .rc 0 [c] = .ok i n) : fetch s = .instr i .rle := by
  have hm : rleMore s = true := by simp [rleMore, hsrc, hdst]
  simp only [fetch, hst, hm, if_true]
  exact fetchBytes_ok (bytesAt_one hc) hd _ _

/-- The token loop fetches what MID still holds of a token at LSP (R191, R193). -/
theorem fetch_token {s : State} {i : Instr} {n : Nat} {bs : List Byte} (hst : s.stage = .lz) (hsrc : s.lz.lsp < s.lz.llen)
    (hdst : s.lz.ldp < s.lz.ldstb) (hbs : s.bytesAt .mid s.lz.lsp (tokenWindow s.lz) = some bs)
    (hd : decode .lt s.lz.special bs = .ok i n) : fetch s = .instr i .lz := by
  have hm : lzMore s = true := by simp [lzMore, hsrc, hdst]
  simp only [fetch, hst, hm, if_true]
  exact fetchBytes_ok hbs hd _ _

/-- The walk on an internal node fetches the payload bit at BYTEP, BITI (R152, R155). -/
theorem fetch_bit {s : State} {i : Instr} {n : Nat} {b : Byte} (hst : s.stage = .huffWalk)
    (hp : s.hsw.hprod < hlenOf s.sub) (hcur : 256 ≤ s.hsw.cur.toNat) (hbr : s.br.byteP < s.br.payLen)
    (hb : s.byteAt .src (s.br.payBase + s.br.byteP) = some b) (hd : decode .hb 0 [bitWindow s.br b] = .ok i n) :
    fetch s = .instr i .huffWalk := by
  have hleaf : ¬ onLeaf s = true := fun e => absurd ((onLeaf_iff s).1 e) (by omega)
  have hmore : ¬ brExhausted s.br = true := by simp [brExhausted, hbr]
  simp only [fetch, hst, fetchWalk, if_pos hp, if_neg hleaf, if_neg hmore, hb]
  exact fetchDecoded_ok hd _ _

/-- Settles O41: each loop's fetch answers the decoded code, and the engine's turn is its meaning. -/
theorem stepRunsTheDecodedCode : Obligations.StepRunsTheDecodedCode := by
  intro s i n hno hb
  have run : ∀ {after}, fetch s = .instr i after → step s = settle after (exec i s) := fun hf => by
    rw [step_of_noMoveDue hno, engineStep_instr hb hf]
  exact ⟨fun _ hst hsrc hdst hc hd => run (fetch_run hst hsrc hdst hc hd),
    fun _ hst hsrc hdst hbs hd => run (fetch_token hst hsrc hdst hbs hd),
    fun _ hst hp hcur hbr hbyte hd => run (fetch_bit hst hp hcur hbr hbyte hd)⟩

/-! ## At reset (O49) -/

/-- Settles O49: after reset the sequencer is idle, and every cursor and count is 0. -/
theorem resetMeetsTheInvariant : Obligations.ResetMeetsTheInvariant :=
  ⟨reset_inv, reset_cursors, ⟨reset_inv, trivial⟩⟩

end Sys2Proof.Machine

/-! PROOFS. The statement of 20_memory.md: from a safe state no step faults, and the next state is safe again. -/

namespace Sys2Proof.Machine

/-! ## What a build leaves in NODE (R130, R132, R136) -/

/-- The NODE index of a leaf (R38). -/
def leafIndex (i : Fin 256) : Idx9 := BitVec.ofNat 9 i.val

@[simp] theorem leafIndex_toNat (i : Fin 256) : (leafIndex i).toNat = i.val := by
  have := i.isLt
  simp only [leafIndex, BitVec.toNat_ofNat]
  omega

theorem leafIndex_injective : Function.Injective leafIndex := fun i j h =>
  Fin.ext (by rw [← leafIndex_toNat i, ← leafIndex_toNat j, h])

/-- Loading some leaves adds exactly those to LIST (R130). -/
theorem loadLeaf_foldl_perm (freqs : Vector U32 256) (l : List (Fin 256)) (h : Htb) :
    (l.foldl (fun h i => loadLeaf freqs i h) h).list.Perm (l.map leafIndex ++ h.list) := by
  induction l generalizing h with
  | nil => exact .refl _
  | cons i l ih =>
    have hins : (loadLeaf freqs i h).list.Perm (leafIndex i :: h.list) := insertNode_perm _ _ _
    exact (ih (loadLeaf freqs i h)).trans ((hins.append_left _).trans List.perm_middle)

/-- LOADLEAVES lists each of the 256 leaves once (R130). -/
theorem loadLeaves_perm (freqs : Vector U32 256) (h : Htb) :
    (loadLeaves freqs h).list.Perm ((List.finRange 256).map leafIndex) := by
  simpa [loadLeaves] using loadLeaf_foldl_perm freqs (List.finRange 256) { h with list := [] }

/-- What holds between two merges of a build (R132, R136): the roots that are still to be merged stand in LIST, each
once and below NEXT, the node merged last among them, and every node merged so far has two children below itself. -/
structure MergeInv (h : Htb) : Prop where
  start : 256 ≤ h.next.toNat
  length : h.list.length + h.next.toNat = 512
  nodup : h.list.Nodup
  below : ∀ x ∈ h.list, x.toNat < h.next.toNat
  newest : 256 < h.next.toNat → ∃ x ∈ h.list, x.toNat + 1 = h.next.toNat
  children : ∀ j : Idx9, 256 ≤ j.toNat → j.toNat < h.next.toNat →
    (nodeAt h.node j).left.toNat < j.toNat ∧ (nodeAt h.node j).right.toNat < j.toNat ∧
      (nodeAt h.node j).left ≠ (nodeAt h.node j).right

@[simp] theorem beforeMerges_next (freqs : Vector U32 256) (h : Htb) : (beforeMerges freqs h).next = 256#9 := by
  simp only [beforeMerges]

@[simp] theorem beforeMerges_list (freqs : Vector U32 256) (h : Htb) :
    (beforeMerges freqs h).list = (loadLeaves freqs h).list := by
  simp only [beforeMerges]

theorem beforeMerges_inv (freqs : Vector U32 256) (h : Htb) : MergeInv (beforeMerges freqs h) := by
  refine ⟨?start, ?length, ?nodup, ?below, ?newest, ?children⟩
  case start => simp
  case length => simp [(loadLeaves_perm freqs h).length_eq]
  case nodup =>
    rw [beforeMerges_list, (loadLeaves_perm freqs h).nodup_iff]
    exact (List.nodup_finRange 256).map leafIndex_injective
  case below =>
    intro x hx
    rw [beforeMerges_list, (loadLeaves_perm freqs h).mem_iff] at hx
    obtain ⟨i, -, hi⟩ := List.mem_map.1 hx
    simp [← hi]
  case newest => simp
  case children => exact fun j hlo hhi => absurd hhi (by simpa using hlo)

/-- MERGE takes two distinct roots below NEXT as the children of NEXT, which becomes a root itself (R132). -/
theorem MergeInv.merge {h : Htb} (hi : MergeInv h) (hl : 1 < h.list.length) : MergeInv (merge h) := by
  have hlen := hi.length
  obtain ⟨a, b, rest, hlist⟩ : ∃ a b rest, h.list = a :: b :: rest := by
    match hh : h.list, hl with
    | a :: b :: rest, _ => exact ⟨a, b, rest, rfl⟩
  have hnext : (h.next + 1).toNat = h.next.toNat + 1 := by
    rw [BitVec.toNat_add]; show (h.next.toNat + 1) % 512 = _; omega
  have hnd := hi.nodup
  have hbelow := hi.below
  rw [hlist] at hlen hnd hbelow
  have hfresh : h.next ∉ rest := fun hm => absurd (hbelow h.next (by simp [hm])) (Nat.lt_irrefl _)
  rw [merge_cons h a b rest hlist]
  refine ⟨?start, ?length, ?nodup, ?below, ?newest, ?children⟩
  case start => have := hi.start; simp only [hnext]; omega
  case length => simp only [insertNode_length, hnext, List.length_cons] at hlen ⊢; omega
  case nodup => exact insertNode_nodup _ _ _ hfresh (hnd.of_cons).of_cons
  case below =>
    intro x hx
    rcases (mem_insertNode _ _ _ _).1 hx with rfl | hx
    · simp only [hnext]; omega
    · have := hbelow x (by simp [hx]); simp only [hnext]; omega
  case newest => exact fun _ => ⟨h.next, (mem_insertNode _ _ _ _).2 (.inl rfl), hnext.symm⟩
  case children =>
    intro j hlo hhi
    simp only [hnext] at hhi
    by_cases hj : j = h.next
    · subst hj
      rw [nodeAt_setNode_same]
      exact ⟨hbelow a (by simp), hbelow b (by simp), fun e : a = b => by simp [e] at hnd⟩
    · rw [nodeAt_setNode_other _ _ hj]
      exact hi.children j hlo (by have := mt BitVec.eq_of_toNat_eq hj; omega)

/-- The merges end with one root left (R133). -/
theorem MergeInv.mergeLoop {k : Nat} {h : Htb} (hi : MergeInv h) (hk : h.list.length ≤ k + 1) :
    MergeInv (mergeLoop k h) ∧ (mergeLoop k h).list.length ≤ 1 := by
  induction k generalizing h with
  | zero => exact ⟨hi, hk⟩
  | succ k ih =>
    rw [Machine.mergeLoop]
    split
    · rename_i hl
      exact ih (hi.merge hl) (by have := merge_length h hl; omega)
    · exact ⟨hi, by omega⟩

/-- A build leaves the one root 510 and a finished tree (R133, R136). -/
theorem buildTree_finished (freqs : Vector U32 256) (h : Htb) :
    (buildTree freqs h).list.headD 0 = 510#9 ∧ TreeOk (buildTree freqs h).node := by
  obtain ⟨hi, hone⟩ : MergeInv (buildTree freqs h) ∧ (buildTree freqs h).list.length ≤ 1 :=
    (beforeMerges_inv freqs h).mergeLoop (Nat.le_succ _)
  have hnext : (buildTree freqs h).next.toNat = 511 := by
    have := hi.length; have := (buildTree freqs h).next.isLt; omega
  refine ⟨?_, fun j hlo hhi => hi.children j hlo (by omega)⟩
  obtain ⟨x, hx, hx1⟩ := hi.newest (by omega)
  obtain ⟨y, hy⟩ := List.length_eq_one_iff.1 (Nat.le_antisymm hone (List.length_pos_of_mem hx))
  rw [hy, List.mem_singleton] at hx
  subst hx
  rw [hy]
  exact BitVec.eq_of_toNat_eq (by show x.toNat = 510; omega)

/-! ## What a position gives the accesses that follow it (R70) -/

/-- What nothing after the header check changes of the image: the header, the container, the geometry and the size of
PIX. -/
structure ImageFrame (s t : State) : Prop where
  hdr : t.hdr = s.hdr
  src : t.src = s.src
  drv : t.drv = s.drv
  pixLen : t.pix.len = s.pix.len

/-- What no unit changes of the plane in hand: its range, its channel and the size of PLANE. -/
structure PlaneFrame (s t : State) : Prop extends ImageFrame s t where
  poff : t.seq.poff = s.seq.poff
  psize : t.seq.psize = s.seq.psize
  pch : t.seq.pch = s.seq.pch
  planeLen : t.plane.len = s.plane.len

/-- The header is accepted and PIX made for it (R211 to R215). -/
structure ImageOk (s : State) : Prop where
  header : HeaderOk s
  pixels : PixOk s

/-- The plan has come to the plane of channel `ch` (R216). -/
structure AtTurn (ch : Chan) (s : State) : Prop where
  image : ImageOk s
  poff : s.seq.poff = rangeStart s.hdr ch

/-- The range of channel `ch`, present or not, is in hand (R216). -/
structure InTurn (ch : Chan) (s : State) : Prop where
  image : ImageOk s
  pch : s.seq.pch = ch
  poff : s.seq.poff = rangeStart s.hdr ch
  psize : s.seq.psize = planeSize s ch

/-- The plane of channel `ch` is in hand, and PLANE is made for it (R216, R217). -/
structure InPlane (ch : Chan) (s : State) : Prop where
  image : ImageOk s
  pch : s.seq.pch = ch
  plane : PlaneOk s
  room : s.plane.len = s.drv.n

/-- MID holds the whole intermediate sequence (R154). -/
def MidHeld (s : State) : Prop := s.mid.len = hlenOf s.sub

/-- A walk is running: over a finished tree, from a payload inside SRC into MID (R155). -/
structure InWalk (s : State) : Prop where
  walk : WalkOk s
  stream : s.br.payBase + s.br.payLen ≤ s.srcLen
  mid : MidHeld s
  cur : s.hsw.hprod < hlenOf s.sub → s.hsw.cur.toNat ≤ 510

/-- RLE.EXPAND is running: from a stream inside its space into PLANE (R173). -/
structure InRuns (s : State) : Prop where
  dest : s.rle.rdstb = s.drv.n
  stream : s.rle.rbase + s.rle.rsrcb ≤ (s.space (runSpace s.rle.rsrc)).len

/-- LZ.EXPAND is running: from all of MID into PLANE (R193). -/
structure InTokens (s : State) : Prop where
  dest : s.lz.ldstb = s.drv.n
  stream : s.lz.llen = s.mid.len

/-- The bounds that `PositionOk` gives position `x`, said of a state that may stand elsewhere. -/
def ReadyAt (x : Stage) (s : State) : Prop :=
  match x with
  | .idle | .hdrRead | .hdrFormat | .hdrCheck => True
  | .pixFormat => HeaderOk s
  | .plan => ImageOk s
  | .select ch => AtTurn ch s
  | .policy | .subhdr | .place => InPlane s.seq.pch s
  | .build => InPlane s.seq.pch s ∧ 0x408 ≤ s.seq.psize
  | .huff => InPlane s.seq.pch s ∧ 0x408 ≤ s.seq.psize ∧ WalkOk s
  | .huffWalk => InPlane s.seq.pch s ∧ InWalk s
  | .expand => InPlane s.seq.pch s ∧ (s.hdr.variant ≠ 0x01#8 → MidHeld s)
  | .rle => InPlane s.seq.pch s ∧ InRuns s
  | .lz => InPlane s.seq.pch s ∧ InTokens s
  | .advance => InTurn s.seq.pch s

theorem imageOk_iff (s : State) : ImageOk s ↔ HeaderOk s ∧ PixOk s :=
  ⟨fun h => ⟨h.header, h.pixels⟩, fun ⟨hh, hp⟩ => ⟨hh, hp⟩⟩

theorem inPlane_iff (s : State) :
    InPlane s.seq.pch s ↔ HeaderOk s ∧ PixOk s ∧ PlaneOk s ∧ s.plane.len = s.drv.n :=
  ⟨fun h => ⟨h.image.header, h.image.pixels, h.plane, h.room⟩, fun ⟨hh, hx, hp, hr⟩ => ⟨⟨hh, hx⟩, rfl, hp, hr⟩⟩

theorem inWalk_iff (s : State) :
    InWalk s ↔ WalkOk s ∧ s.br.payBase + s.br.payLen ≤ s.srcLen ∧ MidHeld s ∧
      (s.hsw.hprod < hlenOf s.sub → s.hsw.cur.toNat ≤ 510) :=
  ⟨fun h => ⟨h.walk, h.stream, h.mid, h.cur⟩, fun ⟨hw, hs, hm, hc⟩ => ⟨hw, hs, hm, hc⟩⟩

theorem inRuns_iff (s : State) :
    InRuns s ↔ s.rle.rdstb = s.drv.n ∧ s.rle.rbase + s.rle.rsrcb ≤ (s.space (runSpace s.rle.rsrc)).len :=
  ⟨fun h => ⟨h.dest, h.stream⟩, fun ⟨hd, hs⟩ => ⟨hd, hs⟩⟩

theorem inTokens_iff (s : State) : InTokens s ↔ s.lz.ldstb = s.drv.n ∧ s.lz.llen = s.mid.len :=
  ⟨fun h => ⟨h.dest, h.stream⟩, fun ⟨hd, hs⟩ => ⟨hd, hs⟩⟩

/-- `ReadyAt` of a state's own position is `PositionOk`. -/
theorem positionOk_iff (s : State) : PositionOk s ↔ ReadyAt s.stage s := by
  unfold PositionOk ReadyAt
  cases s.stage with
  | idle | hdrRead | hdrFormat | hdrCheck | pixFormat => exact Iff.rfl
  | plan => exact (imageOk_iff s).symm
  | select ch => exact ⟨fun ⟨hh, hx, ho⟩ => ⟨⟨hh, hx⟩, ho⟩, fun h => ⟨h.image.header, h.image.pixels, h.poff⟩⟩
  | policy | subhdr | place => exact (inPlane_iff s).symm
  | build | huff | huffWalk | expand | rle | lz =>
    simp only [inPlane_iff, inWalk_iff, inRuns_iff, inTokens_iff, MidHeld, and_assoc]
  | advance =>
    exact ⟨fun ⟨hh, hx, ho, hp⟩ => ⟨⟨hh, hx⟩, rfl, ho, hp⟩,
      fun h => ⟨h.image.header, h.image.pixels, h.poff, h.psize⟩⟩

/-! ### What keeps the bounds -/

theorem ImageOk.congr {s t : State} (h : ImageOk s) (f : ImageFrame s t) : ImageOk t where
  header :=
    { sizes := by rw [f.hdr]; exact h.header.sizes
      sum := by rw [f.hdr, State.srcLen, f.src]; exact h.header.sum
      area := by rw [f.drv]; exact h.header.area }
  pixels :=
    { bypp := by rw [f.drv]; exact h.pixels.bypp
      pix := by rw [f.pixLen, f.drv]; exact h.pixels.pix }

theorem planeSize_congr {s t : State} (h : t.hdr = s.hdr) (ch : Chan) : planeSize t ch = planeSize s ch := by
  unfold planeSize; rw [h]

theorem planePresent_congr {s t : State} (hh : t.hdr = s.hdr) (hd : t.drv = s.drv) (ch : Chan) :
    planePresent t ch = planePresent s ch := by
  unfold planePresent; rw [hh, hd]

theorem InPlane.congr {ch : Chan} {s t : State} (h : InPlane ch s) (f : PlaneFrame s t) : InPlane ch t where
  image := h.image.congr f.toImageFrame
  pch := f.pch.trans h.pch
  plane :=
    { poff := by rw [f.poff, f.hdr, f.pch]; exact h.plane.poff
      psize := by rw [f.psize, f.pch, planeSize_congr f.hdr]; exact h.plane.psize
      present := by rw [f.pch, planePresent_congr f.hdr f.drv]; exact h.plane.present }
  room := by rw [f.planeLen, f.drv]; exact h.room

theorem InPlane.here {ch : Chan} {s : State} (h : InPlane ch s) : InPlane s.seq.pch s := h.pch.symm ▸ h

theorem InPlane.inTurn {ch : Chan} {s : State} (h : InPlane ch s) : InTurn ch s where
  image := h.image
  pch := h.pch
  poff := by rw [h.plane.poff, h.pch]
  psize := by rw [h.plane.psize, h.pch]

theorem InTurn.here {ch : Chan} {s : State} (h : InTurn ch s) : InTurn s.seq.pch s := h.pch.symm ▸ h

/-- The bounds look neither at the position nor at the host's coming moves. -/
theorem ReadyAt.relocate {x : Stage} {s : State} (h : ReadyAt x s) (y : Stage) (rest : List HostEvent) :
    ReadyAt x { s with stage := y, host := rest } := by
  have fi : ImageFrame s { s with stage := y, host := rest } := ⟨rfl, rfl, rfl, rfl⟩
  have fp : PlaneFrame s { s with stage := y, host := rest } := ⟨fi, rfl, rfl, rfl, rfl⟩
  cases x with
  | idle | hdrRead | hdrFormat | hdrCheck => trivial
  | pixFormat => exact ⟨h.sizes, h.sum, h.area⟩
  | plan => exact ImageOk.congr h fi
  | select ch => exact ⟨h.image.congr fi, h.poff⟩
  | policy | subhdr | place => exact InPlane.congr h fp
  | build =>
    obtain ⟨hp, hsize⟩ := h
    exact ⟨hp.congr fp, hsize⟩
  | huff =>
    obtain ⟨hp, hsize, hw⟩ := h
    exact ⟨hp.congr fp, hsize, hw.root, hw.tree⟩
  | huffWalk =>
    obtain ⟨hp, hw⟩ := h
    exact ⟨hp.congr fp, ⟨hw.walk.root, hw.walk.tree⟩, hw.stream, hw.mid, hw.cur⟩
  | expand =>
    obtain ⟨hp, hm⟩ := h
    exact ⟨hp.congr fp, hm⟩
  | rle =>
    obtain ⟨hp, hr⟩ := h
    exact ⟨hp.congr fp, hr.dest, hr.stream⟩
  | lz =>
    obtain ⟨hp, ht⟩ := h
    exact ⟨hp.congr fp, ht.dest, ht.stream⟩
  | advance => exact ⟨h.image.congr fi, rfl, h.poff, h.psize⟩

theorem ReadyAt.positionOk_atStage {x : Stage} {s : State} (h : ReadyAt x s) : PositionOk (atStage x s) :=
  (positionOk_iff _).2 (h.relocate x s.host)

/-! ### Offsets -/

theorem chan_cases (ch : Chan) : ch = 3#2 ∨ ch = 2#2 ∨ ch = 1#2 ∨ ch = 0#2 := by
  revert ch; decide

/-- Every range lies inside SRC (R66, R213). -/
theorem HeaderOk.range_le {s : State} (h : HeaderOk s) (ch : Chan) :
    rangeStart s.hdr ch + planeSize s ch ≤ s.srcLen := by
  obtain ⟨ha, hr, hg, hb⟩ := h.sizes
  have hsum := h.sum
  unfold sizeSum at hsum
  rcases chan_cases ch with rfl | rfl | rfl | rfl <;>
    simp [rangeStart, planeSize, sizeField] <;> omega

/-- The ranges follow each other in the plan's order (R66, R216). -/
theorem rangeStart_next (s : State) {ch : Chan} (h : ch ≠ 0#2) :
    rangeStart s.hdr ch + planeSize s ch = rangeStart s.hdr (ch - 1) := by
  rcases chan_cases ch with rfl | rfl | rfl | rfl
  case inr.inr.inr => exact absurd rfl h
  all_goals simp [rangeStart, planeSize, sizeField]

theorem InPlane.range_le {ch : Chan} {s : State} (h : InPlane ch s) : s.seq.poff + s.seq.psize ≤ s.src.len := by
  rw [h.plane.poff, h.plane.psize]
  exact h.image.header.range_le _

/-- A plane that is present has a lane in every pixel (R215, R241). -/
theorem InPlane.lane {ch : Chan} {s : State} (h : InPlane ch s) : s.seq.pch.toNat < s.drv.bypp := by
  have hpres := h.plane.present
  rw [h.image.pixels.bypp]
  unfold planePresent at hpres
  split at hpres
  · rename_i h3
    rw [hpres, h3]
    decide
  · rename_i h3
    have hne : s.seq.pch.toNat ≠ 3 := fun e => h3 (BitVec.eq_of_toNat_eq e)
    have hlt := s.seq.pch.isLt
    split <;> omega

theorem InPlane.pilBounds {ch : Chan} {s : State} (h : InPlane ch s) : PilBounds s where
  plane := by rw [h.room, h.image.header.area]
  pix := by rw [h.image.pixels.pix, h.image.header.area]
  lane := h.lane

/-! ## Pieces of a command that meet no fault -/

/-- A piece of pseudocode that meets no fault and goes on with `G`, unless it ends the command. -/
abbrev Flow.Safe (x : Flow) (G : State → Prop) : Prop := x.Post G (fun t => t.stage = .idle) fun _ => False

theorem Flow.Safe.andThen {x : Flow} {f : State → Flow} {G G' : State → Prop} (hx : x.Safe G)
    (hf : ∀ s, G s → (f s).Safe G') : (x.andThen f).Safe G' := Flow.Post.andThen hx hf

theorem Flow.Safe.mono {x : Flow} {G G' : State → Prop} (hx : x.Safe G) (hg : ∀ s, G s → G' s) : x.Safe G' :=
  Flow.Post.mono hx hg (fun _ h => h) fun _ h => h

/-- A unit that faults outside its bounds alone, inside them. -/
theorem Flow.Post.safe {x : Flow} {G G' S : State → Prop} {B : Prop} (hx : x.Post G S fun _ => ¬ B) (hb : B)
    (hg : ∀ t, G t → G' t) (hs : ∀ t, S t → t.stage = .idle) : x.Safe G' :=
  Flow.Post.mono hx hg hs fun _ h => h hb

theorem withBytes_safe {sp : SpaceId} {a n : Nat} {s : State} {k : List Byte → Flow} {G : State → Prop}
    (h : a + n ≤ (s.space sp).len) (hk : ∀ bs, s.bytesAt sp a n = some bs → (k bs).Safe G) :
    (withBytes sp a n s k).Safe G :=
  withBytes_post hk fun hlt => absurd h (Nat.not_le.2 hlt)

/-! ### The header (R211 to R215) -/

/-- The sizes R213 accepts. -/
structure SizesOk (s : State) : Prop where
  sizes : 0 ≤ s.hdr.aSize.toInt ∧ 0 ≤ s.hdr.rSize.toInt ∧ 0 ≤ s.hdr.gSize.toInt ∧ 0 ≤ s.hdr.bSize.toInt
  sum : sizeSum s.hdr = (s.srcLen : Int)

theorem hdrRead_safe (r : Header) (s : State) : (hdrRead r s).Safe fun _ => True := by
  unfold hdrRead
  split
  · rfl
  · trivial

theorem hdrFetch_safe (s : State) : (hdrFetch s).Safe fun _ => True := by
  by_cases h : s.src.len < 0x20
  · rw [hdrFetch_short s h]; rfl
  · rw [hdrFetch_eq s (Nat.not_lt.1 h)]; trivial

theorem checkFormat_safe (s : State) : (checkFormat s).Safe fun _ => True := by
  rw [checkFormat_eq]
  split
  · trivial
  · rfl

theorem checkSelectors_safe (s : State) : (checkSelectors s).Safe fun _ => True := by
  rw [checkSelectors_eq]
  split
  · trivial
  · rfl

theorem checkSizes_safe (s : State) : (checkSizes s).Safe SizesOk := by
  rw [checkSizes_eq]
  split
  · rename_i h
    obtain ⟨ha, hr, hg, hb, hsum⟩ := h
    exact ⟨⟨ha, hr, hg, hb⟩, hsum⟩
  · rfl

theorem geometry_safe {s : State} (h : SizesOk s) : (geometry s).Safe HeaderOk := by
  unfold geometry
  simp only
  split
  · trivial
  · exact ⟨h.sizes, h.sum, rfl⟩

theorem pixInit_image (alpha : Bool) {s : State} (h : HeaderOk s) : ImageOk (pixInit alpha s) :=
  ⟨⟨h.sizes, h.sum, h.area⟩, ⟨rfl, rfl⟩⟩

theorem acceptHeader_safe (s : State) : (acceptHeader s).Safe ImageOk :=
  (((((hdrFetch_safe s).andThen fun t _ => checkFormat_safe t).andThen fun t _ => checkSelectors_safe t).andThen
    fun t _ => checkSizes_safe t).andThen fun _ => geometry_safe).andThen fun _ => pixInit_image _

/-! ### Stage one (R133, R155, R219) -/

/-- SUBHDR.READ goes on only with a range that is long enough for the record (R219). -/
theorem subhdrRead_safe (r : SubHeader) {ch : Chan} {s : State} (h : InPlane ch s) :
    (subhdrRead r s).Safe fun t => InPlane ch t ∧ 0x408 ≤ t.seq.psize := by
  unfold subhdrRead
  simp only
  split
  · rfl
  · rename_i hsize
    split
    · rfl
    · exact ⟨h.congr ⟨⟨rfl, rfl, rfl, rfl⟩, rfl, rfl, rfl, rfl⟩, Nat.not_lt.1 hsize⟩

/-- The record of a range long enough for it lies inside SRC (R219). -/
theorem InPlane.subhdr_le {ch : Chan} {s : State} (h : InPlane ch s) (hsize : ¬ s.seq.psize < Config.subHdrLen) :
    s.seq.poff + Config.subHdrLen ≤ s.src.len :=
  (Nat.add_le_add_left (Nat.not_lt.1 hsize) _).trans h.range_le

theorem subhdrFetch_safe {ch : Chan} {s : State} (h : InPlane ch s) :
    (subhdrFetch s).Safe fun t => InPlane ch t ∧ 0x408 ≤ t.seq.psize := by
  unfold subhdrFetch
  split
  · rfl
  · rename_i hsize
    exact withBytes_safe (h.subhdr_le hsize) fun _ _ => subhdrRead_safe _ h

/-- What HTB.BUILD hands to the walk (R136). -/
theorem htbBuild_safe {ch : Chan} {s : State} (h : InPlane ch s) (hsize : 0x408 ≤ s.seq.psize) :
    (htbBuild s).Safe fun t => InPlane ch t ∧ 0x408 ≤ t.seq.psize ∧ WalkOk t := by
  refine (htbBuild_post s).mono ?_ ?_ fun _ hf => hf
  · rintro t ⟨-, rfl⟩
    obtain ⟨hroot, htree⟩ := buildTree_finished s.freqs s.htb
    generalize buildTree s.freqs s.htb = g at hroot htree ⊢
    exact ⟨h.congr ⟨⟨rfl, rfl, rfl, rfl⟩, rfl, rfl, rfl, rfl⟩, hsize, hroot, htree⟩
  · rintro t ⟨-, hr⟩
    cases hr
    rfl

theorem WalkFrame.planeFrame {s t : State} (f : WalkFrame s t) : PlaneFrame s t := by
  rw [f.rest]; exact ⟨⟨rfl, rfl, rfl, rfl⟩, rfl, rfl, rfl, rfl⟩

theorem hufInit_planeFrame (s : State) : PlaneFrame s (hufInit s) :=
  ⟨⟨by simp [hufInit], by simp [hufInit], by simp [hufInit], by simp [hufInit]⟩, by simp [hufInit], by simp [hufInit],
    by simp [hufInit], by simp [hufInit]⟩

theorem hufReturn_planeFrame (s : State) : PlaneFrame s (hufEnd (walkReturn s)) :=
  ⟨⟨by simp, by simp, by simp, by simp⟩, by simp, by simp, by simp, by simp⟩

/-- HUF.DECODE starts at its root, while there is a byte to produce (R155). -/
theorem hufInit_hsw (s : State) :
    (hufInit s).hsw.root = s.hsw.root ∧ (hufInit s).hsw.hprod = 0 ∧
      (0 < hlenOf s.sub → (hufInit s).hsw.cur = s.hsw.root) := by
  by_cases hp : 0 < hlenOf s.sub <;> simp [hufInit, hp]

/-- BR.INIT, MID.INIT and the first symbol's start put a walk inside its bounds (R151, R154, R155). -/
theorem hufInit_inWalk {ch : Chan} {s : State} (h : InPlane ch s) (hsize : 0x408 ≤ s.seq.psize)
    (hw : WalkOk s) : InWalk (hufInit s) := by
  obtain ⟨hroot, hprod, hcur⟩ := hufInit_hsw s
  refine ⟨⟨hroot.trans hw.root, by simpa [hufInit] using hw.tree⟩, ?stream, by simp [MidHeld, hufInit], ?cur⟩
  case stream =>
    have := h.range_le
    simp only [hufInit, walkStart_br, midInit_br, brInit_br, State.srcLen, walkStart_src, midInit_src, brInit_src]
    omega
  case cur =>
    intro hp
    rw [hprod, show (hufInit s).sub = s.sub by simp [hufInit]] at hp
    rw [hcur hp, hw.root]
    decide

/-- Bytes to produce and a walk inside its bounds: what the loop of R155 asks for. -/
theorem InWalk.walkBounds {s : State} (h : InWalk s) (hc : s.hsw.cur.toNat ≤ 510) : WalkBounds s :=
  ⟨h.stream, h.mid.ge, h.walk, hc⟩

/-- HUF.DECODE faults nowhere: with nothing to produce it reads nothing (R155). -/
theorem hufDecode_safe {ch : Chan} {s : State} (h : InPlane ch s) (hsize : 0x408 ≤ s.seq.psize) (hw : WalkOk s) :
    (hufDecode s).Safe fun t => InPlane ch t ∧ MidHeld t := by
  have hi := h.congr (hufInit_planeFrame s)
  have hin := hufInit_inWalk h hsize hw
  have loop : ∀ k, (hufLoop k (hufInit s)).Safe (WalkFrame (hufInit s)) := fun k => by
    by_cases hp : (hufInit s).hsw.hprod < hlenOf (hufInit s).sub
    · exact (hufLoop_post k _).safe (hin.walkBounds (hin.cur hp)) (fun _ ht => ht.1) fun _ hf => hf.elim
    · cases k with
      | zero => exact WalkFrame.refl _
      | succ k => rw [hufLoop, if_neg hp]; exact WalkFrame.refl _
  refine (loop _).andThen fun t f => ⟨(hi.congr f.planeFrame).congr (hufReturn_planeFrame t), ?_⟩
  simp only [MidHeld, hufEnd_mid, hufEnd_sub, walkReturn_mid, walkReturn_sub, f.len, f.sub]
  exact hin.mid

theorem stageOne_safe {ch : Chan} {s : State} (h : InPlane ch s) : (stageOne s).Safe fun t => InPlane ch t ∧ MidHeld t :=
  ((subhdrFetch_safe h).andThen fun _ ⟨hp, hsize⟩ => htbBuild_safe hp hsize).andThen
    fun _ ⟨hp, hsize, hw⟩ => hufDecode_safe hp hsize hw

/-! ### The final stage (R173, R193) and the placement (R242) -/

theorem RleFrame.planeFrame {s t : State} (f : RleFrame s t) : PlaneFrame s t :=
  ⟨⟨by rw [f.rest], by rw [f.rest], by rw [f.rest], by rw [f.rest]⟩, by rw [f.rest], by rw [f.rest], by rw [f.rest], f.len⟩

theorem LzFrame.planeFrame {s t : State} (f : LzFrame s t) : PlaneFrame s t :=
  ⟨⟨by rw [f.rest], by rw [f.rest], by rw [f.rest], by rw [f.rest]⟩, by rw [f.rest], by rw [f.rest], by rw [f.rest], f.len⟩

theorem PilFrame.planeFrame {s t : State} (f : PilFrame s t) : PlaneFrame s t :=
  ⟨⟨by rw [f.rest], by rw [f.rest], by rw [f.rest], f.len⟩, by rw [f.rest], by rw [f.rest], by rw [f.rest], by rw [f.rest]⟩

theorem LzRaised.stage {s t : State} (h : LzRaised s t) : t.stage = .idle := h.ends.stage

theorem rleInit_planeFrame (sp : RunSource) (base budget : Nat) (s : State) : PlaneFrame s (rleInit sp base budget s) :=
  ⟨⟨rfl, rfl, rfl, rfl⟩, rfl, rfl, rfl, rfl⟩

theorem rleEnd_planeFrame (s : State) : PlaneFrame s (rleEnd s) :=
  ⟨⟨by simp, by simp, by simp, by simp⟩, by simp, by simp, by simp, by simp⟩

theorem lzInit_planeFrame (r : LzHeader) (s : State) : PlaneFrame s (lzInit r s) :=
  ⟨⟨rfl, rfl, rfl, rfl⟩, rfl, rfl, rfl, rfl⟩

theorem lzEnd_planeFrame (s : State) : PlaneFrame s (lzEnd s) :=
  ⟨⟨by simp, by simp, by simp, by simp⟩, by simp, by simp, by simp, by simp⟩

theorem rleInit_inRuns {sp : RunSource} {base budget : Nat} {s : State}
    (h : base + budget ≤ (s.space (runSpace sp)).len) : InRuns (rleInit sp base budget s) :=
  ⟨rfl, by cases sp <;> exact h⟩

theorem InRuns.rleBounds {ch : Chan} {s : State} (h : InRuns s) (hp : InPlane ch s) : RleBounds s :=
  ⟨h.stream, by rw [h.dest, hp.room]⟩

theorem RleFrame.inRuns {s t : State} (f : RleFrame s t) (h : InRuns s) : InRuns t where
  dest := by rw [f.rdstb, f.planeFrame.drv]; exact h.dest
  stream := by rw [f.rsrc, f.rbase, f.rsrcb, f.space]; exact h.stream

theorem InTokens.lzBounds {ch : Chan} {s : State} (h : InTokens s) (hp : InPlane ch s) : LzBounds s :=
  ⟨h.stream.le, by rw [h.dest, hp.room]⟩

theorem LzFrame.inTokens {s t : State} (f : LzFrame s t) (h : InTokens s) : InTokens t where
  dest := by rw [f.ldstb, f.planeFrame.drv]; exact h.dest
  stream := by rw [f.llen, f.mid]; exact h.stream

/-- LZ.INIT takes HLEN for LLEN, and MID has HLEN bytes (R190, R154). -/
theorem lzInit_inTokens (r : LzHeader) {s : State} (h : MidHeld s) : InTokens (lzInit r s) := ⟨rfl, h.symm⟩

theorem rleExpand_safe {ch : Chan} {sp : RunSource} {base budget : Nat} {s : State} (h : InPlane ch s)
    (hb : base + budget ≤ (s.space (runSpace sp)).len) : (rleExpand sp base budget s).Safe (InPlane ch) := by
  have hi := h.congr (rleInit_planeFrame sp base budget s)
  have loop := (rleLoop_post budget _).safe ((rleInit_inRuns hb).rleBounds hi) (fun _ f => hi.congr f.planeFrame)
    fun _ hf => hf.elim
  exact loop.andThen fun t ht => ht.congr (rleEnd_planeFrame t)

theorem lzExpand_safe {ch : Chan} {s : State} (h : InPlane ch s) (hm : MidHeld s) :
    (lzExpand s).Safe (InPlane ch) := by
  have hi := h.congr (lzInit_planeFrame (midHeader s) s)
  have loop := fun k => (lzLoop_post k _).safe ((lzInit_inTokens (midHeader s) hm).lzBounds hi)
    (fun _ f => hi.congr f.planeFrame) fun _ hr => hr.stage
  exact (loop _).andThen fun t ht => ht.congr (lzEnd_planeFrame t)

theorem pilPlace_safe {ch : Chan} {s : State} (h : InPlane ch s) : (pilPlace s).Safe (InPlane ch) :=
  (pilPlace_post s).safe h.pilBounds (fun _ f => h.congr f.planeFrame) fun _ hf => hf.elim

/-! ### The plan and the whole command (R216, R218, R232) -/

theorem planeRle_safe {ch : Chan} {s : State} (h : InPlane ch s) : (planeRle s).Safe (InPlane ch) :=
  rleExpand_safe h h.range_le

/-- All of MID is a stream for the second stage (D7, D23). -/
theorem MidHeld.stream_le {s : State} (h : MidHeld s) : 0 + hlenOf s.sub ≤ s.mid.len := by
  rw [Nat.zero_add]; exact h.ge

theorem planeHufRle_safe {ch : Chan} {s : State} (h : InPlane ch s) : (planeHufRle s).Safe (InPlane ch) :=
  (stageOne_safe h).andThen fun _ ⟨hp, hm⟩ => rleExpand_safe hp hm.stream_le

theorem planeHufLz_safe {ch : Chan} {s : State} (h : InPlane ch s) : (planeHufLz s).Safe (InPlane ch) :=
  (stageOne_safe h).andThen fun _ ⟨hp, hm⟩ => lzExpand_safe hp hm

theorem decodePlane_safe {ch : Chan} {s : State} (h : InPlane ch s) : (decodePlane s).Safe (InPlane ch) := by
  unfold decodePlane
  split
  · exact planeRle_safe h
  · split
    · exact planeHufLz_safe h
    · exact planeHufRle_safe h

/-- The plan starts with alpha, whose range is the first (R66, R216). -/
theorem planStart_atTurn {s : State} (h : ImageOk s) : AtTurn 3#2 (planStart s) :=
  ⟨h.congr ⟨rfl, rfl, rfl, rfl⟩, rfl⟩

theorem choosePlane_inTurn {ch : Chan} {s : State} (h : AtTurn ch s) : InTurn ch (choosePlane ch s) :=
  ⟨h.image.congr ⟨rfl, rfl, rfl, rfl⟩, rfl, h.poff, rfl⟩

theorem planeInit_inPlane {ch : Chan} {s : State} (h : InTurn ch s) (hpres : planePresent s ch = true) :
    InPlane ch (planeInit s) where
  image := h.image.congr ⟨rfl, rfl, rfl, rfl⟩
  pch := h.pch
  plane :=
    { poff := h.pch.symm ▸ h.poff
      psize := h.pch.symm ▸ h.psize
      present := h.pch.symm ▸ hpres }
  room := rfl

/-- POFF past a range is the start of the next one (R66, R216). -/
theorem planAdvance_atTurn {ch : Chan} {s : State} (h : InTurn ch s) (hne : ch ≠ 0#2) :
    AtTurn (ch - 1) (planAdvance s) where
  image := h.image.congr ⟨rfl, rfl, rfl, rfl⟩
  poff := by
    rw [planAdvance_seq, planAdvance_hdr, ← rangeStart_next s hne, ← h.poff, ← h.psize]

theorem planTurn_safe {ch : Chan} {s : State} (h : AtTurn ch s) :
    (planTurn ch s).Safe fun t => ch ≠ 0#2 → AtTurn (ch - 1) t := by
  have hc := choosePlane_inTurn h
  unfold planTurn
  simp only
  refine Flow.Safe.andThen (G := InTurn ch) ?_ fun t ht => planAdvance_atTurn ht
  split
  · rename_i hpres
    exact ((decodePlane_safe (planeInit_inPlane hc hpres)).andThen fun _ => pilPlace_safe).mono fun _ hp => hp.inTurn
  · exact hc

theorem planes_safe {s : State} (h : ImageOk s) : (planes s).Safe fun _ => True :=
  ((((planTurn_safe (planStart_atTurn h)).andThen fun _ ht => planTurn_safe (ht (by decide))).andThen
    fun _ ht => planTurn_safe (ht (by decide))).andThen fun _ ht => planTurn_safe (ht (by decide))).mono
    fun _ _ => trivial

theorem seqDecode_safe (s : State) (G : State → Prop) : (seqDecode s).Safe G :=
  ((acceptHeader_safe s).andThen fun _ => planes_safe).andThen fun _ _ => rfl

/-! ## What the engine fetches (R27) -/

/-- What the engine does next meets no fault, and leaves the bounds of the position it goes to. -/
def Fetched.Safe (s : State) (x : Fetched) : Prop :=
  match x with
  | .instr i after => ∃ f : Flow, exec i s = f.toOutcome ∧ f.Safe (ReadyAt after)
  | .move m => (runMove m s).Safe PositionOk
  | .fault _ => False
  | .idle => True

theorem fetchDecoded_safe {space : CodeSpace} {special : Byte} {bs : List Byte} {after : Stage} {m : SeqMove} {s : State}
    (hi : ∀ i n, decode space special bs = .ok i n → (Fetched.instr i after).Safe s)
    (hm : ∀ r, decode space special bs = .reject r → (Fetched.move m).Safe s) :
    (fetchDecoded space special bs after m).Safe s := by
  unfold fetchDecoded
  split
  · exact hi _ _ ‹_›
  · exact hm _ ‹_›

theorem fetchBytes_safe {space : CodeSpace} {special : Byte} {sp : SpaceId} {a n : Nat} {after : Stage} {m : SeqMove}
    {s : State} (h : a + n ≤ (s.space sp).len)
    (hd : ∀ bs, s.bytesAt sp a n = some bs → (fetchDecoded space special bs after m).Safe s) :
    (fetchBytes space special sp a n after m s).Safe s := by
  obtain ⟨bs, hbs, -⟩ := s.bytesAt_total sp n a h
  unfold fetchBytes
  rw [hbs]
  exact hd bs hbs

theorem reject_safe (s : State) : (Fetched.move .reject).Safe s := rfl

theorem badSubHeader_safe (s : State) : (Fetched.move .badSubHeader).Safe s := rfl

theorem go_atStage_safe {x : Stage} {s : State} (h : ReadyAt x s) : (Flow.go (atStage x s)).Safe PositionOk :=
  h.positionOk_atStage

/-! ### A stream code's meaning is a turn of its unit's loop -/

theorem setWidth_low (c : Byte) (h : c.toNat < 128) : (c.setWidth 7).setWidth 8 = c :=
  BitVec.eq_of_toNat_eq (by simp only [BitVec.toNat_setWidth]; omega)

theorem setWidth_high (c : Byte) : 128 ≤ c.toNat → 0x80#8 ||| (c.setWidth 7).setWidth 8 = c := by
  revert c; decide

/-- A run code's meaning is the run its control byte selects (R171). -/
theorem exec_decodeRun (c : Byte) (s : State) : exec (decodeRun c) s = (rleRun c s).toOutcome := by
  unfold rleRun
  rcases decodeRun_cases c with ⟨h0, hd⟩ | ⟨-, hlt, hd, -⟩ | ⟨hge, hd, -⟩
  · have hc : c = 0#8 := BitVec.eq_of_toNat_eq h0
    rw [hd, hc]; rfl
  · rw [hd]
    show execLit _ s = _
    rw [execLit, setWidth_low c hlt]
  · rw [hd]
    show execRep _ s = _
    rw [execRep, setWidth_high c hge]

/-- A token's meaning is the token its bytes select (R191). -/
theorem exec_token {bs : List Byte} {i : Instr} {n : Nat} {s : State} (h : decode .lt s.lz.special bs = .ok i n) :
    exec i s = (lzToken bs s).toOutcome := by
  have hd : decodeToken s.lz.special bs = .ok i n := h
  unfold lzToken
  rcases decodeToken_ok hd with ⟨b, rest, -, -, rfl, -⟩ | ⟨rest, -, rfl, -⟩ | ⟨o, cnt, rest, -, -, rfl, -⟩ <;>
    rw [hd] <;> rfl

/-- A payload bit's meaning is one step of the walk (R153). -/
theorem exec_decodeBit (bit : Bool) (s : State) : exec (decodeBit bit) s = (walkBit bit s).toOutcome := by
  cases bit <;> rfl

/-! ### The header's positions -/

theorem fetch_hdrRead_safe {s : State} (hst : s.stage = .hdrRead) : (fetch s).Safe s := by
  simp only [fetch, hst]
  split
  · exact ⟨_, rfl, seqDecode_safe s _⟩
  · split
    · exact reject_safe s
    · rename_i hlen
      refine fetchBytes_safe (by simpa [State.srcLen] using hlen) fun bs _ =>
        fetchDecoded_safe (fun i n hd => ?_) fun _ _ => reject_safe s
      simp only [decode] at hd
      split at hd
      · cases hd
      · cases hd
        exact ⟨_, rfl, (hdrRead_safe _ s).mono fun _ _ => trivial⟩

theorem fetch_hdrFormat_safe {s : State} (hst : s.stage = .hdrFormat) : (fetch s).Safe s := by
  simp only [fetch, hst]
  refine fetchDecoded_safe (fun i n hd => ?_) fun _ _ => reject_safe s
  simp only [decode, decodeFormat] at hd
  split at hd
  · cases hd; exact ⟨.go s, rfl, trivial⟩
  · split at hd
    · cases hd; exact ⟨.go s, rfl, trivial⟩
    · cases hd

theorem check_safe (s : State) : (Fetched.move .check).Safe s :=
  (((checkSelectors_safe s).andThen fun t _ => checkSizes_safe t).andThen fun _ => geometry_safe).andThen
    fun _ ht => go_atStage_safe (x := .pixFormat) ht

theorem fetch_pixFormat_safe {s : State} (hst : s.stage = .pixFormat) (h : HeaderOk s) : (fetch s).Safe s := by
  simp only [fetch, hst]
  refine fetchDecoded_safe (fun i n hd => ?_) fun _ _ => reject_safe s
  simp only [bytes16, decode, decodeBpp] at hd
  split at hd
  · cases hd; exact ⟨.go _, rfl, pixInit_image _ h⟩
  · split at hd
    · cases hd; exact ⟨.go _, rfl, pixInit_image _ h⟩
    · cases hd

/-! ### The plan's positions -/

theorem select_safe {ch : Chan} {s : State} (h : AtTurn ch s) : (Fetched.move (.select ch)).Safe s := by
  have hc := choosePlane_inTurn h
  simp only [Fetched.Safe, runMove]
  split
  · rename_i hpres
    exact go_atStage_safe (x := .policy) (planeInit_inPlane hc hpres).here
  · exact go_atStage_safe (x := .advance) hc.here

theorem policy_safe {s : State} (h : ReadyAt .policy s) : (Fetched.move .policy).Safe s := by
  simp only [Fetched.Safe, runMove]
  split
  · rename_i hv
    exact go_atStage_safe (x := .expand) ⟨h, fun hne => absurd hv hne⟩
  · exact go_atStage_safe (x := .subhdr) h

theorem fetch_policy_safe {s : State} (hst : s.stage = .policy) (h : ReadyAt .policy s) : (fetch s).Safe s := by
  have after : ∀ {x : Flow}, x.Safe (InPlane s.seq.pch) → x.Safe (ReadyAt .place) := fun hx => hx.mono fun _ ht => ht.here
  simp only [fetch, hst]
  split
  · refine fetchDecoded_safe (fun i n hd => ?_) fun _ _ => reject_safe s
    simp only [decode, decodeVariant] at hd
    split at hd
    · cases hd; exact ⟨_, rfl, after (planeRle_safe h)⟩
    · split at hd
      · cases hd; exact ⟨_, rfl, after (planeHufRle_safe h)⟩
      · split at hd
        · cases hd; exact ⟨_, rfl, after (planeHufLz_safe h)⟩
        · cases hd
  · exact policy_safe h

theorem advance_safe {s : State} (h : ReadyAt .advance s) : (Fetched.move .advance).Safe s := by
  simp only [Fetched.Safe, runMove]
  split
  · rfl
  · rename_i hne
    exact go_atStage_safe (x := .select _) (planAdvance_atTurn h hne)

theorem fetch_place_safe {s : State} (hst : s.stage = .place) (h : ReadyAt .place s) : (fetch s).Safe s := by
  simp only [fetch, hst]
  exact ⟨_, rfl, (pilPlace_safe h).mono fun _ ht => ht.inTurn.here⟩

/-! ### Stage one's positions -/

theorem fetch_subhdr_safe {s : State} (hst : s.stage = .subhdr) (h : ReadyAt .subhdr s) : (fetch s).Safe s := by
  simp only [fetch, hst]
  split
  · exact badSubHeader_safe s
  · rename_i hsize
    refine fetchBytes_safe (InPlane.subhdr_le h hsize) fun bs _ =>
      fetchDecoded_safe (fun i n hd => ?_) fun _ _ => badSubHeader_safe s
    simp only [decode] at hd
    split at hd
    · cases hd
    · cases hd
      exact ⟨_, rfl, (subhdrRead_safe _ h).mono fun _ ⟨hp, hsz⟩ => ⟨hp.here, hsz⟩⟩

theorem fetch_build_safe {s : State} (hst : s.stage = .build) (h : ReadyAt .build s) : (fetch s).Safe s := by
  obtain ⟨hp, hsize⟩ := h
  simp only [fetch, hst]
  exact ⟨_, rfl, (htbBuild_safe hp hsize).mono fun _ ⟨ht, hrest⟩ => ⟨ht.here, hrest⟩⟩

theorem fetch_huff_safe {s : State} (hst : s.stage = .huff) (h : ReadyAt .huff s) : (fetch s).Safe s := by
  obtain ⟨hp, hsize, hw⟩ := h
  simp only [fetch, hst]
  split
  · exact go_atStage_safe (x := .huffWalk) ⟨(hp.congr (hufInit_planeFrame s)).here, hufInit_inWalk hp hsize hw⟩
  · exact ⟨_, rfl, (hufDecode_safe hp hsize hw).mono fun _ ⟨ht, hm⟩ => ⟨ht.here, fun _ => hm⟩⟩

theorem hufEnd_safe {s : State} (h : ReadyAt .huffWalk s) : (Fetched.move .hufEnd).Safe s := by
  obtain ⟨hp, hw⟩ := h
  refine go_atStage_safe (x := .expand) ⟨(hp.congr (hufReturn_planeFrame s)).here, fun _ => ?_⟩
  simpa [MidHeld] using hw.mid

/-- EMIT on a leaf, with a byte to produce, writes inside MID and goes on at the root (R155). -/
theorem hufEmit_safe {s : State} (h : ReadyAt .huffWalk s) (hp : s.hsw.hprod < hlenOf s.sub) (hl : s.hsw.cur.toNat < 256) :
    (hufEmit s).Safe (ReadyAt .huffWalk) := by
  obtain ⟨hpl, hw⟩ := h
  have hm : s.hsw.hprod < s.mid.len := by rw [hw.mid]; exact hp
  rw [hufEmit_eq, if_pos hl, if_pos hm]
  refine ⟨hpl.congr ⟨⟨rfl, rfl, rfl, rfl⟩, rfl, rfl, rfl, rfl⟩, ⟨hw.walk.root, hw.walk.tree⟩, hw.stream, hw.mid,
    fun _ => ?_⟩
  show s.hsw.root.toNat ≤ 510
  rw [hw.walk.root]
  decide

/-- A bit consumed on an internal node goes to a lower node (R136, R153). -/
theorem walkBit_safe (right : Bool) {s : State} (h : ReadyAt .huffWalk s) (hlo : 256 ≤ s.hsw.cur.toNat)
    (hhi : s.hsw.cur.toNat ≤ 510) : (walkBit right s).Safe (ReadyAt .huffWalk) := by
  obtain ⟨hpl, hw⟩ := h
  obtain ⟨hleft, hright, -⟩ := hw.walk.tree _ hlo hhi
  rw [walkBit_eq, if_pos ⟨hlo, by omega⟩]
  refine ⟨hpl.congr ⟨⟨rfl, rfl, rfl, rfl⟩, rfl, rfl, rfl, rfl⟩, ⟨hw.walk.root, hw.walk.tree⟩, ?stream, hw.mid, fun _ => ?cur⟩
  case stream => simpa [State.srcLen] using hw.stream
  case cur => cases right <;> simp <;> omega

theorem fetch_huffWalk_safe {s : State} (hst : s.stage = .huffWalk) (h : ReadyAt .huffWalk s) : (fetch s).Safe s := by
  have hw : InWalk s := h.2
  simp only [fetch, hst, fetchWalk]
  split
  · rename_i hp
    have hcur := hw.cur hp
    split
    · rename_i hleaf
      exact ⟨_, rfl, hufEmit_safe h hp ((onLeaf_iff s).1 hleaf)⟩
    · rename_i hleaf
      have hlo : 256 ≤ s.hsw.cur.toNat := Nat.not_lt.1 fun e => hleaf ((onLeaf_iff s).2 e)
      split
      · exact hufEnd_safe h
      · rename_i hbits
        have hlt : s.br.byteP < s.br.payLen := by simpa [brExhausted] using hbits
        have hstream := hw.stream
        obtain ⟨b, hb⟩ := s.byteAt_lt .src (a := s.br.payBase + s.br.byteP)
          (by simp only [State.space_src, State.srcLen] at *; omega)
        rw [hb]
        refine fetchDecoded_safe (fun i n hd => ?_) fun _ _ => hufEnd_safe h
        simp only [decode] at hd
        cases hd
        exact ⟨_, exec_decodeBit _ s, walkBit_safe _ h hlo hcur⟩
  · exact hufEnd_safe h

/-! ### The final stage's positions -/

/-- The stream of the plane's RLE.EXPAND lies inside its space (R170, R218). -/
theorem runOperands_le {s : State} (h : ReadyAt .expand s) :
    (runOperands s).2.1 + (runOperands s).2.2 ≤ (s.space (runSpace (runOperands s).1)).len := by
  obtain ⟨hp, hm⟩ := h
  unfold runOperands
  split
  · exact hp.range_le
  · rename_i hv
    exact (hm hv).stream_le

theorem lzEnd_safe {s : State} (h : InPlane s.seq.pch s) : (Fetched.move .lzEnd).Safe s :=
  go_atStage_safe (x := .place) (h.congr (lzEnd_planeFrame s)).here

theorem rleEnd_safe {s : State} (h : InPlane s.seq.pch s) : (Fetched.move .rleEnd).Safe s :=
  go_atStage_safe (x := .place) (h.congr (rleEnd_planeFrame s)).here

theorem fetch_expand_safe {s : State} (hst : s.stage = .expand) (h : ReadyAt .expand s) : (fetch s).Safe s := by
  have hops := runOperands_le h
  obtain ⟨hp, hm⟩ := h
  simp only [fetch, hst]
  split
  · rename_i hv
    have hmid : MidHeld s := hm (by rw [hv]; decide)
    split
    · refine fetchDecoded_safe (fun i n hd => ?_) fun _ _ => lzEnd_safe hp
      simp only [decode] at hd
      split at hd
      · cases hd
      · cases hd
        exact ⟨.go _, rfl, (hp.congr (lzInit_planeFrame _ s)).here, lzInit_inTokens _ hmid⟩
    · exact ⟨_, rfl, (lzExpand_safe hp hmid).mono fun _ ht => ht.here⟩
  · split
    · exact go_atStage_safe (x := .rle) ⟨(hp.congr (rleInit_planeFrame _ _ _ s)).here, rleInit_inRuns hops⟩
    · exact ⟨_, rfl, (rleExpand_safe hp hops).mono fun _ ht => ht.here⟩

theorem fetch_rle_safe {s : State} (hst : s.stage = .rle) (h : ReadyAt .rle s) : (fetch s).Safe s := by
  obtain ⟨hp, hr⟩ := h
  simp only [fetch, hst]
  split
  · rename_i hmore
    simp only [rleMore, Bool.and_eq_true, decide_eq_true_eq] at hmore
    refine fetchBytes_safe (by have := hr.stream; omega) fun bs _ =>
      fetchDecoded_safe (fun i n hd => ?_) fun _ _ => rleEnd_safe hp
    rcases bs with - | ⟨c, rest⟩
    · cases hd
    · cases hd
      exact ⟨_, exec_decodeRun c s, (rleRun_post c s hmore.1).safe (hr.rleBounds hp)
        (fun _ ⟨f, _⟩ => ⟨(hp.congr f.planeFrame).here, f.inRuns hr⟩) fun _ hf => hf.elim⟩
  · exact rleEnd_safe hp

/-- The bytes of a cut-off token change LSP and its latches alone (R191). -/
theorem lzCut_readyAt (bs : List Byte) {s : State} (h : ReadyAt .lz s) : ReadyAt .lz (lzCut bs s) := by
  obtain ⟨hp, ht⟩ := h
  match bs with
  | [] => exact ⟨hp, ht⟩
  | [b] => exact ⟨hp.congr ⟨⟨rfl, rfl, rfl, rfl⟩, rfl, rfl, rfl, rfl⟩, ht.dest, ht.stream⟩
  | b :: o :: _ => exact ⟨hp.congr ⟨⟨rfl, rfl, rfl, rfl⟩, rfl, rfl, rfl, rfl⟩, ht.dest, ht.stream⟩

theorem fetch_lz_safe {s : State} (hst : s.stage = .lz) (h : ReadyAt .lz s) : (fetch s).Safe s := by
  obtain ⟨hp, ht⟩ := h
  simp only [fetch, hst]
  split
  · rename_i hmore
    simp only [lzMore, Bool.and_eq_true, decide_eq_true_eq] at hmore
    have hwin := tokenWindow_le s.lz
    have hin : s.lz.lsp + tokenWindow s.lz ≤ (s.space .mid).len := by
      rw [State.space_mid, ← ht.stream]; omega
    refine fetchBytes_safe hin fun bs hbs => fetchDecoded_safe (fun i n hd => ?token) fun _ _ => ?cut
    case token =>
      have hlen := s.bytesAt_length .mid hbs
      have hne : bs ≠ [] := fun e => by subst e; cases hd
      exact ⟨_, exec_token hd, (lzToken_post bs s hmore.1 hne (by omega)).safe (ht.lzBounds hp)
        (fun _ ⟨f, _⟩ => ⟨(hp.congr f.planeFrame).here, f.inTokens ht⟩) fun _ hr => hr.stage⟩
    case cut =>
      refine withBytes_safe hin fun cut _ => (positionOk_iff _).2 ?_
      have hstage : (lzCut cut s).stage = .lz := by rw [← hst]; unfold lzCut; split <;> rfl
      rw [hstage]
      exact lzCut_readyAt cut ⟨hp, ht⟩
  · exact lzEnd_safe hp

/-! ## The step (O52) -/

/-- At every position the engine's next code, operation or move is safe (R70). -/
theorem fetch_safe {s : State} (h : PositionOk s) : (fetch s).Safe s := by
  have hr := (positionOk_iff s).1 h
  obtain ⟨x, hst⟩ : ∃ x, s.stage = x := ⟨_, rfl⟩
  rw [hst] at hr
  cases x with
  | idle => simp only [fetch, hst]; trivial
  | hdrRead => exact fetch_hdrRead_safe hst
  | hdrFormat => exact fetch_hdrFormat_safe hst
  | hdrCheck => simp only [fetch, hst]; exact check_safe s
  | pixFormat => exact fetch_pixFormat_safe hst hr
  | plan => simp only [fetch, hst]; exact go_atStage_safe (x := .select 3#2) (planStart_atTurn hr)
  | select ch => simp only [fetch, hst]; exact select_safe hr
  | policy => exact fetch_policy_safe hst hr
  | subhdr => exact fetch_subhdr_safe hst hr
  | build => exact fetch_build_safe hst hr
  | huff => exact fetch_huff_safe hst hr
  | huffWalk => exact fetch_huffWalk_safe hst hr
  | expand => exact fetch_expand_safe hst hr
  | rle => exact fetch_rle_safe hst hr
  | lz => exact fetch_lz_safe hst hr
  | place => exact fetch_place_safe hst hr
  | advance => simp only [fetch, hst]; exact advance_safe hr

theorem positionOk_of_idle {s : State} (h : s.stage = .idle) : PositionOk s := by
  rw [positionOk_iff, h]; trivial

/-- A turn of the engine from a position whose bounds hold meets no fault. -/
theorem engineStep_noFault {s : State} (h : PositionOk s) (f : Fault) : engineStep s ≠ .fault f := by
  have hsafe := fetch_safe h
  unfold engineStep
  split
  · split
    · rename_i i after hf
      rw [hf] at hsafe
      obtain ⟨x, hx, hpost⟩ := hsafe
      have hno := hpost.noFault
      rw [hx]
      cases hx' : x.toOutcome with
      | next u => simp [settle]
      | fault e => exact absurd hx' (hno e)
      | refused r => simp [settle]
    · rename_i m hf
      rw [hf] at hsafe
      exact Flow.Post.noFault hsafe f
    · rename_i e hf
      rw [hf] at hsafe
      exact hsafe.elim
    · simp
  · simp

/-- A turn of the engine leaves the bounds of the position it comes to. -/
theorem engineStep_positionOk {s t : State} (hs : SafeState s) (h : engineStep s = .next t) : PositionOk t := by
  have hsafe := fetch_safe hs.pos
  rcases engineStep_cases h with ⟨-, rfl⟩ | ⟨hb, i, after, u, hf, hu, rfl⟩ | ⟨-, m, hf, hm⟩
  · exact hs.pos
  · rw [hf] at hsafe
    obtain ⟨x, hx, hpost⟩ := hsafe
    have hend : ReadyAt after u ∨ u.stage = .idle :=
      Flow.Post.next (P := fun u => ReadyAt after u ∨ u.stage = .idle)
        (Flow.Post.mono hpost (fun _ hr => .inl hr) (fun _ hi => .inr hi) fun _ hf => hf) (hx ▸ hu)
    rcases exec_goes_or_ends (fetch_notHostMove hf) hu with hg | he
    · rw [if_pos (hg.status.trans hb)]
      exact (hend.resolve_right (hg.stage ▸ hs.inv.running.1 hb)).positionOk_atStage
    · rw [if_neg he.notBusy]
      exact positionOk_of_idle he.stage
  · rw [hf] at hsafe
    exact Flow.Post.next (Flow.Post.mono hsafe (fun _ hp => hp) (fun _ => positionOk_of_idle) fun _ hf => hf) hm

theorem SafeState.withHost {s : State} (h : SafeState s) (rest : List HostEvent) : SafeState { s with host := rest } where
  inv := h.inv.withHost rest
  pos := (positionOk_iff _).2 (((positionOk_iff s).1 h.pos).relocate s.stage rest)

/-- LOAD, START and RESET have no access that could fault (R230). -/
theorem hostMove_noFault {i : Instr} (hi : HostMove i) (s : State) (f : Fault) : exec i s ≠ .fault f := by
  rcases hi with rfl | rfl | ⟨bs, rfl⟩
  · show (hostReset s).toOutcome ≠ _
    simp [hostReset]
  · show (hostStart s).toOutcome ≠ _
    unfold hostStart
    split <;> simp
  · show (hostLoad bs s).toOutcome ≠ _
    unfold hostLoad
    split
    · simp
    · split <;> simp

/-- No move of the host leaves a position with bounds: LOAD comes while the engine is idle, START goes to the first
position and RESET to none (R210, R230, R280). -/
theorem hostMove_positionOk {i : Instr} {s t : State} (hi : HostMove i) (hs : SafeState s) (h : exec i s = .next t) :
    PositionOk t := by
  rcases hi with rfl | rfl | ⟨bs, rfl⟩
  · rw [reset_next h]
    exact positionOk_of_idle rfl
  · obtain ⟨-, rfl⟩ := start_next s t h
    exact (positionOk_iff _).2 trivial
  · obtain ⟨hnb, rfl⟩ := load_next bs s t h
    exact positionOk_of_idle (by_contra fun hne => hnb (hs.inv.running.2 hne))

/-- No step from a safe state faults: the host's moves access nothing, and the engine's turn is safe. -/
theorem step_noFault {s : State} (hs : SafeState s) (f : Fault) : step s ≠ .fault f := by
  unfold step machineStep
  split
  · exact engineStep_noFault hs.pos f
  · exact engineStep_noFault (hs.withHost _).pos f
  · exact hostMove_noFault (.inl rfl) _ f
  · split
    · exact engineStep_noFault hs.pos f
    · exact hostMove_noFault (.inr (.inr ⟨_, rfl⟩)) _ f
  · split
    · exact engineStep_noFault hs.pos f
    · exact hostMove_noFault (.inr (.inl rfl)) _ f

/-- Every step keeps the bounds of the position. -/
theorem step_safeState {s t : State} (hs : SafeState s) (h : step s = .next t) : SafeState t :=
  step_preserves (P := SafeState) (fun _ rest h => h.withHost rest)
    (fun _ _ hs he => ⟨engineStep_inv hs.inv he, engineStep_positionOk hs he⟩)
    (fun _ _ _ hi hs he => ⟨hostMove_inv hi hs.inv he, hostMove_positionOk hi hs he⟩) hs h

/-- Settles O52: every unit faults outside its own bounds alone, and each position's bounds give those of the unit that
runs there and of the position after it. -/
theorem safeStepsNeverFault : Obligations.SafeStepsNeverFault :=
  fun _ hs => ⟨step_noFault hs, fun _ => step_safeState hs⟩

end Sys2Proof.Machine

/-! PROOFS. The statements of 30_encoding.md: the decoder reads back what the encoder writes and accepts nothing else,
the selectors it refuses, EMIT, and the step of an issued instruction. -/

namespace Sys2Proof.Machine

/-! ## What each code space accepts (R118, R119)

One `↔` for each selector and each code space: from left to right it says what was accepted, from right to left that the
encoder's bytes are accepted. -/

section
variable {special : Byte} {bs : List Byte} {i : Instr} {n : Nat}

theorem decodeFormat_ok_iff {v : Byte} :
    decodeFormat v = .ok i n ↔ (v = 1#8 ∧ i = .format1 ∨ v = 2#8 ∧ i = .format2) ∧ n = 1 := by
  unfold decodeFormat
  by_cases h1 : v = 1#8
  · simp [h1, eq_comm]
  · by_cases h2 : v = 2#8
    · simp [h2, eq_comm]
    · simp [h1, h2]

theorem decodeVariant_ok_iff {v : Byte} :
    decodeVariant v = .ok i n ↔
      (v = Config.variantRle ∧ i = .variantRle ∨ v = Config.variantHufRle ∧ i = .variantHufRle ∨
        v = Config.variantHufLz ∧ i = .variantHufLz) ∧ n = 1 := by
  unfold decodeVariant Config.variantRle Config.variantHufRle Config.variantHufLz
  by_cases h1 : v = 0x01#8
  · simp [h1, eq_comm]
  · by_cases h2 : v = 0xA1#8
    · simp [h2, eq_comm]
    · by_cases h3 : v = 0xA2#8
      · simp [h3, eq_comm]
      · simp [h1, h2, h3]

theorem decodeBpp_ok_iff {v : U16} :
    decodeBpp v = .ok i n ↔ (v = 24#16 ∧ i = .bpp24 ∨ v = 32#16 ∧ i = .bpp32) ∧ n = 2 := by
  unfold decodeBpp
  by_cases h1 : v = 24#16
  · simp [h1, eq_comm]
  · by_cases h2 : v = 32#16
    · simp [h2, eq_comm]
    · simp [h1, h2]

theorem decode_rc_ok_iff :
    decode .rc special bs = .ok i n ↔ ∃ c rest, bs = c :: rest ∧ i = decodeRun c ∧ n = 1 := by
  cases bs <;> simp [decode, eq_comm]

theorem decode_hb_ok_iff :
    decode .hb special bs = .ok i n ↔ ∃ b rest, bs = b :: rest ∧ i = decodeBit (b.getLsbD 0) ∧ n = 1 := by
  cases bs <;> simp [decode, eq_comm]

theorem decode_lt_ok_iff :
    decode .lt special bs = .ok i n ↔
      (∃ b rest, bs = b :: rest ∧ b ≠ special ∧ i = .lzlit b ∧ n = 1) ∨
      (∃ rest, bs = special :: special :: rest ∧ i = .lzesc ∧ n = 2) ∨
      (∃ o cnt rest, bs = special :: o :: cnt :: rest ∧ o ≠ special ∧ i = .lzcpy o cnt ∧ n = 3) := by
  refine ⟨decodeToken_ok, ?_⟩
  rintro (⟨b, rest, rfl, hb, rfl, rfl⟩ | ⟨rest, rfl, rfl, rfl⟩ | ⟨o, cnt, rest, rfl, ho, rfl, rfl⟩)
  · simp [decode, decodeToken, hb]
  · simp [decode, decodeToken]
  · simp [decode, decodeToken, ho]

theorem decode_format_ok_iff :
    decode .format special bs = .ok i n ↔ ∃ b rest, bs = b :: rest ∧ decodeFormat b = .ok i n := by
  cases bs <;> simp [decode]

theorem decode_variant_ok_iff :
    decode .variant special bs = .ok i n ↔ ∃ b rest, bs = b :: rest ∧ decodeVariant b = .ok i n := by
  cases bs <;> simp [decode]

theorem decode_bpp_ok_iff :
    decode .bpp special bs = .ok i n ↔ ∃ b b' rest, bs = b :: b' :: rest ∧ decodeBpp (le16 b b') = .ok i n := by
  rcases bs with - | ⟨b, - | ⟨b', rest⟩⟩ <;> simp [decode]

theorem decode_ch_ok_iff :
    decode .ch special bs = .ok i n ↔ Config.hdrLen ≤ bs.length ∧ i = .hdr (headerOf bs) ∧ n = Config.hdrLen := by
  by_cases h : bs.length < Config.hdrLen
  · simp [decode, h]
  · simp [decode, h, Nat.not_lt.1 h, eq_comm]

theorem decode_sh_ok_iff :
    decode .sh special bs = .ok i n ↔
      Config.subHdrLen ≤ bs.length ∧ i = .subhdr (subHeaderOf bs) ∧ n = Config.subHdrLen := by
  by_cases h : bs.length < Config.subHdrLen
  · simp [decode, h]
  · simp [decode, h, Nat.not_lt.1 h, eq_comm]

theorem decode_lh_ok_iff :
    decode .lh special bs = .ok i n ↔
      Config.lzPayloadOff ≤ bs.length ∧ i = .lzhdr (lzHeaderOf bs) ∧ n = Config.lzPayloadOff := by
  by_cases h : bs.length < Config.lzPayloadOff
  · simp [decode, h]
  · simp [decode, h, Nat.not_lt.1 h, eq_comm]

end

/-! ## Records read from their own bytes (R100, R102, R105) -/

@[simp] theorem headerBytes_length (h : Header) : (headerBytes h).length = Config.hdrLen := rfl

@[simp] theorem subHeaderBytes_length (t : SubHeader) : (subHeaderBytes t).length = Config.subHdrLen := by
  unfold subHeaderBytes
  rw [List.length_append, List.length_append, bytes32_length, bytes32_length, bytes32_flatMap_length,
    Array.length_toList, Vector.size_toArray]

@[simp] theorem lzHeaderBytes_length (h : LzHeader) : (lzHeaderBytes h).length = Config.lzPayloadOff := rfl

theorem headerOf_headerBytes (h : Header) (rest : List Byte) : headerOf (headerBytes h ++ rest) = h := by
  simp [headerOf, headerBytes, bytes16, bytes32, u8At, u16At, u32At, le16_bytes16, le32_bytes32]

theorem subHeaderOf_subHeaderBytes (t : SubHeader) (rest : List Byte) :
    subHeaderOf (subHeaderBytes t ++ rest) = t := by
  obtain ⟨decoded, packed, freqs⟩ := t
  have hdecoded : u32At (subHeaderBytes ⟨decoded, packed, freqs⟩ ++ rest) 0 = decoded := le32_bytes32 decoded
  have hpacked : u32At (subHeaderBytes ⟨decoded, packed, freqs⟩ ++ rest) 4 = packed := le32_bytes32 packed
  have htable : (subHeaderBytes ⟨decoded, packed, freqs⟩ ++ rest).drop 8
      = freqs.toArray.toList.flatMap bytes32 ++ rest := rfl
  have hfreqs : wordsOf 256 (freqs.toArray.toList.flatMap bytes32 ++ rest) = freqs.toArray.toList := by
    have := wordsOf_flatMap freqs.toArray.toList rest
    rwa [Array.length_toList, Vector.size_toArray] at this
  simp only [subHeaderOf, hdecoded, hpacked, htable, hfreqs]

/-- A 24-bit field read from its own three bytes (R60, R105). -/
theorem append_bytes24 (v : BitVec 24) : v.extractLsb' 16 8 ++ v.extractLsb' 8 8 ++ v.extractLsb' 0 8 = v := by
  rw [BitVec.extractLsb'_append_extractLsb'_eq_extractLsb' (by rfl),
    BitVec.extractLsb'_append_extractLsb'_eq_extractLsb' (by rfl)]
  exact BitVec.extractLsb'_eq_self

theorem lzHeaderOf_lzHeaderBytes (h : LzHeader) (rest : List Byte) : lzHeaderOf (lzHeaderBytes h ++ rest) = h := by
  simp [lzHeaderOf, lzHeaderBytes, bytes32, u8At, u32At, le32_bytes32, append_bytes24]

/-! ## The bytes a record was read from (R60)

A record's bytes are its fields' bytes one after another, so what they make up of `bs` grows field by field. -/

theorem drop_eq_u8At_cons {bs : List Byte} {k : Nat} (h : k < bs.length) : bs.drop k = u8At bs k :: bs.drop (k + 1) := by
  rw [List.drop_eq_getElem_cons h, u8At, List.getD_eq_getElem _ _ h]

theorem take_append_u8At {bs : List Byte} {k : Nat} (h : k + 1 ≤ bs.length) :
    bs.take k ++ [u8At bs k] = bs.take (k + 1) := by
  rw [List.take_add, drop_eq_u8At_cons h]
  rfl

theorem take_append_u16At {bs : List Byte} {k : Nat} (h : k + 2 ≤ bs.length) :
    bs.take k ++ bytes16 (u16At bs k) = bs.take (k + 2) := by
  rw [u16At, bytes16_le16, List.take_add, drop_eq_u8At_cons (by omega), drop_eq_u8At_cons (by omega)]
  rfl

theorem take_append_u32At {bs : List Byte} {k : Nat} (h : k + 4 ≤ bs.length) :
    bs.take k ++ bytes32 (u32At bs k) = bs.take (k + 4) := by
  rw [u32At, bytes32_le32, List.take_add, drop_eq_u8At_cons (by omega), drop_eq_u8At_cons (by omega),
    drop_eq_u8At_cons (by omega), drop_eq_u8At_cons (by omega)]
  rfl

theorem headerBytes_headerOf {bs : List Byte} (h : Config.hdrLen ≤ bs.length) :
    headerBytes (headerOf bs) = bs.take Config.hdrLen := by
  have hlen : 0x20 ≤ bs.length := h
  have hsel : [u8At bs 0, u8At bs 1] = bs.take 2 := by
    rw [← take_append_u8At (by omega), ← take_append_u8At (by omega)]
    rfl
  simp only [headerBytes, headerOf, hsel]
  simp (disch := omega) only [take_append_u16At, take_append_u32At, Nat.reduceAdd]

theorem subHeaderBytes_subHeaderOf {bs : List Byte} (h : Config.subHdrLen ≤ bs.length) :
    subHeaderBytes (subHeaderOf bs) = bs.take Config.subHdrLen := by
  have hlen : 0x408 ≤ bs.length := h
  have htable : (wordsOf 256 (bs.drop 8)).flatMap bytes32 = (bs.drop 8).take 1024 :=
    flatMap_wordsOf 256 (bs.drop 8) (by rw [List.length_drop]; omega)
  have hfirst : bytes32 (u32At bs 0) = bs.take 4 := take_append_u32At (k := 0) (by omega)
  simp only [subHeaderBytes, subHeaderOf, hfirst, htable]
  rw [take_append_u32At (by omega), ← List.take_add]

/-- The three bytes a 24-bit field was put together from (R60, R105). -/
theorem bytes24_append (a b c : Byte) :
    [(c ++ b ++ a).extractLsb' 0 8, (c ++ b ++ a).extractLsb' 8 8, (c ++ b ++ a).extractLsb' 16 8] = [a, b, c] := by
  have hmiddle : (c ++ b ++ a).extractLsb' 8 8 = b := by
    rw [BitVec.extractLsb'_append_eq_of_le (by decide)]
    exact BitVec.extractLsb'_append_eq_right
  have hhigh : (c ++ b ++ a).extractLsb' 16 8 = c := by
    rw [BitVec.extractLsb'_append_eq_of_le (by decide)]
    exact BitVec.extractLsb'_append_eq_left
  rw [BitVec.extractLsb'_append_eq_right, hmiddle, hhigh]

theorem lzHeaderBytes_lzHeaderOf {bs : List Byte} (h : Config.lzPayloadOff ≤ bs.length) :
    lzHeaderBytes (lzHeaderOf bs) = bs.take Config.lzPayloadOff := by
  have hlen : 12 ≤ bs.length := h
  have hfirst : bytes32 (u32At bs 0) = bs.take 4 := take_append_u32At (k := 0) (by omega)
  have hpad : bs.take 9 ++ [u8At bs 9, u8At bs 10, u8At bs 11] = bs.take 12 := by
    rw [← take_append_u8At (k := 11) (by omega), ← take_append_u8At (k := 10) (by omega),
      ← take_append_u8At (k := 9) (by omega)]
    simp
  simp only [lzHeaderBytes, lzHeaderOf, hfirst, bytes24_append]
  rw [take_append_u32At (by omega), take_append_u8At (by omega)]
  exact hpad

/-! ## The codes of one byte (R103, R104) -/

/-- A control byte from 0x80 up is its high bit and its seven low bits (R104). -/
theorem highBit_or_low (c : Byte) (h : 128 ≤ c.toNat) : 0x80#8 ||| (c.setWidth 7).setWidth 8 = c := by
  revert h; revert c; decide

theorem encode_decodeRun (special c : Byte) : encode special (decodeRun c) = [c] := by
  rcases decodeRun_cases c with ⟨hc, h⟩ | ⟨-, hlt, h, -⟩ | ⟨hge, h, -⟩ <;> rw [h, encode]
  · rw [show c = 0#8 from BitVec.eq_of_toNat_eq hc]
  · exact congrArg (fun x => [x]) (BitVec.eq_of_toNat_eq (by simp only [BitVec.toNat_setWidth]; omega))
  · rw [highBit_or_low c hge]

theorem wellFormed_decodeRun (special c : Byte) : WellFormed special (decodeRun c) = true := by
  rcases decodeRun_cases c with ⟨-, h⟩ | ⟨hpos, -, h, hn⟩ | ⟨-, h, -⟩ <;> rw [h]
  · rfl
  · have hne : c.setWidth 7 ≠ 0#7 := fun e => by simp [e] at hn; omega
    simpa [WellFormed] using hne
  · rfl

theorem codeSpace_decodeRun (c : Byte) : codeSpace (decodeRun c) = some .rc := by
  rcases decodeRun_cases c with ⟨-, h⟩ | ⟨-, -, h, -⟩ | ⟨-, h, -⟩ <;> rw [h] <;> rfl

/-- A payload bit is written into bit 0 of a byte (R61). -/
theorem encode_decodeBit (special b : Byte) : encode special (decodeBit (b.getLsbD 0)) = [b &&& 0x01#8] := by
  have hbit : b &&& 0x01#8 = if b.getLsbD 0 then 0x01#8 else 0x00#8 := by revert b; decide
  rw [hbit]
  cases b.getLsbD 0 <;> rfl

theorem decodeBit_belongs (special : Byte) (bit : Bool) :
    WellFormed special (decodeBit bit) = true ∧ codeSpace (decodeBit bit) = some .hb := by
  cases bit <;> exact ⟨rfl, rfl⟩

/-! ## There and back (O37) -/

/-- Settles O37, code space by code space: the encoder's bytes are what the space's `↔` accepts. -/
theorem decodeOfEncodeIsTheInstruction : Obligations.DecodeOfEncodeIsTheInstruction := by
  intro special i space rest hwf hspace
  cases i with
  | nop => cases hspace; exact decode_rc_ok_iff.2 ⟨0#8, rest, rfl, rfl, rfl⟩
  | lit n =>
    cases hspace
    exact decode_rc_ok_iff.2 ⟨n.setWidth 8, rest, rfl, (decodeRun_lit n (by simpa [WellFormed] using hwf)).symm, rfl⟩
  | rep n => cases hspace; exact decode_rc_ok_iff.2 ⟨0x80#8 ||| n.setWidth 8, rest, rfl, (decodeRun_rep n).symm, rfl⟩
  | lzlit b => cases hspace; exact decode_lt_ok_iff.2 (.inl ⟨b, rest, rfl, by simpa [WellFormed] using hwf, rfl, rfl⟩)
  | lzesc => cases hspace; exact decode_lt_ok_iff.2 (.inr (.inl ⟨rest, rfl, rfl, rfl⟩))
  | lzcpy o cnt =>
    cases hspace
    exact decode_lt_ok_iff.2 (.inr (.inr ⟨o, cnt, rest, rfl, by simpa [WellFormed] using hwf, rfl, rfl⟩))
  | hb0 => cases hspace; exact decode_hb_ok_iff.2 ⟨0#8, rest, rfl, rfl, rfl⟩
  | hb1 => cases hspace; exact decode_hb_ok_iff.2 ⟨1#8, rest, rfl, rfl, rfl⟩
  | format1 | format2 => cases hspace; exact decode_format_ok_iff.2 ⟨_, rest, rfl, rfl⟩
  | variantRle | variantHufRle | variantHufLz => cases hspace; exact decode_variant_ok_iff.2 ⟨_, rest, rfl, rfl⟩
  | bpp24 | bpp32 => cases hspace; exact decode_bpp_ok_iff.2 ⟨_, _, rest, rfl, rfl⟩
  | hdr h =>
    cases hspace
    exact decode_ch_ok_iff.2 ⟨by simp [encode], by rw [encode, headerOf_headerBytes], headerBytes_length h⟩
  | subhdr t =>
    cases hspace
    exact decode_sh_ok_iff.2 ⟨by simp [encode], by rw [encode, subHeaderOf_subHeaderBytes], subHeaderBytes_length t⟩
  | lzhdr h =>
    cases hspace
    exact decode_lh_ok_iff.2 ⟨by simp [encode], by rw [encode, lzHeaderOf_lzHeaderBytes], lzHeaderBytes_length h⟩
  | emit | seqDecode | htbBuild | hufDecode | rleExpand | lzExpand | pilPlace | load | start | reset => cases hspace

/-! ## Nothing else is accepted (O38, O39) -/

/-- What O38 asks of a code of whole bytes. -/
structure ExactCode (space : CodeSpace) (special : Byte) (bs : List Byte) (i : Instr) (n : Nat) : Prop where
  wellFormed : WellFormed special i = true
  belongs : codeSpace i = some space
  within : n ≤ bs.length
  pos : 0 < n
  bytes : bs.take n = encode special i

section
variable {special : Byte} {bs : List Byte} {i : Instr} {n : Nat}

theorem exactCode_run (h : decode .rc special bs = .ok i n) : ExactCode .rc special bs i n := by
  obtain ⟨c, rest, rfl, rfl, rfl⟩ := decode_rc_ok_iff.1 h
  exact ⟨wellFormed_decodeRun special c, codeSpace_decodeRun c, by simp, by simp, (encode_decodeRun special c).symm⟩

theorem exactCode_token (h : decode .lt special bs = .ok i n) : ExactCode .lt special bs i n := by
  rcases decode_lt_ok_iff.1 h with
    ⟨b, rest, rfl, hb, rfl, rfl⟩ | ⟨rest, rfl, rfl, rfl⟩ | ⟨o, cnt, rest, rfl, ho, rfl, rfl⟩
  · exact ⟨by simpa [WellFormed] using hb, rfl, by simp, by simp, rfl⟩
  · exact ⟨rfl, rfl, by simp, by simp, rfl⟩
  · exact ⟨by simpa [WellFormed] using ho, rfl, by simp, by simp, rfl⟩

theorem exactCode_format (h : decode .format special bs = .ok i n) : ExactCode .format special bs i n := by
  obtain ⟨b, rest, rfl, hb⟩ := decode_format_ok_iff.1 h
  obtain ⟨⟨rfl, rfl⟩ | ⟨rfl, rfl⟩, rfl⟩ := decodeFormat_ok_iff.1 hb <;> exact ⟨rfl, rfl, by simp, by simp, rfl⟩

theorem exactCode_variant (h : decode .variant special bs = .ok i n) : ExactCode .variant special bs i n := by
  obtain ⟨b, rest, rfl, hb⟩ := decode_variant_ok_iff.1 h
  obtain ⟨⟨rfl, rfl⟩ | ⟨rfl, rfl⟩ | ⟨rfl, rfl⟩, rfl⟩ := decodeVariant_ok_iff.1 hb <;>
    exact ⟨rfl, rfl, by simp, by simp, rfl⟩

theorem exactCode_bpp (h : decode .bpp special bs = .ok i n) : ExactCode .bpp special bs i n := by
  obtain ⟨b, b', rest, rfl, hb⟩ := decode_bpp_ok_iff.1 h
  have hbytes : [b, b'] = bytes16 (le16 b b') := (bytes16_le16 b b').symm
  obtain ⟨⟨hv, rfl⟩ | ⟨hv, rfl⟩, rfl⟩ := decodeBpp_ok_iff.1 hb <;> rw [hv] at hbytes <;>
    exact ⟨rfl, rfl, by simp, by simp, hbytes⟩

theorem exactCode_header (h : decode .ch special bs = .ok i n) : ExactCode .ch special bs i n := by
  obtain ⟨hlen, rfl, rfl⟩ := decode_ch_ok_iff.1 h
  exact ⟨rfl, rfl, hlen, by decide, (headerBytes_headerOf hlen).symm⟩

theorem exactCode_subHeader (h : decode .sh special bs = .ok i n) : ExactCode .sh special bs i n := by
  obtain ⟨hlen, rfl, rfl⟩ := decode_sh_ok_iff.1 h
  exact ⟨rfl, rfl, hlen, by decide, (subHeaderBytes_subHeaderOf hlen).symm⟩

theorem exactCode_lzHeader (h : decode .lh special bs = .ok i n) : ExactCode .lh special bs i n := by
  obtain ⟨hlen, rfl, rfl⟩ := decode_lh_ok_iff.1 h
  exact ⟨rfl, rfl, hlen, by decide, (lzHeaderBytes_lzHeaderOf hlen).symm⟩

theorem decode_exactCode {space : CodeSpace} (hspace : space ≠ .hb) (h : decode space special bs = .ok i n) :
    ExactCode space special bs i n := by
  cases space with
  | rc => exact exactCode_run h
  | lt => exact exactCode_token h
  | hb => exact absurd rfl hspace
  | format => exact exactCode_format h
  | variant => exact exactCode_variant h
  | bpp => exact exactCode_bpp h
  | ch => exact exactCode_header h
  | sh => exact exactCode_subHeader h
  | lh => exact exactCode_lzHeader h

end

/-- Settles O38: a payload bit's code is the bit, every other code its whole bytes. -/
theorem acceptedBytesAreTheEncoding : Obligations.AcceptedBytesAreTheEncoding := by
  intro space special bs i n h
  by_cases hspace : space = .hb
  · subst hspace
    obtain ⟨b, rest, rfl, rfl, rfl⟩ := decode_hb_ok_iff.1 h
    obtain ⟨hwf, hbelongs⟩ := decodeBit_belongs special (b.getLsbD 0)
    exact ⟨hwf, hbelongs, by simp, by simp, fun hne => absurd rfl hne,
      fun _ => ⟨b, rfl, encode_decodeBit special b⟩⟩
  · have hc := decode_exactCode hspace h
    exact ⟨hc.wellFormed, hc.belongs, hc.within, hc.pos, fun _ => hc.bytes, fun e => absurd e hspace⟩

/-- Two bytes make up a 16-bit number exactly when they are its bytes (R60). -/
theorem le16_eq_iff {b b' : Byte} {v : U16} : le16 b b' = v ↔ [b, b'] = bytes16 v := by
  constructor
  · rintro rfl
    exact (bytes16_le16 b b').symm
  · intro h
    obtain ⟨rfl, rfl⟩ : b = v.extractLsb' 0 8 ∧ b' = v.extractLsb' 8 8 := by simpa [bytes16] using h
    exact le16_bytes16 v

theorem decodeFormat_accepts_iff (b : Byte) : (∃ i n, decodeFormat b = .ok i n) ↔ b = 1#8 ∨ b = 2#8 := by
  simp [decodeFormat_ok_iff, exists_or]

theorem decodeVariant_accepts_iff (b : Byte) :
    (∃ i n, decodeVariant b = .ok i n) ↔ b = 0x01#8 ∨ b = 0xA1#8 ∨ b = 0xA2#8 := by
  simp [decodeVariant_ok_iff, exists_or, Config.variantRle, Config.variantHufRle, Config.variantHufLz]

theorem decodeBpp_accepts_iff (b b' : Byte) :
    (∃ i n, decodeBpp (le16 b b') = .ok i n) ↔ (b = 24#8 ∨ b = 32#8) ∧ b' = 0#8 := by
  have h24 : le16 b b' = 24#16 ↔ b = 24#8 ∧ b' = 0#8 := by simp [le16_eq_iff, bytes16]
  have h32 : le16 b b' = 32#16 ↔ b = 32#8 ∧ b' = 0#8 := by simp [le16_eq_iff, bytes16]
  simp [decodeBpp_ok_iff, exists_or, h24, h32, or_and_right]

/-- Settles O39: each selector's decoder accepts its legal values alone, and a run's control byte is never refused. -/
theorem illegalSelectorsAreRefused : Obligations.IllegalSelectorsAreRefused := fun _ b b' rest =>
  ⟨decodeFormat_accepts_iff b, decodeVariant_accepts_iff b, decodeBpp_accepts_iff b b',
    decodeRun b, decode_rc_ok_iff.2 ⟨b, rest, rfl, rfl, rfl⟩⟩

/-! ## The step of an issued instruction (O42) -/

/-- Settles O42: with no move due the step is the engine's turn, and `settle` moves the sequencer on. -/
theorem stepRunsTheIssuedInstruction : Obligations.StepRunsTheIssuedInstruction := by
  intro s i after hno hb hf
  rw [step_of_noMoveDue hno, engineStep_instr hb hf]
  cases exec i s <;> rfl

/-! ## EMIT (O14) -/

/-- Settles O14: the one cell EMIT writes is MID[HPROD]. -/
theorem emitWritesTheLeafByte : Obligations.EmitWritesTheLeafByte := by
  intro s hleaf hroom
  refine ⟨s.mid.set s.hsw.hprod (s.hsw.cur.setWidth 8), ?_, rfl, fun a => ?_⟩
  · show (hufEmit s).toOutcome = _
    rw [hufEmit_eq, if_pos hleaf, if_pos hroom]
    rfl
  · simp [Memory.read_set, hroom]

/-! ## Sample codes (O40) -/

/-- Settles O40: nine fixed words. -/
theorem sampleCodesDecode : Obligations.SampleCodesDecode := by
  unfold Obligations.SampleCodesDecode
  decide

end Sys2Proof.Machine

/-! PROOFS. The statements of 40_huffman_tree_builder.md: INSERT keeps LIST in order, MERGE takes its two front entries,
and 255 merges make a full binary tree. -/

namespace Sys2Proof.Machine

/-! ## INSERT keeps the order (R131, O16) -/

/-- LIST in ascending order of frequency, unsigned (R39, R131). -/
def InFreqOrder (node : Vector Node 512) (l : List Idx9) : Prop :=
  l.Pairwise fun i j => (freqAt node i).toNat ≤ (freqAt node j).toNat

/-- INSERT cuts the list at the first entry whose frequency exceeds its node's (R131). -/
theorem insertNode_split (node : Vector Node 512) (n : Idx9) (l : List Idx9) :
    ∃ l1 l2, l = l1 ++ l2 ∧ insertNode node n l = l1 ++ n :: l2 ∧
      (∀ j ∈ l1, (freqAt node j).toNat ≤ (freqAt node n).toNat) ∧
      (∀ j, l2.head? = some j → (freqAt node n).toNat < (freqAt node j).toNat) := by
  induction l with
  | nil => exact ⟨[], [], rfl, rfl, by simp, by simp⟩
  | cons j rest ih =>
    by_cases hj : freqAt node n < freqAt node j
    · exact ⟨[], j :: rest, rfl, if_pos hj, by simp, fun k hk => Option.some.inj hk ▸ hj⟩
    · obtain ⟨l1, l2, hrest, hins, hle, hlt⟩ := ih
      refine ⟨j :: l1, l2, by rw [hrest]; rfl, by rw [insertNode, if_neg hj, hins]; rfl, ?_, hlt⟩
      exact List.forall_mem_cons.2 ⟨BitVec.not_lt.1 hj, hle⟩

/-- Once the first entry exceeds a bound, every entry of an ordered list does. -/
theorem InFreqOrder.lt_of_lt_head {node : Vector Node 512} {l : List Idx9} (ho : InFreqOrder node l) {m : Nat}
    (hhead : ∀ j, l.head? = some j → m < (freqAt node j).toNat) : ∀ j ∈ l, m < (freqAt node j).toNat := by
  cases l with
  | nil => simp
  | cons k rest =>
    have hk : m < (freqAt node k).toNat := hhead k rfl
    exact List.forall_mem_cons.2 ⟨hk, fun j hj => Nat.lt_of_lt_of_le hk (List.rel_of_pairwise_cons ho hj)⟩

theorem InFreqOrder.insertNode {node : Vector Node 512} {l : List Idx9} (ho : InFreqOrder node l) (n : Idx9) :
    InFreqOrder node (insertNode node n l) := by
  obtain ⟨l1, l2, rfl, hins, hle, hlt⟩ := insertNode_split node n l
  obtain ⟨ho1, ho2, h12⟩ := List.pairwise_append.1 ho
  have hgt := InFreqOrder.lt_of_lt_head ho2 hlt
  rw [hins]
  refine List.pairwise_append.2 ⟨ho1, List.pairwise_cons.2 ⟨fun j hj => (hgt j hj).le, ho2⟩, fun i hi => ?_⟩
  exact List.forall_mem_cons.2 ⟨hle i hi, h12 i hi⟩

/-- The order depends on the frequencies of the listed nodes alone. -/
theorem InFreqOrder.congr {x y : Vector Node 512} {l : List Idx9} (ho : InFreqOrder x l)
    (h : ∀ i ∈ l, freqAt y i = freqAt x i) : InFreqOrder y l :=
  List.Pairwise.imp_of_mem (fun hi hj hij => by rwa [h _ hi, h _ hj]) ho

/-- Settles O16: the list is cut at the first greater frequency. -/
theorem insertIsStable : Obligations.InsertIsStable :=
  fun node n l => ⟨insertNode_split node n l, fun ho => InFreqOrder.insertNode ho n⟩

/-! ## The fatal entry of a build (R134, O17) -/

/-- Settles O17: the check of R134 stands before LOADLEAVES. -/
theorem allZeroTableRaises : Obligations.AllZeroTableRaises := by
  intro s hzero
  show (htbBuild s).toOutcome = _
  rw [htbBuild, if_pos ((allZero_iff s.freqs).2 hzero)]
  rfl

/-! ## LOADLEAVES (R130)

The node table that a build starts from is called `base`. -/

/-- What holds while the leaves are loaded (R130): LIST is ordered, its leaves carry their table's frequency, and no
internal node is written. -/
structure LoadInv (freqs : Vector U32 256) (base : Vector Node 512) (h : Htb) : Prop where
  ordered : InFreqOrder h.node h.list
  leaves : ∀ i, leafIndex i ∈ h.list → freqAt h.node (leafIndex i) = freqs[i]
  internal : ∀ j : Idx9, 256 ≤ j.toNat → nodeAt h.node j = nodeAt base j

theorem loadLeaf_node_internal (freqs : Vector U32 256) (i : Fin 256) (h : Htb) {j : Idx9} (hj : 256 ≤ j.toNat) :
    nodeAt (loadLeaf freqs i h).node j = nodeAt h.node j := by
  refine nodeAt_setNode_other _ _ fun e => ?_
  have : j.toNat = i.val := e ▸ leafIndex_toNat i
  omega

theorem LoadInv.loadLeaf {freqs : Vector U32 256} {base : Vector Node 512} {h : Htb} (hi : LoadInv freqs base h)
    (i : Fin 256) : LoadInv freqs base (loadLeaf freqs i h) := by
  have hsame : freqAt (Machine.loadLeaf freqs i h).node (leafIndex i) = freqs[i] := loadLeaf_freq_same freqs i h
  have hlisted : ∀ x ∈ h.list, freqAt (Machine.loadLeaf freqs i h).node x = freqAt h.node x := by
    intro x hx
    by_cases hxi : x = leafIndex i
    · subst hxi; rw [hsame, hi.leaves i hx]
    · exact loadLeaf_freq_other freqs i h hxi
  refine ⟨?ordered, ?leaves, ?internal⟩
  case ordered => exact (hi.ordered.congr hlisted).insertNode _
  case leaves =>
    intro k hk
    rcases (mem_insertNode _ _ _ _).1 hk with e | hk
    · rw [leafIndex_injective e]; exact hsame
    · rw [hlisted _ hk, hi.leaves k hk]
  case internal => exact fun j hj => (loadLeaf_node_internal freqs i h hj).trans (hi.internal j hj)

theorem LoadInv.foldl {freqs : Vector U32 256} {base : Vector Node 512} {h : Htb} (hi : LoadInv freqs base h)
    (l : List (Fin 256)) : LoadInv freqs base (l.foldl (fun h i => Machine.loadLeaf freqs i h) h) := by
  induction l generalizing h with
  | nil => exact hi
  | cons i l ih => exact ih (hi.loadLeaf i)

theorem loadLeaves_inv (freqs : Vector U32 256) (h : Htb) : LoadInv freqs h.node (loadLeaves freqs h) :=
  LoadInv.foldl (h := { h with list := [] }) ⟨List.Pairwise.nil, by simp, fun _ _ => rfl⟩ (List.finRange 256)

theorem leafIndex_mem_loadLeaves (freqs : Vector U32 256) (h : Htb) (i : Fin 256) :
    leafIndex i ∈ (loadLeaves freqs h).list :=
  (loadLeaves_perm freqs h).mem_iff.2 (List.mem_map_of_mem (List.mem_finRange i))

/-! ## One MERGE (R132, R137) -/

/-- The node that MERGE makes of two roots (R132): the sum is taken mod 2^32 (R137). -/
def mergedNode (node : Vector Node 512) (a b : Idx9) : Node :=
  { freq := freqAt node a + freqAt node b, left := a, right := b }

/-- MERGE has two front entries to take. -/
theorem exists_front_pair {l : List Idx9} (hl : 1 < l.length) : ∃ a b rest, l = a :: b :: rest := by
  match l, hl with
  | a :: b :: rest, _ => exact ⟨a, b, rest, rfl⟩

section
variable {h : Htb} {a b : Idx9} {rest : List Idx9}

/-- MERGE writes slot NEXT alone. -/
theorem nodeAt_merge (hl : h.list = a :: b :: rest) (j : Idx9) :
    nodeAt (merge h).node j = if j = h.next then mergedNode h.node a b else nodeAt h.node j := by
  rw [merge_cons h a b rest hl]; exact nodeAt_setNode ..

theorem nodeAt_merge_next (hl : h.list = a :: b :: rest) : nodeAt (merge h).node h.next = mergedNode h.node a b := by
  rw [nodeAt_merge hl, if_pos rfl]

theorem merge_list (hl : h.list = a :: b :: rest) : (merge h).list = insertNode (merge h).node h.next rest := by
  rw [merge_cons h a b rest hl]

theorem mem_merge_list (hl : h.list = a :: b :: rest) (x : Idx9) : x ∈ (merge h).list ↔ x = h.next ∨ x ∈ rest := by
  rw [merge_list hl, mem_insertNode]

end

theorem nodeAt_merge_of_ne {h : Htb} (hl : 1 < h.list.length) {j : Idx9} (hj : j ≠ h.next) :
    nodeAt (merge h).node j = nodeAt h.node j := by
  obtain ⟨a, b, rest, hlist⟩ := exists_front_pair hl
  rw [nodeAt_merge hlist, if_neg hj]

theorem freqAt_merge_of_ne {h : Htb} (hl : 1 < h.list.length) {j : Idx9} (hj : j ≠ h.next) :
    freqAt (merge h).node j = freqAt h.node j := congrArg Node.freq (nodeAt_merge_of_ne hl hj)

theorem ne_next_of_lt {h : Htb} {j : Idx9} (hj : j.toNat < h.next.toNat) : j ≠ h.next :=
  fun e => absurd (e ▸ hj) (Nat.lt_irrefl _)

theorem MergeInv.merge_next {h : Htb} (hi : MergeInv h) (hl : 1 < h.list.length) :
    (Machine.merge h).next.toNat = h.next.toNat + 1 := by
  have := hi.length
  have := (hi.merge hl).length
  have := merge_length h hl
  omega

/-! ## What every merge of a build keeps (R133, R136) -/

/-- `j` is an internal node made so far, and `i` one of its two children. -/
structure IsParent (h : Htb) (j i : Idx9) : Prop where
  internal : 256 ≤ j.toNat
  made : j.toNat < h.next.toNat
  child : (nodeAt h.node j).left = i ∨ (nodeAt h.node j).right = i

/-- What holds between two merges of a build, beside `MergeInv`: LIST is ordered (R131), leaves keep their frequency
(R130) and made nodes are sums (R137), the listed nodes are those without a parent, every other node below NEXT has
exactly one (R136 (b)), and no slot from NEXT on is written. -/
structure BuildInv (freqs : Vector U32 256) (base : Vector Node 512) (h : Htb) : Prop extends MergeInv h where
  ordered : InFreqOrder h.node h.list
  leaves : ∀ i, freqAt h.node (leafIndex i) = freqs[i]
  sums : ∀ j : Idx9, 256 ≤ j.toNat → j.toNat < h.next.toNat →
    freqAt h.node j = freqAt h.node (nodeAt h.node j).left + freqAt h.node (nodeAt h.node j).right
  roots : ∀ i ∈ h.list, ∀ j, ¬ IsParent h j i
  parents : ∀ i, i.toNat < h.next.toNat → i ∉ h.list → ∃! j, IsParent h j i
  unwritten : ∀ j : Idx9, h.next.toNat ≤ j.toNat → nodeAt h.node j = nodeAt base j

theorem IsParent.child_lt {h : Htb} {i j : Idx9} (hp : IsParent h j i) (hi : MergeInv h) : i.toNat < j.toNat := by
  obtain ⟨hleft, hright, -⟩ := hi.children j hp.internal hp.made
  rcases hp.child with rfl | rfl
  · exact hleft
  · exact hright

@[simp] theorem beforeMerges_node (freqs : Vector U32 256) (h : Htb) :
    (beforeMerges freqs h).node = (loadLeaves freqs h).node := by
  simp only [beforeMerges]

theorem beforeMerges_buildInv (freqs : Vector U32 256) (h : Htb) : BuildInv freqs h.node (beforeMerges freqs h) := by
  have hload := loadLeaves_inv freqs h
  have hnone : ∀ {j : Idx9}, 256 ≤ j.toNat → ¬ j.toNat < (beforeMerges freqs h).next.toNat := by
    intro j hlo; simpa using hlo
  refine ⟨beforeMerges_inv freqs h, ?ordered, ?leaves, ?sums, ?roots, ?parents, ?unwritten⟩
  case ordered => simpa using hload.ordered
  case leaves => simpa using fun i => hload.leaves i (leafIndex_mem_loadLeaves freqs h i)
  case sums => exact fun j hlo hhi => absurd hhi (hnone hlo)
  case roots => exact fun i _ j hp => hnone hp.internal hp.made
  case parents =>
    intro i hlt hmem
    have hlt : i.toNat < 256 := by simpa using hlt
    have hleaf : leafIndex ⟨i.toNat, hlt⟩ = i := BitVec.eq_of_toNat_eq (leafIndex_toNat _)
    have hloaded := leafIndex_mem_loadLeaves freqs h ⟨i.toNat, hlt⟩
    rw [hleaf, ← beforeMerges_list] at hloaded
    exact absurd hloaded hmem
  case unwritten => simpa using hload.internal

/-- MERGE makes NEXT the parent of the two front entries, and changes no other parent. -/
theorem MergeInv.isParent_merge_iff {h : Htb} (hi : MergeInv h) {a b : Idx9} {rest : List Idx9}
    (hlist : h.list = a :: b :: rest) (j i : Idx9) :
    IsParent (Machine.merge h) j i ↔ IsParent h j i ∨ j = h.next ∧ (a = i ∨ b = i) := by
  have hl : 1 < h.list.length := by simp [hlist]
  have hnext := hi.merge_next hl
  constructor
  · rintro ⟨hlo, hmade, hchild⟩
    by_cases hj : j = h.next
    · subst hj
      rw [nodeAt_merge_next hlist] at hchild
      exact .inr ⟨rfl, hchild⟩
    · rw [nodeAt_merge_of_ne hl hj] at hchild
      have := mt BitVec.eq_of_toNat_eq hj
      exact .inl ⟨hlo, by omega, hchild⟩
  · rintro (⟨hlo, hmade, hchild⟩ | ⟨rfl, hchild⟩)
    · exact ⟨hlo, by omega, by rwa [nodeAt_merge_of_ne hl (ne_next_of_lt hmade)]⟩
    · exact ⟨hi.start, by omega, by rwa [nodeAt_merge_next hlist]⟩

section
variable {freqs : Vector U32 256} {base : Vector Node 512} {h : Htb} {a b : Idx9} {rest : List Idx9}

/-- The rest of LIST is in order still, and INSERT puts NEXT where it belongs. -/
theorem BuildInv.ordered_merge (hi : BuildInv freqs base h) (hlist : h.list = a :: b :: rest) :
    InFreqOrder (Machine.merge h).node (Machine.merge h).list := by
  have hold := hi.ordered
  have hbelow := hi.below
  rw [hlist] at hold hbelow
  have hrest : InFreqOrder h.node rest := hold.of_cons.of_cons
  rw [merge_list hlist]
  refine (hrest.congr fun x hx => ?_).insertNode _
  exact freqAt_merge_of_ne (by simp [hlist]) (ne_next_of_lt (hbelow x (by simp [hx])))

/-- The made nodes' children lie below NEXT, so their sums stay; NEXT's is the sum that MERGE takes. -/
theorem BuildInv.sums_merge (hi : BuildInv freqs base h) (hlist : h.list = a :: b :: rest) (j : Idx9)
    (hlo : 256 ≤ j.toNat) (hhi : j.toNat < (Machine.merge h).next.toNat) :
    freqAt (Machine.merge h).node j = freqAt (Machine.merge h).node (nodeAt (Machine.merge h).node j).left
      + freqAt (Machine.merge h).node (nodeAt (Machine.merge h).node j).right := by
  have hl : 1 < h.list.length := by simp [hlist]
  have hfreq : ∀ {x : Idx9}, x.toNat < h.next.toNat → freqAt (Machine.merge h).node x = freqAt h.node x :=
    fun hx => freqAt_merge_of_ne hl (ne_next_of_lt hx)
  by_cases hj : j = h.next
  · subst hj
    have ha := hfreq (hi.below a (by simp [hlist]))
    have hb := hfreq (hi.below b (by simp [hlist]))
    rw [freqAt, nodeAt_merge_next hlist]
    exact congrArg₂ (· + ·) ha.symm hb.symm
  · have hlt : j.toNat < h.next.toNat := by
      have := hi.merge_next hl
      have := mt BitVec.eq_of_toNat_eq hj
      omega
    obtain ⟨hleft, hright, -⟩ := hi.children j hlo hlt
    rw [nodeAt_merge_of_ne hl hj, hfreq hlt, hfreq (hleft.trans hlt), hfreq (hright.trans hlt), hi.sums j hlo hlt]

/-- NEXT is nobody's child, and the two nodes that got a parent have left LIST. -/
theorem BuildInv.roots_merge (hi : BuildInv freqs base h) (hlist : h.list = a :: b :: rest) (i : Idx9)
    (hmem : i ∈ (Machine.merge h).list) (j : Idx9) : ¬ IsParent (Machine.merge h) j i := by
  have hbelow := hi.below
  have hnodup := hi.nodup
  have hroots := hi.roots
  rw [hlist] at hbelow hnodup hroots
  rw [hi.isParent_merge_iff hlist]
  rcases (mem_merge_list hlist i).1 hmem with rfl | hrest
  · rintro (hold | ⟨-, rfl | rfl⟩)
    · exact Nat.lt_asymm hold.made (hold.child_lt hi.toMergeInv)
    · exact Nat.lt_irrefl _ (hbelow h.next (by simp))
    · exact Nat.lt_irrefl _ (hbelow h.next (by simp))
  · rintro (hold | ⟨-, rfl | rfl⟩)
    · exact hroots i (by simp [hrest]) j hold
    · simp [hrest] at hnodup
    · simp [hrest] at hnodup

/-- The two front entries get NEXT as their parent; every other node keeps the one it has. -/
theorem BuildInv.parents_merge (hi : BuildInv freqs base h) (hlist : h.list = a :: b :: rest) (i : Idx9)
    (hlt : i.toNat < (Machine.merge h).next.toNat) (hmem : i ∉ (Machine.merge h).list) :
    ∃! j, IsParent (Machine.merge h) j i := by
  have hparent := hi.isParent_merge_iff hlist
  obtain ⟨hin, hir⟩ := not_or.1 (mt (mem_merge_list hlist i).2 hmem)
  by_cases hold : i ∈ h.list
  · have hab : a = i ∨ b = i := by simpa [hlist, hir, eq_comm] using hold
    refine ⟨h.next, (hparent _ i).2 (.inr ⟨rfl, hab⟩), fun j hp => ?_⟩
    exact ((hparent j i).1 hp).elim (fun hp => absurd hp (hi.roots i hold j)) And.left
  · have hab : ¬ (a = i ∨ b = i) := fun hab => hold (by rcases hab with rfl | rfl <;> simp [hlist])
    have hlt' : i.toNat < h.next.toNat := by
      have := hi.merge_next (by simp [hlist])
      have := mt BitVec.eq_of_toNat_eq hin
      omega
    simpa [hparent, hab] using hi.parents i hlt' hold

end

theorem BuildInv.merge {freqs : Vector U32 256} {base : Vector Node 512} {h : Htb} (hi : BuildInv freqs base h)
    (hl : 1 < h.list.length) : BuildInv freqs base (merge h) := by
  have hstart := hi.start
  have hnext := hi.merge_next hl
  obtain ⟨a, b, rest, hlist⟩ := exists_front_pair hl
  refine ⟨hi.toMergeInv.merge hl, hi.ordered_merge hlist, ?leaves, hi.sums_merge hlist, hi.roots_merge hlist,
    hi.parents_merge hlist, ?unwritten⟩
  case leaves =>
    intro i
    have hleaf : (leafIndex i).toNat < h.next.toNat := by
      have := i.isLt
      rw [leafIndex_toNat]
      omega
    rw [freqAt_merge_of_ne hl (ne_next_of_lt hleaf), hi.leaves i]
  case unwritten =>
    intro j hj
    have hne : j ≠ h.next := by rintro rfl; omega
    rw [nodeAt_merge_of_ne hl hne, hi.unwritten j (by omega)]

/-! ## A build is 255 merges (R133, R136) -/

theorem mergeTimes_add (j k : Nat) (h : Htb) : mergeTimes (j + k) h = mergeTimes k (mergeTimes j h) := by
  induction j generalizing h with
  | zero => rw [Nat.zero_add]; rfl
  | succ j ih => rw [Nat.succ_add]; exact ih (merge h)

/-- The loop stops when one entry is left, after one merge for each other entry (R136). -/
theorem mergeLoop_eq_mergeTimes {m k : Nat} {h : Htb} (hlen : h.list.length = m + 1) (hk : m ≤ k) :
    mergeLoop k h = mergeTimes m h := by
  induction m generalizing k h with
  | zero =>
    cases k with
    | zero => rfl
    | succ k => exact if_neg (by omega)
  | succ m ih =>
    obtain ⟨k, rfl⟩ : ∃ k', k = k' + 1 := ⟨k - 1, by omega⟩
    rw [mergeLoop, if_pos (by omega)]
    have := merge_length h (by omega)
    exact ih (by omega) (by omega)

theorem beforeMerges_length (freqs : Vector U32 256) (h : Htb) : (beforeMerges freqs h).list.length = 256 := by
  simp [(loadLeaves_perm freqs h).length_eq]

theorem buildTree_eq_mergeTimes (freqs : Vector U32 256) (h : Htb) :
    buildTree freqs h = mergeTimes 255 (beforeMerges freqs h) :=
  mergeLoop_eq_mergeTimes (beforeMerges_length freqs h) (by rw [← beforeMerges, beforeMerges_length]; omega)

theorem BuildInv.mergeTimes {freqs : Vector U32 256} {base : Vector Node 512} {k : Nat} {h : Htb}
    (hi : BuildInv freqs base h) (hk : k < h.list.length) :
    BuildInv freqs base (mergeTimes k h) ∧ (Machine.mergeTimes k h).next.toNat = h.next.toNat + k := by
  induction k generalizing h with
  | zero => exact ⟨hi, rfl⟩
  | succ k ih =>
    have hl : 1 < h.list.length := by omega
    have hlen := merge_length h hl
    have hnext := hi.merge_next hl
    obtain ⟨hinv, hn⟩ := ih (hi.merge hl) (by omega)
    exact ⟨hinv, by rw [Machine.mergeTimes, hn]; omega⟩

/-- Later merges write no slot below NEXT. -/
theorem MergeInv.nodeAt_mergeTimes {k : Nat} {h : Htb} (hi : MergeInv h) (hk : k < h.list.length) {j : Idx9}
    (hj : j.toNat < h.next.toNat) : nodeAt (mergeTimes k h).node j = nodeAt h.node j := by
  induction k generalizing h with
  | zero => rfl
  | succ k ih =>
    have hl : 1 < h.list.length := by omega
    have hlen := merge_length h hl
    have hnext := hi.merge_next hl
    rw [mergeTimes, ih (hi.merge hl) (by omega) (by omega), nodeAt_merge_of_ne hl (ne_next_of_lt hj)]

/-- What a build has reached after `k` merges (R133). -/
theorem beforeMerges_mergeTimes (freqs : Vector U32 256) (h : Htb) {k : Nat} (hk : k ≤ 255) :
    BuildInv freqs h.node (mergeTimes k (beforeMerges freqs h)) ∧
      (mergeTimes k (beforeMerges freqs h)).next.toNat = 256 + k := by
  have := (beforeMerges_buildInv freqs h).mergeTimes (k := k) (by rw [beforeMerges_length]; omega)
  simpa using this

theorem buildTree_inv (freqs : Vector U32 256) (h : Htb) :
    BuildInv freqs h.node (buildTree freqs h) ∧ (buildTree freqs h).next = 511#9 := by
  obtain ⟨hinv, hnext⟩ := beforeMerges_mergeTimes freqs h (Nat.le_refl 255)
  rw [← buildTree_eq_mergeTimes] at hinv hnext
  exact ⟨hinv, BitVec.eq_of_toNat_eq hnext⟩

/-- What merge `k` writes stands in the finished tree. -/
theorem nodeAt_buildTree_next (freqs : Vector U32 256) (h : Htb) {k : Nat} (hk : k < 255) {a b : Idx9}
    {rest : List Idx9} (hlist : (mergeTimes k (beforeMerges freqs h)).list = a :: b :: rest) :
    nodeAt (buildTree freqs h).node (mergeTimes k (beforeMerges freqs h)).next
      = mergedNode (mergeTimes k (beforeMerges freqs h)).node a b := by
  obtain ⟨hinv, hnext⟩ := beforeMerges_mergeTimes freqs h hk.le
  have hsplit : buildTree freqs h = mergeTimes (254 - k) (merge (mergeTimes k (beforeMerges freqs h))) := by
    rw [buildTree_eq_mergeTimes, show 255 = k + (254 - k + 1) by omega, mergeTimes_add]
    rfl
  generalize mergeTimes k (beforeMerges freqs h) = g at *
  have hl : 1 < g.list.length := by simp [hlist]
  have hlen := hinv.length
  have hmlen := merge_length g hl
  have hmnext := hinv.merge_next hl
  rw [hsplit, (hinv.toMergeInv.merge hl).nodeAt_mergeTimes (by omega) (by omega), nodeAt_merge_next hlist]

/-- Settles O57: one MERGE is its rule, and the invariant says what LIST and NEXT are before each of the 255. -/
theorem mergeTakesTheTwoLowest : Obligations.MergeTakesTheTwoLowest := by
  refine ⟨fun h a b rest hlist => ?_, fun freqs h => ⟨buildTree_eq_mergeTimes freqs h, ?_⟩⟩
  · exact ⟨_, merge_cons h a b rest hlist, nodeAt_setNode_same .., fun i hi => nodeAt_setNode_other _ _ hi⟩
  · rintro k g hk rfl
    obtain ⟨hinv, hnext⟩ := beforeMerges_mergeTimes freqs h hk.le
    have hlen : (mergeTimes k (beforeMerges freqs h)).list.length = 256 - k := by have := hinv.length; omega
    obtain ⟨a, b, rest, hlist⟩ := exists_front_pair (l := (mergeTimes k (beforeMerges freqs h)).list) (by omega)
    exact ⟨hlen, hnext, hinv.ordered, a, b, rest, hlist, nodeAt_buildTree_next freqs h hk hlist⟩

/-! ## The finished tree (R136, O18) -/

/-- When a build is over, LIST holds the root alone (R133). -/
theorem buildTree_list (freqs : Vector U32 256) (h : Htb) : (buildTree freqs h).list = [510#9] := by
  obtain ⟨hinv, hnext⟩ := buildTree_inv freqs h
  have hlen := hinv.length
  rw [hnext] at hlen
  obtain ⟨r, hr⟩ := List.length_eq_one_iff.1 (show (buildTree freqs h).list.length = 1 from Nat.add_right_cancel hlen)
  have hroot := (buildTree_finished freqs h).1
  rw [hr] at hroot ⊢
  exact congrArg (fun x => [x]) hroot

/-- When a build is over, every index below the root has exactly one parent (R136 (b)). -/
theorem buildTree_unique_parent (freqs : Vector U32 256) (h : Htb) {i : Idx9} (hi : i.toNat < 510) :
    ∃! j, IsParent (buildTree freqs h) j i := by
  obtain ⟨hinv, hnext⟩ := buildTree_inv freqs h
  refine hinv.parents i (by rw [hnext]; exact hi.trans (by decide)) fun hmem => ?_
  rw [buildTree_list, List.mem_singleton] at hmem
  exact absurd (hmem ▸ hi) (by decide)

theorem htbBuild_of_buildable {s : State} (hb : Buildable s.freqs) :
    exec .htbBuild s = .next { s with
      htb := { node := (buildTree s.freqs s.htb).node, list := [], next := 511#9 }
      hsw := { s.hsw with root := 510#9 } } := by
  obtain ⟨i, hi⟩ := hb
  have hnz : ¬ allZero s.freqs = true := fun hz => hi ((allZero_iff s.freqs).1 hz i)
  show (htbBuild s).toOutcome = _
  rw [htbBuild, if_neg hnz]
  simp only [buildTree_list, (buildTree_inv s.freqs s.htb).2]
  rfl

/-- Settles O18: the invariant of the merges, read when NEXT is 511 and the root alone is listed. -/
theorem buildMakesAFullTree : Obligations.BuildMakesAFullTree := by
  intro s hb
  obtain ⟨hinv, hnext⟩ := buildTree_inv s.freqs s.htb
  have h511 : (buildTree s.freqs s.htb).next.toNat = 511 := by rw [hnext]; rfl
  refine ⟨_, htbBuild_of_buildable hb, (buildTree_finished s.freqs s.htb).2, hinv.leaves, ?sums, ?parents, ?slot511⟩
  case sums => exact fun j hlo hhi => hinv.sums j hlo (by omega)
  case parents =>
    intro i hi
    obtain ⟨j, hj, huniq⟩ := buildTree_unique_parent s.freqs s.htb hi
    have hmade := hj.made
    exact ⟨j, hj.internal, by omega, hj.child, fun j' hlo hhi hc => huniq j' ⟨hlo, by omega, hc⟩⟩
  case slot511 => exact hinv.unwritten 511#9 (by rw [h511]; exact Nat.le_refl 511)

end Sys2Proof.Machine

/-! PROOFS. The statements of 41_bit_reader_symbol_walker.md: one bit of the walk, what HUF.DECODE makes of a payload, and
its bits one by one. -/

namespace Sys2Proof.Machine

/-! ## One bit and one EMIT (O13) -/

/-- The child that the bit `right` leads to (R153). -/
def childOf (node : Vector Node 512) (i : Idx9) (right : Bool) : Idx9 :=
  if right then (nodeAt node i).right else (nodeAt node i).left

/-- One bit consumed, the walk on `c` (R152, R153). -/
def walkTo (c : Idx9) (s : State) : State := { s with br := brAdvance s.br, hsw := { s.hsw with cur := c } }

/-- The byte of the leaf CUR in MID, the walk at its root (R103). -/
def emitLeaf (s : State) : State :=
  { s with
    mid := s.mid.set s.hsw.hprod (s.hsw.cur.setWidth 8)
    hsw := { s.hsw with hprod := s.hsw.hprod + 1, cur := s.hsw.root } }

theorem walkBit_internal (right : Bool) {s : State} (hlo : 256 ≤ s.hsw.cur.toNat) (hhi : s.hsw.cur.toNat ≤ 510) :
    walkBit right s = .go (walkTo (childOf s.htb.node s.hsw.cur right) s) := by
  rw [walkBit_eq, if_pos ⟨hlo, Nat.lt_succ_of_le hhi⟩]
  rfl

theorem hufEmit_leaf {s : State} (hleaf : s.hsw.cur.toNat < 256) (hm : s.hsw.hprod < s.mid.len) :
    hufEmit s = .go (emitLeaf s) := by
  rw [hufEmit_eq, if_pos hleaf, if_pos hm]
  rfl

/-- Settles O13: HB0 and HB1 are one bit of the walk, to the left and to the right. -/
theorem walkBitGoesToTheChild : Obligations.WalkBitGoesToTheChild := fun _ hlo hhi =>
  ⟨congrArg Flow.toOutcome (walkBit_internal false hlo hhi), congrArg Flow.toOutcome (walkBit_internal true hlo hhi)⟩

/-! ## The payload's bits (R61, R152) -/

theorem payloadBits_length (pay : List Byte) : (payloadBits pay).length = 8 * pay.length := by
  induction pay with
  | nil => rfl
  | cons b pay ih =>
    rw [payloadBits, List.flatMap_cons, List.length_append, ← payloadBits, ih]
    simp only [List.length_map, List.length_range, List.length_cons]
    omega

/-- Bit `8 * i + j` of the payload is bit `j` of its byte `i`, bit 0 the least significant (R61). -/
theorem payloadBits_getElem? (pay : List Byte) (i : Nat) {j : Nat} (hj : j < 8) :
    (payloadBits pay)[8 * i + j]? = pay[i]?.map fun b => b.getLsbD j := by
  induction pay generalizing i with
  | nil => simp [payloadBits]
  | cons b pay ih =>
    rw [payloadBits, List.flatMap_cons, ← payloadBits]
    cases i with
    | zero => rw [List.getElem?_append_left (by simpa using hj)]; simp [hj]
    | succ i =>
      rw [List.getElem?_append_right (by simp; omega), List.getElem?_cons_succ, ← ih i]
      congr 1
      simp
      omega

/-- The bits of the payload `pay` that a reader has not consumed, in the order it will (R21, R61). -/
def bitsAhead (pay : List Byte) (r : BrRegs) : List Bool := (payloadBits pay).drop (8 * r.byteP + r.bitI.toNat)

/-- The bits ahead are as many as R21's registers say. -/
theorem bitsAhead_length {pay : List Byte} {r : BrRegs} (h : r.payLen = pay.length) :
    (bitsAhead pay r).length = bitsLeft r := by
  rw [bitsAhead, List.length_drop, payloadBits_length, bitsLeft, h]
  omega

/-- No bit is ahead of an exhausted reader (R152). -/
theorem bitsAhead_eq_nil {pay : List Byte} {r : BrRegs} (h : pay.length ≤ r.byteP) : bitsAhead pay r = [] :=
  List.drop_eq_nil_of_le (by rw [payloadBits_length]; omega)

/-- The cursor's position in the payload's bits moves by one (R152). -/
theorem brAdvance_position (r : BrRegs) :
    8 * (brAdvance r).byteP + (brAdvance r).bitI.toNat = 8 * r.byteP + r.bitI.toNat + 1 := by
  unfold brAdvance
  split
  · rename_i h7
    rw [h7]
    rfl
  · rename_i h7
    simp only [bitI_succ _ h7]
    rfl

/-- The next bit is the one BR.GETBIT reads, and the bits behind it are ahead of the moved cursor (R152). -/
theorem bitsAhead_cons {pay : List Byte} {r : BrRegs} {b : Byte} (hb : pay[r.byteP]? = some b) :
    bitsAhead pay r = (bitWindow r b).getLsbD 0 :: bitsAhead pay (brAdvance r) := by
  have hbit : (payloadBits pay)[8 * r.byteP + r.bitI.toNat]? = some ((bitWindow r b).getLsbD 0) := by
    rw [payloadBits_getElem? pay r.byteP r.bitI.isLt, hb]
    simp [bitWindow]
  obtain ⟨hlt, hget⟩ := List.getElem?_eq_some_iff.1 hbit
  rw [bitsAhead, List.drop_eq_getElem_cons hlt, hget, bitsAhead, brAdvance_position]

/-! ## A space filled from its start (R42, R154) -/

theorem padTo_length {n : Nat} {bs : List Byte} (h : bs.length ≤ n) : (padTo n bs).length = n := by
  rw [padTo, List.length_append, List.length_replicate]
  omega

theorem padTo_getElem?_left (n : Nat) {bs : List Byte} {a : Nat} (h : a < bs.length) : (padTo n bs)[a]? = bs[a]? :=
  List.getElem?_append_left h

theorem padTo_getElem?_right {n : Nat} {bs : List Byte} {a : Nat} (h : bs.length ≤ a) (ha : a < n) :
    (padTo n bs)[a]? = some Config.fill := by
  rw [padTo, List.getElem?_append_right h, List.getElem?_replicate, if_pos (by omega)]

/-- A space of FILL holds no byte produced (R154). -/
theorem holds_filled (n : Nat) : Holds (Memory.filled n) (padTo n []) := by
  refine ⟨(padTo_length (Nat.zero_le n)).symm, fun a => ?_⟩
  rw [Memory.read_filled, padTo, List.nil_append, List.getElem?_replicate]
  rfl

/-- The next byte produced goes behind the last. -/
theorem Holds.set_next {m : Memory} {n : Nat} {bs : List Byte} (h : Holds m (padTo n bs)) (hroom : bs.length < n)
    (v : Byte) : Holds (m.set bs.length v) (padTo n (bs ++ [v])) := by
  obtain ⟨hlen, hread⟩ := h
  have hnext : (bs ++ [v]).length = bs.length + 1 := by simp
  have hm : m.len = n := hlen.trans (padTo_length hroom.le)
  refine ⟨by rw [Memory.set_len, hm, padTo_length (hnext ▸ hroom)], fun a => ?_⟩
  rw [Memory.read_set, hm]
  rcases lt_trichotomy a bs.length with hlt | rfl | hgt
  · rw [if_neg (by omega), hread, padTo_getElem?_left n hlt, padTo_getElem?_left n (by omega),
      List.getElem?_append_left hlt]
  · rw [if_pos ⟨rfl, hroom⟩, padTo_getElem?_left n (by omega)]
    simp
  · rw [if_neg (by omega), hread]
    by_cases ha : a < n
    · rw [padTo_getElem?_right hgt.le ha, padTo_getElem?_right (by omega) ha]
    · rw [List.getElem?_eq_none (by rw [padTo_length hroom.le]; omega),
        List.getElem?_eq_none (by rw [padTo_length (hnext ▸ hroom)]; omega)]

/-! ## The turns of R155's loop -/

/-- With HLEN bytes produced the loop is over (R155). -/
theorem hufLoop_full (k : Nat) {s : State} (h : hlenOf s.sub ≤ s.hsw.hprod) : hufLoop k s = .go s := by
  cases k with
  | zero => rfl
  | succ k => rw [hufLoop, if_neg (Nat.not_lt.2 h)]

theorem not_onLeaf {s : State} (h : 256 ≤ s.hsw.cur.toNat) : ¬ onLeaf s = true :=
  fun e => Nat.not_lt.2 h ((onLeaf_iff s).1 e)

/-- On an internal node with no bit left the loop is over (R156). -/
theorem hufLoop_exhausted (k : Nat) {s : State} (hcur : 256 ≤ s.hsw.cur.toNat) (h : s.br.payLen ≤ s.br.byteP) :
    hufLoop k s = .go s := by
  cases k with
  | zero => rfl
  | succ k =>
    rw [hufLoop, if_neg (not_onLeaf hcur), if_pos (show brExhausted s.br = true from decide_eq_true h), ite_self]

/-- On an internal node a bit is consumed (R152, R153). -/
theorem hufLoop_bit (k : Nat) {s : State} {b : Byte} (hp : s.hsw.hprod < hlenOf s.sub) (hlo : 256 ≤ s.hsw.cur.toNat)
    (hhi : s.hsw.cur.toNat ≤ 510) (hbr : s.br.byteP < s.br.payLen)
    (hb : s.byteAt .src (s.br.payBase + s.br.byteP) = some b) :
    hufLoop (k + 1) s = hufLoop k (walkTo (childOf s.htb.node s.hsw.cur ((bitWindow s.br b).getLsbD 0)) s) := by
  have hmore : ¬ brExhausted s.br = true := by simpa [brExhausted] using hbr
  rw [hufLoop, if_pos hp, if_neg (not_onLeaf hlo), if_neg hmore, withByte_some .src s _ hb, walkBit_internal _ hlo hhi,
    Flow.go_andThen]

/-- On a leaf its byte is produced (R103). -/
theorem hufLoop_emit (k : Nat) {s : State} (hp : s.hsw.hprod < hlenOf s.sub) (hleaf : s.hsw.cur.toNat < 256)
    (hm : s.hsw.hprod < s.mid.len) : hufLoop (k + 1) s = hufLoop k (emitLeaf s) := by
  rw [hufLoop, if_pos hp, if_pos ((onLeaf_iff s).2 hleaf), hufEmit_leaf hleaf hm, Flow.go_andThen]

/-- The loop changes MID's bytes, the reader's cursor, CUR and HPROD alone. -/
theorem hufLoop_frame {k : Nat} {s t : State} (h : hufLoop k s = .go t) : WalkFrame s t := by
  have hpost := hufLoop_post k s
  rw [h] at hpost
  exact hpost.1

/-! ## What the loop makes of a payload (R103, R155) -/

theorem walkBits_no_room (node : Vector Node 512) (root cur : Idx9) (bits : List Bool) :
    walkBits node root 0 cur bits = [] := by
  cases bits <;> rfl

theorem walkBits_no_bit (node : Vector Node 512) (root cur : Idx9) (room : Nat) : walkBits node root room cur [] = [] := by
  cases room <;> rfl

/-- A bit that leads to a leaf produces its byte, and the next symbol starts at the root. -/
theorem walkBits_leaf {node : Vector Node 512} {root cur : Idx9} {room : Nat} {bit : Bool} {bits : List Bool}
    (h : (childOf node cur bit).toNat < 256) (hroom : 0 < room) :
    walkBits node root room cur (bit :: bits) =
      (childOf node cur bit).setWidth 8 :: walkBits node root (room - 1) root bits := by
  obtain ⟨r, rfl⟩ := Nat.exists_eq_add_one_of_ne_zero hroom.ne'
  exact if_pos h

/-- A bit that leads to an internal node produces nothing. -/
theorem walkBits_internal {node : Vector Node 512} {root cur : Idx9} {room : Nat} {bit : Bool} {bits : List Bool}
    (h : 256 ≤ (childOf node cur bit).toNat) (hroom : 0 < room) :
    walkBits node root room cur (bit :: bits) = walkBits node root room (childOf node cur bit) bits := by
  obtain ⟨r, rfl⟩ := Nat.exists_eq_add_one_of_ne_zero hroom.ne'
  exact if_neg (Nat.not_lt.2 h)

/-- A child lies below its node (R136). -/
theorem TreeOk.childOf_lt {node : Vector Node 512} (h : TreeOk node) {i : Idx9} (hlo : 256 ≤ i.toNat)
    (hhi : i.toNat ≤ 510) (right : Bool) : (childOf node i right).toNat < i.toNat := by
  obtain ⟨hleft, hright, -⟩ := h i hlo hhi
  cases right with
  | false => exact hleft
  | true => exact hright

/-- A walk over a finished tree, from the payload `pay` in SRC, that has put the bytes `out` into MID (R155). -/
structure Produced (pay out : List Byte) (s : State) : Prop where
  walk : WalkOk s
  payLen : s.br.payLen = pay.length
  stream : ∀ i, i < pay.length → s.src.read (s.br.payBase + i) = pay[i]?
  hprod : s.hsw.hprod = out.length
  room : out.length ≤ hlenOf s.sub
  mid : Holds s.mid (padTo (hlenOf s.sub) out)

section
variable {pay out : List Byte} {s : State}

/-- A bit consumed produces nothing (R153). -/
theorem Produced.walkTo (h : Produced pay out s) (c : Idx9) : Produced pay out (walkTo c s) where
  walk := ⟨h.walk.root, h.walk.tree⟩
  payLen := (brAdvance_payLen s.br).trans h.payLen
  stream := by simpa [Machine.walkTo] using h.stream
  hprod := h.hprod
  room := h.room
  mid := h.mid

/-- EMIT produces one byte more (R103). -/
theorem Produced.emitLeaf (h : Produced pay out s) (hroom : out.length < hlenOf s.sub) :
    Produced pay (out ++ [s.hsw.cur.setWidth 8]) (emitLeaf s) where
  walk := ⟨h.walk.root, h.walk.tree⟩
  payLen := h.payLen
  stream := h.stream
  hprod := by simp [Machine.emitLeaf, h.hprod]
  room := by
    rw [List.length_append]
    exact hroom
  mid := by
    simp only [Machine.emitLeaf, h.hprod]
    exact h.mid.set_next hroom _

theorem Produced.mid_len (h : Produced pay out s) : s.mid.len = hlenOf s.sub := h.mid.1.trans (padTo_length h.room)

/-- The payload byte under the reader is the one in SRC (R150, R152). -/
theorem Produced.byteAt (h : Produced pay out s) (hlt : s.br.byteP < pay.length) :
    s.byteAt .src (s.br.payBase + s.br.byteP) = some pay[s.br.byteP] :=
  (h.stream _ hlt).trans (List.getElem?_eq_getElem hlt)

end

/-- From an internal node the loop of R155 produces the bytes that the bits ahead walk to, behind those produced. -/
theorem hufLoop_produces {pay : List Byte} {bits : List Bool} {k : Nat} {out : List Byte} {s : State}
    (h : Produced pay out s) (hcur : out.length < hlenOf s.sub → 256 ≤ s.hsw.cur.toNat ∧ s.hsw.cur.toNat ≤ 510)
    (hbits : bitsAhead pay s.br = bits) (hk : bits.length + (hlenOf s.sub - out.length) ≤ k) :
    ∃ t, hufLoop k s = .go t ∧
      Produced pay (out ++ walkBits s.htb.node s.hsw.root (hlenOf s.sub - out.length) s.hsw.cur bits) t := by
  induction bits generalizing k out s with
  | nil =>
    have hstop : hufLoop k s = .go s := by
      rcases Nat.lt_or_ge out.length (hlenOf s.sub) with hp | hfull
      · refine hufLoop_exhausted k (hcur hp).1 (Nat.le_of_not_lt fun hlt => ?_)
        rw [bitsAhead_cons (List.getElem?_eq_getElem (h.payLen ▸ hlt))] at hbits
        cases hbits
      · exact hufLoop_full k (h.hprod ▸ hfull)
    rw [hstop, walkBits_no_bit, List.append_nil]
    exact ⟨s, rfl, h⟩
  | cons bit bits ih =>
    rcases Nat.lt_or_ge out.length (hlenOf s.sub) with hp | hfull
    case inr =>
      rw [hufLoop_full k (h.hprod ▸ hfull), Nat.sub_eq_zero_of_le hfull, walkBits_no_room, List.append_nil]
      exact ⟨s, rfl, h⟩
    obtain ⟨hlo, hhi⟩ := hcur hp
    have hlt : s.br.byteP < pay.length := Nat.lt_of_not_le fun hle => by
      rw [bitsAhead_eq_nil hle] at hbits
      cases hbits
    rw [bitsAhead_cons (List.getElem?_eq_getElem hlt)] at hbits
    obtain ⟨hbit, hrest⟩ := List.cons.inj hbits
    rw [List.length_cons] at hk
    obtain ⟨k, rfl⟩ : ∃ j, k = j + 1 := ⟨k - 1, by omega⟩
    rw [hufLoop_bit k (h.hprod ▸ hp) hlo hhi (h.payLen ▸ hlt) (h.byteAt hlt), hbit]
    have hto := h.walkTo (childOf s.htb.node s.hsw.cur bit)
    rcases Nat.lt_or_ge (childOf s.htb.node s.hsw.cur bit).toNat 256 with hleaf | hnode
    · obtain ⟨k, rfl⟩ : ∃ j, k = j + 1 := ⟨k - 1, by omega⟩
      have hroot : 256 ≤ s.hsw.root.toNat ∧ s.hsw.root.toNat ≤ 510 := by rw [h.walk.root]; decide
      have hroom (v : Byte) : hlenOf s.sub - out.length - 1 = hlenOf s.sub - (out ++ [v]).length := by
        rw [List.length_append, List.length_singleton, Nat.sub_sub]
      rw [hufLoop_emit k (hto.hprod ▸ hp) hleaf (by rw [hto.hprod, hto.mid_len]; exact hp),
        walkBits_leaf hleaf (Nat.sub_pos_of_lt hp), List.append_cons, hroom]
      exact ih (hto.emitLeaf hp) (fun _ => hroot) hrest
        (show bits.length + (hlenOf s.sub - _) ≤ k by rw [← hroom]; omega)
    · have hchild := h.walk.tree.childOf_lt hlo hhi bit
      rw [walkBits_internal hnode (Nat.sub_pos_of_lt hp)]
      exact ih hto (fun _ => ⟨hnode, hchild.le.trans hhi⟩) hrest
        (show bits.length + (hlenOf s.sub - out.length) ≤ k by omega)

/-! ## HUF.DECODE (O15) -/

/-- What HUF.DECODE does before its first bit changes MID, BR and HSW alone (R151, R154, R155). -/
theorem hufInit_rest (s : State) :
    hufInit s = { s with mid := (hufInit s).mid, br := (hufInit s).br, hsw := (hufInit s).hsw } := by
  unfold hufInit walkStart
  split <;> rfl

/-- HUF.DECODE's return sets CUR, and the flag of stage 1 when bytes are missing (R155, R156). -/
theorem hufReturn_eq (s : State) :
    hufEnd (walkReturn s) = { s with
      hsw := (walkReturn s).hsw
      trunc := if s.hsw.hprod < hlenOf s.sub then s.trunc ||| (1#8 <<< (2 * s.seq.pch.toNat)) else s.trunc } := by
  unfold hufEnd
  rw [walkReturn_hprod, walkReturn_sub]
  split
  · rw [setTrunc, walkReturn_trunc, walkReturn_seq, walkReturn_rest]
    rfl
  · rw [walkReturn_rest]

/-- After the inits nothing is produced, and the reader stands on the payload's first byte (R151, R154). -/
theorem hufInit_produced {s : State} {pay : List Byte} (hw : WalkOk s)
    (hpay : s.bytesAt .src (s.seq.poff + Config.subHdrLen) (s.seq.psize - Config.subHdrLen) = some pay) :
    Produced pay [] (hufInit s) := by
  obtain ⟨hlen, hread⟩ := (s.bytesAt_eq_some .src _ _ pay).1 hpay
  obtain ⟨hroot, hprod, -⟩ := hufInit_hsw s
  exact {
    walk := ⟨hroot.trans hw.root, by simpa [hufInit] using hw.tree⟩
    payLen := by simp [hufInit, hlen]
    stream := fun i hi => by simpa [hufInit, State.byteAt] using hread i (hlen ▸ hi)
    hprod := hprod
    room := Nat.zero_le _
    mid := by simpa [hufInit] using holds_filled (hlenOf s.sub) }

/-- With HLEN bytes produced HUF.DECODE returns with CUR on the leaf of the last (R155). -/
theorem Produced.walkReturn_cur {pay out : List Byte} {s : State} (h : Produced pay out s)
    (hfull : out.length = hlenOf s.sub) {b : Byte} (hb : out.getLast? = some b) :
    (walkReturn s).hsw.cur = b.setWidth 9 := by
  rw [List.getLast?_eq_getElem?] at hb
  have hpos : out.length - 1 < out.length := (List.getElem?_eq_some_iff.1 hb).1
  refine walkReturn_last s (by rw [h.hprod]; omega) (by rw [h.hprod, hfull]) ?_
  rw [h.mid.2, h.hprod, padTo_getElem?_left _ hpos, hb]

/-- The walk starts at the root, before the payload's first bit (R61, R151, R155). -/
theorem hufLoop_hufInit {s : State} {pay : List Byte} {k : Nat} (h : Produced pay [] (hufInit s))
    (hk : bitsLeft (hufInit s).br + (hlenOf (hufInit s).sub - (hufInit s).hsw.hprod) ≤ k) :
    ∃ t, hufLoop k (hufInit s) = .go t ∧
      Produced pay (walkBits s.htb.node 510#9 (hlenOf s.sub) 510#9 (payloadBits pay)) t := by
  have hnode : (hufInit s).htb = s.htb := by rw [hufInit_rest]
  have hsub : (hufInit s).sub = s.sub := by rw [hufInit_rest]
  have hbits : bitsAhead pay (hufInit s).br = payloadBits pay := by simp [bitsAhead, hufInit]
  have hcur (hp : 0 < hlenOf s.sub) : (hufInit s).hsw.cur = 510#9 :=
    ((hufInit_hsw s).2.2 hp).trans ((hufInit_hsw s).1.symm.trans h.walk.root)
  obtain ⟨t, ht, hprod⟩ := hufLoop_produces (k := k) h (fun hp => by rw [hcur (hsub ▸ hp)]; decide) hbits
    (by rwa [← hbits, bitsAhead_length h.payLen, ← h.hprod])
  refine ⟨t, ht, ?_⟩
  rw [List.nil_append, List.length_nil, Nat.sub_zero, hnode, hsub, h.walk.root] at hprod
  rcases Nat.eq_zero_or_pos (hlenOf s.sub) with h0 | hp
  · rwa [h0, walkBits_no_room] at hprod ⊢
  · rwa [hcur hp] at hprod

/-- HUF.DECODE over a finished tree produces the bytes that the payload's bits walk to from the root (R155). -/
theorem hufDecode_produces {s : State} {pay : List Byte} (hw : WalkOk s)
    (hpay : s.bytesAt .src (s.seq.poff + Config.subHdrLen) (s.seq.psize - Config.subHdrLen) = some pay) :
    ∃ t, hufDecode s = .go (hufEnd (walkReturn t)) ∧ t = { s with mid := t.mid, br := t.br, hsw := t.hsw } ∧
      Produced pay (walkBits s.htb.node 510#9 (hlenOf s.sub) 510#9 (payloadBits pay)) t := by
  obtain ⟨t, ht, hp⟩ := hufLoop_hufInit (hufInit_produced hw hpay) le_rfl
  exact ⟨t, by rw [hufDecode, ht, Flow.go_andThen], by rw [(hufLoop_frame ht).rest, hufInit_rest], hp⟩

/-- Settles O15: what the loop produces is what HUF.DECODE returns with. -/
theorem hufDecodeWalksThePayload : Obligations.HufDecodeWalksThePayload := by
  intro s pay hroot htree _ hpay
  obtain ⟨t, hdec, hrest, hp⟩ := hufDecode_produces ⟨hroot, htree⟩ hpay
  have hsub : t.sub = s.sub := by rw [hrest]
  refine ⟨t.mid, t.br, (walkReturn t).hsw, _, rfl, ?next, (walkReturn_hprod t).trans hp.hprod,
    (walkReturn_root t).trans hp.walk.root, hsub ▸ hp.room,
    fun hfull _ hb => hp.walkReturn_cur (hfull.trans (congrArg hlenOf hsub.symm)) hb, hsub ▸ hp.mid⟩
  show (hufDecode s).toOutcome = _
  rw [hdec, hufReturn_eq, hp.hprod, hsub, hrest]
  rfl

/-! ## Runs of steps (R20) -/

/-- Some number of steps leads from `s` to `t`. -/
def Reaches (s t : State) : Prop := ∃ k, Host.Core.run Sys2Proof.core k s = .next t

theorem run_succ {s t : State} (h : step s = .next t) (k : Nat) :
    Host.Core.run Sys2Proof.core (k + 1) s = Host.Core.run Sys2Proof.core k t := by
  have h : Sys2Proof.core.step s = .next t := h
  simp only [Host.Core.run, h]

theorem Reaches.refl (s : State) : Reaches s s := ⟨0, rfl⟩

/-- One step, then the steps from where it leads. -/
theorem Reaches.head {s t u : State} (hs : step s = .next t) (h : Reaches t u) : Reaches s u := by
  obtain ⟨k, hk⟩ := h
  refine ⟨k + 1, ?_⟩
  rwa [run_succ hs]

theorem Reaches.single {s t : State} (h : step s = .next t) : Reaches s t := (Reaches.refl t).head h

theorem Reaches.trans {s t u : State} (h : Reaches s t) (hu : Reaches t u) : Reaches s u := by
  obtain ⟨k, hk⟩ := h
  induction k generalizing s with
  | zero => cases hk; exact hu
  | succ k ih =>
    cases hstep : step s with
    | next v => exact (ih (by rwa [run_succ hstep] at hk)).head hstep
    | fault f =>
      have hstep : Sys2Proof.core.step s = .fault f := hstep
      simp only [Host.Core.run, hstep] at hk
      cases hk
    | refused r =>
      have hstep : Sys2Proof.core.step s = .refused r := hstep
      simp only [Host.Core.run, hstep] at hk
      cases hk

/-- A running engine with no coming move of the host (R230). -/
structure Running (s : State) : Prop where
  host : s.host = []
  busy : s.status = .busy

/-- A step of a running engine that fetches an instruction is that instruction, and the sequencer moves on (R27). -/
theorem Running.step_instr {s t : State} {i : Instr} {after : Stage} (h : Running s) (hf : fetch s = .instr i after)
    (he : exec i s = .next t) (ht : t.status = .busy) : step s = .next (atStage after t) := by
  rw [step_of_noMoveDue (.inl h.host), engineStep_instr h.busy hf, he, settle, if_pos ht]

/-- A step of a running engine that fetches a move of the sequencer is that move (R27). -/
theorem Running.step_move {s t : State} {m : SeqMove} (h : Running s) (hf : fetch s = .move m)
    (hm : runMove m s = .go t) : step s = .next t := by
  rw [step_of_noMoveDue (.inl h.host), engineStep, if_pos h.busy, hf]
  exact congrArg Flow.toOutcome hm

/-! ## HUF.DECODE bit by bit (O55) -/

/-- Two pieces in sequence go on only when each of them does (R71). -/
theorem Flow.andThen_eq_go {x : Flow} {f : State → Flow} {t : State} (h : x.andThen f = .go t) :
    ∃ s, x = .go s ∧ f s = .go t := by
  cases x with
  | go s => exact ⟨s, rfl, h⟩
  | stop s => cases h
  | fault e => cases h
  | refuse r => cases h

theorem withByte_eq_go {sp : SpaceId} {a : Nat} {s t : State} {k : Byte → Flow} (h : withByte sp a s k = .go t) :
    ∃ b, s.byteAt sp a = some b ∧ k b = .go t := by
  unfold withByte at h
  split at h
  · cases h
  · exact ⟨_, ‹_›, h⟩

theorem hufEmit_eq_go {s t : State} (h : hufEmit s = .go t) :
    s.hsw.cur.toNat < 256 ∧ s.hsw.hprod < s.mid.len ∧ t = emitLeaf s := by
  rw [hufEmit_eq] at h
  split at h
  · split at h
    · cases h; exact ⟨‹_›, ‹_›, rfl⟩
    · cases h
  · cases h

theorem walkBit_eq_go {right : Bool} {s t : State} (h : walkBit right s = .go t) :
    256 ≤ s.hsw.cur.toNat ∧ s.hsw.cur.toNat ≤ 510 ∧ t = walkTo (childOf s.htb.node s.hsw.cur right) s := by
  rw [walkBit_eq] at h
  split at h
  · rename_i hc
    cases h
    exact ⟨hc.1, Nat.le_of_lt_succ hc.2, rfl⟩
  · cases h

/-- The walk on a leaf goes on with EMIT (R155). -/
theorem fetch_emit {s : State} (hst : s.stage = .huffWalk) (hp : s.hsw.hprod < hlenOf s.sub)
    (hleaf : s.hsw.cur.toNat < 256) : fetch s = .instr .emit .huffWalk := by
  simp only [fetch, hst, fetchWalk, if_pos hp, if_pos ((onLeaf_iff s).2 hleaf)]

/-- On a leaf, with a byte to produce, EMIT is one step (R103, R155). -/
theorem Running.step_emit {s : State} (h : Running s) (hst : s.stage = .huffWalk) (hp : s.hsw.hprod < hlenOf s.sub)
    (hleaf : s.hsw.cur.toNat < 256) (hm : s.hsw.hprod < s.mid.len) :
    step s = .next (atStage .huffWalk (emitLeaf s)) :=
  h.step_instr (fetch_emit hst hp hleaf) (congrArg Flow.toOutcome (hufEmit_leaf hleaf hm)) h.busy

/-- On an internal node, with a byte to produce and a bit left, that bit is one step (R152, R155). -/
theorem Running.step_bit {s : State} {b : Byte} (h : Running s) (hst : s.stage = .huffWalk)
    (hp : s.hsw.hprod < hlenOf s.sub) (hlo : 256 ≤ s.hsw.cur.toNat) (hhi : s.hsw.cur.toNat ≤ 510)
    (hbr : s.br.byteP < s.br.payLen) (hb : s.byteAt .src (s.br.payBase + s.br.byteP) = some b) :
    step s = .next (atStage .huffWalk (walkTo (childOf s.htb.node s.hsw.cur ((bitWindow s.br b).getLsbD 0)) s)) :=
  h.step_instr (fetch_bit (n := 1) hst hp hlo hbr hb rfl)
    ((exec_decodeBit _ s).trans (congrArg Flow.toOutcome (walkBit_internal _ hlo hhi))) h.busy

theorem Running.atStage {s : State} (h : Running s) (x : Stage) : Running (atStage x s) := ⟨h.host, h.busy⟩

/-- The turns of R155's loop are steps of the machine. -/
theorem Running.reaches_of_hufLoop {k : Nat} {s t : State} (h : Running s) (hl : hufLoop k s = .go t) :
    Reaches (Machine.atStage .huffWalk s) (Machine.atStage .huffWalk t) := by
  induction k generalizing s with
  | zero => cases hl; exact Reaches.refl _
  | succ k ih =>
    rw [hufLoop] at hl
    split at hl
    case isFalse => cases hl; exact Reaches.refl _
    rename_i hp
    split at hl
    · obtain ⟨u, hu, hl⟩ := Flow.andThen_eq_go hl
      obtain ⟨hleaf, hm, rfl⟩ := hufEmit_eq_go hu
      have hrest := ih (s := emitLeaf s) ⟨h.host, h.busy⟩ hl
      exact hrest.head ((h.atStage .huffWalk).step_emit rfl hp hleaf hm)
    · split at hl
      case isTrue => cases hl; exact Reaches.refl _
      rename_i hbits
      have hbr : s.br.byteP < s.br.payLen := by simpa [brExhausted] using hbits
      obtain ⟨b, hb, hl⟩ := withByte_eq_go hl
      obtain ⟨u, hu, hl⟩ := Flow.andThen_eq_go hl
      obtain ⟨hlo, hhi, rfl⟩ := walkBit_eq_go hu
      have hrest := ih (s := walkTo _ s) ⟨h.host, h.busy⟩ hl
      exact hrest.head ((h.atStage .huffWalk).step_bit rfl hp hlo hhi hbr hb)

/-- Where R155's loop ends the sequencer ends HUF.DECODE (R155, R156). -/
theorem fetch_hufEnd {s : State} (hst : s.stage = .huffWalk)
    (h : hlenOf s.sub ≤ s.hsw.hprod ∨ (256 ≤ s.hsw.cur.toNat ∧ brExhausted s.br = true)) :
    fetch s = .move .hufEnd := by
  simp only [fetch, hst, fetchWalk]
  rcases h with hfull | ⟨hcur, hbits⟩
  · exact if_neg (Nat.not_lt.2 hfull)
  · rw [if_neg (not_onLeaf hcur), if_pos hbits, ite_self]

/-- HUF.DECODE's return does not look at the sequencer's position. -/
theorem walkReturn_atStage (x : Stage) (s : State) : walkReturn (atStage x s) = atStage x (walkReturn s) := by
  have hbyte : (atStage x s).byteAt .mid ((atStage x s).hsw.hprod - 1) = s.byteAt .mid (s.hsw.hprod - 1) := rfl
  unfold walkReturn
  by_cases hfull : 0 < s.hsw.hprod ∧ hlenOf s.sub ≤ s.hsw.hprod
  · have hfull' : 0 < (atStage x s).hsw.hprod ∧ hlenOf (atStage x s).sub ≤ (atStage x s).hsw.hprod := hfull
    rw [if_pos hfull, if_pos hfull', hbyte]
    cases s.byteAt .mid (s.hsw.hprod - 1) <;> rfl
  · have hcut : ¬ (0 < (atStage x s).hsw.hprod ∧ hlenOf (atStage x s).sub ≤ (atStage x s).hsw.hprod) := hfull
    rw [if_neg hfull, if_neg hcut]

theorem hufReturn_atStage (x : Stage) (s : State) :
    hufEnd (walkReturn (atStage x s)) = atStage x (hufEnd (walkReturn s)) := by
  rw [hufReturn_eq, hufReturn_eq, walkReturn_atStage]
  rfl

/-- HUF.DECODE answers the return from a state in which its loop is over (R155, R156). -/
theorem hufDecode_eq_next {s t : State} (h : exec .hufDecode s = .next t) :
    ∃ k u, hufLoop k (hufInit s) = .go u ∧ t = hufEnd (walkReturn u) ∧
      (hlenOf u.sub ≤ u.hsw.hprod ∨ (256 ≤ u.hsw.cur.toNat ∧ brExhausted u.br = true)) := by
  have hdec : (hufDecode s).toOutcome = .next t := h
  rw [hufDecode] at hdec
  have hends := hufLoop_ends _ (hufInit s) le_rfl
  generalize bitsLeft (hufInit s).br + (hlenOf (hufInit s).sub - (hufInit s).hsw.hprod) = k at hdec hends
  cases hloop : hufLoop k (hufInit s) with
  | go u =>
    rw [hloop] at hdec hends
    cases hdec
    exact ⟨k, u, hloop, rfl, (hufLoop_frame hloop).sub ▸ hends⟩
  | stop u => rw [hloop] at hends; exact hends.elim
  | fault f => rw [hloop] at hdec; cases hdec
  | refuse r => rw [hloop] at hdec; cases hdec

/-- Settles O55: BR.INIT and MID.INIT, the loop's turns and the return, each a step. -/
theorem bitsMakeUpHufDecode : Obligations.BitsMakeUpHufDecode := by
  intro s t hhost hbusy hgrain hst ht
  obtain ⟨k, u, hl, rfl, hend⟩ := hufDecode_eq_next ht
  have hrun : Running (hufInit s) := by rw [hufInit_rest]; exact ⟨hhost, hbusy⟩
  have hrunu : Running u := by rw [(hufLoop_frame hl).rest]; exact ⟨hrun.host, hrun.busy⟩
  have hfetch : fetch s = .move .hufInit := by simp only [fetch, hst, hgrain, if_true]
  have hfirst : step s = .next (atStage .huffWalk (hufInit s)) := Running.step_move ⟨hhost, hbusy⟩ hfetch rfl
  have hlast : step (atStage .huffWalk u) = .next (atStage .expand (hufEnd (walkReturn u))) :=
    (hrunu.atStage .huffWalk).step_move (fetch_hufEnd rfl hend) (by rw [runMove, hufReturn_atStage]; rfl)
  exact ((hrun.reaches_of_hufLoop hl).trans (.single hlast)).head hfirst

end Sys2Proof.Machine

/-! PROOFS. The statements of 42_rle_expander.md: what each run code does, what RLE.EXPAND makes of a run stream, and its
codes one by one. -/

namespace Sys2Proof.Machine

/-! ## The three run codes (O1, O2, O3) -/

/-- The control fetch moves RSP and RC alone, so the spaces and the budgets are as before (R171). -/
theorem RleBounds.rleFetch {s : State} (h : RleBounds s) (c : Byte) : RleBounds (rleFetch c s) := ⟨h.stream, h.dest⟩

/-- Settles O1: NOP is its control fetch. -/
theorem nopOnlyConsumesItsControlByte : Obligations.NopOnlyConsumesItsControlByte := fun _ => rfl

/-- Settles O2: the copy loop over the clamped count, after the control fetch. -/
theorem litCopiesClampedRun : Obligations.LitCopiesClampedRun := by
  intro n s hstream hdest
  obtain ⟨m, hexec, hlen, hread⟩ := rleLit_spec n (rleFetch (n.setWidth 8) s) (RleBounds.rleFetch ⟨hstream, hdest⟩ _)
  refine ⟨m, litCount n (rleFetch (n.setWidth 8) s).rle, rfl, congrArg Flow.toOutcome hexec, hlen, ?copied, ?kept⟩
  case copied =>
    intro i hi
    have hrun := hread (s.rle.rdp + i)
    rw [if_pos ⟨Nat.le_add_right _ i, Nat.add_lt_add_left hi _⟩] at hrun
    rw [hrun]
    simp only [rleFetch_rle, Nat.add_sub_cancel_left]
    rfl
  case kept =>
    intro a ha
    rw [hread a, if_neg (by simp only [rleFetch_rle] at ha ⊢; omega)]
    rfl

/-- Settles O3: the value byte missing, and the byte loop over the clamped count. -/
theorem repEmitsClampedRun : Obligations.RepEmitsClampedRun := by
  intro n s
  refine ⟨fun hmissing => ?missing, fun hvalue hstream hdest => ?emitted⟩
  case missing => exact congrArg Flow.toOutcome (rleRep_missing n (rleFetch (0x80#8 ||| n.setWidth 8) s) hmissing)
  case emitted =>
    obtain ⟨m, v, hv, hexec, hlen, hread⟩ :=
      rleRep_spec n (rleFetch (0x80#8 ||| n.setWidth 8) s) (RleBounds.rleFetch ⟨hstream, hdest⟩ _) hvalue
    exact ⟨m, v, repCount n s.rle, rfl, hv, congrArg Flow.toOutcome hexec, hlen, hread⟩

/-! ## One run as a function on lists (R171 to R176) -/

/-- What the run code `i` makes of the bytes behind its control byte and of a plane with `room` cells left: the bytes it
produces, and the stream that remains. -/
def runOutput : Instr → List Byte → Nat → List Byte × List Byte
  | .rep _, [], _ => ([], [])
  | .rep n, v :: rest, room => (List.replicate (min n.toNat room) v, rest)
  | .lit n, rest, room =>
    let k := min n.toNat (min rest.length room)
    (rest.take k, rest.drop k)
  | _, rest, _ => ([], rest)

theorem expandRuns_nil (fuel room : Nat) : expandRuns fuel [] room = [] := by
  cases fuel <;> rfl

theorem expandRuns_full (fuel : Nat) (stream : List Byte) : expandRuns fuel stream 0 = [] := by
  cases fuel <;> cases stream <;> rfl

/-- A run stream produces what its first run does, then what the remaining stream does in the room left. -/
theorem expandRuns_cons (fuel : Nat) (c : Byte) (rest : List Byte) {room : Nat} (hroom : 0 < room) :
    expandRuns (fuel + 1) (c :: rest) room =
      (runOutput (decodeRun c) rest room).1 ++
        expandRuns fuel (runOutput (decodeRun c) rest room).2 (room - (runOutput (decodeRun c) rest room).1.length) := by
  simp only [expandRuns, if_neg hroom.ne']
  rcases decodeRun_cases c with ⟨h0, hd⟩ | ⟨hpos, hlt, hd, hn⟩ | ⟨hge, hd, hn⟩ <;> rw [hd]
  case inl =>
    rw [if_neg (by omega), if_pos h0]
    rfl
  case inr.inl =>
    have hk : min c.toNat (min rest.length room) ≤ rest.length := (Nat.min_le_right _ _).trans (Nat.min_le_left _ _)
    rw [if_neg (by omega), if_neg (by omega)]
    simp only [runOutput, hn, List.length_take, Nat.min_eq_left hk]
  case inr.inr =>
    rw [if_pos hge]
    cases rest with
    | nil => exact (expandRuns_nil _ _).symm
    | cons v rest => simp only [runOutput, hn, List.length_replicate]

/-! ## The loop of R173 on lists (O4) -/

/-- The state a piece of pseudocode goes on with is one it can go on with. -/
theorem Flow.Post.of_eq_go {x : Flow} {G S : State → Prop} {F : Fault → Prop} (hx : x.Post G S F) {t : State}
    (h : x = .go t) : G t := by
  rw [h] at hx
  exact hx

/-- A run of bytes without its first `k`. -/
theorem State.bytesAt_drop {s : State} {sp : SpaceId} {a n : Nat} {bs : List Byte} (h : s.bytesAt sp a n = some bs)
    {k : Nat} (hk : k ≤ n) : s.bytesAt sp (a + k) (n - k) = some (bs.drop k) := by
  obtain ⟨hlen, hread⟩ := (s.bytesAt_eq_some sp n a bs).1 h
  refine (s.bytesAt_eq_some sp _ _ _).2 ⟨by rw [List.length_drop, hlen], fun i hi => ?_⟩
  rw [List.getElem?_drop, Nat.add_assoc, hread (k + i) (by omega)]

/-- The unit has put `out` into PLANE, which read as `m₀` before, and `rest` is what its budget leaves of the stream
(R24, R173). -/
structure Expanded (m₀ : Memory) (out rest : List Byte) (s : State) : Prop where
  stream : s.bytesAt (runSpace s.rle.rsrc) (s.rle.rbase + s.rle.rsp) (s.rle.rsrcb - s.rle.rsp) = some rest
  rsp : s.rle.rsp ≤ s.rle.rsrcb
  rdp : s.rle.rdp = out.length
  room : out.length ≤ s.rle.rdstb
  dest : s.rle.rdstb ≤ s.plane.len
  plane : ∀ a, s.plane.read a = if a < out.length then out[a]? else m₀.read a

section
variable {m₀ : Memory} {out rest new : List Byte} {c : Byte} {s t : State}

theorem Expanded.rest_length (h : Expanded m₀ out rest s) : rest.length = s.rle.rsrcb - s.rle.rsp :=
  s.bytesAt_length _ h.stream

/-- With a byte of the stream left, the stream lies inside its space (R70). -/
theorem Expanded.bounds (h : Expanded m₀ out (c :: rest) s) : RleBounds s := by
  have hlen := h.rest_length
  have hbound := s.bytesAt_bound _ h.stream (by rw [← hlen]; exact Nat.succ_pos _)
  rw [List.length_cons] at hlen
  exact ⟨by omega, h.dest⟩

theorem Expanded.rsp_lt (h : Expanded m₀ out (c :: rest) s) : s.rle.rsp < s.rle.rsrcb := by
  have hlen := h.rest_length
  rw [List.length_cons] at hlen
  omega

/-- The byte under the cursor, and those behind it. -/
theorem Expanded.byteAt (h : Expanded m₀ out rest s) {i : Nat} (hi : i < rest.length) :
    s.byteAt (runSpace s.rle.rsrc) (s.rle.rbase + s.rle.rsp + i) = rest[i]? :=
  ((s.bytesAt_eq_some _ _ _ _).1 h.stream).2 i (h.rest_length ▸ hi)

theorem Expanded.head (h : Expanded m₀ out (c :: rest) s) :
    s.byteAt (runSpace s.rle.rsrc) (s.rle.rbase + s.rle.rsp) = some c := h.byteAt (i := 0) (Nat.succ_pos _)

/-- The unit consumes `k` bytes of the stream and puts `new` behind what it has produced. -/
theorem Expanded.advance (h : Expanded m₀ out rest s) (f : RleFrame s t) {k : Nat} (hk : k ≤ rest.length)
    (hrsp : t.rle.rsp = s.rle.rsp + k) (hrdp : t.rle.rdp = s.rle.rdp + new.length)
    (hplane : ∀ a, t.plane.read a =
      if s.rle.rdp ≤ a ∧ a < s.rle.rdp + new.length then new[a - s.rle.rdp]? else s.plane.read a) :
    Expanded m₀ (out ++ new) (rest.drop k) t where
  stream := by
    rw [State.bytesAt_congr t s _ (f.space _), f.rsrc, f.rbase, f.rsrcb, hrsp, ← Nat.add_assoc, ← Nat.sub_sub]
    exact State.bytesAt_drop h.stream (h.rest_length ▸ hk)
  rsp := f.rsrcb ▸ f.rspLe h.rsp
  rdp := by rw [hrdp, h.rdp, List.length_append]
  room := by
    have hle := f.rdpLe (h.rdp ▸ h.room)
    rwa [hrdp, h.rdp, ← List.length_append, ← f.rdstb] at hle
  dest := by rw [f.rdstb, f.len]; exact h.dest
  plane := fun a => by
    rw [hplane, h.plane, h.rdp, List.length_append]
    by_cases hold : a < out.length
    · rw [if_neg (by omega), if_pos hold, if_pos (by omega), List.getElem?_append_left hold]
    · by_cases hnew : a < out.length + new.length
      · rw [if_pos ⟨by omega, hnew⟩, if_pos hnew, List.getElem?_append_right (by omega)]
      · rw [if_neg (by omega), if_neg hold, if_neg hnew]

/-- The unit consumes `k` bytes of the stream and produces nothing. -/
theorem Expanded.skip (h : Expanded m₀ out rest s) (f : RleFrame s t) {k : Nat} (hk : k ≤ rest.length)
    (hrsp : t.rle.rsp = s.rle.rsp + k) (hrdp : t.rle.rdp = s.rle.rdp) (hplane : t.plane = s.plane) :
    Expanded m₀ out (rest.drop k) t := by
  have hadv := h.advance (new := []) f hk hrsp hrdp fun a => by
    rw [hplane, if_neg fun ha => Nat.not_lt.2 ha.1 ha.2]
  rwa [List.append_nil] at hadv

end

/-- The control fetch changes RC and RSP alone (R171). -/
theorem rleFetch_frame (c : Byte) {s : State} (h : s.rle.rsp < s.rle.rsrcb) : RleFrame s (rleFetch c s) :=
  ⟨rfl, rfl, id, rfl, rfl, rfl, rfl, Nat.le_succ _, le_rfl, fun _ => h, id⟩

/-- The control fetch consumes one byte and produces nothing (R171). -/
theorem Expanded.fetch {m₀ : Memory} {out rest : List Byte} {c : Byte} {s : State} (h : Expanded m₀ out (c :: rest) s) :
    Expanded m₀ out rest (rleFetch c s) :=
  h.skip (k := 1) (rleFetch_frame c h.rsp_lt) (Nat.succ_pos _) rfl rfl rfl

/-- A LIT, its control byte fetched, as a run on lists (R175). -/
theorem rleLit_expands {m₀ : Memory} {out rest : List Byte} {s : State} (n : BitVec 7) (hb : RleBounds s)
    (h : Expanded m₀ out rest s) :
    ∃ t, rleLit n s = .go t ∧
      Expanded m₀ (out ++ (runOutput (.lit n) rest (s.rle.rdstb - out.length)).1)
        (runOutput (.lit n) rest (s.rle.rdstb - out.length)).2 t := by
  have hcount : litCount n s.rle = min n.toNat (min rest.length (s.rle.rdstb - out.length)) := by
    rw [h.rest_length, ← h.rdp]; rfl
  obtain ⟨m, hexec, -, hread⟩ := rleLit_spec n s hb
  refine ⟨_, hexec, ?_⟩
  simp only [runOutput]
  rw [← hcount]
  have hk : litCount n s.rle ≤ rest.length := by omega
  have hlen : (rest.take (litCount n s.rle)).length = litCount n s.rle := List.length_take_of_le hk
  refine h.advance ((rleLit_post n s).of_eq_go hexec) hk rfl (by rw [hlen]) fun a => ?_
  rw [hlen, hread a]
  split
  case isTrue ha => rw [h.byteAt (by omega), List.getElem?_take_of_lt (by omega)]
  case isFalse => rfl

/-- A REP, its control byte fetched, as a run on lists (R174). -/
theorem rleRep_expands {m₀ : Memory} {out rest : List Byte} {s : State} (n : BitVec 7) (hb : RleBounds s)
    (h : Expanded m₀ out rest s) :
    ∃ t, rleRep n s = .go t ∧
      Expanded m₀ (out ++ (runOutput (.rep n) rest (s.rle.rdstb - out.length)).1)
        (runOutput (.rep n) rest (s.rle.rdstb - out.length)).2 t := by
  cases rest with
  | nil =>
    have hmissing := rleRep_missing n s (Nat.le_of_sub_eq_zero h.rest_length.symm)
    refine ⟨_, hmissing, ?_⟩
    rw [runOutput, List.append_nil]
    exact h.skip (k := 0) ((rleRep_post n s).of_eq_go hmissing) (Nat.zero_le _) rfl rfl rfl
  | cons v rest =>
    obtain ⟨m, w, hw, hexec, -, hread⟩ := rleRep_spec n s hb h.rsp_lt
    obtain rfl : w = v := Option.some.inj (hw.symm.trans h.head)
    refine ⟨_, hexec, ?_⟩
    rw [runOutput, ← h.rdp]
    have hframe := (rleRep_post n s).of_eq_go hexec
    refine h.advance (k := 1) hframe (Nat.succ_pos _) rfl (by rw [List.length_replicate]; rfl) fun a => ?_
    rw [List.length_replicate, List.getElem?_replicate]
    refine (hread a).trans ?_
    unfold repCount
    split
    case isTrue ha => rw [if_pos (by omega)]
    case isFalse => rfl

/-- One run of the loop is one run on lists (R171, R174 to R176). -/
theorem rleRun_expands {m₀ : Memory} {out rest : List Byte} {c : Byte} {s : State} (h : Expanded m₀ out (c :: rest) s) :
    ∃ t, rleRun c s = .go t ∧
      Expanded m₀ (out ++ (runOutput (decodeRun c) rest (s.rle.rdstb - out.length)).1)
        (runOutput (decodeRun c) rest (s.rle.rdstb - out.length)).2 t := by
  have hbounds := h.bounds.rleFetch c
  unfold rleRun
  rcases decodeRun_cases c with ⟨-, hd⟩ | ⟨-, -, hd, -⟩ | ⟨-, hd, -⟩ <;> rw [hd]
  case inl => exact ⟨_, rfl, (List.append_nil out).symm ▸ h.fetch⟩
  case inr.inl => exact rleLit_expands _ hbounds h.fetch
  case inr.inr => exact rleRep_expands _ hbounds h.fetch

theorem rleRun_frame {c : Byte} {s t : State} (hlt : s.rle.rsp < s.rle.rsrcb) (h : rleRun c s = .go t) : RleFrame s t :=
  ((rleRun_post c s hlt).of_eq_go h).1

theorem rleLoop_frame {k : Nat} {s t : State} (h : rleLoop k s = .go t) : RleFrame s t := (rleLoop_post k s).of_eq_go h

/-- With a budget used up the loop is over (R173). -/
theorem rleLoop_over (k : Nat) {s : State} (h : s.rle.rsrcb ≤ s.rle.rsp ∨ s.rle.rdstb ≤ s.rle.rdp) :
    rleLoop k s = .go s := by
  cases k with
  | zero => rfl
  | succ k =>
    refine if_neg ?_
    simp only [rleMore, Bool.and_eq_true, decide_eq_true_eq]
    omega

/-- With both budgets left the loop takes the run of the control byte at RSP (R173). -/
theorem rleLoop_run (k : Nat) {s : State} {c : Byte} (hsrc : s.rle.rsp < s.rle.rsrcb) (hdst : s.rle.rdp < s.rle.rdstb)
    (hc : s.byteAt (runSpace s.rle.rsrc) (s.rle.rbase + s.rle.rsp) = some c) :
    rleLoop (k + 1) s = (rleRun c s).andThen (rleLoop k) := by
  have hm : rleMore s = true := by simp [rleMore, hsrc, hdst]
  rw [rleLoop, if_pos hm, withByte_some _ s _ hc]

/-- The loop of R173 produces what the stream ahead expands to in the room left, behind what it has produced. -/
theorem rleLoop_expands (k : Nat) {m₀ : Memory} {out rest : List Byte} {s : State} (h : Expanded m₀ out rest s) :
    ∃ t rest', rleLoop k s = .go t ∧ Expanded m₀ (out ++ expandRuns k rest (s.rle.rdstb - out.length)) rest' t := by
  induction k generalizing out rest s with
  | zero => exact ⟨s, rest, rfl, by rw [expandRuns, List.append_nil]; exact h⟩
  | succ k ih =>
    cases rest with
    | nil =>
      refine ⟨s, [], rleLoop_over _ (.inl (Nat.le_of_sub_eq_zero h.rest_length.symm)), ?_⟩
      rw [expandRuns_nil, List.append_nil]
      exact h
    | cons c rest =>
      rcases Nat.eq_zero_or_pos (s.rle.rdstb - out.length) with hfull | hroom
      · refine ⟨s, c :: rest, rleLoop_over _ (.inr (h.rdp ▸ Nat.le_of_sub_eq_zero hfull)), ?_⟩
        rw [hfull, expandRuns_full, List.append_nil]
        exact h
      · obtain ⟨u, hrun, hu⟩ := rleRun_expands h
        obtain ⟨t, rest', hloop, ht⟩ := ih hu
        refine ⟨t, rest', ?_, ?_⟩
        · rw [rleLoop_run k h.rsp_lt (by rw [h.rdp]; omega) h.head, hrun, Flow.go_andThen, hloop]
        · rwa [(rleRun_frame h.rsp_lt hrun).rdstb, List.length_append, ← Nat.sub_sub, List.append_assoc,
            ← expandRuns_cons k c rest hroom] at ht

/-- The end of RLE.EXPAND sets the flag of stage 2 when bytes are missing, and nothing else (R177). -/
theorem rleEnd_eq (s : State) :
    rleEnd s = { s with
      trunc := if s.rle.rdp < s.rle.rdstb then s.trunc ||| (1#8 <<< (2 * s.seq.pch.toNat + 1)) else s.trunc } := by
  unfold rleEnd
  split <;> rfl

/-- After RLE.INIT nothing is produced and the whole stream is ahead (R170). -/
theorem rleInit_expanded {sp : RunSource} {base budget : Nat} {s : State} {stream : List Byte}
    (hstream : s.bytesAt (runSpace sp) base budget = some stream) (hdest : s.drv.n ≤ s.plane.len) :
    Expanded s.plane [] stream (rleInit sp base budget s) where
  stream := (State.bytesAt_congr _ s (runSpace sp) (by cases sp <;> rfl) budget base).trans hstream
  rsp := Nat.zero_le _
  rdp := rfl
  room := Nat.zero_le _
  dest := hdest
  plane := fun _ => rfl

/-- Settles O4: the loop from RLE.INIT on, then the truncation flag. -/
theorem rleExpandDecodesItsStream : Obligations.RleExpandDecodesItsStream := by
  intro sp base budget s stream hstream hdest
  obtain ⟨t, rest, hloop, ht⟩ := rleLoop_expands budget (rleInit_expanded hstream hdest)
  have hframe := rleLoop_frame hloop
  rw [List.nil_append, List.length_nil, Nat.sub_zero, rleInit_rle] at ht
  have hdstb : t.rle.rdstb = s.drv.n := hframe.rdstb
  refine ⟨t.plane, t.rle, _, rfl, ?next, ht.rdp, hdstb, ht.rsp.trans_eq hframe.rsrcb, hdstb ▸ ht.room,
    hframe.len, ht.plane⟩
  show (rleExpand sp base budget s).toOutcome = _
  rw [rleExpand, hloop, Flow.go_andThen, Flow.go_toOutcome, rleEnd_eq, ht.rdp, hdstb, hframe.rest]
  rfl

/-! ## RLE.EXPAND code by code (O53) -/

theorem Flow.andThen_of_eq_go {x : Flow} {s : State} (h : x = .go s) (f : State → Flow) : x.andThen f = f s := by
  rw [h, Flow.go_andThen]

/-! No operation of the unit looks at the sequencer's position, so each goes on alike wherever the sequencer stands. -/

section
variable {s t : State} (x : Stage)

theorem putByte_atStage {sp : SpaceId} {a : Nat} {v : Byte} (h : putByte sp a v s = .go t) :
    putByte sp a v (atStage x s) = .go (atStage x t) := by
  rw [putByte_eq] at h
  split at h
  case isFalse => cases h
  rename_i ha
  cases h
  rw [putByte_lt sp v (atStage x s) ha]
  cases sp <;> rfl

theorem withByte_atStage {sp : SpaceId} {a : Nat} {b : Byte} (h : s.byteAt sp a = some b) (k : Byte → Flow) :
    withByte sp a (atStage x s) k = k b :=
  withByte_some sp (atStage x s) k h

theorem rleEmit_atStage {k : Nat} {v : Byte} (h : rleEmit k v s = .go t) :
    rleEmit k v (atStage x s) = .go (atStage x t) := by
  induction k generalizing s with
  | zero => cases h; rfl
  | succ k ih =>
    obtain ⟨u, hput, h⟩ := Flow.andThen_eq_go h
    exact (Flow.andThen_of_eq_go (putByte_atStage x hput) _).trans (ih h)

theorem rleCopy_atStage {k i : Nat} (h : rleCopy i k s = .go t) : rleCopy i k (atStage x s) = .go (atStage x t) := by
  induction k generalizing s i with
  | zero => cases h; rfl
  | succ k ih =>
    obtain ⟨b, hb, h⟩ := withByte_eq_go h
    obtain ⟨u, hput, h⟩ := Flow.andThen_eq_go h
    exact (withByte_atStage x hb _).trans ((Flow.andThen_of_eq_go (putByte_atStage x hput) _).trans (ih h))

theorem rleLit_atStage {n : BitVec 7} (h : rleLit n s = .go t) : rleLit n (atStage x s) = .go (atStage x t) := by
  obtain ⟨u, hcopy, h⟩ := Flow.andThen_eq_go h
  cases h
  rw [rleLit]
  exact Flow.andThen_of_eq_go (rleCopy_atStage x hcopy) _

theorem rleRep_atStage {n : BitVec 7} (h : rleRep n s = .go t) : rleRep n (atStage x s) = .go (atStage x t) := by
  by_cases hmissing : s.rle.rsrcb ≤ s.rle.rsp
  · rw [rleRep_missing n s hmissing] at h
    cases h
    exact rleRep_missing n (atStage x s) hmissing
  · obtain ⟨v, hv, h⟩ := withByte_eq_go ((if_neg hmissing).symm.trans h)
    exact (if_neg hmissing).trans ((withByte_atStage x hv _).trans (rleEmit_atStage x h))

/-- A run goes on alike wherever the sequencer stands (R171). -/
theorem rleRun_atStage {c : Byte} (h : rleRun c s = .go t) : rleRun c (atStage x s) = .go (atStage x t) := by
  unfold rleRun at h ⊢
  rcases decodeRun_cases c with ⟨-, hd⟩ | ⟨-, -, hd, -⟩ | ⟨-, hd, -⟩ <;> rw [hd] at h ⊢
  case inl => cases h; rfl
  case inr.inl => exact rleLit_atStage x h
  case inr.inr => exact rleRep_atStage x h

end

theorem rleEnd_atStage (x : Stage) (s : State) : rleEnd (atStage x s) = atStage x (rleEnd s) := by
  rw [rleEnd_eq, rleEnd_eq]
  rfl

theorem RleFrame.running {s t : State} (f : RleFrame s t) (h : Running s) : Running t := by
  rw [f.rest]; exact ⟨h.host, h.busy⟩

/-- With both budgets left the run of the control byte at RSP is one step (R171, R173). -/
theorem Running.step_run {s t : State} {c : Byte} (h : Running s) (hsrc : s.rle.rsp < s.rle.rsrcb)
    (hdst : s.rle.rdp < s.rle.rdstb) (hc : s.byteAt (runSpace s.rle.rsrc) (s.rle.rbase + s.rle.rsp) = some c)
    (ht : rleRun c s = .go t) : step (Machine.atStage .rle s) = .next (Machine.atStage .rle t) :=
  (h.atStage .rle).step_instr (t := Machine.atStage .rle t) (fetch_run (n := 1) rfl hsrc hdst hc rfl)
    ((exec_decodeRun c _).trans (congrArg Flow.toOutcome (rleRun_atStage .rle ht)))
    ((rleRun_frame hsrc ht).running h).busy

/-- The turns of R173's loop are steps of the machine. -/
theorem Running.reaches_of_rleLoop {k : Nat} {s t : State} (h : Running s) (hl : rleLoop k s = .go t) :
    Reaches (Machine.atStage .rle s) (Machine.atStage .rle t) := by
  induction k generalizing s with
  | zero => cases hl; exact Reaches.refl _
  | succ k ih =>
    rw [rleLoop] at hl
    split at hl
    case isFalse => cases hl; exact Reaches.refl _
    rename_i hmore
    simp only [rleMore, Bool.and_eq_true, decide_eq_true_eq] at hmore
    obtain ⟨hsrc, hdst⟩ := hmore
    obtain ⟨c, hc, hl⟩ := withByte_eq_go hl
    obtain ⟨u, hu, hl⟩ := Flow.andThen_eq_go hl
    exact (ih ((rleRun_frame hsrc hu).running h) hl).head (h.step_run hsrc hdst hc hu)

/-- Where R173's loop ends the sequencer ends RLE.EXPAND (R173, R177). -/
theorem fetch_rleEnd {s : State} (hst : s.stage = .rle) (h : rleMore s = false) : fetch s = .move .rleEnd := by
  simp only [fetch, hst, h, Bool.false_eq_true, if_false]

/-- RLE.EXPAND answers the end of a state in which its loop is over (R173, R177). -/
theorem rleExpand_eq_next {sp : RunSource} {base budget : Nat} {s t : State}
    (h : exec (.rleExpand sp base budget) s = .next t) :
    ∃ u, rleLoop budget (rleInit sp base budget s) = .go u ∧ t = rleEnd u ∧ rleMore u = false := by
  have hexp : (rleExpand sp base budget s).toOutcome = .next t := h
  have hends := rleLoop_ends budget (rleInit sp base budget s) le_rfl
  rw [rleExpand] at hexp
  cases hloop : rleLoop budget (rleInit sp base budget s) with
  | go u =>
    rw [hloop] at hexp hends
    cases hexp
    exact ⟨u, rfl, rfl, hends⟩
  | stop u => rw [hloop] at hends; exact hends.elim
  | fault f => rw [hloop] at hexp; cases hexp
  | refuse r => rw [hloop] at hexp; cases hexp

/-- Settles O53: RLE.INIT, the loop's runs and the end, each a step. -/
theorem runCodesMakeUpRleExpand : Obligations.RunCodesMakeUpRleExpand := by
  intro s t hhost hbusy hgrain hst hvar ht
  obtain ⟨u, hl, rfl, hend⟩ := rleExpand_eq_next ht
  have hrun : Running s := ⟨hhost, hbusy⟩
  have hinit : Running (rleInit (runOperands s).1 (runOperands s).2.1 (runOperands s).2.2 s) := ⟨hhost, hbusy⟩
  have hfetch : fetch s = .move .rleInit := by
    have hrle : s.hdr.variant ≠ Config.variantHufLz := hvar
    simp only [fetch, hst, hgrain, if_neg hrle, if_true]
  have hlast : step (atStage .rle u) = .next (atStage .place (rleEnd u)) :=
    (((rleLoop_frame hl).running hinit).atStage .rle).step_move (fetch_rleEnd rfl hend)
      (by rw [runMove, rleEnd_atStage]; rfl)
  exact ((hinit.reaches_of_rleLoop hl).trans (.single hlast)).head (hrun.step_move hfetch rfl)

end Sys2Proof.Machine

/-! PROOFS. The statements of 43_lz_expander.md: what LZHDR and each token do, what LZ.EXPAND makes of a token stream,
and its tokens one by one. -/

namespace Sys2Proof.Machine

/-! ## The start of the expansion (O11) -/

/-- Settles O11: LZ.INIT, with HLEN read as a length. -/
theorem lzhdrStartsTheExpansion : Obligations.LzhdrStartsTheExpansion := by
  intro h s hlen
  have hspecial : (8 < hlenOf s.sub) = (8 < s.sub.hlen.toInt) := propext (by rw [hlenOf]; omega)
  have hwords : (8 ≤ hlenOf s.sub) = (8 ≤ s.sub.hlen.toInt) := propext (by rw [hlenOf]; omega)
  show Host.Outcome.next (lzInit h s) = _
  simp only [lzInit, Config.lzSpecialOff, hspecial, hwords]
  rfl

/-! ## The distance (O10) -/

/-- R197's formula, the comparison written out. -/
theorem lzDistance_eq (special o : Byte) : lzDistance special o = if special.toNat < o.toNat then o - 1 else o := rfl

theorem lzDistance_toNat (special o : Byte) :
    (lzDistance special o).toNat = if special.toNat < o.toNat then o.toNat - 1 else o.toNat := by
  rw [lzDistance_eq]
  split
  case isTrue h => exact BitVec.toNat_sub_of_le (y := 1#8) (BitVec.le_def.2 (Nat.one_le_of_lt h))
  case isFalse => rfl

/-- Two offset bytes of one distance lie on the same side of the escape byte, and are the same (R197). -/
theorem lzDistance_inj {special o o' : Byte} (ho : o ≠ special) (ho' : o' ≠ special)
    (h : lzDistance special o = lzDistance special o') : o = o' := by
  have hne : o.toNat ≠ special.toNat := fun e => ho (BitVec.eq_of_toNat_eq e)
  have hne' : o'.toNat ≠ special.toNat := fun e => ho' (BitVec.eq_of_toNat_eq e)
  have hd := congrArg BitVec.toNat h
  rw [lzDistance_toNat, lzDistance_toNat] at hd
  refine BitVec.eq_of_toNat_eq ?_
  split at hd <;> split at hd <;> omega

/-- Settles O10: `lzWire` is the offset byte of a distance. -/
theorem lzDistanceIsABijection : Obligations.LzDistanceIsABijection := fun special =>
  ⟨lzDistance_toNat special, lzDistance_le special, fun _ _ => lzDistance_inj,
    fun d hd => ⟨lzWire special d, lzDistance_lzWire special d hd⟩⟩

/-! ## The three tokens (O5, O6, O7, O8) -/

/-- Settles O5: the byte emitted behind its fetch. -/
theorem lzlitEmitsItsByte : Obligations.LzlitEmitsItsByte := by
  intro b s hroom
  refine ⟨s.plane.set s.lz.ldp b, congrArg Flow.toOutcome (lzEmit_spec b (lzFetch b s) hroom), rfl, fun a => ?_⟩
  simp only [Memory.read_set, hroom, and_true]

/-- Settles O6: the escape byte emitted behind the fetch of both bytes. -/
theorem lzescEmitsTheEscapeByte : Obligations.LzescEmitsTheEscapeByte := by
  intro s hroom
  refine ⟨s.plane.set s.lz.ldp s.lz.special, congrArg Flow.toOutcome (lzEmit_spec s.lz.special
    (lzFetchOffset s.lz.special (lzFetch s.lz.special s)) hroom), rfl, fun a => ?_⟩
  simp only [Memory.read_set, hroom, and_true]

/-- LOFF set from the offset byte (R195). -/
def lzDistanced (o : Byte) (s : State) : State := { s with lz := { s.lz with loff := lzDistance s.lz.special o } }

/-- A distance beyond the bytes produced is fatal (R195). -/
theorem lzCpy_bad {o : Byte} (cnt : Byte) {s : State} (h : s.lz.ldp < (lzDistance s.lz.special o).toNat) :
    lzCpy o cnt s = raise .invalidBackReference s.lz.ldp (lzDistance s.lz.special o) (lzDistanced o s) := if_pos h

/-- A distance within the bytes produced is copied from (R196). -/
theorem lzCpy_good {o : Byte} (cnt : Byte) {s : State} (h : (lzDistance s.lz.special o).toNat ≤ s.lz.ldp) :
    lzCpy o cnt s = lzCopy (copyCount cnt s.lz) (lzDistanced o s) := if_neg (Nat.not_lt.2 h)

/-- The three bytes of an LZCPY fetched (R191). -/
def lzCpyFetched (o cnt : Byte) (s : State) : State :=
  { s with lz := { s.lz with lb := s.lz.special, lob := o, lcnt := cnt, lsp := s.lz.lsp + 3 } }

theorem lzDistanced_lzCpyFetched (o cnt : Byte) (s : State) :
    lzDistanced o (lzCpyFetched o cnt s) = { s with lz := { s.lz with
      lb := s.lz.special, lob := o, lcnt := cnt, loff := lzDistance s.lz.special o, lsp := s.lz.lsp + 3 } } := by
  simp only [lzDistanced, lzCpyFetched]

/-- LZCPY is the check and the copy behind the fetch of its bytes (R191, R195, R196). -/
theorem exec_lzcpy (o cnt : Byte) (s : State) :
    exec (.lzcpy o cnt) s = (lzCpy o cnt (lzCpyFetched o cnt s)).toOutcome := rfl

/-- Settles O7: the check fails behind the fetch of the three bytes. -/
theorem lzcpyBadDistanceRaises : Obligations.LzcpyBadDistanceRaises := by
  intro o cnt s off hoff hbad
  rw [← lzDistance_eq] at hoff
  subst hoff
  have hraise := lzCpy_bad (s := lzCpyFetched o cnt s) cnt hbad
  rw [exec_lzcpy, hraise, lzDistanced_lzCpyFetched]
  rfl

/-- Settles O8: the check passes, and the copy runs over the clamped count. -/
theorem lzcpyCopiesForward : Obligations.LzcpyCopiesForward := by
  intro o cnt s off hoff hgood hldp hdest
  rw [← lzDistance_eq] at hoff
  subst hoff
  have hk : s.lz.ldp + copyCount cnt s.lz ≤ s.plane.len := by unfold copyCount; omega
  have hgo := lzCpy_good (s := lzCpyFetched o cnt s) cnt hgood
  have hspec := lzCopy_spec (copyCount cnt s.lz) (lzDistanced o (lzCpyFetched o cnt s)) hgood hk
  rw [lzDistanced_lzCpyFetched] at hgo hspec
  obtain ⟨m, hcopy, hlen, -, hback, hkept, hzero⟩ := hspec
  refine ⟨m, copyCount cnt s.lz, rfl, ?next, hlen, hback, hkept, fun h0 => hzero (congrArg BitVec.toNat h0)⟩
  rw [exec_lzcpy, hgo]
  exact congrArg Flow.toOutcome hcopy

/-! ## The repetition (O9) -/

/-- Cells that each hold what the cell `d` behind them holds repeat the `d` cells before them (R196). -/
theorem read_periodic {m : Memory} {p d k : Nat} (hd : 0 < d) (hdp : d ≤ p)
    (hback : ∀ i, i < k → m.read (p + i) = m.read (p + i - d)) {i : Nat} (hi : i < k) :
    m.read (p + i) = m.read (p - d + i % d) := by
  induction i using Nat.strong_induction_on with
  | _ i ih =>
    rw [hback i hi]
    by_cases hfirst : i < d
    · rw [Nat.mod_eq_of_lt hfirst, Nat.sub_add_comm hdp]
    · rw [Nat.add_sub_assoc (Nat.not_lt.1 hfirst), ih (i - d) (by omega) (by omega),
        ← Nat.mod_eq_sub_mod (Nat.not_lt.1 hfirst)]

/-- Settles O9: O8's copy repeats the last `d` bytes, which it leaves as they were. -/
theorem lzcpyRepeatsPeriodically : Obligations.LzcpyRepeatsPeriodically := by
  intro o cnt s t off hoff hpos hgood hldp hdest hexec i hi
  obtain ⟨m, k, rfl, hnext, -, hback, hkept, -⟩ := lzcpyCopiesForward o cnt s off hoff hgood hldp hdest
  obtain rfl := Host.Outcome.next.inj (hexec.symm.trans hnext)
  have hlt := Nat.mod_lt i hpos
  rw [read_periodic hpos hgood hback hi, hkept _ (.inl (by omega))]

/-! ## One token as a function on lists (R191 to R196) -/

/-- An output goes on with the tokens behind it; a bad back-reference ends the stream (R195). -/
def LzOutcome.andThen : LzOutcome → (List Byte → LzOutcome) → LzOutcome
  | .done out, f => f out
  | .bad out off, _ => .bad out off

/-- What a decoded token makes of the bytes `out` produced so far, into a plane of `n` cells. -/
def tokenOutput (special : Byte) (n : Nat) (out : List Byte) : Decoded → LzOutcome
  | .ok (.lzlit b) _ => .done (out ++ [b])
  | .ok (.lzcpy o cnt) _ =>
    let off := lzDistance special o
    if out.length < off.toNat then .bad out off
    else .done (copyBack (min cnt.toNat (n - out.length)) off.toNat out)
  | .ok _ _ => .done (out ++ [special])
  | .reject _ => .done out

/-- What is left of the payload behind a token: nothing behind one that its end cuts off (R191). -/
def tokenRest (payload : List Byte) : Decoded → List Byte
  | .ok _ len => payload.drop len
  | .reject _ => []

theorem expandTokens_full (fuel : Nat) (special : Byte) (payload : List Byte) {n : Nat} {out : List Byte}
    (h : n ≤ out.length) : expandTokens fuel special payload n out = .done out := by
  cases fuel with
  | zero => rfl
  | succ fuel => exact if_pos h

theorem expandTokens_nil (fuel : Nat) (special : Byte) (n : Nat) (out : List Byte) :
    expandTokens fuel special [] n out = .done out := by
  cases fuel with
  | zero => rfl
  | succ fuel => exact ite_self _

/-- A payload produces what its first token does, then what the rest of it does. -/
theorem expandTokens_token (fuel : Nat) (special : Byte) (payload : List Byte) {n : Nat} {out : List Byte}
    (hroom : out.length < n) :
    expandTokens (fuel + 1) special payload n out =
      (tokenOutput special n out (decodeToken special payload)).andThen
        (expandTokens fuel special (tokenRest payload (decodeToken special payload)) n) := by
  rw [expandTokens.eq_def]
  dsimp only
  rw [if_neg (Nat.not_le.2 hroom)]
  cases hd : decodeToken special payload with
  | ok i len =>
    rcases decodeToken_ok hd with
      ⟨b, rest, rfl, hb, rfl, rfl⟩ | ⟨rest, rfl, rfl, rfl⟩ | ⟨o, cnt, rest, rfl, ho, rfl, rfl⟩
    · exact if_pos hb
    · simp [tokenOutput, tokenRest, LzOutcome.andThen]
    · simp only [ne_eq, not_true_eq_false, if_false, if_neg ho, tokenOutput]
      rw [← lzDistance]
      split <;> rfl
  | reject r =>
    rw [tokenOutput, tokenRest, LzOutcome.andThen, expandTokens_nil]
    rcases decodeToken_reject hd with rfl | rfl | ⟨o, ho, rfl⟩
    · rfl
    · simp
    · simp [ho]

/-- A token is decided by its first three bytes (R106). -/
theorem decodeToken_take (special : Byte) (bs : List Byte) :
    decodeToken special (bs.take 3) = decodeToken special bs := by
  match bs with
  | [] => rfl
  | [_] => rfl
  | [_, _] => rfl
  | _ :: _ :: _ :: _ => rfl

/-- Every token consumes a byte (R199). -/
theorem tokenRest_length_lt (special : Byte) {payload : List Byte} (h : payload ≠ []) :
    (tokenRest payload (decodeToken special payload)).length < payload.length := by
  have hpos := List.length_pos_of_ne_nil h
  cases hd : decodeToken special payload with
  | ok i len =>
    have hlen : 0 < len := by
      rcases decodeToken_ok hd with ⟨-, -, -, -, -, rfl⟩ | ⟨-, -, -, rfl⟩ | ⟨-, -, -, -, -, -, rfl⟩ <;> decide
    rw [tokenRest, List.length_drop]
    omega
  | reject r => exact hpos

/-! ## One token of the unit (O12) -/

/-- The unit has put `out` into PLANE, which held FILL before, and `rest` is what its cursor leaves of MID (R25,
R193). -/
structure LzProduced (out rest : List Byte) (s : State) : Prop where
  stream : s.bytesAt .mid s.lz.lsp (s.lz.llen - s.lz.lsp) = some rest
  ldp : s.lz.ldp = out.length
  room : out.length ≤ s.lz.ldstb
  plane : Holds s.plane (padTo s.lz.ldstb out)

section
variable {out rest : List Byte} {s : State}

theorem LzProduced.rest_length (h : LzProduced out rest s) : rest.length = s.lz.llen - s.lz.lsp :=
  s.bytesAt_length _ h.stream

theorem LzProduced.plane_len (h : LzProduced out rest s) : s.plane.len = s.lz.ldstb :=
  h.plane.1.trans (padTo_length h.room)

/-- The bytes of the token under the cursor (R191). -/
theorem LzProduced.window (h : LzProduced out rest s) :
    s.bytesAt .mid s.lz.lsp (tokenWindow s.lz) = some (rest.take 3) := by
  have hwin : tokenWindow s.lz = min 3 rest.length := by rw [h.rest_length]; rfl
  refine (s.bytesAt_eq_some _ _ _ _).2 ⟨by rw [List.length_take, hwin], fun i hi => ?_⟩
  rw [List.getElem?_take_of_lt (by omega)]
  exact ((s.bytesAt_eq_some _ _ _ _).1 h.stream).2 i (by have := h.rest_length; omega)

/-- A fetch of `k` bytes moves LSP past them (R191). -/
theorem LzProduced.consume (h : LzProduced out rest s) {k : Nat} (hk : k ≤ rest.length) {l : LzRegs}
    (hlsp : l.lsp = s.lz.lsp + k) (hllen : l.llen = s.lz.llen) (hldp : l.ldp = s.lz.ldp)
    (hldstb : l.ldstb = s.lz.ldstb) : LzProduced out (rest.drop k) { s with lz := l } where
  stream := by
    have hdrop := State.bytesAt_drop h.stream (h.rest_length ▸ hk)
    rw [Nat.sub_sub] at hdrop
    rw [hlsp, hllen]
    exact (State.bytesAt_congr _ s .mid (by rfl) _ _).trans hdrop
  ldp := hldp.trans h.ldp
  room := hldstb ▸ h.room
  plane := hldstb ▸ h.plane

/-- One byte emitted behind what is produced (R192, R194). -/
theorem LzProduced.emit (h : LzProduced out rest s) (hroom : out.length < s.lz.ldstb) (v : Byte) :
    ∃ t, lzEmit v s = .go t ∧ t.lz = { s.lz with ldp := s.lz.ldp + 1 } ∧ LzProduced (out ++ [v]) rest t := by
  have hlen : (out ++ [v]).length = out.length + 1 := by simp
  refine ⟨_, lzEmit_spec v s (by rw [h.ldp, h.plane_len]; exact hroom), rfl, ?_⟩
  exact
    { stream := (State.bytesAt_congr _ s .mid (by rfl) _ _).trans h.stream
      ldp := (congrArg (· + 1) h.ldp).trans hlen.symm
      room := hlen ▸ hroom
      plane := h.ldp ▸ h.plane.set_next hroom v }

/-- The byte `off` cells behind the end of what is produced, FILL at the end itself (R196). -/
theorem LzProduced.byteAt_back (h : LzProduced out rest s) {off : Nat} (hoff : off ≤ out.length)
    (hroom : out.length < s.lz.ldstb) :
    s.byteAt .plane (s.lz.ldp - off) =
      some (if off = 0 then Config.fill else out.getD (out.length - off) Config.fill) := by
  rw [h.ldp]
  refine (h.plane.2 _).trans ?_
  split
  case isTrue hzero => rw [hzero, Nat.sub_zero, padTo_getElem?_right le_rfl hroom]
  case isFalse hpos =>
    have hlt : out.length - off < out.length := by omega
    rw [padTo_getElem?_left _ hlt, List.getElem?_eq_getElem hlt, List.getD_eq_getElem _ _ hlt]

/-- The copy of R196 as a copy on lists (R72). -/
theorem LzProduced.copy (k : Nat) (h : LzProduced out rest s) (hoff : s.lz.loff.toNat ≤ out.length)
    (hroom : out.length + k ≤ s.lz.ldstb) :
    ∃ t, lzCopy k s = .go t ∧ LzProduced (copyBack k s.lz.loff.toNat out) rest t := by
  induction k generalizing out s with
  | zero => exact ⟨s, rfl, h⟩
  | succ k ih =>
    have hlt : out.length < s.lz.ldstb := by omega
    obtain ⟨u, hemit, hlz, hu⟩ := h.emit hlt _
    have hlen : ∀ v : Byte, (out ++ [v]).length = out.length + 1 := fun v => by simp
    obtain ⟨t, hcopy, ht⟩ := ih hu (by rw [hlz, hlen]; exact Nat.le_succ_of_le hoff)
      (by rw [hlz, hlen]; show _ ≤ s.lz.ldstb; omega)
    rw [hlz] at ht
    refine ⟨t, ?_, ht⟩
    rw [lzCopy, withByte_some _ s _ (h.byteAt_back hoff hlt), hemit, Flow.go_andThen, hcopy]

end

/-- A piece of pseudocode ends as a token stream on lists does: with an output it goes on in a state that `P` ties to
the output; with a bad back-reference it takes the fatal entry, PLANE's `n` cells holding the bytes before it (R195). -/
def Flow.Decodes (x : Flow) (n : Nat) (P : List Byte → State → Prop) : LzOutcome → Prop
  | .done out => ∃ t, x = .go t ∧ P out t
  | .bad out off =>
    ∃ t, x = .stop t ∧ t.err.pos = out.length ∧ t.err.off = off ∧ out.length < off.toNat ∧ Holds t.plane (padTo n out)

/-- Program order: what follows is decoded from where the output left off (R71). -/
theorem Flow.Decodes.andThen {x : Flow} {f : State → Flow} {n : Nat} {P Q : List Byte → State → Prop} {y : LzOutcome}
    {g : List Byte → LzOutcome} (hx : x.Decodes n P y) (hf : ∀ out t, x = .go t → P out t → (f t).Decodes n Q (g out)) :
    (x.andThen f).Decodes n Q (y.andThen g) := by
  cases y with
  | done out =>
    obtain ⟨t, rfl, ht⟩ := hx
    exact hf out t rfl ht
  | bad out off =>
    obtain ⟨t, rfl, ht⟩ := hx
    exact ⟨t, rfl, ht⟩

/-- An LZCPY, its bytes fetched, as a token on lists (R195, R196). -/
theorem lzCpy_decodes (o cnt : Byte) (len : Nat) {out rest : List Byte} {s : State} (h : LzProduced out rest s) :
    (lzCpy o cnt s).Decodes s.lz.ldstb (LzProduced · rest)
      (tokenOutput s.lz.special s.lz.ldstb out (.ok (.lzcpy o cnt) len)) := by
  rw [tokenOutput]
  split
  case isTrue hbad =>
    rw [lzCpy_bad cnt (h.ldp ▸ hbad)]
    exact ⟨_, rfl, h.ldp, rfl, hbad, h.plane⟩
  case isFalse hgood =>
    rw [lzCpy_good cnt (h.ldp ▸ Nat.not_lt.1 hgood), copyCount, h.ldp]
    have hd : LzProduced out rest (lzDistanced o s) :=
      h.consume (k := 0) (l := (lzDistanced o s).lz) (Nat.zero_le _) rfl rfl rfl rfl
    exact hd.copy _ (Nat.not_lt.1 hgood) (by have := h.room; show _ ≤ s.lz.ldstb; omega)
/-- One token of the loop is one token on lists (R191). -/
theorem lzToken_decodes {out rest : List Byte} {s : State} (h : LzProduced out rest s)
    (hroom : out.length < s.lz.ldstb) :
    (lzToken (rest.take 3) s).Decodes s.lz.ldstb (LzProduced · (tokenRest rest (decodeToken s.lz.special rest)))
      (tokenOutput s.lz.special s.lz.ldstb out (decodeToken s.lz.special rest)) := by
  have emit : ∀ {rest' l} (v : Byte), LzProduced out rest' { s with lz := l } → l.ldstb = s.lz.ldstb →
      ∃ t, lzEmit v { s with lz := l } = .go t ∧ LzProduced (out ++ [v]) rest' t := fun v hp hl => by
    obtain ⟨t, hgo, -, ht⟩ := hp.emit (hl ▸ hroom) v
    exact ⟨t, hgo, ht⟩
  rw [lzToken, decodeToken_take]
  cases hd : decodeToken s.lz.special rest with
  | ok i len =>
    rcases decodeToken_ok hd with ⟨b, tail, rfl, -, rfl, rfl⟩ | ⟨tail, rfl, rfl, rfl⟩ | ⟨o, cnt, tail, rfl, -, rfl, rfl⟩
    · exact emit b (h.consume (k := 1) (l := (lzFetch b s).lz) (Nat.succ_pos _) rfl rfl rfl rfl) rfl
    · exact emit _ (h.consume (k := 2) (l := (lzFetchOffset s.lz.special (lzFetch s.lz.special s)).lz)
        (by simp) rfl rfl rfl rfl) rfl
    · exact lzCpy_decodes o cnt 3 (h.consume (k := 3) (l := (lzCpyFetched o cnt s).lz) (by simp) rfl rfl rfl rfl)
  | reject r =>
    rcases decodeToken_reject hd with rfl | hone | ⟨o, -, htwo⟩
    · exact ⟨s, rfl, h⟩
    · rw [hone] at h ⊢
      exact ⟨_, rfl, h.consume (k := 1) (l := (lzFetch s.lz.special s).lz) le_rfl rfl rfl rfl rfl⟩
    · rw [htwo] at h ⊢
      exact ⟨_, rfl, h.consume (k := 2) (l := (lzFetchOffset o (lzFetch s.lz.special s)).lz) le_rfl rfl rfl rfl rfl⟩

/-! ## The loop of R193 on lists (O12) -/

/-- With a budget used up the loop is over (R193). -/
theorem lzLoop_over (k : Nat) {s : State} (h : s.lz.llen ≤ s.lz.lsp ∨ s.lz.ldstb ≤ s.lz.ldp) : lzLoop k s = .go s := by
  cases k with
  | zero => rfl
  | succ k =>
    refine if_neg ?_
    simp only [lzMore, Bool.and_eq_true, decide_eq_true_eq]
    omega

/-- With both budgets left the loop takes the token at LSP (R193). -/
theorem lzLoop_token (k : Nat) {s : State} {bs : List Byte} (hsrc : s.lz.lsp < s.lz.llen) (hdst : s.lz.ldp < s.lz.ldstb)
    (hbs : s.bytesAt .mid s.lz.lsp (tokenWindow s.lz) = some bs) :
    lzLoop (k + 1) s = (lzToken bs s).andThen (lzLoop k) := by
  have hm : lzMore s = true := by simp [lzMore, hsrc, hdst]
  rw [lzLoop, if_pos hm, withBytes_some .mid s _ hbs]

/-- A token with both budgets left keeps what the unit's operations keep (R191). -/
theorem LzProduced.token_frame {out rest : List Byte} {s t : State} (h : LzProduced out rest s) (hne : rest ≠ [])
    (hroom : out.length < s.lz.ldstb) (ht : lzToken (rest.take 3) s = .go t) : LzFrame s t := by
  have hpos := List.length_pos_of_ne_nil hne
  have hlen := h.rest_length
  have htake : (rest.take 3).length = min 3 rest.length := List.length_take
  exact ((lzToken_post (rest.take 3) s (h.ldp ▸ hroom) (List.ne_nil_of_length_pos (by omega)) (by omega)).of_eq_go ht).1

theorem lzLoop_frame {k : Nat} {s t : State} (h : lzLoop k s = .go t) : LzFrame s t := (lzLoop_post k s).of_eq_go h

/-- The loop of R193 produces what the payload ahead expands to behind what it has produced; its turns and the tokens of
the list are both as many as there are bytes left, or more (R199). -/
theorem lzLoop_decodes (k fuel : Nat) {out rest : List Byte} {s : State} (h : LzProduced out rest s)
    (hk : rest.length ≤ k) (hfuel : rest.length ≤ fuel) :
    (lzLoop k s).Decodes s.lz.ldstb (fun out t => ∃ rest, LzProduced out rest t)
      (expandTokens fuel s.lz.special rest s.lz.ldstb out) := by
  induction k generalizing fuel out rest s with
  | zero =>
    rw [List.eq_nil_of_length_eq_zero (Nat.le_zero.1 hk), expandTokens_nil]
    exact ⟨s, rfl, rest, h⟩
  | succ k ih =>
    by_cases hnil : rest = []
    · rw [hnil, expandTokens_nil]
      exact ⟨s, lzLoop_over _ (.inl (Nat.le_of_sub_eq_zero (h.rest_length.symm.trans (hnil ▸ rfl)))), rest, h⟩
    by_cases hfull : s.lz.ldstb ≤ out.length
    · rw [expandTokens_full _ _ _ hfull]
      exact ⟨s, lzLoop_over _ (.inr (h.ldp ▸ hfull)), rest, h⟩
    have hroom := Nat.not_le.1 hfull
    have hpos := List.length_pos_of_ne_nil hnil
    have hlen := h.rest_length
    obtain ⟨fuel, rfl⟩ := Nat.exists_eq_succ_of_ne_zero (Nat.ne_of_gt (hpos.trans_le hfuel))
    rw [lzLoop_token k (by omega) (h.ldp ▸ hroom) h.window, expandTokens_token fuel _ rest hroom]
    refine (lzToken_decodes h hroom).andThen fun out' t hgo ht => ?_
    have hframe := h.token_frame hnil hroom hgo
    have hless := tokenRest_length_lt s.lz.special hnil
    have hrest := ih fuel ht (by omega) (by omega)
    rwa [hframe.ldstb, hframe.special] at hrest

/-! ## LZ.EXPAND (O12) -/

/-- The end of LZ.EXPAND sets the flag of stage 2 when bytes are missing, and nothing else (R198). -/
theorem lzEnd_eq (s : State) :
    lzEnd s = { s with
      trunc := if s.lz.ldp < s.lz.ldstb then s.trunc ||| (1#8 <<< (2 * s.seq.pch.toNat + 1)) else s.trunc } := by
  unfold lzEnd
  split <;> rfl

section
variable {s : State} {bytes : List Byte} (h : s.bytesAt .mid 0 (hlenOf s.sub) = some bytes)
include h

/-- The record at the head of MID and MID itself agree as far as MID reaches (R190). -/
theorem u8At_paddedAt {i : Nat} (hi : i < bytes.length) (hrec : i < Config.lzPayloadOff) :
    u8At (s.paddedAt .mid 0 Config.lzPayloadOff) i = u8At bytes i := by
  obtain ⟨hlen, hread⟩ := (s.bytesAt_eq_some _ _ _ _).1 h
  rw [u8At, u8At, List.getD_eq_getElem?_getD, List.getD_eq_getElem?_getD, s.paddedAt_getElem? _ _ _ _ hrec,
    hread i (hlen ▸ hi), List.getElem?_eq_getElem hi]
  rfl

/-- The two latched words are MID's where MID has them (R190). -/
theorem u32At_paddedAt {i : Nat} (hi : i + 4 ≤ bytes.length) (hrec : i + 4 ≤ Config.lzPayloadOff) :
    u32At (s.paddedAt .mid 0 Config.lzPayloadOff) i = u32At bytes i := by
  rw [u32At, u32At, u8At_paddedAt h (by omega) (by omega), u8At_paddedAt h (by omega) (by omega),
    u8At_paddedAt h (by omega) (by omega), u8At_paddedAt h (by omega) (by omega)]

theorem lzInit_midHeader_sub : (lzInit (midHeader s) s).sub =
    if 8 ≤ bytes.length then { s.sub with lzhdr0 := u32At bytes 0, lzhdr1 := u32At bytes 4 } else s.sub := by
  rw [lzInit_sub, ← s.bytesAt_length _ h]
  split
  case isTrue h8 =>
    have h0 : (midHeader s).word0 = u32At bytes 0 := u32At_paddedAt h (by omega) (by decide)
    have h4 : (midHeader s).word1 = u32At bytes 4 := u32At_paddedAt h (by omega) (by decide)
    rw [h0, h4]
  case isFalse => rfl

/-- SPECIAL is MID's byte 8, or 0 where there is none (R190). -/
theorem lzInit_midHeader_special : (lzInit (midHeader s) s).lz.special = bytes.getD 8 0 := by
  rw [lzInit_lz]
  show (if 8 < hlenOf s.sub then (midHeader s).special else 0x00#8) = _
  rw [← s.bytesAt_length _ h]
  split
  case isTrue h8 => exact u8At_paddedAt h h8 (by decide)
  case isFalse h8 => exact (List.getD_eq_default _ _ (Nat.not_lt.1 h8)).symm

/-- After LZ.INIT nothing is produced and the payload begins at offset 12 (R190). -/
theorem lzInit_produced (hplane : s.plane = Memory.filled s.drv.n) :
    LzProduced [] (bytes.drop 12) (lzInit (midHeader s) s) where
  stream := by
    have hlen := s.bytesAt_length _ h
    refine (State.bytesAt_congr _ s .mid (by rfl) _ _).trans ?_
    show s.bytesAt .mid 12 (hlenOf s.sub - 12) = _
    by_cases hpay : 12 ≤ hlenOf s.sub
    · have hdrop := State.bytesAt_drop h hpay
      rwa [Nat.zero_add] at hdrop
    · rw [Nat.sub_eq_zero_of_le (by omega), List.drop_eq_nil_of_le (by omega)]
      rfl
  ldp := rfl
  room := Nat.zero_le _
  plane := by
    show Holds s.plane (padTo s.drv.n [])
    rw [hplane]
    exact holds_filled _

/-- The loop of LZ.EXPAND decodes MID (R190, R193). -/
theorem lzExpand_decodes (hplane : s.plane = Memory.filled s.drv.n) :
    (lzLoop (hlenOf s.sub - 12) (lzInit (midHeader s) s)).Decodes s.drv.n (fun out t => ∃ rest, LzProduced out rest t)
      (expandTokens bytes.length (bytes.getD 8 0) (bytes.drop 12) s.drv.n []) := by
  have hlen := s.bytesAt_length _ h
  have hpay : (bytes.drop 12).length = bytes.length - 12 := List.length_drop
  have hloop := lzLoop_decodes (hlenOf s.sub - 12) bytes.length (lzInit_produced h hplane) (by omega) (by omega)
  rwa [lzInit_midHeader_special h] at hloop

end

/-- LZ.EXPAND is LZ.INIT, the loop and the end (R193). -/
theorem exec_lzExpand (s : State) : exec .lzExpand s =
    ((lzLoop (hlenOf s.sub - 12) (lzInit (midHeader s) s)).andThen fun t => .go (lzEnd t)).toOutcome := rfl

/-- Settles O12: the loop from LZ.INIT on, then the truncation flag or the fatal entry. -/
theorem lzExpandDecodesItsStream : Obligations.LzExpandDecodesItsStream := by
  intro s bytes hmid hplane
  have hsub := lzInit_midHeader_sub hmid
  have hdec := lzExpand_decodes hmid hplane
  have hpost := lzLoop_post (hlenOf s.sub - 12) (lzInit (midHeader s) s)
  have hlatched : (lzInit (midHeader s) s).latched =
      if 8 ≤ bytes.length then { s.latched with lzhdr := true } else s.latched := by
    rw [lzInit_latched, s.bytesAt_length _ hmid]
    rfl
  cases hout : expandTokens bytes.length (bytes.getD 8 0) (bytes.drop 12) s.drv.n [] with
  | done out =>
    rw [hout] at hdec
    obtain ⟨t, hgo, rest, ht⟩ := hdec
    have hframe := lzLoop_frame hgo
    have hdstb : t.lz.ldstb = s.drv.n := hframe.ldstb
    refine ⟨t.plane, t.lz, _, _, rfl, rfl, ?_, ht.ldp, hdstb ▸ ht.room, hdstb ▸ ht.plane⟩
    rw [exec_lzExpand, hgo, Flow.go_andThen, Flow.go_toOutcome, lzEnd_eq, ht.ldp, hdstb, hframe.rest, ← hsub,
      ← hlatched]
    rfl
  | bad out off =>
    rw [hout] at hdec
    obtain ⟨t, hstop, hpos, hoff, hbad, hholds⟩ := hdec
    rw [hstop] at hpost
    obtain ⟨u, hframe, -, hraise⟩ := hpost
    refine ⟨t.plane, t.lz, _, _, rfl, rfl, ?_, hbad, hholds⟩
    rw [exec_lzExpand, hstop, Flow.stop_andThen, Flow.stop_toOutcome, ← hpos, ← hoff, ← hsub, ← hlatched]
    cases hraise
    rw [hframe.rest]
    rfl

/-! ## LZ.EXPAND token by token (O54) -/

/-- A piece of pseudocode that goes on, with the sequencer at another position. -/
def Flow.atStage (x : Stage) : Flow → Flow
  | .go s => .go (Machine.atStage x s)
  | y => y

/-! No operation of the unit looks at the sequencer's position, so each does the same wherever the sequencer stands; the
fatal entry leaves it idle in any case (R256). -/

section
variable (x : Stage)

theorem Flow.andThen_atStage (y : Flow) {f : State → Flow} (hf : ∀ s, f (Machine.atStage x s) = (f s).atStage x) :
    (y.atStage x).andThen f = (y.andThen f).atStage x := by
  cases y with
  | go s => exact hf s
  | stop s => rfl
  | fault e => rfl
  | refuse r => rfl

theorem mid_bytesAt_atStage (s : State) (n a : Nat) : (atStage x s).bytesAt .mid a n = s.bytesAt .mid a n :=
  State.bytesAt_congr (atStage x s) s .mid rfl n a

theorem lzEmit_atStage (v : Byte) (s : State) : lzEmit v (atStage x s) = (lzEmit v s).atStage x := by
  rw [lzEmit, lzEmit, putByte_eq, putByte_eq]
  by_cases hroom : s.lz.ldp < (s.space .plane).len
  · rw [if_pos hroom]
    exact congrArg (Flow.andThen · _) (if_pos hroom)
  · rw [if_neg hroom]
    exact congrArg (Flow.andThen · _) (if_neg hroom)

theorem lzCopy_atStage (k : Nat) (s : State) : lzCopy k (atStage x s) = (lzCopy k s).atStage x := by
  induction k generalizing s with
  | zero => rfl
  | succ k ih =>
    have hbyte : (atStage x s).byteAt .plane ((atStage x s).lz.ldp - (atStage x s).lz.loff.toNat) =
      s.byteAt .plane (s.lz.ldp - s.lz.loff.toNat) := rfl
    rw [lzCopy, lzCopy, withByte, withByte, hbyte]
    cases s.byteAt .plane (s.lz.ldp - s.lz.loff.toNat) with
    | none => rfl
    | some v => exact (congrArg (Flow.andThen · _) (lzEmit_atStage x v s)).trans (Flow.andThen_atStage x _ ih)

theorem lzCpy_atStage (o cnt : Byte) (s : State) : lzCpy o cnt (atStage x s) = (lzCpy o cnt s).atStage x := by
  by_cases hbad : s.lz.ldp < (lzDistance s.lz.special o).toNat
  · rw [lzCpy_bad cnt hbad, lzCpy_bad (s := atStage x s) cnt hbad]
    rfl
  · have hgood := Nat.not_lt.1 hbad
    rw [lzCpy_good cnt hgood, lzCpy_good (s := atStage x s) cnt hgood]
    exact lzCopy_atStage x _ (lzDistanced o s)

theorem lzCut_atStage (bs : List Byte) (s : State) : lzCut bs (atStage x s) = atStage x (lzCut bs s) := by
  match bs with
  | [] => rfl
  | [_] => rfl
  | _ :: _ :: _ => rfl

/-- A token does the same wherever the sequencer stands (R191). -/
theorem lzToken_atStage (bs : List Byte) (s : State) : lzToken bs (atStage x s) = (lzToken bs s).atStage x := by
  have hspecial : (atStage x s).lz.special = s.lz.special := rfl
  rw [lzToken, lzToken, hspecial]
  cases hd : decodeToken s.lz.special bs with
  | ok i len =>
    rcases decodeToken_ok hd with ⟨b, -, -, -, rfl, -⟩ | ⟨-, -, rfl, -⟩ | ⟨o, cnt, -, -, -, rfl, -⟩
    · exact lzEmit_atStage x b (lzFetch b s)
    · exact lzEmit_atStage x s.lz.special (lzFetchOffset s.lz.special (lzFetch s.lz.special s))
    · exact lzCpy_atStage x o cnt (lzCpyFetched o cnt s)
  | reject r => exact congrArg Flow.go (lzCut_atStage x bs s)

end

theorem lzEnd_atStage (x : Stage) (s : State) : lzEnd (atStage x s) = atStage x (lzEnd s) := by
  rw [lzEnd_eq, lzEnd_eq]
  rfl

theorem lzToken_reject {bs : List Byte} {s : State} {r : DecodeReject} (h : decodeToken s.lz.special bs = .reject r) :
    lzToken bs s = .go (lzCut bs s) := by
  rw [lzToken, h]

/-- A token that the end of MID cuts off is a move of the sequencer (R191). -/
theorem fetch_lzCut {s : State} {bs : List Byte} {r : DecodeReject} (hst : s.stage = .lz) (hmore : lzMore s = true)
    (hbs : s.bytesAt .mid s.lz.lsp (tokenWindow s.lz) = some bs) (hd : decodeToken s.lz.special bs = .reject r) :
    fetch s = .move .lzCut := by
  simp only [fetch, hst, hmore, if_true, fetchBytes, hbs, fetchDecoded, decode, hd]

/-- Where R193's loop ends the sequencer ends LZ.EXPAND (R193, R198). -/
theorem fetch_lzEnd {s : State} (hst : s.stage = .lz) (h : lzMore s = false) : fetch s = .move .lzEnd := by
  simp only [fetch, hst, h, Bool.false_eq_true, if_false]

/-- A step of a running engine whose instruction ends the command leaves the sequencer where that puts it (R27). -/
theorem Running.step_ends {s t : State} {i : Instr} {after : Stage} (h : Running s) (hf : fetch s = .instr i after)
    (he : exec i s = .next t) (ht : t.status ≠ .busy) : step s = .next t := by
  rw [step_of_noMoveDue (.inl h.host), engineStep_instr h.busy hf, he, settle, if_neg ht]

theorem LzFrame.running {s t : State} (f : LzFrame s t) (h : Running s) : Running t := by
  rw [f.rest]; exact ⟨h.host, h.busy⟩

theorem LzRaised.status {s t : State} (h : LzRaised s t) : t.status = .error := by
  obtain ⟨u, -, -, hraise⟩ := h
  cases hraise
  rfl

section
variable {s t : State} {bs : List Byte} (h : Running s) (hsrc : s.lz.lsp < s.lz.llen) (hdst : s.lz.ldp < s.lz.ldstb)
  (hbs : s.bytesAt .mid s.lz.lsp (tokenWindow s.lz) = some bs)
include h hsrc hdst hbs

/-- With both budgets left a token that goes on is one step, whether MID holds all of it or not (R191, R193). -/
theorem Running.step_token (ht : lzToken bs s = .go t) (hbusy : t.status = .busy) :
    step (Machine.atStage .lz s) = .next (Machine.atStage .lz t) := by
  have hbs' : (Machine.atStage .lz s).bytesAt .mid s.lz.lsp (tokenWindow s.lz) = some bs :=
    (mid_bytesAt_atStage _ s _ _).trans hbs
  have htok : lzToken bs (Machine.atStage .lz s) = .go (Machine.atStage .lz t) := by rw [lzToken_atStage, ht]; rfl
  cases hd : decodeToken s.lz.special bs with
  | ok i n =>
    exact (h.atStage .lz).step_instr (t := Machine.atStage .lz t) (fetch_token rfl hsrc hdst hbs' hd)
      ((exec_token (s := Machine.atStage .lz s) hd).trans (congrArg Flow.toOutcome htok)) hbusy
  | reject r =>
    have hmore : lzMore (Machine.atStage .lz s) = true := by simp [lzMore, hsrc, hdst]
    have hcut := lzToken_reject (s := Machine.atStage .lz s) hd
    exact (h.atStage .lz).step_move (fetch_lzCut rfl hmore hbs' hd)
      ((withBytes_some .mid _ _ hbs').trans (hcut.symm.trans htok))

/-- A token that takes the fatal entry is one step (R195, R256). -/
theorem Running.step_token_raises (ht : lzToken bs s = .stop t) (herr : t.status ≠ .busy) :
    step (Machine.atStage .lz s) = .next t := by
  have hbs' : (Machine.atStage .lz s).bytesAt .mid s.lz.lsp (tokenWindow s.lz) = some bs :=
    (mid_bytesAt_atStage _ s _ _).trans hbs
  have htok : lzToken bs (Machine.atStage .lz s) = .stop t := by rw [lzToken_atStage, ht]; rfl
  cases hd : decodeToken s.lz.special bs with
  | ok i n =>
    exact (h.atStage .lz).step_ends (fetch_token rfl hsrc hdst hbs' hd)
      ((exec_token (s := Machine.atStage .lz s) hd).trans (congrArg Flow.toOutcome htok)) herr
  | reject r =>
    rw [lzToken_reject hd] at ht
    cases ht

end

/-- The turns of R193's loop are steps of the machine, to where it goes on or to the fatal entry. -/
theorem Running.reaches_of_lzLoop (k : Nat) {s : State} (h : Running s) :
    (lzLoop k s).Post (fun t => Reaches (Machine.atStage .lz s) (Machine.atStage .lz t))
      (Reaches (Machine.atStage .lz s)) (fun _ => True) := by
  induction k generalizing s with
  | zero => exact Reaches.refl _
  | succ k ih =>
    rw [lzLoop]
    split
    case isFalse => exact Reaches.refl _
    rename_i hmore
    simp only [lzMore, Bool.and_eq_true, decide_eq_true_eq] at hmore
    obtain ⟨hdst, hsrc⟩ := hmore
    refine withBytes_post (fun bs hbs => ?_) fun _ => trivial
    have hlen := s.bytesAt_length .mid hbs
    have hwin : tokenWindow s.lz = min 3 (s.lz.llen - s.lz.lsp) := rfl
    have hpost := lzToken_post bs s hdst (List.ne_nil_of_length_pos (by omega)) (by omega)
    cases htok : lzToken bs s with
    | go u =>
      have hrun := (hpost.of_eq_go htok).1.running h
      have hstep := h.step_token hsrc hdst hbs htok hrun.busy
      exact (ih hrun).mono (fun _ ht => ht.head hstep) (fun _ ht => ht.head hstep) fun _ _ => trivial
    | stop u =>
      rw [htok] at hpost
      have herr : u.status = .error := LzRaised.status hpost
      exact .single (h.step_token_raises hsrc hdst hbs htok (by rw [herr]; decide))
    | fault f => trivial
    | refuse r => trivial

/-- LZ.EXPAND answers the end of a state in which its loop is over, or what the fatal entry leaves (R193, R195). -/
theorem lzExpand_eq_next {s t : State} (h : exec .lzExpand s = .next t) :
    (∃ u, lzLoop (hlenOf s.sub - 12) (lzInit (midHeader s) s) = .go u ∧ t = lzEnd u ∧ lzMore u = false) ∨
      lzLoop (hlenOf s.sub - 12) (lzInit (midHeader s) s) = .stop t := by
  have hends := lzLoop_ends (hlenOf s.sub - 12) (lzInit (midHeader s) s) le_rfl
  rw [exec_lzExpand] at h
  cases hloop : lzLoop (hlenOf s.sub - 12) (lzInit (midHeader s) s) with
  | go u =>
    rw [hloop] at h hends
    cases h
    exact .inl ⟨u, rfl, rfl, hends⟩
  | stop u =>
    rw [hloop] at h
    cases h
    exact .inr rfl
  | fault f => rw [hloop] at h; cases h
  | refuse r => rw [hloop] at h; cases h

/-- At stream-code grain LZ.EXPAND begins with the record at the head of MID (R190). -/
theorem fetch_lzhdr {s : State} (hst : s.stage = .expand) (hvar : s.hdr.variant = Config.variantHufLz)
    (hgrain : s.grain = .code) : fetch s = .instr (.lzhdr (midHeader s)) .lz := by
  simp only [fetch, hst, if_pos hvar, hgrain, if_true]
  have hlen : ¬ (s.paddedAt .mid 0 Config.lzPayloadOff).length < Config.lzPayloadOff := by
    rw [State.paddedAt_length]
    exact Nat.lt_irrefl _
  have hdec : decode .lh 0 (s.paddedAt .mid 0 Config.lzPayloadOff) =
      .ok (.lzhdr (midHeader s)) Config.lzPayloadOff := by
    rw [decode, if_neg hlen, midHeader]
  exact fetchDecoded_ok hdec _ _

/-- Settles O54: LZHDR, the loop's tokens, and the end or the fatal entry, each a step. -/
theorem tokensMakeUpLzExpand : Obligations.TokensMakeUpLzExpand := by
  intro s t hhost hbusy hgrain hst hvar ht
  have hinit : Running (lzInit (midHeader s) s) := ⟨hhost, hbusy⟩
  have hfirst : step s = .next (atStage .lz (lzInit (midHeader s) s)) :=
    Running.step_instr ⟨hhost, hbusy⟩ (fetch_lzhdr hst hvar hgrain) rfl hbusy
  show Reaches s (if t.status = .busy then atStage .place t else t)
  obtain ⟨u, hgo, rfl, hend⟩ | hstop := lzExpand_eq_next ht
  · have hrun := (lzLoop_frame hgo).running hinit
    have hloop := (hinit.reaches_of_lzLoop _).of_eq_go hgo
    have hlast : step (atStage .lz u) = .next (atStage .place (lzEnd u)) :=
      (hrun.atStage .lz).step_move (fetch_lzEnd rfl hend) (by rw [runMove, lzEnd_atStage]; rfl)
    rw [if_pos ((lzEnd_status u).trans hrun.busy)]
    exact (hloop.trans (.single hlast)).head hfirst
  · have hraised := lzLoop_post (hlenOf s.sub - 12) (lzInit (midHeader s) s)
    have hloop := hinit.reaches_of_lzLoop (hlenOf s.sub - 12)
    rw [hstop] at hraised hloop
    have herr : t.status = .error := LzRaised.status hraised
    rw [if_neg (by rw [herr]; decide)]
    exact Reaches.head hfirst hloop

end Sys2Proof.Machine

/-! PROOFS. The statements of 44_channel_scheme_sequencer.md on one record, one selector and one move of the host, and the
containers that SEQ.DECODE does not accept. -/

namespace Sys2Proof.Machine

/-! ## The header record and the selectors (O20, O21, O22) -/

/-- HDR in a container that holds a header (R211). -/
theorem hdrRead_long (h : Header) {s : State} (hlen : 0x20 ≤ s.src.len) :
    hdrRead h s = .go { s with hdr := h, latched := { s.latched with hdr := true } } := if_neg (Nat.not_lt.2 hlen)

/-- HDR in a shorter one (R211). -/
theorem hdrRead_short (h : Header) {s : State} (hlen : s.src.len < 0x20) : hdrRead h s = reject s := if_pos hlen

/-- Settles O20: the length is HDR's one test. -/
theorem hdrLatchesOrRejects : Obligations.HdrLatchesOrRejects := fun h _ =>
  ⟨fun hlen => congrArg Flow.toOutcome (hdrRead_long h hlen), fun hlen => congrArg Flow.toOutcome (hdrRead_short h hlen)⟩

/-- Settles O21: both selectors go on at once. -/
theorem formatSelectorsChangeNothing : Obligations.FormatSelectorsChangeNothing := fun _ => ⟨rfl, rfl⟩

theorem alphaSized_iff (s : State) : alphaSized s = true ↔ 0 < s.hdr.aSize.toInt := decide_eq_true_iff

/-- BPP.32 chooses by the size of the alpha range (R215). -/
theorem exec_bpp32 (s : State) : exec .bpp32 s = .next (pixInit (alphaSized s) s) := rfl

/-- Settles O22: PIX.INIT with alpha and without. -/
theorem bppSelectorsChooseThePixelFormat : Obligations.BppSelectorsChooseThePixelFormat := by
  refine fun s => ⟨rfl, fun halpha => ?_, fun hnone => ?_⟩
  · rw [exec_bpp32, (alphaSized_iff s).2 halpha]; rfl
  · rw [exec_bpp32, Bool.eq_false_iff.2 fun h => absurd ((alphaSized_iff s).1 h) (Int.not_lt.2 hnone)]; rfl

/-! ## The sub-header record (R219, O23) -/

/-- HLEN and PACKLEN as a sub-header gives them (R219). -/
def subLatch (t : SubHeader) (s : State) : State :=
  { s with
    sub := { s.sub with hlen := t.decodedLength, packLen := t.packedLength }
    latched := { s.latched with sub := true } }

/-- HLEN, PACKLEN and the frequencies as a sub-header gives them (R219). -/
def subTaken (t : SubHeader) (s : State) : State := { subLatch t s with freqs := t.freqs }

/-- The declared length is negative or above MID_CAP (R219). -/
def LengthBad (t : SubHeader) (midCap : Option Nat) : Prop :=
  t.decodedLength.toInt < 0 ∨ ∃ c, midCap = some c ∧ (c : Int) < t.decodedLength.toInt

/-- R219's test of the declared length is on a natural number, where it is one. -/
theorem lengthBad_iff (t : SubHeader) (midCap : Option Nat) :
    LengthBad t midCap ↔
      t.decodedLength.toInt < 0 ∨ Config.exceeds t.decodedLength.toInt.toNat midCap = true := by
  rw [exceeds_iff, LengthBad]
  refine or_congr_right' fun hnn => exists_congr fun c => and_congr_right fun _ => ?_
  omega

theorem not_lengthBad {t : SubHeader} {midCap : Option Nat} (hnn : 0 ≤ t.decodedLength.toInt)
    (hcap : ∀ c, midCap = some c → t.decodedLength.toInt ≤ (c : Int)) : ¬ LengthBad t midCap := by
  rintro (hneg | ⟨c, hc, hlt⟩)
  · exact absurd hneg (Int.not_lt.2 hnn)
  · exact absurd hlt (Int.not_lt.2 (hcap c hc))

section
variable {t : SubHeader} {s : State}

theorem subhdrRead_short (t : SubHeader) (h : s.seq.psize < 0x408) : subhdrRead t s = raise .badSubHeader 0 0 s :=
  if_pos h

theorem subhdrRead_badLength (h : 0x408 ≤ s.seq.psize) (hbad : LengthBad t s.caps.midCap) :
    subhdrRead t s = raise .badSubHeader 0 0 (subLatch t s) :=
  (if_neg (Nat.not_lt.2 h)).trans (if_pos ((lengthBad_iff t s.caps.midCap).1 hbad))

theorem subhdrRead_good (h : 0x408 ≤ s.seq.psize) (hgood : ¬ LengthBad t s.caps.midCap) :
    subhdrRead t s = .go (subTaken t s) :=
  (if_neg (Nat.not_lt.2 h)).trans (if_neg (mt (lengthBad_iff t s.caps.midCap).2 hgood))

end

/-- Settles O23: the range's length first, then the declared length, with HLEN and PACKLEN latched between. -/
theorem subhdrLatchesOrRaises : Obligations.SubhdrLatchesOrRaises := fun t _ =>
  ⟨fun h hnn hcap => congrArg Flow.toOutcome (subhdrRead_good h (not_lengthBad hnn hcap)),
    fun h => congrArg Flow.toOutcome (subhdrRead_short t h),
    fun h hbad => congrArg Flow.toOutcome (subhdrRead_badLength h hbad)⟩

/-! ## The host's moves (O32, O33, O35) -/

section
variable {bs : List Byte} {s : State}

theorem hostLoad_busy (bs : List Byte) (h : s.status = .busy) : hostLoad bs s = .refuse .hostMoveWhileBusy := if_pos h

theorem hostLoad_over {c : Nat} (h : s.status ≠ .busy) (hc : s.caps.srcCap = some c) (hlt : c < bs.length) :
    hostLoad bs s = .refuse .srcOverCap :=
  (if_neg h).trans (if_pos ((exceeds_iff _ _).2 ⟨c, hc, hlt⟩))

theorem hostLoad_fits (h : s.status ≠ .busy) (hfit : ∀ c, s.caps.srcCap = some c → bs.length ≤ c) :
    hostLoad bs s = .go { s with src := Memory.ofBytes bs } := by
  refine (if_neg h).trans (if_neg fun hover => ?_)
  obtain ⟨c, hc, hlt⟩ := (exceeds_iff _ _).1 hover
  exact absurd hlt (Nat.not_lt.2 (hfit c hc))

theorem hostStart_busy (h : s.status = .busy) : hostStart s = .refuse .hostMoveWhileBusy := if_pos h

end

/-- Of the host's reads SRCLEN's alone looks at SRC (R37). -/
theorem hostRead_withSrc (k : Nat) {r : HostReg} (hr : r ≠ .srcLen) (m : Memory) (s : State) :
    hostRead k r { s with src := m } = hostRead k r s := by
  cases r with
  | srcLen => exact absurd rfl hr
  | _ => rfl

/-- Settles O32: SRC takes the bytes, and no other read looks at it. -/
theorem loadStoresTheContainer : Obligations.LoadStoresTheContainer := fun bs s hidle hfit =>
  ⟨Memory.ofBytes bs, congrArg Flow.toOutcome (hostLoad_fits hidle hfit), ⟨rfl, Memory.read_ofBytes bs⟩,
    fun k _ hr => hostRead_withSrc k hr _ s⟩

/-- Settles O33: R210's writes. -/
theorem startBeginsACommand : Obligations.StartBeginsACommand := fun _ hidle => congrArg Flow.toOutcome (if_neg hidle)

/-- Settles O35: STATUS is looked at first, then SRC_CAP. -/
theorem hostMovesOutsideTheirColumnAreRefused : Obligations.HostMovesOutsideTheirColumnAreRefused := fun bs _ =>
  ⟨fun hbusy => ⟨congrArg Flow.toOutcome (hostLoad_busy bs hbusy), congrArg Flow.toOutcome (hostStart_busy hbusy)⟩,
    fun hidle _ hc hlt => congrArg Flow.toOutcome (hostLoad_over hidle hc hlt)⟩

/-- Settles O47: RESET and LOAD leave STATUS other than BUSY, and a part of a command keeps it or ends the command. -/
theorem onlyStartMakesBusy : Obligations.OnlyStartMakesBusy := by
  intro i s t h hstart hbusy
  by_cases hhost : HostMove i
  · rcases hhost with rfl | rfl | ⟨bs, rfl⟩
    · rw [reset_next h] at hbusy
      cases hbusy
    · exact absurd rfl hstart
    · obtain ⟨hidle, rfl⟩ := load_next bs s t h
      exact absurd hbusy hidle
  · rcases exec_goes_or_ends hhost h with hg | he
    · exact hg.status.symm.trans hbusy
    · exact absurd hbusy he.notBusy

/-! ## Containers that are not accepted, and images too large (O27, O60) -/

/-- SEQ.DECODE, piece by piece in program order (R232). -/
theorem exec_seqDecode (s : State) : exec .seqDecode s = (((acceptHeader s).andThen planes).andThen finish).toOutcome :=
  rfl

/-- A command whose header part does not go on ends as that does (R252). -/
theorem exec_seqDecode_of_rejected {s u : State}
    (h : (((hdrFetch s).andThen checkFormat).andThen checkSelectors).andThen checkSizes = reject u) :
    exec .seqDecode s = .next { u with status := .reject, stage := .idle } := by
  rw [exec_seqDecode, acceptHeader, h]
  rfl

/-- Settles O27: the first failing check rejects, with the header latched where SRC has one. -/
theorem seqDecodeRejectsOtherFormats : Obligations.SeqDecodeRejectsOtherFormats := by
  intro s h
  by_cases hlen : 0x20 ≤ s.src.len
  · have hbad : ¬ Accepted (srcHeader s) s.src.len := h.resolve_left (Nat.not_lt.2 hlen)
    rw [exec_seqDecode_of_rejected (headerChecks_rejected s hlen hbad), if_pos hlen, if_pos hlen]
  · have hshort : hdrFetch s = reject s := hdrFetch_short s (Nat.not_le.1 hlen)
    rw [exec_seqDecode_of_rejected (u := s) (by rw [hshort]; rfl), if_neg hlen, if_neg hlen]

/-- Settles O60: the geometry comes behind the checks and before the first plane. -/
theorem imageAbovePlaneCapIsRefused : Obligations.ImageAbovePlaneCapIsRefused := by
  intro s c hlen hacc hcap hlt
  have hgeo : geometry { s with hdr := srcHeader s, latched := { s.latched with hdr := true } }
      = .refuse .planeOverCap := if_pos ((exceeds_iff _ _).2 ⟨c, hcap, hlt⟩)
  rw [exec_seqDecode, acceptHeader, headerChecks_accepted s hlen hacc, Flow.go_andThen, hgeo]
  rfl

end Sys2Proof.Machine

/-! PROOFS. The statements of 44_channel_scheme_sequencer.md on one plane: what a range decodes to under each VARIANT, and
which fatal error it ends in. -/

namespace Sys2Proof.Machine

/-! ## A build reads nothing of what NODE held before (R139) -/

/-- Two builds with the same roots to merge, of the same frequencies. -/
structure SameRoots (h h' : Htb) : Prop where
  list : h.list = h'.list
  freq : ∀ i ∈ h.list, freqAt h.node i = freqAt h'.node i

/-- Two builds that have merged the same nodes so far. -/
structure SameBuild (h h' : Htb) : Prop extends SameRoots h h' where
  next : h.next = h'.next
  made : ∀ j : Idx9, 256 ≤ j.toNat → j.toNat < h.next.toNat → nodeAt h.node j = nodeAt h'.node j

theorem SameRoots.loadLeaf {h h' : Htb} (hs : SameRoots h h') (freqs : Vector U32 256) (i : Fin 256) :
    SameRoots (loadLeaf freqs i h) (loadLeaf freqs i h') := by
  have hfreq : ∀ x, x = leafIndex i ∨ x ∈ h.list →
      freqAt (Machine.loadLeaf freqs i h).node x = freqAt (Machine.loadLeaf freqs i h').node x := by
    intro x hx
    rw [loadLeaf_freq, loadLeaf_freq]
    split
    case isTrue => rfl
    case isFalse hne => exact hs.freq x (hx.resolve_left hne)
  refine ⟨?_, fun x hx => hfreq x ((mem_insertNode _ _ _ _).1 hx)⟩
  rw [loadLeaf_list, loadLeaf_list, ← hs.list]
  exact insertNode_congr _ _ _ _ hfreq

theorem beforeMerges_same (freqs : Vector U32 256) (h h' : Htb) :
    SameBuild (beforeMerges freqs h) (beforeMerges freqs h') := by
  have fold : ∀ (l : List (Fin 256)) {g g' : Htb}, SameRoots g g' →
      SameRoots (l.foldl (fun g i => loadLeaf freqs i g) g) (l.foldl (fun g i => loadLeaf freqs i g) g') := by
    intro l
    induction l with
    | nil => exact fun hs => hs
    | cons i l ih => exact fun hs => ih (hs.loadLeaf freqs i)
  have hload : SameRoots (loadLeaves freqs h) (loadLeaves freqs h') := fold _ ⟨rfl, by simp⟩
  refine ⟨⟨?_, ?_⟩, ?_, fun j hlo hhi => ?_⟩
  · simpa using hload.list
  · simpa using hload.freq
  · simp
  · exact absurd hhi (by simpa using hlo)

theorem SameBuild.merge {h h' : Htb} (hs : SameBuild h h') (hi : MergeInv h) (hl : 1 < h.list.length) :
    SameBuild (merge h) (merge h') := by
  have hl' : 1 < h'.list.length := hs.list ▸ hl
  obtain ⟨a, b, rest, hlist⟩ := exists_front_pair hl
  have hlist' : h'.list = a :: b :: rest := hs.list ▸ hlist
  have hnext := hi.merge_next hl
  have hbelow : ∀ x ∈ h.list, x ≠ h.next := fun x hx => ne_next_of_lt (hi.below x hx)
  have hnew : nodeAt (Machine.merge h).node h.next = nodeAt (Machine.merge h').node h.next := by
    rw [nodeAt_merge hlist, nodeAt_merge hlist', if_pos rfl, if_pos hs.next, mergedNode, mergedNode,
      hs.freq a (by simp [hlist]), hs.freq b (by simp [hlist])]
  have hold : ∀ x, x ≠ h.next → nodeAt (Machine.merge h).node x = nodeAt h.node x ∧
      nodeAt (Machine.merge h').node x = nodeAt h'.node x := fun x hx =>
    ⟨nodeAt_merge_of_ne hl hx, nodeAt_merge_of_ne hl' (hs.next ▸ hx)⟩
  have hfreq : ∀ x, x = h.next ∨ x ∈ rest →
      freqAt (Machine.merge h).node x = freqAt (Machine.merge h').node x := by
    rintro x (rfl | hx)
    · exact congrArg Node.freq hnew
    · have hx : x ∈ h.list := by simp [hlist, hx]
      obtain ⟨hm, hm'⟩ := hold x (hbelow x hx)
      exact (congrArg Node.freq hm).trans ((hs.freq x hx).trans (congrArg Node.freq hm').symm)
  refine ⟨⟨?list, fun x hx => hfreq x ((mem_merge_list hlist x).1 hx)⟩, ?next, fun j hlo hhi => ?made⟩
  case list =>
    rw [merge_list hlist, merge_list hlist', ← hs.next]
    exact insertNode_congr _ _ _ _ hfreq
  case next =>
    rw [merge_cons h a b rest hlist, merge_cons h' a b rest hlist', hs.next]
  case made =>
    by_cases hj : j = h.next
    · rw [hj]; exact hnew
    · have hlt : j.toNat < h.next.toNat := by have := mt BitVec.eq_of_toNat_eq hj; omega
      obtain ⟨hm, hm'⟩ := hold j hj
      rw [hm, hm', hs.made j hlo hlt]

theorem SameBuild.mergeTimes {k : Nat} {h h' : Htb} (hs : SameBuild h h') (hi : MergeInv h) (hk : k < h.list.length) :
    SameBuild (mergeTimes k h) (mergeTimes k h') := by
  induction k generalizing h h' with
  | zero => exact hs
  | succ k ih =>
    have hl : 1 < h.list.length := by omega
    have hlen := merge_length h hl
    exact ih (hs.merge hi hl) (hi.merge hl) (by omega)

/-- The internal nodes of a finished tree depend on the frequencies alone (R139). -/
theorem nodeAt_buildTree (freqs : Vector U32 256) (h h' : Htb) {j : Idx9} (hlo : 256 ≤ j.toNat) (hhi : j.toNat ≤ 510) :
    nodeAt (buildTree freqs h).node j = nodeAt (buildTree freqs h').node j := by
  have hsame : SameBuild (buildTree freqs h) (buildTree freqs h') := by
    rw [buildTree_eq_mergeTimes, buildTree_eq_mergeTimes]
    exact (beforeMerges_same freqs h h').mergeTimes (beforeMerges_inv freqs h) (by rw [beforeMerges_length]; decide)
  refine hsame.made j hlo ?_
  rw [(buildTree_inv freqs h).2]
  exact Nat.lt_succ_of_le hhi

/-- A walk looks at the internal nodes alone (R153). -/
theorem walkBits_congr {x y : Vector Node 512} (hx : TreeOk x)
    (h : ∀ j : Idx9, 256 ≤ j.toNat → j.toNat ≤ 510 → nodeAt x j = nodeAt y j) {root : Idx9}
    (hroot : 256 ≤ root.toNat ∧ root.toNat ≤ 510) {cur : Idx9} (hcur : 256 ≤ cur.toNat ∧ cur.toNat ≤ 510)
    (room : Nat) (bits : List Bool) : walkBits x root room cur bits = walkBits y root room cur bits := by
  induction bits generalizing room cur with
  | nil => rw [walkBits_no_bit, walkBits_no_bit]
  | cons bit bits ih =>
    rcases Nat.eq_zero_or_pos room with rfl | hroom
    · rw [walkBits_no_room, walkBits_no_room]
    have hchild : childOf x cur bit = childOf y cur bit := by rw [childOf, childOf, h cur hcur.1 hcur.2]
    rcases Nat.lt_or_ge (childOf x cur bit).toNat 256 with hleaf | hnode
    · rw [walkBits_leaf hleaf hroom, walkBits_leaf (hchild ▸ hleaf) hroom, hchild, ih hroot]
    · have hlt := hx.childOf_lt hcur.1 hcur.2 bit
      rw [walkBits_internal hnode hroom, walkBits_internal (hchild ▸ hnode) hroom, ih ⟨hnode, by omega⟩, hchild]

/-- The bytes a walk over a build's tree produces do not depend on what NODE held before (R139). -/
theorem walkBits_buildTree (freqs : Vector U32 256) (h : Htb) (room : Nat) (bits : List Bool) :
    walkBits (buildTree freqs h).node 510#9 room 510#9 bits = walkBits (treeOf freqs) 510#9 room 510#9 bits :=
  walkBits_congr (buildTree_finished freqs h).2 (fun _ hlo hhi => nodeAt_buildTree freqs h blankHtb hlo hhi) (by decide)
    (by decide) room bits

/-! ## Stage one of a plane (R218, R219) -/

/-- A record is its first 0x408 bytes (R102). -/
theorem subHeaderOf_take {range : List Byte} (h : 0x408 ≤ range.length) :
    subHeaderOf (range.take 0x408) = subHeaderOf range := by
  have hbytes : subHeaderBytes (subHeaderOf range) = range.take 0x408 := subHeaderBytes_subHeaderOf h
  rw [← hbytes, ← List.append_nil (subHeaderBytes _), subHeaderOf_subHeaderBytes]

/-- The first `k` bytes of a run of bytes. -/
theorem State.bytesAt_take {s : State} {sp : SpaceId} {a n : Nat} {bs : List Byte} (h : s.bytesAt sp a n = some bs)
    {k : Nat} (hk : k ≤ n) : s.bytesAt sp a k = some (bs.take k) := by
  obtain ⟨hlen, hread⟩ := (s.bytesAt_eq_some sp n a bs).1 h
  refine (s.bytesAt_eq_some sp _ _ _).2 ⟨by rw [List.length_take]; omega, fun i hi => ?_⟩
  rw [List.getElem?_take_of_lt hi, hread i (by omega)]

/-- All of a space that holds `bs`. -/
theorem Holds.bytesAt {s : State} {sp : SpaceId} {bs : List Byte} (h : Holds (s.space sp) bs) :
    s.bytesAt sp 0 bs.length = some bs := by
  obtain ⟨-, hread⟩ := h
  refine (s.bytesAt_eq_some sp _ _ _).2 ⟨rfl, fun i _ => ?_⟩
  rw [Nat.zero_add]
  exact hread i

theorem subhdrFetch_short {s : State} (h : s.seq.psize < 0x408) : subhdrFetch s = raise .badSubHeader 0 0 s := if_pos h

/-- NODE, NEXT and ROOT as a build leaves them (R133, R136). -/
def treeBuilt (s : State) : State :=
  { s with
    htb := { node := (buildTree s.freqs s.htb).node, list := [], next := 511#9 }
    hsw := { s.hsw with root := 510#9 } }

@[simp] theorem treeBuilt_node (s : State) : (treeBuilt s).htb.node = (buildTree s.freqs s.htb).node := by
  simp only [treeBuilt]

@[simp] theorem treeBuilt_root (s : State) : (treeBuilt s).hsw.root = 510#9 := by simp only [treeBuilt]

@[simp] theorem treeBuilt_seq (s : State) : (treeBuilt s).seq = s.seq := by simp only [treeBuilt]

@[simp] theorem treeBuilt_src (s : State) : (treeBuilt s).src = s.src := by simp only [treeBuilt]

@[simp] theorem treeBuilt_sub (s : State) : (treeBuilt s).sub = s.sub := by simp only [treeBuilt]

theorem treeBuilt_walkOk (s : State) : WalkOk (treeBuilt s) where
  root := treeBuilt_root s
  tree := by rw [treeBuilt_node]; exact (buildTree_finished s.freqs s.htb).2

/-- A piece of pseudocode that does not end the command goes on to the next state. -/
theorem Flow.eq_go_of_next {x : Flow} {G : State → Prop} {F : Fault → Prop} (hx : x.Post G (fun _ => False) F)
    {t : State} (h : x.toOutcome = .next t) : x = .go t := by
  cases x with
  | go s => exact congrArg Flow.go (Host.Outcome.next.inj h)
  | stop s => exact hx.elim
  | fault e => cases h
  | refuse r => cases h

/-- A table that is not all zero is built (R133). -/
theorem htbBuild_eq_go {s : State} (hb : Buildable s.freqs) : htbBuild s = .go (treeBuilt s) := by
  obtain ⟨i, hi⟩ := hb
  refine Flow.eq_go_of_next ((htbBuild_post s).mono (fun _ h => h) ?_ fun _ h => h) (htbBuild_of_buildable ⟨i, hi⟩)
  exact fun _ hstop => hi ((allZero_iff s.freqs).1 hstop.1 i)

theorem htbBuild_zeroTable {s : State} (hzero : ∀ i : Fin 256, s.freqs[i] = 0#32) :
    htbBuild s = raise .malformedHuffmanTable 0 0 s := if_pos ((allZero_iff s.freqs).2 hzero)

/-- HLEN of the range `range` as a length (R219). -/
def declaredLength (range : List Byte) : Nat := (subHeaderOf range).decodedLength.toInt.toNat

/-- The bytes that the payload of `range` walks to (R155). -/
def walked (range : List Byte) : List Byte :=
  walkBits (treeOf (subHeaderOf range).freqs) 510#9 (declaredLength range) 510#9 (payloadBits (range.drop 0x408))

/-- What stage one leaves of a range that it does not refuse (R218): MID holds the walked bytes and FILL, and the flag
says whether any are missing. -/
structure StageOneDone (range : List Byte) (s c : State) : Prop where
  rest : c = { s with
    sub := (subLatch (subHeaderOf range) s).sub
    latched := (subLatch (subHeaderOf range) s).latched
    freqs := c.freqs
    htb := c.htb
    hsw := c.hsw
    br := c.br
    mid := c.mid
    trunc := if (walked range).length < declaredLength range then s.trunc ||| (1#8 <<< (2 * s.seq.pch.toNat))
      else s.trunc }
  mid : Holds c.mid (padTo (declaredLength range) (walked range))
  room : (walked range).length ≤ declaredLength range

section
variable {s : State} {range : List Byte}

theorem StageOneDone.hlen {c : State} (h : StageOneDone range s c) : hlenOf c.sub = declaredLength range := by
  rw [h.rest]; rfl

/-- All of MID is the intermediate sequence. -/
theorem StageOneDone.bytesAt {c : State} (h : StageOneDone range s c) :
    c.bytesAt .mid 0 (hlenOf c.sub) = some (padTo (declaredLength range) (walked range)) := by
  have hall := Holds.bytesAt (sp := .mid) (s := c) h.mid
  rw [padTo_length h.room] at hall
  rwa [h.hlen]

variable (hsize : 0x408 ≤ s.seq.psize) (hrange : s.bytesAt .src s.seq.poff s.seq.psize = some range)
include hsize hrange

theorem subhdrFetch_eq : subhdrFetch s = subhdrRead (subHeaderOf range) s := by
  refine (if_neg (Nat.not_lt.2 hsize)).trans ?_
  rw [withBytes_some .src s _ (State.bytesAt_take hrange hsize)]
  exact congrArg (subhdrRead · s) (subHeaderOf_take (by rw [s.bytesAt_length .src hrange]; exact hsize))

/-- Stage one is its three units in program order (R71, R218). -/
theorem stageOne_of_units {a b c : State} (ha : subhdrRead (subHeaderOf range) s = .go a) (hb : htbBuild a = .go b)
    (hc : hufDecode b = .go c) : stageOne s = .go c := by
  rw [stageOne, subhdrFetch_eq hsize hrange, ha, Flow.go_andThen, hb, Flow.go_andThen, hc]

/-- A declared length that is negative or above MID_CAP (R219). -/
theorem stageOne_badLength (hbad : LengthBad (subHeaderOf range) s.caps.midCap) :
    stageOne s = raise .badSubHeader 0 0 (subLatch (subHeaderOf range) s) := by
  rw [stageOne, subhdrFetch_eq hsize hrange, subhdrRead_badLength hsize hbad]
  rfl

variable (hgood : ¬ LengthBad (subHeaderOf range) s.caps.midCap)
include hgood

/-- A table of zeros (R134). -/
theorem stageOne_zeroTable (hzero : ∀ i : Fin 256, (subHeaderOf range).freqs[i] = 0#32) :
    stageOne s = raise .malformedHuffmanTable 0 0 (subTaken (subHeaderOf range) s) := by
  rw [stageOne, subhdrFetch_eq hsize hrange, subhdrRead_good hsize hgood, Flow.go_andThen,
    htbBuild_zeroTable (s := subTaken (subHeaderOf range) s) hzero]
  rfl

/-- SUBHDR, HTB.BUILD and HUF.DECODE each go on from where the one before it left off (R218). -/
theorem stageOne_units (htable : Buildable (subHeaderOf range).freqs) :
    ∃ a b c, subhdrRead (subHeaderOf range) s = .go a ∧ htbBuild a = .go b ∧ hufDecode b = .go c ∧
      StageOneDone range s c := by
  generalize hs : treeBuilt (subTaken (subHeaderOf range) s) = b
  have hpay : b.bytesAt .src (b.seq.poff + Config.subHdrLen) (b.seq.psize - Config.subHdrLen)
      = some (range.drop 0x408) := by
    have hseq : b.seq = s.seq := by rw [← hs, treeBuilt_seq]; rfl
    have hsrc : b.src = s.src := by rw [← hs, treeBuilt_src]; rfl
    rw [State.bytesAt_congr b s .src hsrc, hseq]
    exact State.bytesAt_drop hrange hsize
  obtain ⟨t, hdec, hrest, hp⟩ := hufDecode_produces (hs ▸ treeBuilt_walkOk _) hpay
  refine ⟨_, _, _, subhdrRead_good hsize hgood, (htbBuild_eq_go htable).trans (congrArg Flow.go hs), hdec, ?_⟩
  have hsub : b.sub = (subLatch (subHeaderOf range) s).sub := by rw [← hs, treeBuilt_sub]; rfl
  have hlen : hlenOf b.sub = declaredLength range := by rw [hsub]; rfl
  have hwalk : walkBits b.htb.node 510#9 (declaredLength range) 510#9 (payloadBits (range.drop 0x408))
      = walked range := by
    rw [← hs, treeBuilt_node]
    exact walkBits_buildTree _ s.htb _ _
  rw [hlen, hwalk] at hp
  have hlent : hlenOf t.sub = declaredLength range := by rw [hrest]; exact hlen
  refine ⟨?_, ?_, hlent ▸ hp.room⟩
  · rw [hufReturn_eq, hp.hprod, hlent, hrest, ← hs]
    rfl
  · rw [hufEnd_mid, walkReturn_mid, ← hlent]
    exact hp.mid

theorem stageOne_done (htable : Buildable (subHeaderOf range).freqs) :
    ∃ c, stageOne s = .go c ∧ StageOneDone range s c := by
  obtain ⟨a, b, c, ha, hb, hc, hdone⟩ := stageOne_units hsize hrange hgood htable
  exact ⟨c, stageOne_of_units hsize hrange ha hb hc, hdone⟩

end

/-! ## The final stage of a plane (R173, R193, R218) -/

/-- What RLE.EXPAND leaves of the stream `stream` (R173, R177). -/
structure RunsExpanded (stream : List Byte) (s t : State) : Prop where
  rest : t = { s with
    plane := t.plane
    rle := t.rle
    trunc := if (expandRuns stream.length stream s.drv.n).length < s.drv.n
      then s.trunc ||| (1#8 <<< (2 * s.seq.pch.toNat + 1)) else s.trunc }
  room : (expandRuns stream.length stream s.drv.n).length ≤ s.drv.n
  len : t.plane.len = s.plane.len
  read : ∀ a, t.plane.read a = if a < (expandRuns stream.length stream s.drv.n).length
    then (expandRuns stream.length stream s.drv.n)[a]? else s.plane.read a

/-- RLE.EXPAND never ends the command (R173). -/
theorem rleExpand_neverEnds (sp : RunSource) (base budget : Nat) (s : State) :
    (rleExpand sp base budget s).Post (fun _ => True) (fun _ => False) fun _ => True :=
  Flow.Post.andThen (G := fun _ => True)
    ((rleLoop_post _ _).mono (fun _ _ => trivial) (fun _ h => h) fun _ _ => trivial) fun _ _ => trivial

/-- RLE.EXPAND over a stream inside its space goes on (R173). -/
theorem rleExpand_goes {sp : RunSource} {base budget : Nat} {s : State} {stream : List Byte}
    (hstream : s.bytesAt (runSpace sp) base budget = some stream) (hdest : s.drv.n ≤ s.plane.len) :
    ∃ t, rleExpand sp base budget s = .go t ∧ RunsExpanded stream s t := by
  obtain rfl := s.bytesAt_length _ hstream
  obtain ⟨m, r, out, rfl, hnext, -, -, -, hroom, hlen, hread⟩ :=
    rleExpandDecodesItsStream sp base _ s stream hstream hdest
  exact ⟨_, Flow.eq_go_of_next (rleExpand_neverEnds sp base _ s) hnext, rfl, hroom, hlen, hread⟩

/-- What a unit has put into a plane of FILL, and FILL behind it (R217). -/
theorem holds_padTo_of_read {m : Memory} {n : Nat} {out : List Byte} (hroom : out.length ≤ n) (hlen : m.len = n)
    (hread : ∀ a, m.read a = if a < out.length then out[a]? else (Memory.filled n).read a) : Holds m (padTo n out) := by
  refine ⟨by rw [hlen, padTo_length hroom], fun a => ?_⟩
  rw [hread, Memory.read_filled]
  by_cases hout : a < out.length
  · rw [if_pos hout, padTo_getElem?_left n hout]
  · rw [if_neg hout]
    by_cases ha : a < n
    · rw [if_pos ha, padTo_getElem?_right (Nat.not_lt.1 hout) ha]
    · rw [if_neg ha, List.getElem?_eq_none (by rw [padTo_length hroom]; exact Nat.not_lt.1 ha)]

/-- What LZ.EXPAND leaves when it has produced `out` (R190, R193), but for how it ends. -/
structure TokensExpanded (out : List Byte) (s t : State) : Prop where
  rest : t = { s with
    plane := t.plane
    lz := t.lz
    sub := t.sub
    latched := { t.latched with hdr := s.latched.hdr }
    trunc := t.trunc
    err := t.err
    status := t.status
    stage := t.stage }
  plane : Holds t.plane (padTo s.drv.n out)

/-- LZ.EXPAND is LZ.INIT, the loop and the end (R193). -/
theorem lzExpand_eq (s : State) :
    lzExpand s = (lzLoop (hlenOf s.sub - 12) (lzInit (midHeader s) s)).andThen fun t => .go (lzEnd t) := rfl

/-- What LZ.EXPAND makes of all of MID: it goes on, or ends the command in the fatal entry (R193, R195, R198). -/
theorem lzExpand_ends {s : State} {bytes : List Byte} (hmid : s.bytesAt .mid 0 (hlenOf s.sub) = some bytes)
    (hplane : s.plane = Memory.filled s.drv.n) :
    match expandTokens bytes.length (bytes.getD 8 0) (bytes.drop 12) s.drv.n [] with
    | .done out => ∃ t, lzExpand s = .go t ∧ TokensExpanded out s t ∧ t.status = s.status ∧ t.stage = s.stage ∧
        t.err = s.err ∧
        t.trunc = if out.length < s.drv.n then s.trunc ||| (1#8 <<< (2 * s.seq.pch.toNat + 1)) else s.trunc
    | .bad out off => ∃ t, lzExpand s = .stop t ∧ TokensExpanded out s t ∧ t.status = .error ∧ t.stage = .idle ∧
        t.err = { cause := .invalidBackReference, plane := s.seq.pch, pos := out.length, off := off } ∧
        t.trunc = s.trunc := by
  obtain ⟨m, l, sub, latched, hsub, hlatched, hend⟩ := lzExpandDecodesItsStream s bytes hmid hplane
  have hhdr : latched.hdr = s.latched.hdr := by rw [hlatched]; split <;> rfl
  have hdec := lzExpand_decodes hmid hplane
  cases hout : expandTokens bytes.length (bytes.getD 8 0) (bytes.drop 12) s.drv.n [] with
  | done out =>
    rw [hout] at hend hdec
    obtain ⟨hnext, -, -, hholds⟩ := hend
    obtain ⟨u, hgo, -⟩ := hdec
    have hexec : lzExpand s = .go (lzEnd u) := by rw [lzExpand_eq, hgo, Flow.go_andThen]
    have hu : lzEnd u = _ := Host.Outcome.next.inj ((congrArg Flow.toOutcome hexec).symm.trans hnext)
    refine ⟨lzEnd u, hexec, ⟨?_, by rw [hu]; exact hholds⟩, ?_, ?_, ?_, ?_⟩ <;> rw [hu]
    simp only [← hhdr]
  | bad out off =>
    rw [hout] at hend hdec
    obtain ⟨hnext, -, hholds⟩ := hend
    obtain ⟨u, hstop, -⟩ := hdec
    have hexec : lzExpand s = .stop u := by rw [lzExpand_eq, hstop, Flow.stop_andThen]
    have hu : u = _ := Host.Outcome.next.inj ((congrArg Flow.toOutcome hexec).symm.trans hnext)
    refine ⟨u, hexec, ⟨?_, by rw [hu]; exact hholds⟩, ?_, ?_, ?_, ?_⟩ <;> rw [hu]
    simp only [← hhdr]

/-! ## The VARIANT selectors (O24, O25, O26, O58) -/

/-- Settles O24: VARIANT.RLE is RLE.EXPAND over the range. -/
theorem variantRleExpandsTheRange : Obligations.VariantRleExpandsTheRange := by
  intro s range hrange hdest
  obtain ⟨t, hgo, ht⟩ := rleExpand_goes (sp := .src) hrange hdest
  refine ⟨t.plane, t.rle, _, by rw [← s.bytesAt_length .src hrange], ?_, ht.len, ht.read⟩
  rw [← ht.rest]
  exact congrArg Flow.toOutcome hgo

section
variable {s : State} {range : List Byte} (hsize : 0x408 ≤ s.seq.psize)
  (hrange : s.bytesAt .src s.seq.poff s.seq.psize = some range)
include hsize hrange

/-- The units of stage one as instructions, and what follows them in a pipeline (R218). -/
theorem stageOne_pipeline (hgood : ¬ LengthBad (subHeaderOf range) s.caps.midCap)
    (htable : Buildable (subHeaderOf range).freqs) :
    ∃ a b c, exec (.subhdr (subHeaderOf range)) s = .next a ∧ exec .htbBuild a = .next b ∧
      exec .hufDecode b = .next c ∧ stageOne s = .go c ∧ StageOneDone range s c := by
  obtain ⟨a, b, c, ha, hb, hc, hdone⟩ := stageOne_units hsize hrange hgood htable
  exact ⟨a, b, c, congrArg Flow.toOutcome ha, congrArg Flow.toOutcome hb, congrArg Flow.toOutcome hc,
    stageOne_of_units hsize hrange ha hb hc, hdone⟩

end

/-- Settles O25: stage one goes on, and so does RLE.EXPAND over MID. -/
theorem variantHufRleRunsItsPipeline : Obligations.VariantHufRleRunsItsPipeline := by
  rintro s range t hsize hrange rfl hnn hcap htable hdest
  obtain ⟨a, b, c, ha, hb, hc, hone, hdone⟩ := stageOne_pipeline hsize hrange (not_lengthBad hnn hcap) htable
  have hdest : c.drv.n ≤ c.plane.len := by rw [hdone.rest]; exact hdest
  obtain ⟨d, hgo, hd⟩ := rleExpand_goes (sp := .mid) hdone.bytesAt hdest
  have hlast : exec (.rleExpand .mid 0 (declaredLength range)) c = .next d :=
    by rw [← hdone.hlen]; exact congrArg Flow.toOutcome hgo
  have hmid : c.mid.len = (subHeaderOf range).decodedLength.toInt.toNat := hdone.mid.1.trans (padTo_length hdone.room)
  refine ⟨a, b, c, d, ha, hb, hc, hlast, ?pipeline, ?status, ?stage, ?err, ?plane, ?mid⟩
  case pipeline =>
    show (planeHufRle s).toOutcome = _
    rw [planeHufRle, hone, Flow.go_andThen, hgo, Flow.go_toOutcome]
  case plane => rw [hd.len, hdone.rest]
  case mid => rw [hd.rest]; exact hmid
  all_goals rw [hd.rest, hdone.rest]

theorem planeHufLz_of_stageOne {s c : State} (hone : stageOne s = .go c) :
    exec .variantHufLz s = (lzExpand c).toOutcome := by
  show (planeHufLz s).toOutcome = _
  rw [planeHufLz, hone, Flow.go_andThen]

/-- Settles O26: stage one goes on, and so does LZ.EXPAND over MID. -/
theorem variantHufLzRunsItsPipeline : Obligations.VariantHufLzRunsItsPipeline := by
  rintro s range mid out t hsize hrange rfl hnn hcap htable hplane rfl hout
  rw [walkBits_buildTree] at hout ⊢
  obtain ⟨a, b, c, ha, hb, hc, hone, hdone⟩ := stageOne_pipeline hsize hrange (not_lengthBad hnn hcap) htable
  have hn : c.drv = s.drv := by rw [hdone.rest]
  have hfill : c.plane = Memory.filled c.drv.n := by rw [hn, ← hplane, hdone.rest]
  have hlz := lzExpand_ends hdone.bytesAt hfill
  rw [hn] at hlz
  have hout : expandTokens (padTo (declaredLength range) (walked range)).length
    ((padTo (declaredLength range) (walked range)).getD 8 0) ((padTo (declaredLength range) (walked range)).drop 12)
    s.drv.n [] = .done out := hout
  rw [hout] at hlz
  obtain ⟨d, hgo, htok, hstatus, hstage, herr, -⟩ := hlz
  have hd : exec .lzExpand c = .next d := congrArg Flow.toOutcome hgo
  have hdmid : d.mid = c.mid := by rw [htok.rest]
  refine ⟨a, b, c, d, ha, hb, hc, hd, (planeHufLz_of_stageOne hone).trans hd, hstatus.trans ?_, hstage.trans ?_,
    herr.trans ?_, hdmid ▸ hdone.mid, hn ▸ htok.plane⟩ <;> rw [hdone.rest]

/-- What either Huffman selector does is stage one first (R218). -/
theorem exec_huffman {i : Instr} (hi : i = .variantHufRle ∨ i = .variantHufLz) (s : State) :
    ∃ f, exec i s = ((stageOne s).andThen f).toOutcome := by
  rcases hi with rfl | rfl
  · exact ⟨_, rfl⟩
  · exact ⟨_, rfl⟩

/-- A fatal entry of stage one is the selector's (R256). -/
theorem exec_huffman_of_raise {i : Instr} (hi : i = .variantHufRle ∨ i = .variantHufLz) {s u : State} {cause : ErrCause}
    (h : stageOne s = raise cause 0 0 u) :
    exec i s = .next { u with
      err := { cause := cause, plane := u.seq.pch, pos := 0, off := 0 }, status := .error, stage := .idle } := by
  obtain ⟨f, hf⟩ := exec_huffman hi s
  rw [hf, h]
  rfl

/-- Settles O58: stage one's three fatal entries in its order, and then LZ.EXPAND's. -/
theorem variantSelectorsRaise : Obligations.VariantSelectorsRaise := by
  intro s i hi
  refine ⟨fun hshort => exec_huffman_of_raise hi (by rw [stageOne, subhdrFetch_short hshort]; rfl), ?_⟩
  rintro range t hlen hsize hrange rfl rfl
  refine ⟨fun hbad => exec_huffman_of_raise hi (stageOne_badLength hsize hrange hbad),
    fun hnn hcap => ⟨fun hzero => ?_, ?_⟩⟩
  · exact exec_huffman_of_raise hi (stageOne_zeroTable hsize hrange (not_lengthBad hnn hcap) hzero)
  rintro htable rfl hplane prod mid out off rfl rfl hout
  obtain ⟨c, hone, hdone⟩ := stageOne_done hsize hrange (not_lengthBad hnn hcap) htable
  have hn : c.drv = s.drv := by rw [hdone.rest]
  have hfill : c.plane = Memory.filled c.drv.n := by rw [hn, ← hplane, hdone.rest]
  have hlz := lzExpand_ends hdone.bytesAt hfill
  rw [hn] at hlz
  have hout : expandTokens (padTo (declaredLength range) (walked range)).length
    ((padTo (declaredLength range) (walked range)).getD 8 0) ((padTo (declaredLength range) (walked range)).drop 12)
    s.drv.n [] = .bad out off := hout
  rw [hout] at hlz
  obtain ⟨u, hstop, htok, hstatus, hstage, herr, htrunc⟩ := hlz
  refine ⟨u, (planeHufLz_of_stageOne hone).trans (congrArg Flow.toOutcome hstop), hstatus, hstage, ?_, ?_, ?_,
    hn ▸ htok.plane, ?_, ?_, ?_⟩
  · rw [herr, hdone.rest]
  · rw [htrunc, hdone.rest]; rfl
  · rw [htok.rest]; exact hdone.mid
  all_goals rw [htok.rest, hdone.rest]

/-! ## The flags of truncation (R36) -/

/-- TRUNC with the flag of channel `ch` and stage `st` set if that stage was truncated. -/
def raiseFlag (ch : Chan) (st : Nat) (cut : Bool) (x : BitVec 8) : BitVec 8 :=
  if cut then x ||| (1#8 <<< truncIndex ch st) else x

/-- TRUNC after both stages of channel `ch`. -/
def raiseFlags (ch : Chan) (cut1 cut2 : Bool) (x : BitVec 8) : BitVec 8 :=
  raiseFlag ch 2 cut2 (raiseFlag ch 1 cut1 x)

theorem raiseFlag_decide (ch : Chan) (st : Nat) (p : Prop) [Decidable p] (x : BitVec 8) :
    raiseFlag ch st (decide p) x = if p then x ||| (1#8 <<< truncIndex ch st) else x := by
  simp only [raiseFlag, decide_eq_true_eq]

/-- The flags of two stages of two channels are one only when stage and channel are (R36). -/
theorem truncFlag_raiseFlag (ch ch' : Chan) {st st' : Nat} (hst : st = 1 ∨ st = 2) (hst' : st' = 1 ∨ st' = 2)
    (cut : Bool) (x : BitVec 8) :
    truncFlag (raiseFlag ch st cut x) ch' st' = (truncFlag x ch' st' || (cut && decide (ch' = ch ∧ st' = st))) := by
  have hch := ch.isLt
  have hch' := ch'.isLt
  have heq : ch' = ch ↔ ch'.toNat = ch.toNat := BitVec.toNat_inj.symm
  cases cut with
  | false => simp [raiseFlag]
  | true =>
    simp only [raiseFlag, truncFlag, truncIndex, if_true, BitVec.getLsbD_or, BitVec.getLsbD_shiftLeft,
      BitVec.getLsbD_one, Bool.true_and]
    congr 1
    rw [Bool.eq_iff_iff]
    simp only [Bool.and_eq_true, decide_eq_true_eq, Bool.not_eq_true', decide_eq_false_iff_not, heq]
    omega

/-- What the stages of channel `ch` set is `FlagsSet` of that channel (R36). -/
theorem flagsSet_raiseFlags {s t : State} {ch : Chan} {cut1 cut2 : Bool}
    (h : t.trunc = raiseFlags ch cut1 cut2 s.trunc) : FlagsSet s t ch cut1 cut2 := by
  constructor <;> rw [h, raiseFlags, truncFlag_raiseFlag _ _ (by simp) (by simp),
    truncFlag_raiseFlag _ _ (by simp) (by simp)] <;> simp

/-- The other channels' flags stay (R36). -/
theorem flagsSet_raiseFlags_other {s t : State} {ch ch' : Chan} (hne : ch' ≠ ch) {cut1 cut2 : Bool}
    (h : t.trunc = raiseFlags ch cut1 cut2 s.trunc) : FlagsSet s t ch' false false := by
  constructor <;> rw [h, raiseFlags, truncFlag_raiseFlag _ _ (by simp) (by simp),
    truncFlag_raiseFlag _ _ (by simp) (by simp)] <;> simp [hne]

theorem FlagsSet.refl (s : State) (ch : Chan) : FlagsSet s s ch false false :=
  ⟨(Bool.or_false _).symm, (Bool.or_false _).symm⟩

/-- Flags that one part of a command sets and the next part leaves alone. -/
theorem FlagsSet.then_kept {s t u : State} {ch : Chan} {cut1 cut2 : Bool} (h : FlagsSet s t ch cut1 cut2)
    (k : FlagsSet t u ch false false) : FlagsSet s u ch cut1 cut2 := by
  obtain ⟨h1, h2⟩ := h
  obtain ⟨k1, k2⟩ := k
  rw [Bool.or_false] at k1 k2
  exact ⟨k1.trans h1, k2.trans h2⟩

/-- Flags that one part of a command leaves alone and the next sets. -/
theorem FlagsSet.kept_then {s t u : State} {ch : Chan} {cut1 cut2 : Bool} (h : FlagsSet s t ch false false)
    (k : FlagsSet t u ch cut1 cut2) : FlagsSet s u ch cut1 cut2 := by
  obtain ⟨h1, h2⟩ := h
  obtain ⟨k1, k2⟩ := k
  rw [Bool.or_false] at h1 h2
  exact ⟨by rw [k1, h1], by rw [k2, h2]⟩

/-! ## DECODE_PLANE as a function of its range (R218) -/

/-- What DECODE_PLANE never changes: the header, the geometry, the container, PIX, the plan's registers and the
capacities. -/
structure PlaneKept (s t : State) : Prop where
  hdr : t.hdr = s.hdr
  drv : t.drv = s.drv
  src : t.src = s.src
  pix : t.pix = s.pix
  seq : t.seq = s.seq
  caps : t.caps = s.caps
  latched : t.latched.hdr = s.latched.hdr

theorem PlaneKept.trans {s t u : State} (h : PlaneKept s t) (k : PlaneKept t u) : PlaneKept s u :=
  ⟨k.hdr.trans h.hdr, k.drv.trans h.drv, k.src.trans h.src, k.pix.trans h.pix, k.seq.trans h.seq, k.caps.trans h.caps,
    k.latched.trans h.latched⟩

theorem StageOneDone.kept {range : List Byte} {s c : State} (h : StageOneDone range s c) : PlaneKept s c := by
  constructor <;> rw [h.rest]
  rfl

theorem RunsExpanded.kept {stream : List Byte} {s t : State} (h : RunsExpanded stream s t) : PlaneKept s t := by
  constructor <;> rw [h.rest]

theorem TokensExpanded.kept {out : List Byte} {s t : State} (h : TokensExpanded out s t) : PlaneKept s t := by
  constructor <;> rw [h.rest]

/-- A piece of a plane's pseudocode that began in `s` ends as an outcome says: it goes on with the plane's bytes in PLANE,
or takes the fatal entry; the flags of the truncated stages are set (R36, R218, R256). -/
def Flow.DecodesTo (x : Flow) (s : State) : PlaneOutcome → Prop
  | .done out cut1 cut2 =>
    ∃ t, x = .go t ∧ PlaneKept s t ∧ t.trunc = raiseFlags s.seq.pch cut1 cut2 s.trunc ∧ Holds t.plane out
  | .failed cause pos off cut1 =>
    ∃ t, x = .stop t ∧ PlaneKept s t ∧ t.trunc = raiseFlags s.seq.pch cut1 false s.trunc ∧
      t.err = { cause := cause, plane := s.seq.pch, pos := pos, off := off } ∧ t.status = .error ∧ t.stage = .idle

/-- The fatal entry before any flag is set (R256). -/
theorem raise_decodesTo (cause : ErrCause) (pos : Nat) (off : Byte) {s u : State} (h : PlaneKept s u)
    (htrunc : u.trunc = s.trunc) : (raise cause pos off u).DecodesTo s (.failed cause pos off false) :=
  ⟨_, rfl, ⟨h.hdr, h.drv, h.src, h.pix, h.seq, h.caps, h.latched⟩, htrunc, by rw [h.seq], rfl, rfl⟩

/-- RLE.EXPAND into a plane of FILL, after a stage one that was truncated or not (R173). -/
theorem rleExpand_decodesTo {sp : RunSource} {base budget : Nat} {s c : State} {stream : List Byte} {cut1 : Bool}
    (hc : PlaneKept s c) (htrunc : c.trunc = raiseFlag s.seq.pch 1 cut1 s.trunc)
    (hplane : c.plane = Memory.filled s.drv.n) (hstream : c.bytesAt (runSpace sp) base budget = some stream) :
    (rleExpand sp base budget c).DecodesTo s (.ofBytes s.drv.n cut1 (expandRuns stream.length stream s.drv.n)) := by
  obtain ⟨t, hgo, ht⟩ := rleExpand_goes hstream (by rw [hplane, hc.drv]; exact le_rfl)
  have hn : c.drv.n = s.drv.n := by rw [hc.drv]
  have hroom := ht.room
  have hread := ht.read
  rw [hn] at hroom
  rw [hn, hplane] at hread
  refine ⟨t, hgo, hc.trans ht.kept, ?_, holds_padTo_of_read hroom (by rw [ht.len, hplane]; rfl) hread⟩
  rw [raiseFlags, ← htrunc, raiseFlag_decide, ht.rest, hn, hc.seq]
  rfl

/-- LZ.EXPAND into a plane of FILL, after a stage one that was truncated or not (R193). -/
theorem lzExpand_decodesTo {s c : State} {mid : List Byte} {cut1 : Bool} (hc : PlaneKept s c)
    (htrunc : c.trunc = raiseFlag s.seq.pch 1 cut1 s.trunc) (hplane : c.plane = Memory.filled s.drv.n)
    (hmid : c.bytesAt .mid 0 (hlenOf c.sub) = some mid) :
    (lzExpand c).DecodesTo s (expandMid 0xA2#8 s.drv.n cut1 mid) := by
  have hn : c.drv.n = s.drv.n := by rw [hc.drv]
  have hlz := lzExpand_ends hmid (hplane.trans (by rw [hn]))
  rw [hn] at hlz
  rw [expandMid, if_pos rfl]
  cases hout : expandTokens mid.length (mid.getD 8 0) (mid.drop 12) s.drv.n [] with
  | done out =>
    rw [hout] at hlz
    obtain ⟨t, hgo, ht, -, -, -, hflag⟩ := hlz
    refine ⟨t, hgo, hc.trans ht.kept, ?_, hn ▸ ht.plane⟩
    rw [raiseFlags, ← htrunc, raiseFlag_decide, hflag, hc.seq]
    rfl
  | bad out off =>
    rw [hout] at hlz
    obtain ⟨t, hstop, ht, hstatus, hstage, herr, hflag⟩ := hlz
    exact ⟨t, hstop, hc.trans ht.kept, hflag.trans htrunc, by rw [herr, hc.seq], hstatus, hstage⟩

/-- DECODE_PLANE under the two Huffman variants: stage one, then the expansion the variant selects (R218). -/
theorem decodePlane_huffman {s : State} (h : s.hdr.variant ≠ 0x01#8) :
    decodePlane s = (stageOne s).andThen fun c =>
      if s.hdr.variant = 0xA2#8 then lzExpand c else rleExpand .mid 0 (hlenOf c.sub) c := by
  refine (if_neg h).trans ?_
  by_cases hlz : s.hdr.variant = 0xA2#8
  · simp only [if_pos hlz]
    exact if_pos hlz
  · simp only [if_neg hlz]
    exact if_neg hlz

/-! The five branches of `planeOutcome` (R218, R219, R259 (c)). -/

section
variable {v : Byte} {cap : Option Nat} {n : Nat} {range : List Byte}

theorem planeOutcome_rle : planeOutcome 0x01#8 cap n range = .ofBytes n false (expandRuns range.length range n) :=
  if_pos rfl

variable (hv : v ≠ 0x01#8)
include hv

theorem planeOutcome_short (h : range.length < 0x408) : planeOutcome v cap n range = .failed .badSubHeader 0 0 false :=
  (if_neg hv).trans (if_pos h)

variable (hsize : ¬ range.length < 0x408)
include hsize

theorem planeOutcome_badLength (hbad : LengthBad (subHeaderOf range) cap) :
    planeOutcome v cap n range = .failed .badSubHeader 0 0 false :=
  (if_neg hv).trans ((if_neg hsize).trans (if_pos ((lengthBad_iff _ _).1 hbad)))

variable (hgood : ¬ LengthBad (subHeaderOf range) cap)
include hgood

theorem planeOutcome_zeroTable (hzero : ∀ i : Fin 256, (subHeaderOf range).freqs[i] = 0#32) :
    planeOutcome v cap n range = .failed .malformedHuffmanTable 0 0 false :=
  (if_neg hv).trans ((if_neg hsize).trans ((if_neg (mt (lengthBad_iff _ _).2 hgood)).trans (if_pos hzero)))

theorem planeOutcome_expandMid (htable : Buildable (subHeaderOf range).freqs) :
    planeOutcome v cap n range = expandMid v n (decide ((walked range).length < declaredLength range))
      (padTo (declaredLength range) (walked range)) :=
  (if_neg hv).trans ((if_neg hsize).trans ((if_neg (mt (lengthBad_iff _ _).2 hgood)).trans
    (if_neg (not_forall.2 htable))))
end

/-- DECODE_PLANE into a plane of FILL ends as `planeOutcome` of its range says (R218, R219, R259 (c)). -/
theorem decodePlane_decodesTo {s : State} {range : List Byte} (hplane : s.plane = Memory.filled s.drv.n)
    (hrange : s.bytesAt .src s.seq.poff s.seq.psize = some range) :
    (decodePlane s).DecodesTo s (planeOutcome s.hdr.variant s.caps.midCap s.drv.n range) := by
  have hlen : range.length = s.seq.psize := s.bytesAt_length .src hrange
  have hself : PlaneKept s s := ⟨rfl, rfl, rfl, rfl, rfl, rfl, rfl⟩
  by_cases hrle : s.hdr.variant = 0x01#8
  · rw [hrle, planeOutcome_rle, show decodePlane s = planeRle s from if_pos hrle]
    exact rleExpand_decodesTo (cut1 := false) hself rfl hplane hrange
  rw [decodePlane_huffman hrle]
  by_cases hshort : range.length < 0x408
  · rw [planeOutcome_short hrle hshort, stageOne, subhdrFetch_short (hlen ▸ hshort)]
    exact raise_decodesTo _ _ _ hself rfl
  have hsize : 0x408 ≤ s.seq.psize := hlen ▸ Nat.not_lt.1 hshort
  by_cases hbad : LengthBad (subHeaderOf range) s.caps.midCap
  · rw [planeOutcome_badLength hrle hshort hbad, stageOne_badLength hsize hrange hbad]
    exact raise_decodesTo _ _ _ ⟨rfl, rfl, rfl, rfl, rfl, rfl, rfl⟩ rfl
  by_cases htable : Buildable (subHeaderOf range).freqs
  case neg =>
    have hzero : ∀ i : Fin 256, (subHeaderOf range).freqs[i] = 0#32 := fun i => not_not.1 (not_exists.1 htable i)
    rw [planeOutcome_zeroTable hrle hshort hbad hzero, stageOne_zeroTable hsize hrange hbad hzero]
    exact raise_decodesTo _ _ _ ⟨rfl, rfl, rfl, rfl, rfl, rfl, rfl⟩ rfl
  obtain ⟨c, hone, hdone⟩ := stageOne_done hsize hrange hbad htable
  have htrunc : c.trunc = raiseFlag s.seq.pch 1 (decide ((walked range).length < declaredLength range)) s.trunc := by
    rw [raiseFlag_decide, hdone.rest]; rfl
  have hfill : c.plane = Memory.filled s.drv.n := by rw [hdone.rest]; exact hplane
  rw [planeOutcome_expandMid hrle hshort hbad htable, hone, Flow.go_andThen]
  by_cases hlz : s.hdr.variant = 0xA2#8
  · rw [if_pos hlz, hlz]
    exact lzExpand_decodesTo hdone.kept htrunc hfill hdone.bytesAt
  · rw [if_neg hlz, expandMid, if_neg hlz]
    exact rleExpand_decodesTo hdone.kept htrunc hfill hdone.bytesAt

end Sys2Proof.Machine

/-! PROOFS. The statements of 44_channel_scheme_sequencer.md on the whole command: how it ends, what it puts into PIX, and
which fields of the header do not matter. -/

namespace Sys2Proof.Machine

/-! ## Memories that read alike (R40) -/

theorem lookup_unlisted {cells : List Host.Cell} {a : Nat} (h : ∀ c ∈ cells, c.1 ≠ a) :
    Memory.lookup cells a = Config.fill := by
  induction cells with
  | nil => rfl
  | cons c rest ih =>
    rw [Memory.lookup, if_neg (h c (by simp))]
    exact ih fun d hd => h d (by simp [hd])

/-- The first listed offset is the lowest that does not read as FILL. -/
theorem head_of_lookup {c : Host.Cell} {rest cells : List Host.Cell} (hc : c.2 ≠ Config.fill)
    (hsame : ∀ a, Memory.lookup cells a = Memory.lookup (c :: rest) a) : ¬ ∀ d ∈ cells, c.1 < d.1 := fun hbelow =>
  hc (by simpa [Memory.lookup] using (hsame c.1).symm.trans (lookup_unlisted fun d hd => Nat.ne_of_gt (hbelow d hd)))

/-- A listing in canonical form is determined by what it reads as. -/
theorem cells_ext {x y : List Host.Cell} (hx : x.Pairwise (fun c d => c.1 < d.1))
    (hy : y.Pairwise (fun c d => c.1 < d.1)) (hx' : ∀ c ∈ x, c.2 ≠ Config.fill) (hy' : ∀ c ∈ y, c.2 ≠ Config.fill)
    (h : ∀ a, Memory.lookup x a = Memory.lookup y a) : x = y := by
  induction x generalizing y with
  | nil =>
    cases y with
    | nil => rfl
    | cons d rest =>
      exact absurd (by simp) (head_of_lookup (hy' d (by simp)) h)
  | cons c x ih =>
    obtain ⟨hcx, hxrest⟩ := List.pairwise_cons.1 hx
    cases y with
    | nil => exact absurd (by simp) (head_of_lookup (hx' c (by simp)) fun a => (h a).symm)
    | cons d y =>
      obtain ⟨hdy, hyrest⟩ := List.pairwise_cons.1 hy
      have hle : ¬ c.1 < d.1 := fun hlt => head_of_lookup (hx' c (by simp)) (fun a => (h a).symm)
        (by simpa [hlt] using fun a b hm => hlt.trans (hdy (a, b) hm))
      have hge : ¬ d.1 < c.1 := fun hlt => head_of_lookup (hy' d (by simp)) h
        (by simpa [hlt] using fun a b hm => hlt.trans (hcx (a, b) hm))
      have hkey : c.1 = d.1 := by omega
      have hcd : c = d := Prod.ext hkey (by simpa [Memory.lookup, hkey] using h c.1)
      subst hcd
      congr 1
      refine ih hxrest hyrest (fun e he => hx' e (by simp [he])) (fun e he => hy' e (by simp [he])) fun a => ?_
      by_cases ha : c.1 = a
      · rw [lookup_unlisted fun d hd => Nat.ne_of_gt (ha ▸ hcx d hd),
          lookup_unlisted fun d hd => Nat.ne_of_gt (ha ▸ hdy d hd)]
      · simpa [Memory.lookup, ha] using h a

/-- Two spaces in canonical form that read alike at every offset are one (R40). -/
theorem Memory.ext_read {m m' : Memory} (hm : m.wf) (hm' : m'.wf) (h : ∀ a, m.read a = m'.read a) : m = m' := by
  obtain ⟨hrise, hcell⟩ := hm
  obtain ⟨hrise', hcell'⟩ := hm'
  have hlen : m.len = m'.len := by
    have hlt : ∀ a, a < m.len ↔ a < m'.len := fun a => by rw [← Memory.read_isSome, ← Memory.read_isSome, h a]
    have := hlt m.len
    have := hlt m'.len
    omega
  have hcells : m.cells = m'.cells := by
    refine cells_ext hrise hrise' (fun c hc => (hcell c hc).2) (fun c hc => (hcell' c hc).2) fun a => ?_
    by_cases ha : a < m.len
    · have := h a
      rwa [Memory.read_lt m ha, Memory.read_lt m' (hlen ▸ ha), Option.some.injEq] at this
    · rw [lookup_unlisted fun c hc => Nat.ne_of_lt ((hcell c hc).1.trans_le (Nat.not_lt.1 ha)),
        lookup_unlisted fun c hc => Nat.ne_of_lt ((hcell' c hc).1.trans_le (hlen ▸ Nat.not_lt.1 ha))]
  cases m
  cases m'
  simp_all

/-! ## The placement of a plane (R242, R243) -/

/-- The bytes of the pixels in `P` have gone from PLANE to PIX, rows reversed, and no other byte of PIX has changed. -/
structure Placed (P : Nat → Nat → Prop) (s t : State) : Prop where
  frame : PilFrame s t
  lane : ∀ r c, P r c → t.pix.read (pixOffset s.drv s.seq.pch r c) = s.plane.read (planeOffset s.drv r c)
  other : ∀ a, (∀ r c, P r c → a ≠ pixOffset s.drv s.seq.pch r c) → t.pix.read a = s.pix.read a

/-- Bytes of one channel of two pixels never share an offset (R44). -/
theorem pixOffset_inj {d : Derived} {ch : Chan} (hch : ch.toNat < d.bypp) {r r' c c' : Nat} (hc : c < d.width)
    (hc' : c' < d.width) (h : pixOffset d ch r c = pixOffset d ch r' c') : r = r' ∧ c = c' :=
  pixel_inj hc hc' (lane_inj hch hch h).1

theorem Placed.none (s : State) {P : Nat → Nat → Prop} (hP : ∀ r c, ¬ P r c) : Placed P s s :=
  ⟨PilFrame.refl s, fun r c h => absurd h (hP r c), fun _ _ => rfl⟩

/-- Some pixels, then others. -/
theorem Placed.trans {P Q R : Nat → Nat → Prop} {s t u : State} (h : Placed P s t) (k : Placed Q t u)
    (hch : s.seq.pch.toNat < s.drv.bypp) (hR : ∀ r c, R r c ↔ P r c ∨ Q r c) (hw : ∀ r c, R r c → c < s.drv.width) :
    Placed R s u := by
  have kother := k.other
  have klane := k.lane
  rw [h.frame.drv, h.frame.pch] at kother klane
  refine ⟨h.frame.trans k.frame, fun r c hrc => ?_, fun a ha => ?_⟩
  · by_cases hq : Q r c
    · rw [klane r c hq, h.frame.plane]
    · rw [kother _ fun r' c' hq' heq => ?_, h.lane r c (((hR r c).1 hrc).resolve_right hq)]
      obtain ⟨rfl, rfl⟩ := pixOffset_inj hch (hw r c hrc) (hw r' c' ((hR r' c').2 (.inr hq'))) heq
      exact hq hq'
  · rw [kother a fun r c hq => ha r c ((hR r c).2 (.inr hq)), h.other a fun r c hp => ha r c ((hR r c).2 (.inl hp))]

section
variable {s : State}

theorem placeByte_places (hb : PilBounds s) {y x : Nat} (hy : y < s.drv.height) (hx : x < s.drv.width) :
    ∃ t, placeByte y x s = .go t ∧ Placed (fun r c => r = y ∧ c = x) s t := by
  have hread := s.plane.read_lt ((planeOffset_lt s.drv hy hx).trans_le hb.plane)
  have hpix := (pixOffset_lt s.drv hy hx hb.lane).trans_le hb.pix
  refine ⟨_, placeByte_spec y x s hread hpix, ⟨rfl, rfl, fun w => s.pix.set_wf _ _ w hpix⟩, ?_, ?_⟩
  · rintro r c ⟨rfl, rfl⟩
    rw [hread]
    exact s.pix.read_set_same _ _ hpix
  · exact fun a ha => s.pix.read_set_other _ (ha y x ⟨rfl, rfl⟩)

theorem placeRow_places (hb : PilBounds s) {y : Nat} (hy : y < s.drv.height) (k : Nat) {x : Nat}
    (hx : x + k ≤ s.drv.width) :
    ∃ t, placeRow y x k s = .go t ∧ Placed (fun r c => r = y ∧ x ≤ c ∧ c < x + k) s t := by
  induction k generalizing x s with
  | zero => exact ⟨s, rfl, Placed.none s fun r c => by omega⟩
  | succ k ih =>
    obtain ⟨t, ht, hp⟩ := placeByte_places hb hy (x := x) (by omega)
    obtain ⟨u, hu, hq⟩ := ih (hp.frame.bounds.2 hb) (x := x + 1) (hp.frame.drv ▸ hy) (by rw [hp.frame.drv]; omega)
    refine ⟨u, ?_, hp.trans hq hb.lane (fun r c => by omega) fun r c hrc => by omega⟩
    rw [placeRow, ht, Flow.go_andThen, hu]

theorem placeRows_places (hb : PilBounds s) (k : Nat) {y : Nat} (hy : y + k ≤ s.drv.height) :
    ∃ t, placeRows y k s = .go t ∧ Placed (fun r c => (y ≤ r ∧ r < y + k) ∧ c < s.drv.width) s t := by
  induction k generalizing y s with
  | zero => exact ⟨s, rfl, Placed.none s fun r c => by omega⟩
  | succ k ih =>
    obtain ⟨t, ht, hp⟩ := placeRow_places hb (y := y) (by omega) s.drv.width (x := 0) (by omega)
    obtain ⟨u, hu, hq⟩ := ih (hp.frame.bounds.2 hb) (y := y + 1) (by rw [hp.frame.drv]; omega)
    rw [hp.frame.drv] at hq
    refine ⟨u, ?_, hp.trans hq hb.lane (fun r c => by omega) fun r c hrc => hrc.2⟩
    rw [placeRows, ht, Flow.go_andThen, hu]

/-- PIL.PLACE moves every pixel's byte into its channel's lane (R242). -/
theorem pilPlace_places (hb : PilBounds s) :
    ∃ t, pilPlace s = .go t ∧ Placed (fun r c => r < s.drv.height ∧ c < s.drv.width) s t := by
  obtain ⟨t, ht, hp⟩ := placeRows_places hb s.drv.height (y := 0) (by omega)
  refine ⟨t, ht, hp.frame, fun r c hrc => hp.lane r c (by omega), fun a ha => hp.other a fun r c hrc => ha r c ?_⟩
  omega

end

/-! ## One turn of the plan as a function of its range (R216, R217, R220) -/

/-- What a turn of the plan never changes: the header, the geometry, the container, the capacities, and of PIX its size and
its canonical form. -/
structure TurnKept (s t : State) : Prop where
  hdr : t.hdr = s.hdr
  drv : t.drv = s.drv
  src : t.src = s.src
  caps : t.caps = s.caps
  latched : t.latched.hdr = s.latched.hdr
  pixLen : t.pix.len = s.pix.len
  pixWf : s.pix.wf → t.pix.wf

theorem TurnKept.refl (s : State) : TurnKept s s := ⟨rfl, rfl, rfl, rfl, rfl, rfl, id⟩

theorem TurnKept.trans {s t u : State} (h : TurnKept s t) (k : TurnKept t u) : TurnKept s u :=
  ⟨k.hdr.trans h.hdr, k.drv.trans h.drv, k.src.trans h.src, k.caps.trans h.caps, k.latched.trans h.latched,
    k.pixLen.trans h.pixLen, k.pixWf ∘ h.pixWf⟩

theorem PlaneKept.turnKept {s t : State} (h : PlaneKept s t) : TurnKept s t :=
  ⟨h.hdr, h.drv, h.src, h.caps, h.latched, by rw [h.pix], fun w => h.pix.symm ▸ w⟩

theorem PilFrame.turnKept {s t : State} (h : PilFrame s t) : TurnKept s t :=
  ⟨by rw [h.rest], by rw [h.rest], by rw [h.rest], by rw [h.rest], by rw [h.rest], h.len, h.wf⟩

/-- The lane of channel `ch` holds the bytes of `out`, rows reversed, and every other byte of PIX is as before (R243). -/
structure LanePlaced (ch : Chan) (out : List Byte) (s t : State) : Prop where
  lane : ∀ r c, r < s.drv.height → c < s.drv.width →
    t.pix.read (pixOffset s.drv ch r c) = out[planeOffset s.drv r c]?
  other : ∀ a, (∀ r c, r < s.drv.height → c < s.drv.width → a ≠ pixOffset s.drv ch r c) →
    t.pix.read a = s.pix.read a

/-- The range of channel `ch` in SRC (R66). -/
def turnRange (s : State) (ch : Chan) : List Byte := s.paddedAt .src (rangeStart s.hdr ch) (planeSize s ch)

/-- What the turn of channel `ch` decodes its range to, if the plane is present (R216, R218). -/
def turnOutcome (s : State) (ch : Chan) : Option PlaneOutcome :=
  if planePresent s ch then some (planeOutcome s.hdr.variant s.caps.midCap s.drv.n (turnRange s ch)) else none

/-- A turn of the plan that began in `s` ends as its plane's outcome says: an absent plane changes nothing, a decoded one
goes to its lane, a failing one ends the command (R216, R220, R256). -/
def Flow.TurnsTo (x : Flow) (s : State) (ch : Chan) : Option PlaneOutcome → Prop
  | none => ∃ t, x = .go t ∧ TurnKept s t ∧ t.trunc = s.trunc ∧ t.pix = s.pix
  | some (.done out cut1 cut2) =>
    ∃ t, x = .go t ∧ TurnKept s t ∧ t.trunc = raiseFlags ch cut1 cut2 s.trunc ∧ LanePlaced ch out s t
  | some (.failed cause pos off cut1) =>
    ∃ t, x = .stop t ∧ TurnKept s t ∧ t.trunc = raiseFlags ch cut1 false s.trunc ∧ t.pix = s.pix ∧
      t.err = { cause := cause, plane := ch, pos := pos, off := off } ∧ t.status = .error ∧ t.stage = .idle

section
variable {s : State} {ch : Chan}

theorem planTurn_absent (h : planePresent s ch = false) : planTurn ch s = .go (planAdvance (choosePlane ch s)) := by
  have hpres : ¬ planePresent (choosePlane ch s) ch = true := Bool.eq_false_iff.1 h
  rw [planTurn, if_neg hpres, Flow.go_andThen]

theorem planTurn_present (h : planePresent s ch = true) : planTurn ch s
    = ((decodePlane (planeInit (choosePlane ch s))).andThen pilPlace).andThen fun t => .go (planAdvance t) := by
  have hpres : planePresent (choosePlane ch s) ch = true := h
  rw [planTurn, if_pos hpres]

/-- The range in hand is inside SRC (R66, R213). -/
theorem AtTurn.bytesAt_range (h : AtTurn ch s) :
    s.bytesAt .src s.seq.poff (planeSize s ch) = some (turnRange s ch) := by
  obtain ⟨bs, hbs, -⟩ := s.bytesAt_total .src (planeSize s ch) s.seq.poff (h.poff ▸ h.image.header.range_le ch)
  rw [turnRange, ← h.poff, s.paddedAt_eq .src hbs, hbs]

/-- The plane of a turn, once PLANE is made for it (R217). -/
theorem decodePlane_turn (h : AtTurn ch s) : (decodePlane (planeInit (choosePlane ch s))).DecodesTo
    (planeInit (choosePlane ch s)) (planeOutcome s.hdr.variant s.caps.midCap s.drv.n (turnRange s ch)) := by
  have hrange : (planeInit (choosePlane ch s)).bytesAt .src s.seq.poff (planeSize s ch) = some (turnRange s ch) :=
    (State.bytesAt_congr (planeInit (choosePlane ch s)) s .src rfl _ _).trans h.bytesAt_range
  exact decodePlane_decodesTo rfl hrange

theorem turnKept_planeInit (ch : Chan) (s : State) : TurnKept s (planeInit (choosePlane ch s)) :=
  ⟨rfl, rfl, rfl, rfl, rfl, rfl, id⟩

/-- A plane that decodes is placed (R216, R242). -/
theorem planTurn_done {out : List Byte} {cut1 cut2 : Bool} (h : AtTurn ch s) (hpres : planePresent s ch = true)
    (hdec : (decodePlane (planeInit (choosePlane ch s))).DecodesTo (planeInit (choosePlane ch s)) (.done out cut1 cut2)) :
    (planTurn ch s).TurnsTo s ch (some (.done out cut1 cut2)) := by
  have hsafe := decodePlane_safe (planeInit_inPlane (choosePlane_inTurn h) hpres)
  obtain ⟨t, hgo, hkept, htrunc, hholds⟩ := hdec
  rw [hgo] at hsafe
  obtain ⟨u, hplace, hp⟩ := pilPlace_places (InPlane.pilBounds hsafe)
  have hdrv : t.drv = s.drv := hkept.drv
  have hpch : t.seq.pch = ch := congrArg SeqRegs.pch hkept.seq
  have hlane := hp.lane
  have hother := hp.other
  rw [hdrv, hpch] at hlane hother
  have hadvance : TurnKept u (planAdvance u) := ⟨rfl, rfl, rfl, rfl, rfl, rfl, id⟩
  refine ⟨planAdvance u, ?exec, ?kept, ?trunc, fun r c hr hc => ?lane, fun a ha => ?other⟩
  case exec => rw [planTurn_present hpres, hgo, Flow.go_andThen, hplace, Flow.go_andThen]
  case kept => exact (turnKept_planeInit ch s).trans (hkept.turnKept.trans (hp.frame.turnKept.trans hadvance))
  case trunc => rw [planAdvance_trunc, hp.frame.rest]; exact htrunc
  case lane => exact (hlane r c ⟨hr, hc⟩).trans (hholds.2 _)
  case other => exact (hother a fun r c hrc => ha r c hrc.1 hrc.2).trans (by rw [hkept.pix]; rfl)

/-- A plane that fails ends the command (R256). -/
theorem planTurn_failed {cause : ErrCause} {pos : Nat} {off : Byte} {cut1 : Bool} (hpres : planePresent s ch = true)
    (hdec : (decodePlane (planeInit (choosePlane ch s))).DecodesTo (planeInit (choosePlane ch s))
      (.failed cause pos off cut1)) :
    (planTurn ch s).TurnsTo s ch (some (.failed cause pos off cut1)) := by
  obtain ⟨t, hstop, hkept, htrunc, herr, hstatus, hstage⟩ := hdec
  refine ⟨t, ?_, (turnKept_planeInit ch s).trans hkept.turnKept, htrunc, hkept.pix, herr, hstatus, hstage⟩
  rw [planTurn_present hpres, hstop, Flow.stop_andThen, Flow.stop_andThen]

theorem planTurn_turnsTo (h : AtTurn ch s) : (planTurn ch s).TurnsTo s ch (turnOutcome s ch) := by
  cases hpres : planePresent s ch with
  | false =>
    rw [turnOutcome, hpres, planTurn_absent hpres]
    exact ⟨_, rfl, ⟨rfl, rfl, rfl, rfl, rfl, rfl, id⟩, rfl, rfl⟩
  | true =>
    have hdec := decodePlane_turn h
    rw [turnOutcome, hpres, if_pos rfl]
    cases hout : planeOutcome s.hdr.variant s.caps.midCap s.drv.n (turnRange s ch) with
    | done out cut1 cut2 => exact planTurn_done h hpres (hout ▸ hdec)
    | failed cause pos off cut1 => exact planTurn_failed hpres (hout ▸ hdec)

/-- A turn of the plan ends: it goes on to the next channel's, or the command ends in ERROR (R216, R256). -/
theorem planTurn_ends (h : AtTurn ch s) :
    (∃ t, planTurn ch s = .go t ∧ TurnKept s t ∧ (ch ≠ 0#2 → AtTurn (ch - 1) t)) ∨
      ∃ t, planTurn ch s = .stop t ∧ TurnKept s t ∧ t.status = .error := by
  have hturn := planTurn_turnsTo h
  have hsafe := planTurn_safe h
  rcases hout : turnOutcome s ch with - | ⟨out, cut1, cut2⟩ | ⟨cause, pos, off, cut1⟩
  case some.failed =>
    rw [hout] at hturn
    obtain ⟨t, hstop, hkept, -, -, -, hstatus, -⟩ := hturn
    exact .inr ⟨t, hstop, hkept, hstatus⟩
  all_goals
    rw [hout] at hturn
    obtain ⟨t, hgo, hkept, -⟩ := hturn
    rw [hgo] at hsafe
    exact .inl ⟨t, hgo, hkept, hsafe⟩

end

/-! ## Every command ends (O28) -/

/-- A piece of pseudocode that neither faults nor is refused. -/
def Flow.Answers (x : Flow) (G S : State → Prop) : Prop := (∃ t, x = .go t ∧ G t) ∨ ∃ t, x = .stop t ∧ S t

theorem Flow.Answers.andThen {x : Flow} {f : State → Flow} {G G' S : State → Prop} (hx : x.Answers G S)
    (hf : ∀ t, G t → (f t).Answers G' S) : (x.andThen f).Answers G' S := by
  rcases hx with ⟨t, rfl, ht⟩ | ⟨t, rfl, ht⟩
  · exact hf t ht
  · exact .inr ⟨t, rfl, ht⟩

/-- Turns of the plan from `s` on keep what `TurnKept` says, whether they go on to the turn of `ch` or end in ERROR. -/
theorem planTurn_answers {ch : Chan} {s t : State} (hs : TurnKept s t) (h : AtTurn ch t) :
    (planTurn ch t).Answers (fun u => TurnKept s u ∧ (ch ≠ 0#2 → AtTurn (ch - 1) u))
      (fun u => TurnKept s u ∧ u.status = .error) := by
  rcases planTurn_ends h with ⟨u, hu, hk, hnext⟩ | ⟨u, hu, hk, herr⟩
  · exact .inl ⟨u, hu, hs.trans hk, hnext⟩
  · exact .inr ⟨u, hu, hs.trans hk, herr⟩

theorem planes_answers {s : State} (h : ImageOk s) :
    (planes s).Answers (TurnKept s) fun t => TurnKept s t ∧ t.status = .error := by
  have hstart : TurnKept s (planStart s) := ⟨rfl, rfl, rfl, rfl, rfl, rfl, id⟩
  have hall := (((planTurn_answers hstart (planStart_atTurn h)).andThen
    fun _ ⟨hk, ht⟩ => planTurn_answers hk (ht (by decide))).andThen
    fun _ ⟨hk, ht⟩ => planTurn_answers hk (ht (by decide))).andThen
    fun _ ⟨hk, ht⟩ => planTurn_answers hk (ht (by decide))
  exact hall.imp (fun ⟨t, ht, hk, _⟩ => ⟨t, ht, hk⟩) id

/-- The state in which the plan starts on a decodable container (R211 to R215). -/
def acceptedState (s : State) : State :=
  { s with
    hdr := srcHeader s
    latched := { s.latched with hdr := true }
    drv := derivedOf (srcHeader s)
    pix := Memory.filled ((derivedOf (srcHeader s)).n * (derivedOf (srcHeader s)).bypp) }

theorem acceptHeader_acceptedState {s : State} (h : Decodable s) : acceptHeader s = .go (acceptedState s) :=
  acceptHeader_eq s h

theorem acceptedState_image {s : State} (h : Decodable s) : ImageOk (acceptedState s) := by
  have hsafe := acceptHeader_safe s
  rwa [acceptHeader_acceptedState h] at hsafe

theorem exec_seqDecode_of_decodable {s : State} (h : Decodable s) :
    exec .seqDecode s = ((planes (acceptedState s)).andThen finish).toOutcome := by
  rw [exec_seqDecode, acceptHeader_acceptedState h, Flow.go_andThen]

/-- Settles O28: the header is accepted, and each of the four turns goes on or ends in ERROR. -/
theorem seqDecodeAlwaysEnds : Obligations.SeqDecodeAlwaysEnds := by
  intro s hlong haccepted hfits
  have hdec : Decodable s := ⟨hlong, haccepted, hfits⟩
  have hends : ∃ t, exec .seqDecode s = .next t ∧ (t.status = .done ∨ t.status = .error) ∧
      TurnKept (acceptedState s) t := by
    rw [exec_seqDecode_of_decodable hdec]
    rcases planes_answers (acceptedState_image hdec) with ⟨t, ht, hk⟩ | ⟨t, ht, hk, herr⟩
    · rw [ht, Flow.go_andThen]
      exact ⟨_, rfl, .inl rfl, hk.trans ⟨rfl, rfl, rfl, rfl, rfl, rfl, id⟩⟩
    · rw [ht, Flow.stop_andThen]
      exact ⟨t, rfl, .inr herr, hk⟩
  obtain ⟨t, hnext, hstatus, hkept⟩ := hends
  have he := seqDecode_ends hnext
  refine ⟨t, hnext, hstatus, he.stage, he.src, hkept.hdr, hkept.latched, fun hdone => ?_, fun herror => ?_⟩
  · rcases he.how with ⟨-, herr⟩ | ⟨-, herr⟩ | ⟨hst, -⟩
    · exact herr
    · exact herr
    · exact absurd (hdone.symm.trans hst) (by decide)
  · rcases he.how with ⟨hst, -⟩ | ⟨hst, -⟩ | ⟨-, hcause⟩
    · exact absurd (herror.symm.trans hst) (by decide)
    · exact absurd (herror.symm.trans hst) (by decide)
    · exact hcause

/-! ## What the turns leave in PIX and in TRUNC (O29) -/

/-- Every byte of the lane of channel `ch` (R44, R241). -/
def LaneHolds (d : Derived) (ch : Chan) (pix : Memory) (byte : Nat → Nat → Option Byte) : Prop :=
  ∀ r c, r < d.height → c < d.width → pix.read (pixOffset d ch r c) = byte r c

/-- The plan's turns down to that of channel offset `j`, all decoding: the planes decoded so far stand in their lanes and
their flags are set; every other lane is FILL and every other flag is as at the start of the command `s`. -/
structure Turned (s : State) (j : Nat) (t : State) : Prop where
  kept : TurnKept (acceptedState s) t
  decoded : ∀ ch : Chan, j ≤ ch.toNat → decodes (srcHeader s) ch →
    ∀ out cut1 cut2, planeOf s ch = .done out cut1 cut2 → FlagsSet s t ch cut1 cut2 ∧
      LaneHolds (derivedOf (srcHeader s)) ch t.pix fun r c => out[planeOffset (derivedOf (srcHeader s)) r c]?
  blank : ∀ ch : Chan, ch.toNat < j ∨ ¬ decodes (srcHeader s) ch → FlagsSet s t ch false false ∧
    (ch.toNat < (derivedOf (srcHeader s)).bypp →
      LaneHolds (derivedOf (srcHeader s)) ch t.pix fun _ _ => some Config.fill)

section
variable {s t u : State} {ch ch' : Chan}

/-- A plane is present exactly when R215 and R216 have it decoded. -/
theorem planePresent_iff (h : TurnKept (acceptedState s) t) : planePresent t ch = true ↔ decodes (srcHeader s) ch := by
  rw [planePresent_congr h.hdr h.drv]
  unfold planePresent decodes
  by_cases hch : ch = 3#2
  · simp [hch, acceptedState, derivedOf, sizeField, and_comm]
  · rw [if_neg hch, decide_eq_true_eq]
    exact ⟨fun hsize => ⟨hsize, fun e => absurd e hch⟩, fun ⟨hsize, _⟩ => hsize⟩

theorem turnOutcome_of_decodes (h : TurnKept (acceptedState s) t) (hd : decodes (srcHeader s) ch) :
    turnOutcome t ch = some (planeOf s ch) := by
  have hrange : turnRange t ch = turnRange (acceptedState s) ch := by
    rw [turnRange, turnRange, h.hdr, planeSize_congr h.hdr]
    exact State.paddedAt_congr _ _ .src h.src _ _
  rw [turnOutcome, if_pos ((planePresent_iff h).2 hd), hrange, h.hdr, h.caps, h.drv]
  exact congrArg (fun r => some (planeOutcome _ _ _ r)) (State.paddedAt_congr (acceptedState s) s .src rfl _ _)

theorem turnOutcome_of_not_decodes (h : TurnKept (acceptedState s) t) (hd : ¬ decodes (srcHeader s) ch) :
    turnOutcome t ch = none := if_neg (mt (planePresent_iff h).1 hd)

/-- A decoded plane has a lane (R215, R241). -/
theorem lane_of_decodes {h : Header} (hd : decodes h ch) : ch.toNat < (derivedOf h).bypp := by
  obtain ⟨hsize, halpha⟩ := hd
  have hlt := ch.isLt
  by_cases hch : ch = 3#2
  · have hpresent : h.bpp = 32#16 ∧ 0 < h.aSize.toInt := ⟨halpha hch, by simpa [sizeField, hch] using hsize⟩
    simp [derivedOf, hpresent, hch]
  · have hne : ch.toNat ≠ 3 := fun e => hch (BitVec.eq_of_toNat_eq e)
    unfold derivedOf
    simp only
    split <;> omega

/-- What stands in another channel's lane stays there. -/
theorem LaneHolds.placed {d : Derived} {byte : Nat → Nat → Option Byte} {out : List Byte}
    (h : LaneHolds d ch' t.pix byte) (hp : LanePlaced ch out t u) (hd : t.drv = d) (hne : ch' ≠ ch)
    (hch : ch.toNat < d.bypp) (hch' : ch'.toNat < d.bypp) : LaneHolds d ch' u.pix byte := by
  intro r c hr hc
  have hother := hp.other
  rw [hd] at hother
  have hapart : ∀ r' c', r' < d.height → c' < d.width → pixOffset d ch' r c ≠ pixOffset d ch r' c' :=
    fun r' c' _ _ heq => hne (BitVec.eq_of_toNat_eq (lane_inj hch' hch heq).2)
  rw [hother _ hapart, h r c hr hc]

/-- A decoded plane's turn. -/
theorem Turned.decode {out : List Byte} {cut1 cut2 : Bool} (ht : Turned s (ch.toNat + 1) t) (hk : TurnKept t u)
    (htrunc : u.trunc = raiseFlags ch cut1 cut2 t.trunc) (hp : LanePlaced ch out t u) (hd : decodes (srcHeader s) ch)
    (hout : planeOf s ch = .done out cut1 cut2) : Turned s ch.toNat u := by
  have hdrv : t.drv = derivedOf (srcHeader s) := ht.kept.drv
  have hlane := lane_of_decodes hd
  refine ⟨ht.kept.trans hk, fun ch' hle hd' out' c1 c2 hout' => ?_, fun ch' hblank => ?_⟩
  · by_cases hch : ch' = ch
    · subst hch
      obtain ⟨rfl, rfl, rfl⟩ := PlaneOutcome.done.inj (hout.symm.trans hout')
      obtain ⟨hflags, -⟩ := ht.blank ch' (.inl (Nat.lt_succ_self _))
      have hplaced := hp.lane
      rw [hdrv] at hplaced
      exact ⟨hflags.kept_then (flagsSet_raiseFlags htrunc), hplaced⟩
    · have hlt : ch.toNat + 1 ≤ ch'.toNat := by have := mt BitVec.eq_of_toNat_eq hch; omega
      obtain ⟨hflags, hheld⟩ := ht.decoded ch' hlt hd' out' c1 c2 hout'
      exact ⟨hflags.then_kept (flagsSet_raiseFlags_other hch htrunc),
        hheld.placed hp hdrv hch hlane (lane_of_decodes hd')⟩
  · have hch : ch' ≠ ch := by
      rintro rfl
      exact hblank.elim (Nat.lt_irrefl _) fun hno => hno hd
    obtain ⟨hflags, hfill⟩ := ht.blank ch' (hblank.imp Nat.lt_succ_of_lt id)
    exact ⟨hflags.then_kept (flagsSet_raiseFlags_other hch htrunc), fun hlane' =>
      (hfill hlane').placed hp hdrv hch hlane hlane'⟩

/-- An absent plane's turn. -/
theorem Turned.skip (ht : Turned s (ch.toNat + 1) t) (hk : TurnKept t u) (htrunc : u.trunc = t.trunc)
    (hpix : u.pix = t.pix) (hd : ¬ decodes (srcHeader s) ch) : Turned s ch.toNat u := by
  have same : ∀ {ch' cut1 cut2}, FlagsSet s t ch' cut1 cut2 → FlagsSet s u ch' cut1 cut2 := fun ⟨h1, h2⟩ =>
    ⟨by rw [htrunc]; exact h1, by rw [htrunc]; exact h2⟩
  refine ⟨ht.kept.trans hk, fun ch' hle hd' out cut1 cut2 hout => ?_, fun ch' hblank => ?_⟩
  · have hch : ch' ≠ ch := fun e => hd (e ▸ hd')
    have hlt : ch.toNat + 1 ≤ ch'.toNat := by have := mt BitVec.eq_of_toNat_eq hch; omega
    obtain ⟨hflags, hheld⟩ := ht.decoded ch' hlt hd' out cut1 cut2 hout
    exact ⟨same hflags, hpix.symm ▸ hheld⟩
  · obtain ⟨hflags, hfill⟩ := ht.blank ch' (hblank.imp Nat.lt_succ_of_lt id)
    exact ⟨same hflags, hpix.symm ▸ hfill⟩

/-- A turn of the plan whose plane decodes goes on (R216, R218, R243). -/
theorem planTurn_turned (hok : ∀ ch, decodes (srcHeader s) ch → ∃ out cut1 cut2, planeOf s ch = .done out cut1 cut2)
    (ht : Turned s (ch.toNat + 1) t) (hat : AtTurn ch t) :
    (planTurn ch t).Answers (fun u => Turned s ch.toNat u ∧ (ch ≠ 0#2 → AtTurn (ch - 1) u)) fun _ => False := by
  have hturn := planTurn_turnsTo hat
  have hnext := planTurn_safe hat
  by_cases hd : decodes (srcHeader s) ch
  · obtain ⟨out, cut1, cut2, hout⟩ := hok ch hd
    rw [turnOutcome_of_decodes ht.kept hd, hout] at hturn
    obtain ⟨u, hgo, hk, htrunc, hp⟩ := hturn
    rw [hgo] at hnext
    exact .inl ⟨u, hgo, ht.decode hk htrunc hp hd hout, hnext⟩
  · rw [turnOutcome_of_not_decodes ht.kept hd] at hturn
    obtain ⟨u, hgo, hk, htrunc, hpix⟩ := hturn
    rw [hgo] at hnext
    exact .inl ⟨u, hgo, ht.skip hk htrunc hpix hd, hnext⟩

/-- The plan starts with nothing decoded: PIX is FILL (R215). -/
theorem turned_start (s : State) : Turned s 4 (planStart (acceptedState s)) := by
  refine ⟨⟨rfl, rfl, rfl, rfl, rfl, rfl, id⟩, fun ch hle => absurd ch.isLt (by omega),
    fun ch _ => ⟨FlagsSet.refl _ ch, ?_⟩⟩
  intro hlane r c hr hc
  refine (Memory.read_filled _ _).trans (if_pos ?_)
  exact pixOffset_lt (derivedOf (srcHeader s)) hr hc hlane

theorem planes_turned (h : Decodable s)
    (hok : ∀ ch, decodes (srcHeader s) ch → ∃ out cut1 cut2, planeOf s ch = .done out cut1 cut2) :
    (planes (acceptedState s)).Answers (Turned s 0) fun _ => False := by
  have hall := (((planTurn_turned (ch := 3#2) hok (turned_start s) (planStart_atTurn (acceptedState_image h))).andThen
    fun _ ⟨ht, hat⟩ => planTurn_turned (ch := 2#2) hok ht (hat (by decide))).andThen
    fun _ ⟨ht, hat⟩ => planTurn_turned (ch := 1#2) hok ht (hat (by decide))).andThen
    fun _ ⟨ht, hat⟩ => planTurn_turned (ch := 0#2) hok ht (hat (by decide))
  exact hall.imp (fun ⟨t, hgo, ht, _⟩ => ⟨t, hgo, ht⟩) id

/-- Under VARIANT 0x01 every range decodes (R173, R218). -/
theorem planeOf_rle (h : (srcHeader s).variant = 0x01#8) (ch : Chan) :
    ∃ out cut1 cut2, planeOf s ch = .done out cut1 cut2 := by
  rw [planeOf, h, planeOutcome_rle]
  exact ⟨_, _, _, rfl⟩

end

/-- Settles O29: the header is accepted, each of the four turns decodes its plane into its lane, and the command ends in
DONE. -/
theorem containerDecodesToItsPixels : Obligations.ContainerDecodesToItsPixels := by
  intro s hdec hvariant
  have hok : ∀ ch, decodes (srcHeader s) ch → ∃ out cut1 cut2, planeOf s ch = .done out cut1 cut2 := by
    rcases hvariant with hrle | hok
    · exact fun ch _ => planeOf_rle hrle ch
    · exact hok
  obtain ⟨u, hgo, hu⟩ := (planes_turned hdec hok).resolve_right fun ⟨_, _, hno⟩ => hno
  have hnext : exec .seqDecode s = .next { u with status := .done, stage := .idle } := by
    rw [exec_seqDecode_of_decodable hdec, hgo, Flow.go_andThen]
    rfl
  have he := seqDecode_ends hnext
  have herr : u.err = s.err := by
    rcases he.how with ⟨hst, -⟩ | ⟨-, herr⟩ | ⟨hst, -⟩
    · exact absurd hst (by simp)
    · exact herr
    · exact absurd hst (by simp)
  have hlen : u.pix.len = imageWidth (srcHeader s) * imageHeight (srcHeader s) * (derivedOf (srcHeader s)).bypp :=
    hu.kept.pixLen
  refine ⟨_, _, rfl, hnext, rfl, rfl, herr, he.src, hu.kept.hdr, hu.kept.drv, hlen,
    fun ch => ⟨fun hd => ?_, fun hd => ?_⟩⟩
  · obtain ⟨out, cut1, cut2, hout⟩ := hok ch hd
    obtain ⟨hflags, hlane⟩ := hu.decoded ch (Nat.zero_le _) hd out cut1 cut2 hout
    exact ⟨out, cut1, cut2, hout, hflags, hlane⟩
  · obtain ⟨hflags, hfill⟩ := hu.blank ch (.inr hd)
    exact ⟨hflags, fun r c hlane => hfill hlane r c⟩

/-! ## What a command does not look at (O30) -/

/-- Two pieces of pseudocode that go on together, or end the command together. -/
def Flow.Both (x y : Flow) (G S : State → State → Prop) : Prop :=
  (∃ t u, x = .go t ∧ y = .go u ∧ G t u) ∨ ∃ t u, x = .stop t ∧ y = .stop u ∧ S t u

theorem Flow.Both.andThen {x y : Flow} {f g : State → Flow} {G G' S : State → State → Prop} (h : x.Both y G S)
    (hf : ∀ t u, G t u → (f t).Both (g u) G' S) : (x.andThen f).Both (y.andThen g) G' S := by
  rcases h with ⟨t, u, rfl, rfl, htu⟩ | ⟨t, u, rfl, rfl, htu⟩
  · exact hf t u htu
  · exact .inr ⟨t, u, rfl, rfl, htu⟩

theorem Flow.Both.next {x y : Flow} {P : State → State → Prop} (h : x.Both y P P) {t : State}
    (ht : x.toOutcome = .next t) : ∃ u, y.toOutcome = .next u ∧ P t u := by
  rcases h with ⟨v, u, rfl, rfl, hvu⟩ | ⟨v, u, rfl, rfl, hvu⟩
  · cases ht; exact ⟨u, rfl, hvu⟩
  · cases ht; exact ⟨u, rfl, hvu⟩

/-- Two headers that differ in FORMAT, SCREENW and SCREENH alone. -/
def SameImage (h h' : Header) : Prop :=
  h' = { h with format := h'.format, screenW := h'.screenW, screenH := h'.screenH }

/-- Two commands on such headers, with the same ranges, that have come equally far. -/
structure Alike (s s' : State) : Prop where
  hdr : SameImage s.hdr s'.hdr
  ranges : ∀ a, 0x20 ≤ a → s'.src.read a = s.src.read a
  drv : s'.drv = s.drv
  caps : s'.caps = s.caps
  trunc : s'.trunc = s.trunc
  err : s'.err = s.err
  status : s'.status = s.status
  pix : s'.pix = s.pix
  pixWf : s.pix.wf

theorem SameImage.sizeField {h h' : Header} (hs : SameImage h h') (ch : Chan) :
    Machine.sizeField h' ch = Machine.sizeField h ch := by rw [hs]; rfl

theorem SameImage.rangeStart {h h' : Header} (hs : SameImage h h') (ch : Chan) :
    Machine.rangeStart h' ch = Machine.rangeStart h ch := by rw [hs]; rfl

theorem SameImage.variant {h h' : Header} (hs : SameImage h h') : h'.variant = h.variant := by rw [hs]

theorem SameImage.derivedOf {h h' : Header} (hs : SameImage h h') : Machine.derivedOf h' = Machine.derivedOf h := by
  rw [hs]; rfl

theorem rangeStart_ge (h : Header) (ch : Chan) : 0x20 ≤ rangeStart h ch := by
  unfold rangeStart
  simp only
  split
  · exact le_rfl
  · split
    · omega
    · split <;> omega

/-- Bytes beyond the header. -/
theorem paddedAt_of_ranges {s s' : State} (h : ∀ a, 0x20 ≤ a → s'.src.read a = s.src.read a) (n : Nat) {a : Nat}
    (ha : 0x20 ≤ a) : s'.paddedAt .src a n = s.paddedAt .src a n := by
  induction n generalizing a with
  | zero => rfl
  | succ n ih =>
    rw [State.paddedAt, State.paddedAt, State.byteAt, State.byteAt, State.space_src, State.space_src, h a ha,
      ih (by omega)]

section
variable {s s' t t' : State} {ch : Chan}

theorem Alike.planeSize (h : Alike s s') (ch : Chan) : Machine.planeSize s' ch = Machine.planeSize s ch := by
  rw [Machine.planeSize, Machine.planeSize, h.hdr.sizeField]

theorem Alike.planePresent (h : Alike s s') (ch : Chan) : Machine.planePresent s' ch = Machine.planePresent s ch := by
  rw [Machine.planePresent, Machine.planePresent, h.hdr.sizeField, h.drv]

theorem Alike.turnRange (h : Alike s s') (ch : Chan) : Machine.turnRange s' ch = Machine.turnRange s ch := by
  rw [Machine.turnRange, Machine.turnRange, h.hdr.rangeStart, h.planeSize]
  exact paddedAt_of_ranges h.ranges _ (rangeStart_ge _ _)

theorem Alike.turnOutcome (h : Alike s s') (ch : Chan) : Machine.turnOutcome s' ch = Machine.turnOutcome s ch := by
  rw [Machine.turnOutcome, Machine.turnOutcome, h.planePresent, h.turnRange, h.hdr.variant, h.caps, h.drv]

/-- Two turns of the plan that write the same leave the commands alike. -/
theorem Alike.after (h : Alike s s') (hk : TurnKept s t) (hk' : TurnKept s' t') (htrunc : t'.trunc = t.trunc)
    (herr : t'.err = t.err) (hstatus : t'.status = t.status) (hpix : t'.pix = t.pix) : Alike t t' where
  hdr := by rw [hk.hdr, hk'.hdr]; exact h.hdr
  ranges := by rw [hk.src, hk'.src]; exact h.ranges
  drv := by rw [hk.drv, hk'.drv, h.drv]
  caps := by rw [hk.caps, hk'.caps, h.caps]
  trunc := htrunc
  err := herr
  status := hstatus
  pix := hpix
  pixWf := hk.pixWf h.pixWf

/-- The same bytes placed in the same lane make the same PIX (R242, R243). -/
theorem Alike.pix_of_placed {out : List Byte} (h : Alike s s') (hk : TurnKept s t) (hk' : TurnKept s' t')
    (hp : LanePlaced ch out s t) (hp' : LanePlaced ch out s' t') : t'.pix = t.pix := by
  have hlane := hp'.lane
  have hother := hp'.other
  rw [h.drv] at hlane hother
  refine Memory.ext_read (hk'.pixWf (h.pix ▸ h.pixWf)) (hk.pixWf h.pixWf) fun a => ?_
  by_cases ha : ∃ r c, r < s.drv.height ∧ c < s.drv.width ∧ a = pixOffset s.drv ch r c
  · obtain ⟨r, c, hr, hc, rfl⟩ := ha
    rw [hlane r c hr hc, hp.lane r c hr hc]
  · have hnot : ∀ r c, r < s.drv.height → c < s.drv.width → a ≠ pixOffset s.drv ch r c := fun r c hr hc heq =>
      ha ⟨r, c, hr, hc, heq⟩
    rw [hother a hnot, hp.other a hnot, h.pix]

/-- A turn that goes on keeps STATUS and the error registers. -/
theorem planTurn_goes (hgo : planTurn ch s = .go t) : Goes s t := by
  have hsound := planTurn_sound ch s
  rwa [hgo] at hsound

/-- Two commands on the plan's way to the turn of `ch` that have come equally far. -/
structure AlikeAt (ch : Chan) (s s' : State) : Prop where
  alike : Alike s s'
  left : AtTurn ch s
  right : AtTurn ch s'

/-- A turn of the plan looks at nothing in which they differ. -/
theorem planTurn_both (h : AlikeAt ch s s') :
    (planTurn ch s).Both (planTurn ch s') (fun t t' => Alike t t' ∧ (ch ≠ 0#2 → AlikeAt (ch - 1) t t')) Alike := by
  obtain ⟨ha, hs, hs'⟩ := h
  have hturn := planTurn_turnsTo hs
  have hturn' := planTurn_turnsTo hs'
  have hnext := planTurn_safe hs
  have hnext' := planTurn_safe hs'
  rw [ha.turnOutcome] at hturn'
  have goes : ∀ {t t'}, planTurn ch s = .go t → planTurn ch s' = .go t' → TurnKept s t → TurnKept s' t' →
      t'.trunc = t.trunc → t'.pix = t.pix →
      (planTurn ch s).Both (planTurn ch s') (fun t t' => Alike t t' ∧ (ch ≠ 0#2 → AlikeAt (ch - 1) t t')) Alike := by
    intro t t' hgo hgo' hk hk' htrunc hpix
    have hg := planTurn_goes hgo
    have hg' := planTurn_goes hgo'
    have hat := ha.after hk hk' htrunc (by rw [hg.err, hg'.err, ha.err]) (by rw [hg.status, hg'.status, ha.status]) hpix
    rw [hgo] at hnext
    rw [hgo'] at hnext'
    exact .inl ⟨t, t', hgo, hgo', hat, fun hch => ⟨hat, hnext hch, hnext' hch⟩⟩
  rcases hout : Machine.turnOutcome s ch with - | ⟨out, cut1, cut2⟩ | ⟨cause, pos, off, cut1⟩
  · rw [hout] at hturn hturn'
    obtain ⟨t, hgo, hk, htrunc, hpix⟩ := hturn
    obtain ⟨t', hgo', hk', htrunc', hpix'⟩ := hturn'
    exact goes hgo hgo' hk hk' (by rw [htrunc, htrunc', ha.trunc]) (by rw [hpix, hpix', ha.pix])
  · rw [hout] at hturn hturn'
    obtain ⟨t, hgo, hk, htrunc, hp⟩ := hturn
    obtain ⟨t', hgo', hk', htrunc', hp'⟩ := hturn'
    exact goes hgo hgo' hk hk' (by rw [htrunc, htrunc', ha.trunc]) (ha.pix_of_placed hk hk' hp hp')
  · rw [hout] at hturn hturn'
    obtain ⟨t, hstop, hk, htrunc, hpix, herr, hstatus, -⟩ := hturn
    obtain ⟨t', hstop', hk', htrunc', hpix', herr', hstatus', -⟩ := hturn'
    exact .inr ⟨t, t', hstop, hstop', ha.after hk hk' (by rw [htrunc, htrunc', ha.trunc]) (by rw [herr, herr'])
      (by rw [hstatus, hstatus']) (by rw [hpix, hpix', ha.pix])⟩

theorem planes_both (h : Alike s s') (hs : ImageOk s) (hs' : ImageOk s') : (planes s).Both (planes s') Alike Alike := by
  have hstart : AlikeAt 3#2 (planStart s) (planStart s') :=
    ⟨⟨h.hdr, h.ranges, h.drv, h.caps, h.trunc, h.err, h.status, h.pix, h.pixWf⟩, planStart_atTurn hs,
      planStart_atTurn hs'⟩
  have hall := (((planTurn_both hstart).andThen fun _ _ ⟨_, hat⟩ => planTurn_both (hat (by decide))).andThen
    fun _ _ ⟨_, hat⟩ => planTurn_both (hat (by decide))).andThen fun _ _ ⟨_, hat⟩ => planTurn_both (hat (by decide))
  exact hall.imp (fun ⟨t, u, ht, hu, htu, _⟩ => ⟨t, u, ht, hu, htu⟩) id

theorem finish_both (h : Alike s s') : (finish s).Both (finish s') Alike Alike :=
  .inr ⟨_, _, rfl, rfl, h.hdr, h.ranges, h.drv, h.caps, h.trunc, h.err, rfl, h.pix, h.pixWf⟩

/-! ### The two headers -/

/-- Bytes that agree outside FORMAT, SCREENW and SCREENH are headers of the same image (R100). -/
theorem headerOf_sameImage {xs ys : List Byte} (h : ∀ k, k ≠ 0 → (k < 2 ∨ 6 ≤ k) → u8At xs k = u8At ys k) :
    SameImage (headerOf xs) (headerOf ys) := by
  simp [SameImage, headerOf, u16At, u32At, h]

theorem srcHeader_sameImage (h : ∀ a, a ≠ 0 → (a < 2 ∨ 6 ≤ a) → s'.src.read a = s.src.read a) :
    SameImage (srcHeader s) (srcHeader s') := by
  refine headerOf_sameImage fun k h0 hk => ?_
  unfold u8At
  rw [List.getD_eq_getElem?_getD, List.getD_eq_getElem?_getD]
  by_cases hlt : k < Config.hdrLen
  · rw [State.paddedAt_getElem? _ _ _ _ _ hlt, State.paddedAt_getElem? _ _ _ _ _ hlt, State.byteAt, State.byteAt,
      Nat.zero_add, State.space_src, State.space_src, h k h0 hk]
  · rw [List.getElem?_eq_none (by simpa using hlt), List.getElem?_eq_none (by simpa using hlt)]

/-- R212 and R213 look at FORMAT's legality, and at no field of the canvas. -/
theorem SameImage.accepted {h h' : Header} (hs : SameImage h h') {n : Nat} (ha : Accepted h n)
    (hf : h'.format = 1#8 ∨ h'.format = 2#8) : Accepted h' n := by
  obtain ⟨-, hrest⟩ := ha
  rw [hs]
  exact ⟨hf, hrest⟩

theorem SameImage.symm {h h' : Header} (hs : SameImage h h') : SameImage h' h := by
  unfold SameImage
  rw [hs]

theorem srcHeader_format (s : State) : (srcHeader s).format = (s.src.read 0).getD Config.fill := rfl

theorem SameImage.area {h h' : Header} (hs : SameImage h h') :
    imageWidth h' * imageHeight h' = imageWidth h * imageHeight h := by
  rw [hs]; rfl

/-- Two decodable containers that differ in FORMAT and canvas alone. -/
theorem acceptedState_alike (hs : SameImage (srcHeader s) (srcHeader s'))
    (hranges : ∀ a, 0x20 ≤ a → s'.src.read a = s.src.read a) (hcaps : s'.caps = s.caps) (htrunc : s'.trunc = s.trunc)
    (herr : s'.err = s.err) (hstatus : s'.status = s.status) : Alike (acceptedState s) (acceptedState s') where
  hdr := hs
  ranges := hranges
  drv := hs.derivedOf
  caps := hcaps
  trunc := htrunc
  err := herr
  status := hstatus
  pix := by rw [acceptedState, hs.derivedOf]; rfl
  pixWf := Memory.filled_wf _

/-- From two decodable containers the commands end alike. -/
theorem exec_seqDecode_alike (h : Alike (acceptedState s) (acceptedState s')) (hd : Decodable s) (hd' : Decodable s')
    (ht : exec .seqDecode s = .next t) : ∃ u, exec .seqDecode s' = .next u ∧ Alike t u := by
  rw [exec_seqDecode_of_decodable hd] at ht
  rw [exec_seqDecode_of_decodable hd']
  exact ((planes_both h (acceptedState_image hd) (acceptedState_image hd')).andThen fun _ _ => finish_both).next ht

end

/-- Settles O30: both headers are rejected, or both are accepted and the four turns write the same. -/
theorem canvasAndFormatDoNotMatter : Obligations.CanvasAndFormatDoNotMatter := by
  intro bs cs s hlen hlong hsame hformat hformat' t ht
  generalize hs : ({ s with src := Memory.ofBytes bs } : State) = s1 at ht
  generalize hs' : ({ s with src := Memory.ofBytes cs } : State) = s2
  have hread : ∀ a, a ≠ 0 → (a < 2 ∨ 6 ≤ a) → s2.src.read a = s1.src.read a := by
    subst hs hs'
    intro a h0 ha
    exact (Memory.read_ofBytes cs a).trans ((hsame a h0 ha).symm.trans (Memory.read_ofBytes bs a).symm)
  have himage := srcHeader_sameImage hread
  have hf : (srcHeader s1).format = 1#8 ∨ (srcHeader s1).format = 2#8 := by
    rw [srcHeader_format, ← hs, Memory.read_ofBytes]
    rcases hformat with h | h <;> simp [h]
  have hf' : (srcHeader s2).format = 1#8 ∨ (srcHeader s2).format = 2#8 := by
    rw [srcHeader_format, ← hs', Memory.read_ofBytes]
    rcases hformat' with h | h <;> simp [h]
  have hl1 : s1.src.len = bs.length := by rw [← hs]; rfl
  have hl2 : s2.src.len = bs.length := by rw [← hs', hlen]; rfl
  by_cases hacc : Accepted (srcHeader s1) s1.src.len
  case neg =>
    have hacc' : ¬ Accepted (srcHeader s2) s2.src.len := fun h => hacc (hl1 ▸ himage.symm.accepted (hl2 ▸ h) hf)
    rw [seqDecodeRejectsOtherFormats s1 (.inr hacc)] at ht
    rw [seqDecodeRejectsOtherFormats s2 (.inr hacc')]
    cases ht
    subst hs hs'
    exact ⟨_, rfl, rfl, rfl, rfl, rfl, rfl⟩
  have hacc' : Accepted (srcHeader s2) s2.src.len := hl2 ▸ himage.accepted (hl1 ▸ hacc) hf'
  have hcaps : s2.caps = s1.caps := by rw [← hs, ← hs']
  have hfits : ∀ c, s1.caps.planeCap = some c → imageWidth (srcHeader s1) * imageHeight (srcHeader s1) ≤ c := by
    intro c hc
    by_contra hlt
    rw [imageAbovePlaneCapIsRefused s1 c (hl1 ▸ hlong) hacc hc (Nat.not_le.1 hlt)] at ht
    cases ht
  have hd : Decodable s1 := ⟨hl1 ▸ hlong, hacc, hfits⟩
  have hd' : Decodable s2 := ⟨hl2 ▸ hlong, hacc', by rw [hcaps, himage.area]; exact hfits⟩
  have hranges : ∀ a, 0x20 ≤ a → s2.src.read a = s1.src.read a := fun a ha => hread a (by omega) (by omega)
  have halike : Alike (acceptedState s1) (acceptedState s2) := by
    refine acceptedState_alike himage hranges hcaps ?_ ?_ ?_ <;> rw [← hs, ← hs']
  obtain ⟨u, hu, hend⟩ := exec_seqDecode_alike halike hd hd' ht
  exact ⟨u, hu, hend.status, hend.pix, hend.drv, hend.trunc, hend.err⟩

end Sys2Proof.Machine

/-! PROOFS. The statement of 44_channel_scheme_sequencer.md on grains: whatever one step does, the steps of a command reach
the state that SEQ.DECODE as one operation gives. -/

namespace Sys2Proof.Machine

/-! ## Operations that do not look at the sequencer's position -/

/-- `f` does the same wherever the sequencer stands: where it goes on, the position stays; where it ends the command, the
end leaves it idle in any case (R252, R256). -/
def StageFree (f : State → Flow) : Prop :=
  ∀ x s, (f s).Post (fun t => f (atStage x s) = .go (atStage x t)) (fun t => f (atStage x s) = .stop t) fun _ => True

theorem StageFree.of_eq {f : State → Flow} (h : ∀ x s, f (atStage x s) = (f s).atStage x) : StageFree f := by
  intro x s
  rw [h]
  cases f s with
  | go t => rfl
  | stop t => rfl
  | fault e => trivial
  | refuse r => trivial

/-- An operation that never ends the command. -/
theorem StageFree.of_go {f : State → Flow} (h : ∀ x s t, f s = .go t → f (atStage x s) = .go (atStage x t))
    (hstop : ∀ s, (f s).Post (fun _ => True) (fun _ => False) fun _ => True) : StageFree f := by
  intro x s
  have hnever := hstop s
  cases hf : f s with
  | go t => exact h x s t hf
  | stop t => rw [hf] at hnever; exact hnever.elim
  | fault e => trivial
  | refuse r => trivial

theorem StageFree.andThen {f g : State → Flow} (hf : StageFree f) (hg : StageFree g) :
    StageFree fun s => (f s).andThen g := by
  intro x s
  have hfx := hf x s
  simp only
  cases hs : f s with
  | go t =>
    rw [hs] at hfx
    have hgo : f (atStage x s) = .go (atStage x t) := hfx
    rw [hgo]
    exact hg x t
  | stop t =>
    rw [hs] at hfx
    have hend : f (atStage x s) = .stop t := hfx
    rw [hend]
    rfl
  | fault e => trivial
  | refuse r => trivial

/-- A choice that does not look at the position. -/
theorem StageFree.ite {p : State → Prop} [DecidablePred p] (hp : ∀ x s, p (atStage x s) ↔ p s) {f g : State → Flow}
    (hf : StageFree f) (hg : StageFree g) : StageFree fun s => if p s then f s else g s := by
  intro x s
  simp only [hp x s]
  by_cases h : p s
  · simp only [if_pos h]; exact hf x s
  · simp only [if_neg h]; exact hg x s

theorem StageFree.update {u : State → State} (h : ∀ x s, u (atStage x s) = atStage x (u s)) :
    StageFree fun s => .go (u s) := .of_eq fun x s => congrArg Flow.go (h x s)

/-- A read at a place that does not depend on the position. -/
theorem StageFree.withByte {sp : SpaceId} {a : State → Nat} {k : Byte → State → Flow}
    (hsp : ∀ x s, (atStage x s).space sp = s.space sp) (ha : ∀ x s, a (atStage x s) = a s)
    (hk : ∀ b, StageFree (k b)) : StageFree fun s => Machine.withByte sp (a s) s fun b => k b s := by
  intro x s
  have hbyte : (atStage x s).byteAt sp (a (atStage x s)) = s.byteAt sp (a s) := by
    rw [State.byteAt, State.byteAt, hsp, ha]
  simp only [Machine.withByte, hbyte]
  cases s.byteAt sp (a s) with
  | none => trivial
  | some b => exact hk b x s

theorem StageFree.withBytes {sp : SpaceId} {a n : State → Nat} {k : List Byte → State → Flow}
    (hsp : ∀ x s, (atStage x s).space sp = s.space sp) (ha : ∀ x s, a (atStage x s) = a s)
    (hn : ∀ x s, n (atStage x s) = n s) (hk : ∀ bs, StageFree (k bs)) :
    StageFree fun s => Machine.withBytes sp (a s) (n s) s fun bs => k bs s := by
  intro x s
  have hbytes : (atStage x s).bytesAt sp (a (atStage x s)) (n (atStage x s)) = s.bytesAt sp (a s) (n s) := by
    rw [ha, hn]
    exact State.bytesAt_congr _ _ sp (hsp x s) _ _
  simp only [Machine.withBytes, hbytes]
  cases s.bytesAt sp (a s) (n s) with
  | none => trivial
  | some bs => exact hk bs x s

theorem stageFree_reject : StageFree reject := .of_eq fun _ _ => rfl

theorem stageFree_raise (c : ErrCause) (pos : Nat) (off : Byte) : StageFree (raise c pos off) := .of_eq fun _ _ => rfl

theorem stageFree_go : StageFree Flow.go := .of_eq fun _ _ => rfl

/-! ### The header and stage one -/

theorem stageFree_hdrRead (h : Header) : StageFree (hdrRead h) :=
  .ite (fun _ _ => Iff.rfl) stageFree_reject (.update fun _ _ => rfl)

theorem stageFree_checkSelectors : StageFree checkSelectors := by
  have heq : checkSelectors = _ := funext checkSelectors_eq
  rw [heq]
  exact .ite (fun _ _ => Iff.rfl) stageFree_go stageFree_reject

theorem stageFree_checkSizes : StageFree checkSizes := by
  have heq : checkSizes = _ := funext checkSizes_eq
  rw [heq]
  exact .ite (fun _ _ => Iff.rfl) stageFree_go stageFree_reject

theorem stageFree_geometry : StageFree geometry :=
  .ite (fun _ _ => Iff.rfl) (.of_eq fun _ _ => rfl) (.update fun _ _ => rfl)

theorem stageFree_subhdrRead (t : SubHeader) : StageFree (subhdrRead t) :=
  .ite (fun _ _ => Iff.rfl) (stageFree_raise _ _ _)
    (.ite (fun _ _ => Iff.rfl) (.of_eq fun _ _ => rfl) (.update fun _ _ => rfl))

theorem stageFree_htbBuild : StageFree htbBuild :=
  .ite (fun _ _ => Iff.rfl) (stageFree_raise _ _ _) (.update fun _ _ => rfl)

theorem stageFree_walkBit (right : Bool) : StageFree (walkBit right) := by
  have heq : walkBit right = _ := funext (walkBit_eq right)
  rw [heq]
  exact .ite (fun _ _ => Iff.rfl) (.update fun _ _ => rfl) (.of_eq fun _ _ => rfl)

theorem stageFree_hufEmit : StageFree hufEmit := by
  have heq : hufEmit = _ := funext hufEmit_eq
  rw [heq]
  exact .ite (fun _ _ => Iff.rfl) (.ite (fun _ _ => Iff.rfl) (.update fun _ _ => rfl) (.of_eq fun _ _ => rfl))
    (.of_eq fun _ _ => rfl)

theorem stageFree_hufLoop (k : Nat) : StageFree (hufLoop k) := by
  induction k with
  | zero => exact stageFree_go
  | succ k ih =>
    have bit : StageFree fun s => withByte .src (s.br.payBase + s.br.byteP) s fun b =>
        (walkBit ((bitWindow s.br b).getLsbD 0) s).andThen (hufLoop k) :=
      .withByte (k := fun b s => (walkBit ((bitWindow s.br b).getLsbD 0) s).andThen (hufLoop k)) (fun _ _ => rfl)
        (fun _ _ => rfl) fun b x s => StageFree.andThen (stageFree_walkBit ((bitWindow s.br b).getLsbD 0)) ih x s
    exact .ite (fun _ _ => Iff.rfl)
      (.ite (fun _ _ => Iff.rfl) (stageFree_hufEmit.andThen ih) (.ite (fun _ _ => Iff.rfl) stageFree_go bit)) stageFree_go

theorem walkStart_atStage (x : Stage) (s : State) : walkStart (atStage x s) = atStage x (walkStart s) := by
  rw [walkStart, walkStart]
  by_cases hp : s.hsw.hprod < hlenOf s.sub
  · rw [if_pos hp]
    exact if_pos hp
  · rw [if_neg hp]
    exact if_neg hp

theorem hufInit_atStage (x : Stage) (s : State) : hufInit (atStage x s) = atStage x (hufInit s) :=
  walkStart_atStage x (midInit (brInit s))

theorem stageFree_hufDecode : StageFree hufDecode := by
  intro x s
  have hfree := StageFree.andThen
    (stageFree_hufLoop (bitsLeft (hufInit s).br + (hlenOf (hufInit s).sub - (hufInit s).hsw.hprod)))
    (.update (u := fun s => hufEnd (walkReturn s)) hufReturn_atStage) x (hufInit s)
  rw [hufDecode, hufDecode, hufInit_atStage]
  exact hfree

/-! ### The final stage and the placement -/

theorem rleLoop_atStage (x : Stage) (k : Nat) {s t : State} (h : rleLoop k s = .go t) :
    rleLoop k (atStage x s) = .go (atStage x t) := by
  induction k generalizing s with
  | zero => cases h; rfl
  | succ k ih =>
    rw [rleLoop] at h ⊢
    by_cases hmore : rleMore s
    · rw [if_pos hmore] at h
      obtain ⟨c, hc, h⟩ := withByte_eq_go h
      obtain ⟨u, hu, h⟩ := Flow.andThen_eq_go h
      refine (if_pos hmore).trans ((withByte_atStage x hc _).trans ?_)
      exact (Flow.andThen_of_eq_go (rleRun_atStage x hu) _).trans (ih h)
    · rw [if_neg hmore] at h
      cases h
      exact if_neg hmore

theorem stageFree_rleExpand (sp : RunSource) (base budget : Nat) : StageFree (rleExpand sp base budget) := by
  have loop : StageFree (rleLoop budget) := .of_go (fun x _ _ => rleLoop_atStage x budget) fun s =>
    (rleLoop_post budget s).mono (fun _ _ => trivial) (fun _ h => h) fun _ _ => trivial
  exact ((StageFree.update (u := rleInit sp base budget) fun _ _ => rfl).andThen loop).andThen (.update rleEnd_atStage)

theorem stageFree_lzLoop (k : Nat) : StageFree (lzLoop k) := by
  induction k with
  | zero => exact stageFree_go
  | succ k ih =>
    have token : StageFree fun s => withBytes .mid s.lz.lsp (tokenWindow s.lz) s fun bs =>
        (lzToken bs s).andThen (lzLoop k) :=
      .withBytes (k := fun bs s => (lzToken bs s).andThen (lzLoop k)) (fun _ _ => rfl) (fun _ _ => rfl) (fun _ _ => rfl)
        fun bs => StageFree.andThen (.of_eq fun x s => lzToken_atStage x bs s) ih
    exact .ite (fun _ _ => Iff.rfl) token stageFree_go

theorem stageFree_lzExpand : StageFree lzExpand := by
  intro x s
  have hfree := StageFree.andThen (stageFree_lzLoop (hlenOf s.sub - 12)) (.update lzEnd_atStage) x (lzInit (midHeader s) s)
  have hinit : lzInit (midHeader (atStage x s)) (atStage x s) = atStage x (lzInit (midHeader s) s) := by
    have hmid : midHeader (atStage x s) = midHeader s :=
      congrArg lzHeaderOf (State.paddedAt_congr (atStage x s) s .mid rfl _ _)
    rw [hmid]
    rfl
  rw [lzExpand_eq, lzExpand_eq, hinit]
  exact hfree

theorem stageFree_placeByte (y x : Nat) : StageFree (placeByte y x) := by
  refine .of_go (fun st s t h => ?_) fun s => ?_
  · obtain ⟨v, hv, h⟩ := withByte_eq_go h
    exact (withByte_atStage st hv _).trans (putByte_atStage st h)
  · refine withByte_post (fun v _ => ?_) fun _ => trivial
    rw [putByte_eq]
    split <;> trivial

theorem stageFree_placeRow (y k x : Nat) : StageFree (placeRow y x k) := by
  induction k generalizing x with
  | zero => exact stageFree_go
  | succ k ih => exact (stageFree_placeByte y x).andThen (ih (x + 1))

theorem stageFree_placeRows (k y : Nat) : StageFree (placeRows y k) := by
  induction k generalizing y with
  | zero => exact stageFree_go
  | succ k ih => exact StageFree.andThen (fun st s => stageFree_placeRow y s.drv.width 0 st s) (ih (y + 1))

theorem stageFree_pilPlace : StageFree pilPlace := fun x s => stageFree_placeRows s.drv.height 0 x s

/-! ### DECODE_PLANE -/

theorem stageFree_subhdrFetch : StageFree subhdrFetch :=
  .ite (fun _ _ => Iff.rfl) (stageFree_raise _ _ _)
    (.withBytes (k := fun bs => subhdrRead (subHeaderOf bs)) (fun _ _ => rfl) (fun _ _ => rfl) (fun _ _ => rfl)
      fun bs => stageFree_subhdrRead (subHeaderOf bs))

theorem stageFree_stageOne : StageFree stageOne :=
  (stageFree_subhdrFetch.andThen stageFree_htbBuild).andThen stageFree_hufDecode

theorem stageFree_planeRle : StageFree planeRle := fun x s => stageFree_rleExpand .src s.seq.poff s.seq.psize x s

theorem stageFree_planeHufRle : StageFree planeHufRle :=
  stageFree_stageOne.andThen fun x s => stageFree_rleExpand .mid 0 (hlenOf s.sub) x s

theorem stageFree_planeHufLz : StageFree planeHufLz := stageFree_stageOne.andThen stageFree_lzExpand

theorem stageFree_decodePlane : StageFree decodePlane :=
  .ite (fun _ _ => Iff.rfl) stageFree_planeRle (.ite (fun _ _ => Iff.rfl) stageFree_planeHufLz stageFree_planeHufRle)

/-! ## Steps that follow a piece of pseudocode (R231, D20) -/

/-- A running engine whose steps have the grain `g`. -/
structure AtGrain (g : Grain) (s : State) : Prop where
  running : Running s
  grain : s.grain = g

theorem AtGrain.goes {g : Grain} {s t : State} (h : AtGrain g s) (hg : Goes s t) : AtGrain g t :=
  ⟨⟨hg.host.trans h.running.host, hg.status.trans h.running.busy⟩, hg.grain.trans h.grain⟩

/-- What the piece `x` of pseudocode makes of `s`, the steps of the engine make of it: from position `a` they come to
position `b` where `x` goes on, and to the same state where `x` ends the command. -/
def Flow.Follows (x : Flow) (a b : Stage) (s : State) : Prop :=
  x.Post (fun t => Goes s t ∧ Reaches (Machine.atStage a s) (Machine.atStage b t)) (Reaches (Machine.atStage a s))
    fun _ => True

section
variable {g : Grain} {s s' t : State} {x : Flow} {f : State → Flow} {a a' b c : Stage} {i : Instr} {m : SeqMove}

/-- Program order (R71). -/
theorem Flow.Follows.andThen (hs : AtGrain g s) (hx : x.Follows a b s)
    (hf : ∀ t, x = .go t → AtGrain g t → (f t).Follows b c t) : (x.andThen f).Follows a c s := by
  cases x with
  | go t =>
    obtain ⟨hg, hr⟩ := hx
    exact (hf t rfl (hs.goes hg)).mono (fun u ⟨hg', hr'⟩ => ⟨hg.trans hg', hr.trans hr'⟩) (fun u hr' => hr.trans hr')
      fun _ _ => trivial
  | stop t => exact hx
  | fault e => trivial
  | refuse r => trivial

/-- A step that only prepares. -/
theorem Flow.Follows.head (hg : Goes s s') (hstep : step (Machine.atStage a s) = .next (Machine.atStage a' s'))
    (hx : x.Follows a' b s') : x.Follows a b s :=
  hx.mono (fun _ ⟨hg', hr⟩ => ⟨hg.trans hg', hr.head hstep⟩) (fun _ hr => hr.head hstep) fun _ _ => trivial

/-- An instruction that the engine fetches is one step (R27). -/
theorem Flow.Follows.instr (hs : AtGrain g s) (hfree : StageFree f) (hsound : (f s).Sound s)
    (hfetch : fetch (Machine.atStage a s) = .instr i b)
    (hexec : exec i (Machine.atStage a s) = (f (Machine.atStage a s)).toOutcome) : (f s).Follows a b s := by
  have hfa := hfree a s
  cases hf : f s with
  | go t =>
    rw [hf] at hfa hsound
    have hgo : f (Machine.atStage a s) = .go (Machine.atStage a t) := hfa
    have hnext : exec i (Machine.atStage a s) = .next (Machine.atStage a t) := by rw [hexec, hgo]; rfl
    have hbusy : (Machine.atStage a t).status = .busy := (hs.goes hsound).running.busy
    exact ⟨hsound, .single ((hs.running.atStage a).step_instr (t := Machine.atStage a t) hfetch hnext hbusy)⟩
  | stop t =>
    rw [hf] at hfa hsound
    have hstop : f (Machine.atStage a s) = .stop t := hfa
    have hnext : exec i (Machine.atStage a s) = .next t := by rw [hexec, hstop]; rfl
    exact .single ((hs.running.atStage a).step_ends hfetch hnext (Ends.notBusy hsound))
  | fault e => trivial
  | refuse r => trivial

/-- A move of the sequencer is one step, also where it ends the command (R27). -/
theorem Running.step_runMove (h : Running s) (hfetch : fetch s = .move m) : step s = (runMove m s).toOutcome := by
  rw [step_of_noMoveDue (.inl h.host), engineStep, if_pos h.busy, hfetch]

/-- A move of the sequencer follows the pseudocode whose place it takes. -/
theorem Flow.Follows.move (hs : AtGrain g s) (hfree : StageFree f) (hsound : (f s).Sound s)
    (hfetch : fetch (Machine.atStage a s) = .move m)
    (hmove : runMove m (Machine.atStage a s) = (f (Machine.atStage a s)).andThen fun t => .go (Machine.atStage b t)) :
    (f s).Follows a b s := by
  have hfa := hfree a s
  have hstep := (hs.running.atStage a).step_runMove hfetch
  rw [hmove] at hstep
  cases hf : f s with
  | go t =>
    rw [hf] at hfa hsound
    have hgo : f (Machine.atStage a s) = .go (Machine.atStage a t) := hfa
    rw [hgo] at hstep
    exact ⟨hsound, .single hstep⟩
  | stop t =>
    rw [hf] at hfa
    have hstop : f (Machine.atStage a s) = .stop t := hfa
    rw [hstop] at hstep
    exact .single hstep
  | fault e => trivial
  | refuse r => trivial

end

/-! ## The header (R211 to R215) -/

/-- The tests of the selectors and the sizes, and the geometry, which are one move of the sequencer (R212 to R214). -/
def headerTests (s : State) : Flow := ((checkSelectors s).andThen checkSizes).andThen geometry

/-- VARIANT and BPP are legal (R101). -/
def LegalSelectors (h : Header) : Prop :=
  (h.variant = 0x01#8 ∨ h.variant = 0xA1#8 ∨ h.variant = 0xA2#8) ∧ (h.bpp = 24#16 ∨ h.bpp = 32#16)

theorem acceptHeader_eq_tests (s : State) :
    acceptHeader s = (((hdrFetch s).andThen checkFormat).andThen headerTests).andThen pixFormat := by
  rw [acceptHeader, Flow.andThen_assoc _ checkSelectors checkSizes, Flow.andThen_assoc _ _ geometry]
  rfl

theorem stageFree_headerTests : StageFree headerTests :=
  (stageFree_checkSelectors.andThen stageFree_checkSizes).andThen stageFree_geometry

theorem headerTests_sound (s : State) : (headerTests s).Sound s :=
  ((checkSelectors_sound s).andThen checkSizes_sound).andThen geometry_sound

/-- Only legal selectors pass (R212). -/
theorem headerTests_legal (s : State) :
    (headerTests s).Post (fun t => LegalSelectors t.hdr) (fun _ => True) fun _ => True := by
  have selectors : (checkSelectors s).Post (fun t => LegalSelectors t.hdr) (fun _ => True) fun _ => True := by
    rw [checkSelectors_eq]
    split
    · assumption
    · trivial
  refine Flow.Post.andThen (G := fun t => LegalSelectors t.hdr)
    (Flow.Post.andThen (G := fun t => LegalSelectors t.hdr) selectors fun t ht => ?_) fun t ht => ?_
  · rw [checkSizes_eq]
    split
    · exact ht
    · trivial
  · unfold geometry
    simp only
    split
    · trivial
    · exact ht

theorem src_bytesAt_atStage (x : Stage) (s : State) (n a : Nat) : (atStage x s).bytesAt .src a n = s.bytesAt .src a n :=
  State.bytesAt_congr (atStage x s) s .src rfl n a

section
variable {g : Grain} {s : State} (hs : AtGrain g s)
include hs

theorem hdrFetch_follows (hg : g ≠ .command) : (hdrFetch s).Follows .hdrRead .hdrFormat s := by
  have hgrain : s.grain ≠ .command := hs.grain ▸ hg
  by_cases hshort : s.src.len < 0x20
  · rw [hdrFetch_short s hshort]
    refine .move hs stageFree_reject (reject_sound s) (m := .reject) ?_ rfl
    have hlt : (atStage .hdrRead s).srcLen < Config.hdrLen := hshort
    simp only [fetch, atStage_stage, atStage_grain, if_neg hgrain, if_pos hlt]
  · have hlt : ¬ (atStage .hdrRead s).srcLen < Config.hdrLen := hshort
    obtain ⟨bs, hbs, hlen⟩ := s.bytesAt_total .src Config.hdrLen 0 (by simpa using hshort)
    have hfetch : hdrFetch s = hdrRead (headerOf bs) s := (if_neg hlt).trans (withBytes_some .src s _ hbs)
    have hbs' : (atStage .hdrRead s).bytesAt .src 0 Config.hdrLen = some bs :=
      (src_bytesAt_atStage .hdrRead s _ _).trans hbs
    have hdec : decode .ch 0 bs = .ok (.hdr (headerOf bs)) Config.hdrLen := if_neg (by rw [hlen]; exact Nat.lt_irrefl _)
    rw [hfetch]
    refine .instr hs (stageFree_hdrRead _) (hdrRead_sound _ s) (i := .hdr (headerOf bs)) ?_ rfl
    simp only [fetch, atStage_stage, atStage_grain, if_neg hgrain, if_neg hlt]
    exact fetchBytes_ok hbs' hdec _ _

theorem checkFormat_follows : (checkFormat s).Follows .hdrFormat .hdrCheck s := by
  have hfetch : fetch (atStage .hdrFormat s) = fetchDecoded .format 0 [s.hdr.format] .hdrCheck .reject := rfl
  rw [checkFormat_eq]
  by_cases h1 : s.hdr.format = 1#8
  · rw [if_pos (.inl h1)]
    exact .instr hs stageFree_go (Goes.refl s) (i := .format1) (by rw [hfetch, h1]; rfl) rfl
  by_cases h2 : s.hdr.format = 2#8
  · rw [if_pos (.inr h2)]
    exact .instr hs stageFree_go (Goes.refl s) (i := .format2) (by rw [hfetch, h2]; rfl) rfl
  rw [if_neg (not_or.2 ⟨h1, h2⟩)]
  refine .move hs stageFree_reject (reject_sound s) (m := .reject) ?_ rfl
  have hdec : decode .format 0 [s.hdr.format] = .reject .illegalFormat := (if_neg h1).trans (if_neg h2)
  rw [hfetch, fetchDecoded, hdec]

theorem headerTests_follows : (headerTests s).Follows .hdrCheck .pixFormat s :=
  .move hs stageFree_headerTests (headerTests_sound s) (m := .check) rfl rfl

/-- BPP's selector is PIX.INIT (R215). -/
theorem pixFormat_follows (hbpp : s.hdr.bpp = 24#16 ∨ s.hdr.bpp = 32#16) :
    (pixFormat s).Follows .pixFormat .plan s := by
  have hfetch : fetch (atStage .pixFormat s) = fetchDecoded .bpp 0 (bytes16 s.hdr.bpp) .plan .reject := rfl
  have hfree : StageFree pixFormat := .of_eq fun _ _ => rfl
  rcases hbpp with h | h
  · refine .instr hs hfree (pixFormat_sound s) (i := .bpp24) (by rw [hfetch, h]; rfl) ?_
    rw [pixFormat, atStage_hdr, h]
    rfl
  · refine .instr hs hfree (pixFormat_sound s) (i := .bpp32) (by rw [hfetch, h]; rfl) ?_
    rw [pixFormat, atStage_hdr, h]
    rfl

/-- All that comes before the plan. -/
theorem acceptHeader_follows (hg : g ≠ .command) : (acceptHeader s).Follows .hdrRead .plan s := by
  rw [acceptHeader_eq_tests]
  refine .andThen hs (.andThen hs (.andThen hs (hdrFetch_follows hs hg) fun _ _ ht => checkFormat_follows ht)
    fun _ _ ht => headerTests_follows ht) fun t hgo ht => pixFormat_follows ht ?_
  obtain ⟨u, -, htests⟩ := Flow.andThen_eq_go hgo
  exact ((headerTests_legal u).of_eq_go htests).2

end

/-! ## The units of a plane, at the grain of a unit or of a stream code (R173, R193, R155) -/

theorem hufDecode_neverEnds (s : State) : (hufDecode s).Post (fun _ => True) (fun _ => False) fun _ => True :=
  Flow.Post.andThen (G := fun _ => True)
    ((hufLoop_post _ _).mono (fun _ _ => trivial) (fun _ h => h) fun _ _ => trivial) fun _ _ => trivial

/-- A unit that never ends the command, run code by code. -/
theorem Flow.Follows.codes {s : State} {f : State → Flow} {a b : Stage} {i : Instr} (hfree : StageFree f)
    (hsound : (f s).Sound s) (hnever : (f s).Post (fun _ => True) (fun _ => False) fun _ => True)
    (hexec : exec i (Machine.atStage a s) = (f (Machine.atStage a s)).toOutcome)
    (hcodes : ∀ t, exec i (Machine.atStage a s) = .next t → Reaches (Machine.atStage a s) (Machine.atStage b t)) :
    (f s).Follows a b s := by
  have hfa := hfree a s
  cases hf : f s with
  | go t =>
    rw [hf] at hfa hsound
    have hgo : f (Machine.atStage a s) = .go (Machine.atStage a t) := hfa
    exact ⟨hsound, hcodes (Machine.atStage a t) (by rw [hexec, hgo]; rfl)⟩
  | stop t => rw [hf] at hnever; exact hnever.elim
  | fault e => trivial
  | refuse r => trivial

section
variable {g : Grain} {s : State} (hs : AtGrain g s)
include hs

theorem subhdrFetch_follows : (subhdrFetch s).Follows .subhdr .build s := by
  by_cases hshort : s.seq.psize < Config.subHdrLen
  · rw [subhdrFetch, if_pos hshort]
    refine .move hs (stageFree_raise _ _ _) (raise_sound _ (by decide) _ _ s) (m := .badSubHeader) (if_pos hshort) rfl
  rw [subhdrFetch, if_neg hshort, withBytes]
  cases hbs : s.bytesAt .src s.seq.poff Config.subHdrLen with
  | none => trivial
  | some bs =>
    have hlen : bs.length = Config.subHdrLen := s.bytesAt_length .src hbs
    have hbs' : (atStage .subhdr s).bytesAt .src s.seq.poff Config.subHdrLen = some bs :=
      (src_bytesAt_atStage .subhdr s _ _).trans hbs
    have hdec : decode .sh 0 bs = .ok (.subhdr (subHeaderOf bs)) Config.subHdrLen :=
      if_neg (by rw [hlen]; exact Nat.lt_irrefl _)
    simp only
    generalize subHeaderOf bs = t at hdec ⊢
    exact .instr hs (stageFree_subhdrRead t) (subhdrRead_sound t s) (i := .subhdr t)
      ((if_neg hshort).trans (fetchBytes_ok hbs' hdec _ _)) rfl

theorem htbBuild_follows : (htbBuild s).Follows .build .huff s :=
  .instr hs stageFree_htbBuild (htbBuild_sound s) (i := .htbBuild) rfl rfl

theorem hufDecode_follows : (hufDecode s).Follows .huff .expand s := by
  by_cases hcode : s.grain = .code
  · exact .codes stageFree_hufDecode (hufDecode_sound s) (hufDecode_neverEnds s) (i := .hufDecode) rfl
      fun t ht => bitsMakeUpHufDecode (atStage .huff s) t hs.running.host hs.running.busy hcode rfl ht
  · exact .instr hs stageFree_hufDecode (hufDecode_sound s) (i := .hufDecode) (if_neg hcode) rfl

/-- Stage one is its three units' steps (R218). -/
theorem stageOne_follows : (stageOne s).Follows .subhdr .expand s :=
  .andThen hs (.andThen hs (subhdrFetch_follows hs) fun _ _ ht => htbBuild_follows ht) fun _ _ ht => hufDecode_follows ht

theorem rleExpand_follows (hvar : s.hdr.variant ≠ 0xA2#8) :
    (rleExpand (runOperands s).1 (runOperands s).2.1 (runOperands s).2.2 s).Follows .expand .place s := by
  have hlz : (atStage .expand s).hdr.variant ≠ Config.variantHufLz := hvar
  by_cases hcode : s.grain = .code
  · exact .codes (stageFree_rleExpand _ _ _) (rleExpand_sound _ _ _ s) (rleExpand_neverEnds _ _ _ s)
      (i := .rleExpand (runOperands s).1 (runOperands s).2.1 (runOperands s).2.2) rfl
      fun t ht => runCodesMakeUpRleExpand (atStage .expand s) t hs.running.host hs.running.busy hcode rfl hvar ht
  · refine .instr hs (stageFree_rleExpand _ _ _) (rleExpand_sound _ _ _ s)
      (i := .rleExpand (runOperands s).1 (runOperands s).2.1 (runOperands s).2.2) ?_ rfl
    exact (if_neg hlz).trans (if_neg hcode)

theorem lzExpand_follows (hvar : s.hdr.variant = 0xA2#8) : (lzExpand s).Follows .expand .place s := by
  have hlz : (atStage .expand s).hdr.variant = Config.variantHufLz := hvar
  by_cases hcode : s.grain = .code
  · have hsound := lzExpand_sound s
    have hfa := stageFree_lzExpand .expand s
    have htokens : ∀ t, exec .lzExpand (atStage .expand s) = .next t →
        Reaches (atStage .expand s) (if t.status = .busy then atStage .place t else t) := fun t =>
      tokensMakeUpLzExpand (atStage .expand s) t hs.running.host hs.running.busy hcode rfl hvar
    cases hf : lzExpand s with
    | go t =>
      rw [hf] at hsound hfa
      have hgo : lzExpand (atStage .expand s) = .go (atStage .expand t) := hfa
      have hr := htokens (atStage .expand t) (congrArg Flow.toOutcome hgo)
      have hbusy : (atStage .expand t).status = .busy := (hs.goes hsound).running.busy
      rw [if_pos hbusy] at hr
      exact ⟨hsound, hr⟩
    | stop t =>
      rw [hf] at hsound hfa
      have hstop : lzExpand (atStage .expand s) = .stop t := hfa
      have hr := htokens t (congrArg Flow.toOutcome hstop)
      rw [if_neg (Ends.notBusy hsound)] at hr
      exact hr
    | fault e => trivial
    | refuse r => trivial
  · exact .instr hs stageFree_lzExpand (lzExpand_sound s) (i := .lzExpand) ((if_pos hlz).trans (if_neg hcode)) rfl

theorem pilPlace_follows : (pilPlace s).Follows .place .advance s :=
  .instr hs stageFree_pilPlace (pilPlace_sound s) (i := .pilPlace) rfl rfl

end

/-! ## DECODE_PLANE (R218) -/

/-- Stage one leaves the header alone (R218). -/
theorem stageOne_hdr (s : State) : (stageOne s).Post (fun t => t.hdr = s.hdr) (fun _ => True) fun _ => True := by
  have record : (subhdrFetch s).Post (fun t => t.hdr = s.hdr) (fun _ => True) fun _ => True := by
    unfold subhdrFetch
    split
    · trivial
    · refine withBytes_post (fun bs _ => ?_) fun _ => trivial
      unfold subhdrRead
      simp only
      split
      · trivial
      · split
        · trivial
        · rfl
  refine Flow.Post.andThen (G := fun t => t.hdr = s.hdr) (Flow.Post.andThen (G := fun t => t.hdr = s.hdr) record ?_) ?_
  · intro t ht
    exact (htbBuild_post t).mono (fun u ⟨_, hu⟩ => by rw [hu]; exact ht) (fun _ _ => trivial) fun _ _ => trivial
  · intro t ht
    refine Flow.Post.andThen (G := fun u => u.hdr = s.hdr) ((hufLoop_post _ _).mono (fun u hu => ?_) (fun _ _ => trivial)
      fun _ _ => trivial) fun u hu => ?_
    · rw [hu.1.rest, hufInit_rest]; exact ht
    · rw [hufReturn_eq]; exact hu

section
variable {g : Grain} {s : State} (hs : AtGrain g s)
include hs

/-- At a finer grain than a plane, a move of the sequencer chooses the plane's first unit (R218). -/
theorem step_policy (hg : g ≠ .plane) : step (atStage .policy s)
    = .next (atStage (if s.hdr.variant = 0x01#8 then .expand else .subhdr) s) := by
  have hgrain : s.grain ≠ .plane := hs.grain ▸ hg
  exact (hs.running.atStage .policy).step_runMove (m := .policy) (if_neg hgrain)

theorem decodePlane_follows_units (hg : g ≠ .plane) : (decodePlane s).Follows .policy .place s := by
  have hstep := step_policy hs hg
  by_cases hrle : s.hdr.variant = 0x01#8
  · rw [if_pos hrle] at hstep
    have hops : runOperands s = (.src, s.seq.poff, s.seq.psize) := if_pos hrle
    have hexpand := rleExpand_follows hs (by rw [hrle]; decide)
    rw [hops] at hexpand
    rw [show decodePlane s = planeRle s from if_pos hrle]
    exact .head (Goes.refl s) hstep hexpand
  rw [if_neg hrle] at hstep
  rw [decodePlane_huffman hrle]
  refine .head (Goes.refl s) hstep (.andThen hs (stageOne_follows hs) fun t hgo ht => ?_)
  have hhdr : t.hdr = s.hdr := (stageOne_hdr s).of_eq_go hgo
  by_cases hlz : s.hdr.variant = 0xA2#8
  · rw [if_pos hlz]
    exact lzExpand_follows ht (by rw [hhdr]; exact hlz)
  · have hops : runOperands t = (.mid, 0, hlenOf t.sub) := if_neg (by rw [hhdr]; exact hrle)
    have hexpand := rleExpand_follows ht (by rw [hhdr]; exact hlz)
    rw [hops] at hexpand
    rw [if_neg hlz]
    exact hexpand

/-- At the grain of a plane, DECODE_PLANE is the instruction that VARIANT selects (R101, R218). -/
theorem decodePlane_follows_variant (hg : g = .plane)
    (hvar : s.hdr.variant = 0x01#8 ∨ s.hdr.variant = 0xA1#8 ∨ s.hdr.variant = 0xA2#8) :
    (decodePlane s).Follows .policy .place s := by
  have hgrain : s.grain = .plane := hs.grain.trans hg
  have hfetch : fetch (atStage .policy s) = fetchDecoded .variant 0 [s.hdr.variant] .place .reject := if_pos hgrain
  have selects : ∀ {i : Instr} {f : State → Flow},
      fetchDecoded .variant 0 [s.hdr.variant] .place .reject = .instr i .place → decodePlane (atStage .policy s) = f (atStage .policy s) → (∀ t, exec i t = (f t).toOutcome) →
      (decodePlane s).Follows .policy .place s := fun hi hf hexec =>
    .instr hs stageFree_decodePlane (decodePlane_sound s) (hfetch.trans hi) (by rw [hf]; exact hexec _)
  rcases hvar with h | h | h
  · refine selects (i := .variantRle) (f := planeRle) (by rw [h]; rfl) (if_pos h) fun _ => rfl
  · refine selects (i := .variantHufRle) (f := planeHufRle) (by rw [h]; rfl) ?_ fun _ => rfl
    rw [decodePlane, atStage_hdr, h]
    rfl
  · refine selects (i := .variantHufLz) (f := planeHufLz) (by rw [h]; rfl) ?_ fun _ => rfl
    rw [decodePlane, atStage_hdr, h]
    rfl

theorem decodePlane_follows (hvar : s.hdr.variant = 0x01#8 ∨ s.hdr.variant = 0xA1#8 ∨ s.hdr.variant = 0xA2#8) :
    (decodePlane s).Follows .policy .place s := by
  by_cases hg : g = .plane
  · exact decodePlane_follows_variant hs hg hvar
  · exact decodePlane_follows_units hs hg

end

/-! ## The plan (R216, R232) -/

/-- A turn of the plan up to its last line (R216). -/
def turnBody (ch : Chan) (s : State) : Flow :=
  if planePresent (choosePlane ch s) ch then (decodePlane (planeInit (choosePlane ch s))).andThen pilPlace
  else .go (choosePlane ch s)

theorem planTurn_eq_body (ch : Chan) (s : State) :
    planTurn ch s = (turnBody ch s).andThen fun t => .go (planAdvance t) := rfl

/-- The plan stands before the turn of `ch`, with legal selectors. -/
structure TurnReady (g : Grain) (ch : Chan) (s : State) : Prop where
  run : AtGrain g s
  turn : AtTurn ch s
  legal : LegalSelectors s.hdr

section
variable {g : Grain} {ch : Chan} {s t : State}

theorem turnBody_inTurn (h : AtTurn ch s) : (turnBody ch s).Safe (InTurn ch) := by
  have hc := choosePlane_inTurn h
  unfold turnBody
  split
  · rename_i hpres
    exact ((decodePlane_safe (planeInit_inPlane hc hpres)).andThen fun _ => pilPlace_safe).mono fun _ hp => hp.inTurn
  · exact hc

theorem turnBody_follows (h : TurnReady g ch s) : (turnBody ch s).Follows (.select ch) .advance s := by
  have hstep := (h.run.running.atStage (.select ch)).step_runMove (m := .select ch) rfl
  have hmove : runMove (.select ch) (atStage (.select ch) s) = if planePresent (choosePlane ch s) ch = true
    then .go (atStage .policy (planeInit (choosePlane ch s))) else .go (atStage .advance (choosePlane ch s)) := rfl
  have hchoose := choosePlane_goes ch s
  rw [hmove] at hstep
  rw [turnBody]
  by_cases hpres : planePresent (choosePlane ch s) ch = true
  · rw [if_pos hpres] at hstep ⊢
    have hinit := hchoose.trans (planeInit_goes (choosePlane ch s))
    exact .head hinit hstep
      (.andThen (h.run.goes hinit) (decodePlane_follows (h.run.goes hinit) h.legal.1) fun _ _ ht => pilPlace_follows ht)
  · rw [if_neg hpres] at hstep ⊢
    exact ⟨hchoose, .single hstep⟩

/-- The step behind a plane goes to the next channel, or ends the command (R216, R232). -/
theorem step_advance (ht : AtGrain g t) : step (atStage .advance t) = (if t.seq.pch = 0#2 then finish (planAdvance t)
    else .go (atStage (.select (t.seq.pch - 1)) (planAdvance t))).toOutcome :=
  (ht.running.atStage .advance).step_runMove (m := .advance) rfl

theorem planAdvance_follows (ht : AtGrain g t) (hpch : t.seq.pch = ch) (hch : ch ≠ 0#2) :
    (Flow.go (planAdvance t)).Follows .advance (.select (ch - 1)) t := by
  have hstep := step_advance ht
  rw [hpch, if_neg hch] at hstep
  exact ⟨planAdvance_goes t, .single hstep⟩

theorem finish_follows (ht : AtGrain g t) (hpch : t.seq.pch = 0#2) (b : Stage) :
    (finish (planAdvance t)).Follows .advance b t := by
  have hstep := step_advance ht
  rw [if_pos hpch] at hstep
  exact .single hstep

theorem planTurn_follows (h : TurnReady g ch s) (hch : ch ≠ 0#2) :
    (planTurn ch s).Follows (.select ch) (.select (ch - 1)) s :=
  .andThen h.run (turnBody_follows h) fun _ hgo ht =>
    planAdvance_follows ht (Flow.Post.of_eq_go (turnBody_inTurn h.turn) hgo).pch hch

/-- Where a turn goes on, the next one is ready. -/
theorem TurnReady.next (h : TurnReady g ch s) (hch : ch ≠ 0#2) (hgo : planTurn ch s = .go t) :
    TurnReady g (ch - 1) t := by
  have hrun := h.run.goes (planTurn_goes hgo)
  rcases planTurn_ends h.turn with ⟨u, hu, hk, hturn⟩ | ⟨u, hu, -⟩
  · obtain rfl : t = u := Flow.go.inj (hgo.symm.trans hu)
    exact ⟨hrun, hturn hch, hk.hdr ▸ h.legal⟩
  · rw [hgo] at hu
    cases hu

/-- The turn of the last channel, and the end of the command. -/
theorem lastTurn_follows (h : TurnReady g 0#2 s) (b : Stage) :
    ((planTurn 0#2 s).andThen finish).Follows (.select 0#2) b s := by
  rw [planTurn_eq_body, Flow.andThen_assoc]
  exact .andThen h.run (turnBody_follows h) fun _ hgo ht =>
    finish_follows ht (Flow.Post.of_eq_go (turnBody_inTurn h.turn) hgo).pch b

/-- The four turns and the end (R216, R232). -/
theorem planes_follows (hs : AtGrain g s) (himage : ImageOk s) (hlegal : LegalSelectors s.hdr) (b : Stage) :
    ((planes s).andThen finish).Follows .plan b s := by
  have hstart : (Flow.go (planStart s)).Follows .plan (.select 3#2) s :=
    ⟨planStart_goes s, .single ((hs.running.atStage .plan).step_runMove (m := .plan) rfl)⟩
  have hready : TurnReady g 3#2 (planStart s) := ⟨hs.goes (planStart_goes s), planStart_atTurn himage, hlegal⟩
  have hplanes : (planes s).andThen finish = (Flow.go (planStart s)).andThen fun s3 =>
      (planTurn 3#2 s3).andThen fun s2 => (planTurn 2#2 s2).andThen fun s1 => (planTurn 1#2 s1).andThen fun s0 =>
        (planTurn 0#2 s0).andThen finish := by
    rw [planes, Flow.andThen_assoc, Flow.andThen_assoc, Flow.andThen_assoc]
    rfl
  rw [hplanes]
  refine .andThen hs hstart fun s3 h3 _ => ?_
  obtain rfl : planStart s = s3 := Flow.go.inj h3
  refine .andThen hready.run (planTurn_follows hready (by decide)) fun s2 h2 _ => ?_
  have hready2 := hready.next (by decide) h2
  refine .andThen hready2.run (planTurn_follows hready2 (by decide)) fun s1 h1 _ => ?_
  have hready1 := hready2.next (by decide) h1
  refine .andThen hready1.run (planTurn_follows hready1 (by decide)) fun s0 h0 _ => ?_
  exact lastTurn_follows (hready1.next (by decide) h0) b

/-- What the header's tests let pass has legal selectors (R212). -/
theorem acceptHeader_legal (hgo : acceptHeader s = .go t) : LegalSelectors t.hdr := by
  rw [acceptHeader_eq_tests] at hgo
  obtain ⟨v, htests, hpix⟩ := Flow.andThen_eq_go hgo
  obtain ⟨u, -, htests⟩ := Flow.andThen_eq_go htests
  have hlegal : LegalSelectors v.hdr := (headerTests_legal u).of_eq_go htests
  cases hpix
  exact hlegal

theorem seqDecode_follows (hs : AtGrain g s) (hg : g ≠ .command) (b : Stage) : (seqDecode s).Follows .hdrRead b s := by
  rw [seqDecode, Flow.andThen_assoc]
  exact .andThen hs (acceptHeader_follows hs hg) fun t hgo ht =>
    planes_follows ht (Flow.Post.of_eq_go (acceptHeader_safe s) hgo) (acceptHeader_legal hgo) b

end

/-- Settles O56: at the grain of a command SEQ.DECODE is one step; at every other grain the steps follow its pseudocode. -/
theorem everyGrainReachesTheSameEnd : Obligations.EveryGrainReachesTheSameEnd := by
  intro s t hhost hbusy hstage hnext
  have hrun : Running s := ⟨hhost, hbusy⟩
  show Reaches s t
  by_cases hg : s.grain = .command
  · have hfetch : fetch s = .instr .seqDecode .idle := by simp only [fetch, hstage, hg, if_true]
    exact .single (hrun.step_ends hfetch hnext (seqDecode_ends hnext).notBusy)
  · have hself : atStage .hdrRead s = s := by rw [← hstage]; rfl
    have hfollows := seqDecode_follows ⟨hrun, rfl⟩ hg .idle
    have hpost := seqDecode_post s
    have hflow : (seqDecode s).toOutcome = .next t := hnext
    cases hx : seqDecode s with
    | go u => rw [hx] at hpost; exact hpost.elim
    | stop u =>
      rw [hx] at hfollows hflow
      cases hflow
      exact hself ▸ hfollows
    | fault e => rw [hx] at hflow; cases hflow
    | refuse r => rw [hx] at hflow; cases hflow

end Sys2Proof.Machine

/-! PROOFS. The statements of 45_plane_interleaver.md: PIL.PLACE puts PLANE into its lane of PIX with the rows reversed and
writes no other space, and no unit but PIL writes PIX between one PIX.INIT and the next. -/

namespace Sys2Proof.Machine

/-! ## The placement (R242, O19) -/

theorem exec_pilPlace (s : State) : exec .pilPlace s = (pilPlace s).toOutcome := rfl

/-- Settles O19: the placement's frame gives what stays, and the pixels placed row by row are all pixels of the image. -/
theorem placeFlipsIntoItsLane : Obligations.PlaceFlipsIntoItsLane := by
  intro s hplane hpix hlane
  obtain ⟨t, hgo, hp⟩ := pilPlace_places ⟨hplane, hpix, hlane⟩
  refine ⟨t.pix, t.seq.py, t.seq.px, ?_, hp.frame.len, fun r c hr hc => hp.lane r c ⟨hr, hc⟩,
    fun a ha => hp.other a fun r c hrc => ha r c hrc.1 hrc.2⟩
  rw [exec_pilPlace, hgo, Flow.go_toOutcome, ← hp.frame.rest]

/-- What PIL.PLACE answers keeps the placement's frame, in bounds or not: outside them it faults. -/
theorem pilPlace_next {s t : State} (h : exec .pilPlace s = .next t) : PilFrame s t :=
  Flow.Post.next ((pilPlace_post s).mono (fun _ hf => hf) (fun _ hf => hf.elim) fun _ hf => hf) h

/-! ## Who writes PIX (R244 (f), R40) -/

/-- A piece of pseudocode that leaves `m` in PIX, whether it goes on or ends the command. -/
abbrev Flow.LeavesPix (m : Memory) (x : Flow) : Prop := x.Post (fun t => t.pix = m) (fun t => t.pix = m) fun _ => True

theorem Flow.LeavesPix.andThen {m : Memory} {x : Flow} {f : State → Flow} (hx : x.LeavesPix m)
    (hf : ∀ t, t.pix = m → (f t).LeavesPix m) : (x.andThen f).LeavesPix m := Flow.Post.andThen hx hf

theorem RleFrame.pix {s t : State} (h : RleFrame s t) : t.pix = s.pix := by rw [h.rest]

theorem LzFrame.pix {s t : State} (h : LzFrame s t) : t.pix = s.pix := by rw [h.rest]

theorem WalkFrame.pix {s t : State} (h : WalkFrame s t) : t.pix = s.pix := by rw [h.rest]

/-- The fatal entry leaves PIX as the copy found it (R256). -/
theorem LzRaised.pix {s t : State} (h : LzRaised s t) : t.pix = s.pix := by
  obtain ⟨u, hu, -, hr⟩ := h
  cases hr
  exact hu.pix

section
variable {m : Memory} {s : State} (h : s.pix = m)
include h

/-! ### The records and the tree -/

theorem hdrRead_leavesPix (r : Header) : (hdrRead r s).LeavesPix m := by
  unfold hdrRead
  split
  · exact h
  · exact h

theorem subhdrRead_leavesPix (r : SubHeader) : (subhdrRead r s).LeavesPix m := by
  unfold subhdrRead
  simp only
  split
  · exact h
  · split
    · exact h
    · exact h

theorem subhdrFetch_leavesPix : (subhdrFetch s).LeavesPix m := by
  unfold subhdrFetch
  split
  · exact h
  · exact withBytes_post (fun _ _ => subhdrRead_leavesPix h _) fun _ => trivial

theorem htbBuild_leavesPix : (htbBuild s).LeavesPix m := by
  refine (htbBuild_post s).mono ?_ ?_ fun _ _ => trivial
  · rintro t ⟨-, rfl⟩
    exact h
  · rintro t ⟨-, hr⟩
    cases hr
    exact h

/-! ### The Huffman stage, which writes MID -/

theorem walkBit_leavesPix (right : Bool) : (walkBit right s).LeavesPix m := by
  rw [walkBit_eq]
  split
  · exact h
  · trivial

theorem hufEmit_leavesPix : (hufEmit s).LeavesPix m := by
  rw [hufEmit_eq]
  split
  · split
    · exact h
    · trivial
  · trivial

theorem hufLoop_leavesPix (k : Nat) : (hufLoop k s).LeavesPix m :=
  (hufLoop_post k s).mono (fun _ ht => ht.1.pix.trans h) (fun _ hf => hf.elim) fun _ _ => trivial

theorem hufDecode_leavesPix : (hufDecode s).LeavesPix m :=
  (hufLoop_leavesPix (s := hufInit s) (by simpa [hufInit] using h) _).andThen fun t ht => by simpa using ht

theorem stageOne_leavesPix : (stageOne s).LeavesPix m :=
  ((subhdrFetch_leavesPix h).andThen fun _ => htbBuild_leavesPix).andThen fun _ => hufDecode_leavesPix

/-! ### The expanders, which write PLANE -/

theorem rleLit_leavesPix (n : BitVec 7) : (rleLit n s).LeavesPix m :=
  (rleLit_post n s).mono (fun _ ht => ht.pix.trans h) (fun _ hf => hf.elim) fun _ _ => trivial

theorem rleRep_leavesPix (n : BitVec 7) : (rleRep n s).LeavesPix m :=
  (rleRep_post n s).mono (fun _ ht => ht.pix.trans h) (fun _ hf => hf.elim) fun _ _ => trivial

theorem rleExpand_leavesPix (sp : RunSource) (base budget : Nat) : (rleExpand sp base budget s).LeavesPix m := by
  have hloop : (rleLoop budget (rleInit sp base budget s)).LeavesPix m :=
    (rleLoop_post _ _).mono (fun _ ht => ht.pix.trans h) (fun _ hf => hf.elim) fun _ _ => trivial
  exact hloop.andThen fun t ht => by simpa using ht

/-- Wherever LDP stands, a byte goes to PLANE or faults (R192). -/
theorem lzEmit_leavesPix (v : Byte) : (lzEmit v s).LeavesPix m := by
  rw [lzEmit, putByte_eq]
  split
  · exact h
  · trivial

theorem lzCopy_leavesPix (k : Nat) : (lzCopy k s).LeavesPix m := by
  induction k generalizing s with
  | zero => exact h
  | succ k ih =>
    rw [lzCopy]
    exact withByte_post (fun v _ => (lzEmit_leavesPix h v).andThen fun _ => ih) fun _ => trivial

theorem lzCpy_leavesPix (o cnt : Byte) : (lzCpy o cnt s).LeavesPix m := by
  unfold lzCpy
  simp only
  split
  · exact h
  · exact lzCopy_leavesPix (s := { s with lz := { s.lz with loff := lzDistance s.lz.special o } }) h _

theorem lzExpand_leavesPix : (lzExpand s).LeavesPix m := by
  have hloop (k : Nat) : (lzLoop k (lzInit (midHeader s) s)).LeavesPix m :=
    (lzLoop_post _ _).mono (fun _ ht => ht.pix.trans h) (fun _ ht => ht.pix.trans h) fun _ _ => trivial
  exact (hloop _).andThen fun t ht => by simpa using ht

end

/-- The instructions in whose course PIX is written: the placement, PIX.INIT under either selector, the whole command, and
RESET (R40). -/
def WritesPix (i : Instr) : Prop := i = .pilPlace ∨ i = .bpp24 ∨ i = .bpp32 ∨ i = .seqDecode ∨ i = .reset

/-- Every instruction of the engine that is no writer of PIX leaves it as it was. -/
theorem exec_leavesPix {i : Instr} (s : State) (hw : ¬ WritesPix i) (hi : ¬ HostMove i) :
    ∃ x : Flow, exec i s = x.toOutcome ∧ x.LeavesPix s.pix := by
  cases i with
  | nop => exact ⟨.go _, rfl, rleFetch_pix _ s⟩
  | lit n => exact ⟨_, rfl, rleLit_leavesPix (rleFetch_pix _ s) n⟩
  | rep n => exact ⟨_, rfl, rleRep_leavesPix (rleFetch_pix _ s) n⟩
  | lzlit b => exact ⟨_, rfl, lzEmit_leavesPix (lzFetch_pix _ s) b⟩
  | lzesc => exact ⟨_, rfl, lzEmit_leavesPix ((lzFetchOffset_pix _ _).trans (lzFetch_pix _ s)) _⟩
  | lzcpy o cnt =>
    exact ⟨_, rfl, lzCpy_leavesPix ((lzFetchCount_pix _ _).trans ((lzFetchOffset_pix _ _).trans (lzFetch_pix _ s))) o cnt⟩
  | hb0 => exact ⟨_, rfl, walkBit_leavesPix rfl false⟩
  | hb1 => exact ⟨_, rfl, walkBit_leavesPix rfl true⟩
  | emit => exact ⟨_, rfl, hufEmit_leavesPix rfl⟩
  | format1 => exact ⟨.go s, rfl, rfl⟩
  | format2 => exact ⟨.go s, rfl, rfl⟩
  | variantRle => exact ⟨_, rfl, rleExpand_leavesPix rfl _ _ _⟩
  | variantHufRle =>
    exact ⟨_, rfl, (stageOne_leavesPix (s := s) rfl).andThen fun _ ht => rleExpand_leavesPix ht _ _ _⟩
  | variantHufLz => exact ⟨_, rfl, (stageOne_leavesPix (s := s) rfl).andThen fun _ => lzExpand_leavesPix⟩
  | hdr r => exact ⟨_, rfl, hdrRead_leavesPix rfl r⟩
  | subhdr r => exact ⟨_, rfl, subhdrRead_leavesPix rfl r⟩
  | lzhdr r => exact ⟨.go _, rfl, lzInit_pix r s⟩
  | htbBuild => exact ⟨_, rfl, htbBuild_leavesPix rfl⟩
  | hufDecode => exact ⟨_, rfl, hufDecode_leavesPix rfl⟩
  | rleExpand sp base budget => exact ⟨_, rfl, rleExpand_leavesPix rfl sp base budget⟩
  | lzExpand => exact ⟨_, rfl, lzExpand_leavesPix rfl⟩
  | pilPlace | bpp24 | bpp32 | seqDecode | reset => exact absurd (by simp [WritesPix]) hw
  | load bs => exact absurd (.inr (.inr ⟨bs, rfl⟩)) hi
  | start => exact absurd (.inr (.inl rfl)) hi

/-- LOAD writes SRC alone, and START no space (R210, R230). -/
theorem hostMove_keeps_pix {i : Instr} {s t : State} (hi : HostMove i) (hreset : i ≠ .reset) (he : exec i s = .next t) :
    t.pix = s.pix := by
  rcases hi with rfl | rfl | ⟨bs, rfl⟩
  · exact absurd rfl hreset
  · obtain ⟨-, rfl⟩ := start_next s t he
    rfl
  · obtain ⟨-, rfl⟩ := load_next bs s t he
    rfl

/-- Whatever is no writer of PIX keeps it. That START, a REJECT and the fatal entry keep it too is the model's reading of
bytes the spec leaves unspecified there (R46, R252; log 7, log 21). -/
theorem exec_keeps_pix {i : Instr} {s t : State} (hw : ¬ WritesPix i) (he : exec i s = .next t) : t.pix = s.pix := by
  by_cases hi : HostMove i
  · exact hostMove_keeps_pix hi (fun hr => hw (by simp [WritesPix, hr])) he
  · obtain ⟨x, hx, hleaves⟩ := exec_leavesPix s hw hi
    exact Flow.Post.next hleaves (hx ▸ he)

/-- Settles O48: only the writers of PIX change it, and the placement's frame holds SRC, MID and PLANE. -/
theorem onlyPilAndPixInitWritePix : Obligations.OnlyPilAndPixInitWritePix := by
  intro i s t he
  refine ⟨fun hpil h24 h32 hseq hreset => exec_keeps_pix ?_ he, ?_⟩
  · rintro (hi | hi | hi | hi | hi)
    · exact hpil hi
    · exact h24 hi
    · exact h32 hi
    · exact hseq hi
    · exact hreset hi
  · rintro rfl
    have hframe := pilPlace_next he
    exact ⟨by rw [hframe.rest], by rw [hframe.rest], by rw [hframe.rest]⟩

end Sys2Proof.Machine

/-! PROOFS. The statement of 60_exceptions.md on failing planes: a command whose planes fail ends in the error of the
first of them in the order alpha, red, green, blue. -/

namespace Sys2Proof.Machine

/-! ## The plan, whatever its planes decode to (R216, R256) -/

/-- Every plane decoded from the start of the plan down to channel offset `j` decodes (R216). -/
def DecodesDownTo (s : State) (j : Nat) : Prop :=
  ∀ ch : Chan, j ≤ ch.toNat → decodes (srcHeader s) ch → ∃ out cut1 cut2, planeOf s ch = .done out cut1 cut2

/-- The command that began in `s` has ended in `t` with the error of channel `ch`, whose plane is the first to fail
(R256, R259 (b) and (d)). -/
structure FirstFailure (s : State) (ch : Chan) (cause : ErrCause) (pos : Nat) (off : Byte) (cut1 : Bool) (t : State) :
    Prop where
  before : DecodesDownTo s (ch.toNat + 1)
  present : decodes (srcHeader s) ch
  outcome : planeOf s ch = .failed cause pos off cut1
  kept : TurnKept (acceptedState s) t
  status : t.status = .error
  stage : t.stage = .idle
  err : t.err = { cause := cause, plane := ch, pos := pos, off := off }
  flags : FlagsSet s t ch cut1 false
  earlier : ∀ ch' : Chan, ch.toNat < ch'.toNat → decodes (srcHeader s) ch' →
    ∀ out c1 c2, planeOf s ch' = .done out c1 c2 → FlagsSet s t ch' c1 c2
  later : ∀ ch' : Chan, ch'.toNat < ch.toNat ∨ ¬ decodes (srcHeader s) ch' → FlagsSet s t ch' false false

section
variable {s t u : State} {ch : Chan}

theorem DecodesDownTo.next (h : DecodesDownTo s (ch.toNat + 1))
    (hch : decodes (srcHeader s) ch → ∃ out cut1 cut2, planeOf s ch = .done out cut1 cut2) :
    DecodesDownTo s ch.toNat := by
  intro ch' hle
  rcases Nat.lt_or_eq_of_le hle with hlt | heq
  · exact h ch' hlt
  · exact BitVec.eq_of_toNat_eq heq ▸ hch

/-- A failing plane's turn, after turns whose planes decoded. -/
theorem Turned.fail {cause : ErrCause} {pos : Nat} {off : Byte} {cut1 : Bool} (ht : Turned s (ch.toNat + 1) t)
    (hbefore : DecodesDownTo s (ch.toNat + 1)) (hd : decodes (srcHeader s) ch)
    (hout : planeOf s ch = .failed cause pos off cut1) (hk : TurnKept t u)
    (htrunc : u.trunc = raiseFlags ch cut1 false t.trunc)
    (herr : u.err = { cause := cause, plane := ch, pos := pos, off := off }) (hstatus : u.status = .error)
    (hstage : u.stage = .idle) : FirstFailure s ch cause pos off cut1 u where
  before := hbefore
  present := hd
  outcome := hout
  kept := ht.kept.trans hk
  status := hstatus
  stage := hstage
  err := herr
  flags := (ht.blank ch (.inl (Nat.lt_succ_self _))).1.kept_then (flagsSet_raiseFlags htrunc)
  earlier := by
    intro ch' hlt hd' out c1 c2 hout'
    have hne : ch' ≠ ch := fun heq => Nat.lt_irrefl _ (heq ▸ hlt)
    obtain ⟨hflags, -⟩ := ht.decoded ch' hlt hd' out c1 c2 hout'
    exact hflags.then_kept (flagsSet_raiseFlags_other hne htrunc)
  later := by
    intro ch' hblank
    have hne : ch' ≠ ch := by
      rintro rfl
      exact hblank.elim (Nat.lt_irrefl _) fun hno => hno hd
    obtain ⟨hflags, -⟩ := ht.blank ch' (hblank.imp Nat.lt_succ_of_lt id)
    exact hflags.then_kept (flagsSet_raiseFlags_other hne htrunc)

/-- A turn of the plan goes on if its plane is absent or decodes, and else ends the command in that plane's error
(R216, R220, R256). -/
theorem planTurn_turned_or_fails (ht : Turned s (ch.toNat + 1) t) (hbefore : DecodesDownTo s (ch.toNat + 1))
    (hat : AtTurn ch t) :
    (planTurn ch t).Answers
      (fun u => (Turned s ch.toNat u ∧ DecodesDownTo s ch.toNat) ∧ (ch ≠ 0#2 → AtTurn (ch - 1) u))
      (fun u => ∃ ch cause pos off cut1, FirstFailure s ch cause pos off cut1 u) := by
  have hturn := planTurn_turnsTo hat
  have hnext := planTurn_safe hat
  by_cases hd : decodes (srcHeader s) ch
  case neg =>
    rw [turnOutcome_of_not_decodes ht.kept hd] at hturn
    obtain ⟨u, hgo, hk, htrunc, hpix⟩ := hturn
    rw [hgo] at hnext
    exact .inl ⟨u, hgo, ⟨ht.skip hk htrunc hpix hd, hbefore.next fun hd' => absurd hd' hd⟩, hnext⟩
  rw [turnOutcome_of_decodes ht.kept hd] at hturn
  cases hout : planeOf s ch with
  | done out cut1 cut2 =>
    rw [hout] at hturn
    obtain ⟨u, hgo, hk, htrunc, hp⟩ := hturn
    rw [hgo] at hnext
    exact .inl ⟨u, hgo, ⟨ht.decode hk htrunc hp hd hout, hbefore.next fun _ => ⟨_, _, _, hout⟩⟩, hnext⟩
  | failed cause pos off cut1 =>
    rw [hout] at hturn
    obtain ⟨u, hstop, hk, htrunc, -, herr, hstatus, hstage⟩ := hturn
    exact .inr ⟨u, hstop, _, _, _, _, _, ht.fail hbefore hd hout hk htrunc herr hstatus hstage⟩

/-- The plan decodes every plane, or ends the command in the error of the first that fails (R216, R256). -/
theorem planes_turned_or_fail (h : Decodable s) :
    (planes (acceptedState s)).Answers (fun _ => DecodesDownTo s 0)
      (fun u => ∃ ch cause pos off cut1, FirstFailure s ch cause pos off cut1 u) := by
  have hnone : DecodesDownTo s 4 := fun ch hle => absurd ch.isLt (by omega)
  have hall := (((planTurn_turned_or_fails (ch := 3#2) (turned_start s) hnone
      (planStart_atTurn (acceptedState_image h))).andThen
    fun _ ⟨⟨ht, hok⟩, hat⟩ => planTurn_turned_or_fails (ch := 2#2) ht hok (hat (by decide))).andThen
    fun _ ⟨⟨ht, hok⟩, hat⟩ => planTurn_turned_or_fails (ch := 1#2) ht hok (hat (by decide))).andThen
    fun _ ⟨⟨ht, hok⟩, hat⟩ => planTurn_turned_or_fails (ch := 0#2) ht hok (hat (by decide))
  exact hall.imp (fun ⟨t, hgo, ⟨_, hok⟩, _⟩ => ⟨t, hgo, hok⟩) id

/-- A plane that fails, after planes that all decode, is the one the command ends in. -/
theorem FirstFailure.unique {ch' : Chan} {cause cause' : ErrCause} {pos pos' : Nat} {off off' : Byte}
    {cut1 cut1' : Bool} (h : FirstFailure s ch' cause' pos' off' cut1' t) (hd : decodes (srcHeader s) ch)
    (hout : planeOf s ch = .failed cause pos off cut1) (hbefore : DecodesDownTo s (ch.toNat + 1)) :
    FirstFailure s ch cause pos off cut1 t := by
  have hsame : ch' = ch := by
    refine BitVec.eq_of_toNat_eq (Nat.le_antisymm (Nat.not_lt.1 fun hlt => ?_) (Nat.not_lt.1 fun hlt => ?_))
    · obtain ⟨_, _, _, hdone⟩ := hbefore ch' hlt h.present
      exact nomatch h.outcome.symm.trans hdone
    · obtain ⟨_, _, _, hdone⟩ := h.before ch hlt hd
      exact nomatch hout.symm.trans hdone
  subst hsame
  obtain ⟨rfl, rfl, rfl, rfl⟩ := PlaneOutcome.failed.inj (h.outcome.symm.trans hout)
  exact h

/-- A plane that fails, after planes that all decode, ends the plan in its error (R256, R259). -/
theorem planes_fail {cause : ErrCause} {pos : Nat} {off : Byte} {cut1 : Bool} (h : Decodable s)
    (hd : decodes (srcHeader s) ch) (hout : planeOf s ch = .failed cause pos off cut1)
    (hbefore : DecodesDownTo s (ch.toNat + 1)) :
    ∃ t, planes (acceptedState s) = .stop t ∧ FirstFailure s ch cause pos off cut1 t := by
  rcases planes_turned_or_fail h with ⟨t, -, hok⟩ | ⟨t, hstop, _, _, _, _, _, hfail⟩
  · obtain ⟨_, _, _, hdone⟩ := hok ch (Nat.zero_le _) hd
    exact nomatch hout.symm.trans hdone
  · exact ⟨t, hstop, hfail.unique hd hout hbefore⟩

end

/-- Settles O59: the header is accepted, and the plan ends in the error of the first plane that fails, which is the
given one. -/
theorem firstFailingPlaneEndsTheCommand : Obligations.FirstFailingPlaneEndsTheCommand := by
  intro s ch cause pos off cut1 hdec hd hout hearlier
  have hbefore : DecodesDownTo s (ch.toNat + 1) := fun ch' hlt => hearlier ch' (BitVec.lt_def.2 hlt)
  obtain ⟨t, hstop, hfail⟩ := planes_fail hdec hd hout hbefore
  have hnext : exec .seqDecode s = .next t := by
    rw [exec_seqDecode_of_decodable hdec, hstop, Flow.stop_andThen]
    rfl
  exact ⟨t, hnext, hfail.status, hfail.stage, hfail.err, hfail.kept.src, hfail.kept.hdr, hfail.kept.drv, hfail.flags,
    fun ch' => ⟨fun hlt => hfail.earlier ch' (BitVec.lt_def.1 hlt),
      fun hblank => hfail.later ch' (hblank.imp_left BitVec.lt_def.1)⟩⟩

end Sys2Proof.Machine

/-! PROOFS. The statements of 70_reset_and_hazards.md: RESET, the host's moves taken in turn, the idle engine, and the
outcome of a command as a function of the container alone. -/

namespace Sys2Proof.Machine

/-! ## RESET and the host's moves (O34, O43, O44) -/

/-- Settles O34: RESET's next state is the reset state with the capacities kept. -/
theorem resetClearsTheEngine : Obligations.ResetClearsTheEngine := fun _ =>
  ⟨_, rfl, rfl, rfl, rfl, rfl, rfl, rfl, rfl⟩

section
variable {s : State} {rest : List HostEvent}

/-- While no command is running a turn of the engine does nothing (R280, R281). -/
theorem engineStep_of_not_busy (h : s.status ≠ .busy) : engineStep s = .next s := if_neg h

theorem step_of_reset (h : s.host = .reset :: rest) : step s = exec .reset { s with host := rest } := by
  rw [step, machineStep, h]

theorem step_of_wait (h : s.host = .wait :: rest) : step s = engineStep { s with host := rest } := by
  rw [step, machineStep, h]

theorem step_of_load {bytes : List Byte} (h : s.host = .load bytes :: rest) (hidle : s.status ≠ .busy) :
    step s = exec (.load bytes) { s with host := rest } := by
  rw [step, machineStep, h]
  exact if_neg hidle

theorem step_of_start (h : s.host = .start :: rest) (hidle : s.status ≠ .busy) :
    step s = exec .start { s with host := rest } := by
  rw [step, machineStep, h]
  exact if_neg hidle

end

/-- Settles O43: with no move due the step is the engine's turn, and no command is running. -/
theorem idleEngineDoesNothing : Obligations.IdleEngineDoesNothing := fun _ hhost hidle =>
  (step_of_noMoveDue (.inl hhost)).trans (engineStep_of_not_busy hidle)

/-- Settles O44: each move at the head of the list; a LOAD or START that waits leaves the step to the engine. -/
theorem hostMovesAreTakenInTurn : Obligations.HostMovesAreTakenInTurn := by
  intro s rest
  refine ⟨step_of_reset, fun _ => step_of_load, step_of_start, fun h hidle => ?wait, fun h _ t ht => ?waitBusy,
    fun hbusy h => ?waiting⟩
  case wait => exact (step_of_wait h).trans (engineStep_of_not_busy (s := { s with host := rest }) hidle)
  case waitBusy => exact engineStep_host ((step_of_wait h).symm.trans ht)
  case waiting =>
    have hturn : step s = engineStep s := step_of_noMoveDue (.inr ⟨hbusy, rest, h⟩)
    have hwait : step { s with host := .wait :: s.host } = engineStep s :=
      step_of_wait (s := { s with host := .wait :: s.host }) rfl
    exact ⟨hturn.trans hwait.symm, fun t ht => engineStep_host (hturn.symm.trans ht)⟩

/-! ## The sub-header latches of two commands (R33, R46, O31) -/

/-- The sub-header latches and every mark of a written latch stay. -/
structure LatchesKept (s t : State) : Prop where
  sub : t.sub = s.sub
  marks : t.latched = s.latched

/-- Two commands that have written the same latches, and the same into each sub-header latch they have written: of what
stood in it before, neither has shown anything (R46). -/
structure SameLatches (s s' : State) : Prop where
  marks : s'.latched = s.latched
  lengths : s.latched.sub = true → s'.sub.hlen = s.sub.hlen ∧ s'.sub.packLen = s.sub.packLen
  words : s.latched.lzhdr = true → s'.sub.lzhdr0 = s.sub.lzhdr0 ∧ s'.sub.lzhdr1 = s.sub.lzhdr1

section
variable {s s' t t' : State} {range mid : List Byte}

theorem SameLatches.after (h : SameLatches s s') (hk : LatchesKept s t) (hk' : LatchesKept s' t') : SameLatches t t' where
  marks := by rw [hk.marks, hk'.marks, h.marks]
  lengths := by rw [hk.marks, hk.sub, hk'.sub]; exact h.lengths
  words := by rw [hk.marks, hk.sub, hk'.sub]; exact h.words

/-- SUBHDR.READ writes HLEN and PACKLEN from the record alone (R219). -/
theorem SameLatches.subLatch (h : SameLatches s s') (r : SubHeader) :
    SameLatches (Machine.subLatch r s) (Machine.subLatch r s') where
  marks := congrArg (fun l : LatchFlags => { l with sub := true }) h.marks
  lengths := fun _ => ⟨rfl, rfl⟩
  words := h.words

theorem lzInit_midHeader_latched (h : s.bytesAt .mid 0 (hlenOf s.sub) = some mid) :
    (Machine.lzInit (midHeader s) s).latched =
      if 8 ≤ mid.length then { s.latched with lzhdr := true } else s.latched := by
  rw [lzInit_latched, ← s.bytesAt_length _ h]

/-- LZ.INIT writes LZHDR0 and LZHDR1 from MID alone (R190). -/
theorem SameLatches.lzInit (h : SameLatches s s') (hmid : s.bytesAt .mid 0 (hlenOf s.sub) = some mid)
    (hmid' : s'.bytesAt .mid 0 (hlenOf s'.sub) = some mid) :
    SameLatches (Machine.lzInit (midHeader s) s) (Machine.lzInit (midHeader s') s') := by
  by_cases h8 : 8 ≤ mid.length
  · constructor <;> rw [lzInit_midHeader_latched hmid, if_pos h8]
    case marks => rw [lzInit_midHeader_latched hmid', if_pos h8, h.marks]
    all_goals rw [lzInit_midHeader_sub hmid, lzInit_midHeader_sub hmid', if_pos h8, if_pos h8]
    case lengths => exact h.lengths
    case words => exact fun _ => ⟨rfl, rfl⟩
  · have kept : ∀ {u : State}, u.bytesAt .mid 0 (hlenOf u.sub) = some mid →
        LatchesKept u (Machine.lzInit (midHeader u) u) := fun hu =>
      ⟨by rw [lzInit_midHeader_sub hu, if_neg h8], by rw [lzInit_midHeader_latched hu, if_neg h8]⟩
    exact h.after (kept hmid) (kept hmid')

/-- The frequencies are no latch (log 16). -/
theorem subTaken_latches (r : SubHeader) (s : State) : LatchesKept (Machine.subLatch r s) (subTaken r s) := ⟨rfl, rfl⟩

theorem StageOneDone.sameLatches (h : SameLatches s s') (hd : StageOneDone range s t) (hd' : StageOneDone range s' t') :
    SameLatches t t' :=
  (h.subLatch (subHeaderOf range)).after ⟨by rw [hd.rest], by rw [hd.rest]⟩ ⟨by rw [hd'.rest], by rw [hd'.rest]⟩

end

/-- Neither the piece `x` of pseudocode nor the end of the command in it writes a latch of `s`. -/
abbrev Flow.KeepsLatches (x : Flow) (s : State) : Prop := x.Post (LatchesKept s) (LatchesKept s) fun _ => True

/-- The fatal entry writes no latch, and nothing follows it (R256, R261). -/
theorem raise_latches (cause : ErrCause) (pos : Nat) (off : Byte) (s : State) (f : State → Flow) :
    ((raise cause pos off s).andThen f).KeepsLatches s := ⟨rfl, rfl⟩

/-- RLE.EXPAND writes no latch (R170 to R177). -/
theorem rleExpand_latches (sp : RunSource) (base budget : Nat) (s : State) :
    (rleExpand sp base budget s).KeepsLatches s := by
  refine Flow.Post.andThen (G := LatchesKept s) ((rleLoop_post _ _).mono (fun t ht => ?_) (fun _ hf => hf.elim)
    fun _ _ => trivial) fun t ht => ⟨?_, ?_⟩
  · exact ⟨by rw [ht.rest]; rfl, by rw [ht.rest]; rfl⟩
  · rw [rleEnd_sub, ht.sub]
  · rw [rleEnd_latched, ht.marks]

/-- LZ.EXPAND writes no latch after LZ.INIT (R190 to R198). -/
theorem lzExpand_latches (s : State) : (lzExpand s).KeepsLatches (lzInit (midHeader s) s) := by
  rw [lzExpand_eq]
  refine Flow.Post.andThen (G := LatchesKept (lzInit (midHeader s) s)) ((lzLoop_post _ _).mono (fun t ht => ?_)
    (fun t ⟨u, hu, _, hraise⟩ => ?_) fun _ _ => trivial) fun t ht => ⟨?_, ?_⟩
  · exact ⟨by rw [ht.rest], by rw [ht.rest]⟩
  · cases hraise
    exact ⟨by rw [hu.rest], by rw [hu.rest]⟩
  · rw [lzEnd_sub, ht.sub]
  · rw [lzEnd_latched, ht.marks]

/-- PIL.PLACE writes no latch (R242). -/
theorem pilPlace_latches (s : State) : (pilPlace s).KeepsLatches s :=
  (pilPlace_post s).mono (fun _ h => ⟨by rw [h.rest], by rw [h.rest]⟩) (fun _ hf => hf.elim) fun _ _ => trivial

/-- The ends of two pieces that write no latch. -/
theorem SameLatches.next {s s' t t' : State} {x y : Flow} (h : SameLatches s s') (hx : x.KeepsLatches s)
    (hy : y.KeepsLatches s') (ht : x.toOutcome = .next t) (ht' : y.toOutcome = .next t') : SameLatches t t' :=
  h.after (hx.next ht) (hy.next ht')

theorem decodePlane_rle {s : State} (h : s.hdr.variant = 0x01#8) :
    decodePlane s = rleExpand .src s.seq.poff s.seq.psize s := if_pos h

/-- A range too short for a sub-header (R219). -/
theorem stageOne_short {s : State} (h : s.seq.psize < 0x408) : stageOne s = raise .badSubHeader 0 0 s := by
  rw [stageOne, subhdrFetch_short h]
  rfl

section
variable {s s' t t' : State} {range : List Byte} (h : SameLatches s s') (hcap : s'.caps = s.caps)
  (hrange : s.bytesAt .src s.seq.poff s.seq.psize = some range)
  (hrange' : s'.bytesAt .src s'.seq.poff s'.seq.psize = some range)
include h hcap hrange hrange'

/-- Stage one over the same range, under the same MID_CAP, takes the same fatal entry in both commands, or is done in
both (R218, R219, R259 (c)). -/
theorem stageOne_together :
    (∃ cause u u', stageOne s = raise cause 0 0 u ∧ stageOne s' = raise cause 0 0 u' ∧ SameLatches u u') ∨
      ∃ c c', stageOne s = .go c ∧ stageOne s' = .go c' ∧ StageOneDone range s c ∧ StageOneDone range s' c' := by
  have hlen : range.length = s.seq.psize := s.bytesAt_length .src hrange
  have hlen' : range.length = s'.seq.psize := s'.bytesAt_length .src hrange'
  by_cases hshort : range.length < 0x408
  · exact .inl ⟨_, s, s', stageOne_short (hlen ▸ hshort), stageOne_short (hlen' ▸ hshort), h⟩
  have hsize : 0x408 ≤ s.seq.psize := hlen ▸ Nat.not_lt.1 hshort
  have hsize' : 0x408 ≤ s'.seq.psize := hlen' ▸ Nat.not_lt.1 hshort
  have hlatch := h.subLatch (subHeaderOf range)
  by_cases hbad : LengthBad (subHeaderOf range) s.caps.midCap
  · exact .inl ⟨_, _, _, stageOne_badLength hsize hrange hbad, stageOne_badLength hsize' hrange' (hcap ▸ hbad), hlatch⟩
  have hbad' : ¬ LengthBad (subHeaderOf range) s'.caps.midCap := hcap ▸ hbad
  by_cases htable : Buildable (subHeaderOf range).freqs
  case neg =>
    have hzero : ∀ i : Fin 256, (subHeaderOf range).freqs[i] = 0#32 := fun i => not_not.1 (not_exists.1 htable i)
    exact .inl ⟨_, _, _, stageOne_zeroTable hsize hrange hbad hzero, stageOne_zeroTable hsize' hrange' hbad' hzero,
      hlatch.after (subTaken_latches _ s) (subTaken_latches _ s')⟩
  obtain ⟨c, hone, hdone⟩ := stageOne_done hsize hrange hbad htable
  obtain ⟨c', hone', hdone'⟩ := stageOne_done hsize' hrange' hbad' htable
  exact .inr ⟨c, c', hone, hone', hdone, hdone'⟩

/-- DECODE_PLANE over the same range, under the same VARIANT and MID_CAP, writes the same latches and the same into
them (R218, R219). -/
theorem decodePlane_sameLatches (hv : s'.hdr.variant = s.hdr.variant) (ht : (decodePlane s).toOutcome = .next t)
    (ht' : (decodePlane s').toOutcome = .next t') : SameLatches t t' := by
  by_cases hrle : s.hdr.variant = 0x01#8
  · rw [decodePlane_rle hrle] at ht
    rw [decodePlane_rle (hv.trans hrle)] at ht'
    exact h.next (rleExpand_latches _ _ _ _) (rleExpand_latches _ _ _ _) ht ht'
  rw [decodePlane_huffman hrle] at ht
  rw [decodePlane_huffman (hv ▸ hrle), hv] at ht'
  rcases stageOne_together h hcap hrange hrange' with
    ⟨cause, u, u', hone, hone', hu⟩ | ⟨c, c', hone, hone', hdone, hdone'⟩
  · rw [hone] at ht
    rw [hone'] at ht'
    exact hu.next (raise_latches _ _ _ _ _) (raise_latches _ _ _ _ _) ht ht'
  · have hc := hdone.sameLatches h hdone'
    rw [hone, Flow.go_andThen] at ht
    rw [hone', Flow.go_andThen] at ht'
    by_cases hlz : s.hdr.variant = 0xA2#8
    · rw [if_pos hlz] at ht ht'
      exact (hc.lzInit hdone.bytesAt hdone'.bytesAt).next (lzExpand_latches _) (lzExpand_latches _) ht ht'
    · rw [if_neg hlz] at ht ht'
      exact hc.next (rleExpand_latches _ _ _ _) (rleExpand_latches _ _ _ _) ht ht'

end

/-- What any two ends of the pieces satisfy, the ends they come to together satisfy too. -/
theorem Flow.Both.and_next {x y : Flow} {G S R : State → State → Prop} (h : x.Both y G S)
    (hr : ∀ t u, x.toOutcome = .next t → y.toOutcome = .next u → R t u) :
    x.Both y (fun t u => G t u ∧ R t u) fun t u => S t u ∧ R t u := by
  rcases h with ⟨t, u, rfl, rfl, htu⟩ | ⟨t, u, rfl, rfl, htu⟩
  · exact .inl ⟨t, u, rfl, rfl, htu, hr t u rfl rfl⟩
  · exact .inr ⟨t, u, rfl, rfl, htu, hr t u rfl rfl⟩

theorem Flow.Both.mono {x y : Flow} {G G' S S' : State → State → Prop} (h : x.Both y G S)
    (hg : ∀ t u, G t u → G' t u) (hs : ∀ t u, S t u → S' t u) : x.Both y G' S' :=
  h.imp (fun ⟨t, u, ht, hu, htu⟩ => ⟨t, u, ht, hu, hg t u htu⟩) fun ⟨t, u, ht, hu, htu⟩ => ⟨t, u, ht, hu, hs t u htu⟩

section
variable {s s' t t' : State} {ch : Chan}

/-- Of a turn of the plan DECODE_PLANE alone writes sub-header latches (R216). -/
theorem planTurn_latches (hpres : planePresent s ch = true) (ht : (planTurn ch s).toOutcome = .next t) :
    ∃ c, (decodePlane (planeInit (choosePlane ch s))).toOutcome = .next c ∧ LatchesKept c t := by
  rw [planTurn_present hpres] at ht
  cases hdec : decodePlane (planeInit (choosePlane ch s)) with
  | go c =>
    rw [hdec, Flow.go_andThen] at ht
    refine ⟨c, rfl, Flow.Post.next ((pilPlace_latches c).andThen fun u hu => ?_) ht⟩
    exact ⟨hu.sub, hu.marks⟩
  | stop c =>
    rw [hdec] at ht
    cases ht
    exact ⟨t, rfl, rfl, rfl⟩
  | fault e => rw [hdec] at ht; cases ht
  | refuse r => rw [hdec] at ht; cases ht

/-- Two commands that have come equally far and written the same latches. -/
structure AlikeLatched (s s' : State) : Prop where
  alike : Alike s s'
  latches : SameLatches s s'

/-- The range in hand when DECODE_PLANE begins (R216, R217). -/
theorem AtTurn.bytesAt_planeInit (h : AtTurn ch s) :
    (planeInit (choosePlane ch s)).bytesAt .src s.seq.poff (planeSize s ch) = some (turnRange s ch) :=
  (State.bytesAt_congr (planeInit (choosePlane ch s)) s .src rfl _ _).trans h.bytesAt_range

theorem planTurn_sameLatches (h : AlikeAt ch s s') (hl : SameLatches s s') (ht : (planTurn ch s).toOutcome = .next t)
    (ht' : (planTurn ch s').toOutcome = .next t') : SameLatches t t' := by
  obtain ⟨ha, hs, hs'⟩ := h
  cases hpres : planePresent s ch with
  | false =>
    rw [planTurn_absent hpres] at ht
    rw [planTurn_absent ((ha.planePresent ch).trans hpres)] at ht'
    cases ht; cases ht'
    exact hl.after ⟨rfl, rfl⟩ ⟨rfl, rfl⟩
  | true =>
    obtain ⟨c, hc, hk⟩ := planTurn_latches hpres ht
    obtain ⟨c', hc', hk'⟩ := planTurn_latches ((ha.planePresent ch).trans hpres) ht'
    have hstart : SameLatches (planeInit (choosePlane ch s)) (planeInit (choosePlane ch s')) :=
      hl.after ⟨rfl, rfl⟩ ⟨rfl, rfl⟩
    exact (decodePlane_sameLatches hstart ha.caps hs.bytesAt_planeInit
      (hs'.bytesAt_planeInit.trans (congrArg some (ha.turnRange ch))) ha.hdr.variant hc hc').after hk hk'

/-- A turn of the plan looks at nothing in which they differ, and writes the same latches. -/
theorem planTurn_both_latched (h : AlikeAt ch s s') (hl : SameLatches s s') :
    (planTurn ch s).Both (planTurn ch s')
      (fun t t' => AlikeLatched t t' ∧ (ch ≠ 0#2 → AlikeAt (ch - 1) t t')) AlikeLatched :=
  ((planTurn_both h).and_next fun _ _ => planTurn_sameLatches h hl).mono
    (fun _ _ ⟨⟨ha, hat⟩, hl⟩ => ⟨⟨ha, hl⟩, hat⟩) fun _ _ ⟨ha, hl⟩ => ⟨ha, hl⟩

theorem planes_both_latched (h : AlikeLatched s s') (hs : ImageOk s) (hs' : ImageOk s') :
    (planes s).Both (planes s') AlikeLatched AlikeLatched := by
  obtain ⟨ha, hl⟩ := h
  have hstart : AlikeAt 3#2 (planStart s) (planStart s') :=
    ⟨⟨ha.hdr, ha.ranges, ha.drv, ha.caps, ha.trunc, ha.err, ha.status, ha.pix, ha.pixWf⟩, planStart_atTurn hs,
      planStart_atTurn hs'⟩
  have hall := (((planTurn_both_latched hstart (hl.after ⟨rfl, rfl⟩ ⟨rfl, rfl⟩)).andThen
    fun _ _ ⟨ht, hat⟩ => planTurn_both_latched (hat (by decide)) ht.latches).andThen
    fun _ _ ⟨ht, hat⟩ => planTurn_both_latched (hat (by decide)) ht.latches).andThen
    fun _ _ ⟨ht, hat⟩ => planTurn_both_latched (hat (by decide)) ht.latches
  exact hall.mono (fun _ _ ⟨ht, _⟩ => ht) fun _ _ ht => ht

theorem finish_both_latched (h : AlikeLatched s s') : (finish s).Both (finish s') AlikeLatched AlikeLatched := by
  obtain ⟨ha, hl⟩ := h
  exact .inr ⟨_, _, rfl, rfl, ⟨ha.hdr, ha.ranges, ha.drv, ha.caps, ha.trunc, ha.err, rfl, ha.pix, ha.pixWf⟩,
    hl.after ⟨rfl, rfl⟩ ⟨rfl, rfl⟩⟩

/-! ## What the host reads of two commands (R37, R230, O31) -/

/-- Two states of which the host reads the same: registers that no read shows may differ. -/
structure SameReads (s t : State) : Prop where
  status : t.status = s.status
  trunc : t.trunc = s.trunc
  err : t.err = s.err
  src : t.src = s.src
  latches : SameLatches s t
  hdr : headerLatched s = true → t.hdr = s.hdr
  drv : headerAccepted s = true → t.drv = s.drv
  pix : headerAccepted s = true → t.pix = s.pix

theorem SameReads.headerAccepted (h : SameReads s t) : Machine.headerAccepted t = Machine.headerAccepted s := by
  rw [Machine.headerAccepted, Machine.headerAccepted, h.status]

theorem SameReads.headerLatched (h : SameReads s t) : Machine.headerLatched t = Machine.headerLatched s := by
  rw [Machine.headerLatched, Machine.headerLatched, h.headerAccepted, h.status, h.latches.marks]

/-- When the host has a read depends on STATUS, and for a byte of PIX on the size of an accepted image (R230). -/
theorem SameReads.readAllowed (h : SameReads s t) (r : HostReg) : Machine.readAllowed r t = Machine.readAllowed r s := by
  cases r with
  | pix a =>
    by_cases hd : s.status = .done
    · have hacc := (headerAccepted_iff s).2 (.inl hd)
      rw [Machine.readAllowed, Machine.readAllowed, h.status, h.drv hacc]
    · rw [Machine.readAllowed, Machine.readAllowed, h.status, beq_false_of_ne hd, Bool.false_and, Bool.false_and]
  | _ => simp only [Machine.readAllowed, h.status]

/-- When a read is specified depends on STATUS and on the marks of the written latches (R37, R46). -/
theorem SameReads.readSpecified (h : SameReads s t) (r : HostReg) :
    Machine.readSpecified r t = Machine.readSpecified r s := by
  cases r <;>
    simp only [Machine.readSpecified, h.status, h.latches.marks, h.headerAccepted, h.headerLatched]

/-- A register whose value is specified holds the same. -/
theorem SameReads.regValue (h : SameReads s t) {r : HostReg} (hspec : Machine.readSpecified r s = true) :
    Machine.regValue r t = Machine.regValue r s := by
  cases r with
  | status => rw [Machine.regValue, Machine.regValue, h.status]
  | srcLen => rw [Machine.regValue, Machine.regValue, State.srcLen, State.srcLen, h.src]
  | trunc => rw [Machine.regValue, Machine.regValue, h.trunc]
  | errCause | errPlane | errPos | errOff => rw [Machine.regValue, Machine.regValue, h.err]
  | format | variant | screenW | screenH | bpp | left | right | top | bottom | aSize | rSize | gSize | bSize =>
    rw [Machine.regValue, Machine.regValue, h.hdr hspec]
  | width | height | n | alpha | bypp | pixFmt => rw [Machine.regValue, Machine.regValue, h.drv hspec]
  | hlen | packLen =>
    obtain ⟨hhlen, hpackLen⟩ := h.latches.lengths ((Bool.and_eq_true _ _).mp hspec).2
    simp only [Machine.regValue, hhlen, hpackLen]
  | lzhdr0 | lzhdr1 =>
    obtain ⟨hword0, hword1⟩ := h.latches.words ((Bool.and_eq_true _ _).mp hspec).2
    simp only [Machine.regValue, hword0, hword1]
  | pix a =>
    have hpix : t.pix = s.pix := h.pix ((headerAccepted_iff s).2 (.inl (eq_of_beq hspec)))
    have hbyte : t.byteAt .pix a = s.byteAt .pix a := congrArg (Memory.read · a) hpix
    simp only [Machine.regValue, hbyte]

/-- The host reads the same, number by number: an unspecified read looks at no state at all (log 23). -/
theorem SameReads.hostRead (h : SameReads s t) (k : Nat) (r : HostReg) :
    Machine.hostRead k r s = Machine.hostRead k r t := by
  rw [Machine.hostRead, Machine.hostRead, h.readAllowed, h.readSpecified]
  by_cases hspec : Machine.readSpecified r s = true
  · rw [if_pos hspec, if_pos hspec, h.regValue hspec]
  · rw [if_neg hspec, if_neg hspec]

/-! ## The outcome of a command (R282) -/

/-- Two engines that have just been started on the same container, with the same capacities (R210). -/
structure StartedOn (s t : State) : Prop where
  src : t.src = s.src
  caps : t.caps = s.caps
  status : t.status = s.status
  trunc : t.trunc = s.trunc
  err : t.err = s.err
  unwritten : s.latched = LatchFlags.clear ∧ t.latched = LatchFlags.clear

/-- START makes any two engines alike but for what it does not write (R210, R46). -/
theorem startedOn_of_start {s' t' : State} (hsrc : s.src = t.src) (hcaps : s.caps = t.caps)
    (hs : exec .start s = .next s') (ht : exec .start t = .next t') : StartedOn s' t' := by
  obtain ⟨-, rfl⟩ := start_next s s' hs
  obtain ⟨-, rfl⟩ := start_next t t' ht
  exact ⟨hsrc.symm, hcaps.symm, rfl, rfl, rfl, rfl, rfl⟩

theorem StartedOn.srcHeader (h : StartedOn s t) : Machine.srcHeader t = Machine.srcHeader s :=
  congrArg headerOf (State.paddedAt_congr t s .src h.src _ _)

theorem StartedOn.marks (h : StartedOn s t) : t.latched = s.latched := by
  obtain ⟨hs, ht⟩ := h.unwritten
  rw [hs, ht]

/-- Neither command has written a latch, so neither has written another than the other. -/
theorem StartedOn.sameLatches (h : StartedOn s t) : SameLatches s t := by
  obtain ⟨hs, -⟩ := h.unwritten
  exact ⟨h.marks, fun hsub => absurd (hs ▸ hsub) (by decide), fun hlzhdr => absurd (hs ▸ hlzhdr) (by decide)⟩

theorem StartedOn.decodable (h : StartedOn s t) (hd : Decodable s) : Decodable t where
  long := by rw [h.src]; exact hd.long
  accepted := by rw [h.srcHeader, h.src]; exact hd.accepted
  fits := by rw [h.srcHeader, h.caps]; exact hd.fits

/-- Both headers are rejected, and of the latches only the header's can be read (R252). -/
theorem StartedOn.rejected (h : StartedOn s t) (hrej : s.src.len < 0x20 ∨ ¬ Accepted (Machine.srcHeader s) s.src.len)
    (hs : exec .seqDecode s = .next s') : ∃ t', exec .seqDecode t = .next t' ∧ SameReads s' t' := by
  have hrej' : t.src.len < 0x20 ∨ ¬ Accepted (Machine.srcHeader t) t.src.len := by rw [h.srcHeader, h.src]; exact hrej
  rw [seqDecodeRejectsOtherFormats s hrej] at hs
  refine ⟨_, seqDecodeRejectsOtherFormats t hrej', ?_⟩
  cases hs
  obtain ⟨hmarks, hlengths, hwords⟩ := h.sameLatches
  rw [h.srcHeader, h.src, hmarks]
  by_cases hlong : 0x20 ≤ s.src.len
  · simp only [if_pos hlong]
    exact ⟨rfl, h.trunc, h.err, rfl, ⟨rfl, hlengths, hwords⟩, fun _ => rfl, (nomatch ·), (nomatch ·)⟩
  · simp only [if_neg hlong]
    refine ⟨rfl, h.trunc, h.err, rfl, ⟨rfl, hlengths, hwords⟩, fun hlat => ?_, (nomatch ·), (nomatch ·)⟩
    have hclear : s.latched.hdr = true := hlat
    exact absurd (h.unwritten.1 ▸ hclear) (by decide)

/-- The state in which the plan starts is the container's (R211 to R215). -/
theorem StartedOn.accepted (h : StartedOn s t) : AlikeLatched (acceptedState s) (acceptedState t) where
  alike := acceptedState_alike (by rw [h.srcHeader]; rfl) (fun a _ => by rw [h.src]) h.caps h.trunc h.err h.status
  latches :=
    have hl := h.sameLatches
    ⟨congrArg (fun l : LatchFlags => { l with hdr := true }) hl.marks, hl.lengths, hl.words⟩

/-- What a command on a decodable container leaves of SRC and of the header (R41, R211). -/
theorem Decodable.src_hdr (hd : Decodable s) (hs : exec .seqDecode s = .next s') :
    s'.src = s.src ∧ s'.hdr = Machine.srcHeader s := by
  obtain ⟨u, hu, -, -, hsrc, hhdr, -⟩ := seqDecodeAlwaysEnds s hd.long hd.accepted hd.fits
  cases hs.symm.trans hu
  exact ⟨hsrc, hhdr⟩

/-- Both headers are accepted, and the four turns write the same. -/
theorem StartedOn.decoded (h : StartedOn s t) (hd : Decodable s) (hs : exec .seqDecode s = .next s') :
    ∃ t', exec .seqDecode t = .next t' ∧ SameReads s' t' := by
  have hd' := h.decodable hd
  have hboth : ((planes (acceptedState s)).andThen finish).Both ((planes (acceptedState t)).andThen finish)
      AlikeLatched AlikeLatched :=
    (planes_both_latched h.accepted (acceptedState_image hd) (acceptedState_image hd')).andThen
      fun _ _ => finish_both_latched
  obtain ⟨t', ht, ha, hl⟩ := hboth.next ((exec_seqDecode_of_decodable hd).symm.trans hs)
  have hnext : exec .seqDecode t = .next t' := (exec_seqDecode_of_decodable hd').trans ht
  obtain ⟨hsrc, hhdr⟩ := hd.src_hdr hs
  obtain ⟨hsrc', hhdr'⟩ := hd'.src_hdr hnext
  exact ⟨t', hnext, ha.status, ha.trunc, ha.err, by rw [hsrc, hsrc', h.src], hl,
    fun _ => by rw [hhdr, hhdr', h.srcHeader], fun _ => ha.drv, fun _ => ha.pix⟩

/-- From two engines started on the same container SEQ.DECODE shows the host the same (R282). -/
theorem StartedOn.seqDecode (h : StartedOn s t) (hs : exec .seqDecode s = .next s') :
    ∃ t', exec .seqDecode t = .next t' ∧ SameReads s' t' := by
  by_cases hlong : 0x20 ≤ s.src.len
  case neg => exact h.rejected (.inl (Nat.not_le.1 hlong)) hs
  by_cases hacc : Accepted (Machine.srcHeader s) s.src.len
  case neg => exact h.rejected (.inr hacc) hs
  refine h.decoded ⟨hlong, hacc, fun c hc => Nat.not_lt.1 fun hlt => ?_⟩ hs
  rw [imageAbovePlaneCapIsRefused s c hlong hacc hc hlt] at hs
  cases hs

end

/-- Settles O31: two started engines differ only in what no rule reads before it writes it, and the commands they run
end with the same in everything the host can see. -/
theorem outcomeDependsOnTheContainerAlone : Obligations.OutcomeDependsOnTheContainerAlone := by
  intro s t s1 t1 s2 hsrc hcaps hs ht hdec
  obtain ⟨t2, hdec', hreads⟩ := (startedOn_of_start hsrc hcaps hs ht).seqDecode hdec
  exact ⟨t2, hdec', hreads.hostRead⟩

end Sys2Proof.Machine
